-- ==== Sys2Proof/Word.lean ====
section
/-! DEFINITION. The word types of the JKR codec core (rules R8, R9, R13). -/

namespace Sys2Proof

/-- `u8` of rule R8: bits 7 (most significant) down to 0 (rule R9). -/
abbrev Byte := BitVec 8

/-- `u16`, and the bit pattern of an `i16` (rule R8). -/
abbrev Half := BitVec 16

/-- `u32` (rule R8). -/
abbrev Word := BitVec 32

end Sys2Proof
end

