-- ==== Sys2Proof/Config.lean ====
section
/-! DEFINITION. The constants of rule R7, its open parameters, and the free values. -/

namespace Sys2Proof.Config

/-- `MAGIC` (rule R7): OPEN, a parameter of the model with no value (log 4). -/
opaque magic : Word

/-- `VERSION` (rule R7): OPEN, a parameter of the model with no value (log 4). -/
opaque version : Half

/-- A free value of `w` bits: what a register holds where rule R35 says "unspecified" (log 8). The argument is
the model's counter of free values, so that two draws are unrelated. -/
opaque freeBits : (w : Nat) → Nat → BitVec w

/-- A free bit sequence: what an entry of CODE holds where rule R35 says "unspecified" (log 8). -/
opaque freeCode : Nat → List Bool

/-- `WIN_SIZE` (rule R7). -/
def winSize : Nat := 8192

/-- `LEN_MIN` and `LEN_MAX` (rule R7): the length range of one reference token. -/
def lenMin : Nat := 3
/-- `LEN_MAX` (rule R7). -/
def lenMax : Nat := 280

/-- `A_LEN_BASE` (rule R7). -/
def aLenBase : Nat := 3
/-- `B_LEN_BASE` (rule R7). -/
def bLenBase : Nat := 2
/-- `C_LEN_BASE` (rule R7). -/
def cLenBase : Nat := 10
/-- `E_LEN_BASE` (rule R7). -/
def eLenBase : Nat := 0x1A
/-- `D_RUN_BASE` (rule R7). -/
def dRunBase : Nat := 0x1B
/-- `D_ESCAPE` (rule R7). -/
def dEscape : Byte := 0xFF

/-- `HT_LEAF_LIMIT` (rule R7). -/
def htLeafLimit : Nat := 0x100
/-- `HT_INDEX_BIAS` (rule R7). -/
def htIndexBias : Nat := 0x200
/-- The most entries any node value can address (rule R64). -/
def htMaxEntries : Nat := 0xFE00

/-- The size of PFIFO (rules R60, R67). -/
def pfifoSize : Nat := 8

/-- `HDR_LEN` (rule R7). -/
def hdrLen : Nat := 16
/-- `SIZE_MAX` (rule R7). -/
def sizeMax : Nat := 0xFFFFFFFF

end Sys2Proof.Config
end

