-- ==== Sys2Proof/Syntax.lean ====
section
/-! DEFINITION. The instructions of the JKR codec core: one constructor per row of the opcode table. -/

namespace Sys2Proof

/-- The instructions at the core's three levels (section 0 of `30_encoding.md`): the commands and their data
paths, the LZ77 tokens, the Huffman table words. -/
inductive Instr where
  /-- DECOMPRESS (rules R112, R256). -/
  | decompress
  /-- COMPRESS with the 16-bit algorithm id of `CTRL[31:16]` (rules R112, R262). -/
  | compress (alg : Half)
  /-- ENC.RAW (rule R263). -/
  | encRaw
  /-- ENC.HFIRW (rule R265). -/
  | encHfirw
  /-- ENC.LZ (rule R264). -/
  | encLz
  /-- ENC.HFI (rule R266). -/
  | encHfi
  /-- DEC.RAW (rule R258). -/
  | decRaw
  /-- DEC.HFIRW (rule R260). -/
  | decHfirw
  /-- DEC.LZ (rule R259). -/
  | decLz
  /-- DEC.HFI (rule R261). -/
  | decHfi
  /-- LIT with the literal byte `V` (rules R98, R167). -/
  | lit (v : Byte)
  /-- REF.A with the length field `L` and the stored offset `O` (rules R99, R168). -/
  | refA (l : BitVec 2) (o : Byte)
  /-- REF.B with the length field `L = hi[7:5]` and the stored offset `O` (rules R100, R169). -/
  | refB (l : BitVec 3) (o : BitVec 13)
  /-- REF.C with the stored offset `O` and the length field `N` (rules R101, R170). -/
  | refC (o : BitVec 13) (n : BitVec 4)
  /-- RUN.D with the run-length field `O` (rules R102, R171); its data bytes are fetched while it executes. -/
  | runD (o : BitVec 13)
  /-- REF.E with the stored offset `O` and the length byte `T` (rules R103, R172). -/
  | refE (o : BitVec 13) (t : Byte)
  /-- HT.LEAF with the decoded byte `B` (rules R94, R218). -/
  | htLeaf (b : Byte)
  /-- HT.NODE with the node number `N` (rules R94, R217). -/
  | htNode (n : BitVec 15)
  /-- HT.INVALID: a negative table word with low bits `X` (rules R94, R220). -/
  | htInvalid (x : BitVec 15)
  deriving DecidableEq, Repr

end Sys2Proof
end

