-- ==== Sys2Proof/WellFormed.lean ====
section
/-! DEFINITION. Which terms of `Instr` an encoding exists for (rules R98 to R103, R94). -/

namespace Sys2Proof

/-- The side conditions of the encodings: REF.B has `LLL != 000` (rule R100), REF.E has `TTTTTTTT != 11111111`
(rule R103), HT.NODE has a value of at least 0x100 (rule R94). -/
def Instr.wellFormed : Instr → Bool
  | .refB l _ => l != 0
  | .refE _ t => t != Config.dEscape
  | .htNode n => decide (Config.htLeafLimit ≤ n.toNat)
  | .decompress | .compress _ | .encRaw | .encHfirw | .encLz | .encHfi => true
  | .decRaw | .decHfirw | .decLz | .decHfi => true
  | .lit _ | .refA _ _ | .refC _ _ | .runD _ | .htLeaf _ | .htInvalid _ => true

end Sys2Proof
end

