-- ==== Sys2Proof/Decode.lean ====
section
/-! DEFINITION. Byte order, bit order, the decoder of every instruction format and the encoder
(`30_encoding.md`, rules R68 to R70, R90 to R112, R145, R148, R166). -/

namespace Sys2Proof

/-! ### Byte order (rule R68) -/

/-- `le16(b0, b1) = b0 + 256*b1` (rule R10). -/
def le16 (b0 b1 : Byte) : Half := b1 ++ b0

/-- `le32(b0, b1, b2, b3)` (rule R10). -/
def le32 (b0 b1 b2 b3 : Byte) : Word := b3 ++ b2 ++ b1 ++ b0

/-- `le16bytes(v)` (rule R136): least significant byte first. -/
def le16Bytes (v : Half) : List Byte := [v.extractLsb' 0 8, v.extractLsb' 8 8]

/-- `le32bytes(v)` (rule R136): least significant byte first. -/
def le32Bytes (v : Word) : List Byte :=
  [v.extractLsb' 0 8, v.extractLsb' 8 8, v.extractLsb' 16 8, v.extractLsb' 24 8]

/-! ### The reference word (rule R104) -/

/-- `lenf = (hi & 0xE0) >> 5`. -/
def lenField (hi : Byte) : BitVec 3 := hi.extractLsb' 5 3

/-- `off = ((hi & 0x1F) << 8) | lo`. -/
def offField (hi lo : Byte) : BitVec 13 := hi.extractLsb' 0 5 ++ lo

/-- The byte `hi` with the given length field and stored offset. -/
def refHi (l : BitVec 3) (o : BitVec 13) : Byte := l ++ o.extractLsb' 8 5

/-- The byte `lo` of a stored offset. -/
def refLo (o : BitVec 13) : Byte := o.extractLsb' 0 8

/-! ### Why a decoder rejects -/

/-- The decoder's rejections, by name. -/
inductive DecodeError where
  /-- Fewer bytes than the format needs. -/
  | tooShort
  /-- A CTRL word whose `start` bit is 0 starts no command (rule R22). -/
  | notStarted
  /-- The algorithm id is none of 0, 2, 3, 4 (rules R92, R134, R291). -/
  | unsupportedAlgorithm (id : Half)
  /-- A CTRL word with `op = 0` selects no encoder (rule R112). -/
  | notCompress
  deriving DecidableEq, Repr

/-! ### The bit reader (rules R145, R148) -/

/-- RDBIT in its generic form (rule R145): `get` and `set` reach the cursor `(cur, rem)` inside a state, `fetch`
delivers the next byte. A byte is fetched only when no bit is left, and its bit 7 comes first. -/
def rdBitWith {σ ε : Type} (get : σ → Byte × BitVec 3) (set : Byte → BitVec 3 → σ → σ)
    (fetch : σ → Except ε (Byte × σ)) (s : σ) : Except ε (Bool × σ) :=
  if (get s).2 = 0 then
    match fetch s with
    | .ok (b, s') => .ok (b.getLsbD 7, set b 7 s')
    | .error e => .error e
  else
    .ok ((get s).1.getLsbD ((get s).2.toNat - 1), set (get s).1 ((get s).2 - 1) s)

/-- RDBITS(k) (rule R148): the first bit read is the most significant bit of the result. `v` is the value so far. -/
def rdBitsWith {σ ε : Type} {w : Nat} (rdBit : σ → Except ε (Bool × σ)) :
    Nat → BitVec w → σ → Except ε (BitVec w × σ)
  | 0, v, s => .ok (v, s)
  | k + 1, v, s => do
    let (b, s) ← rdBit s
    rdBitsWith rdBit k ((v <<< 1) ||| (BitVec.ofBool b).setWidth w) s

/-! ### Tokens (rules R97, R166, R173) -/

/-- What LZ.TOKEN takes its items from, and where it latches the bytes of the reference word. The machine gives
its byte source and its registers `hi`, `lo`, `lenf`, `off`, `tmp`; the decoder of plain bytes latches nothing. -/
structure TokenSource (σ ε : Type) where
  rdBit : σ → Except ε (Bool × σ)
  rdByte : σ → Except ε (Byte × σ)
  latchHi : Byte → σ → σ
  latchLo : Byte → Byte → σ → σ
  latchTmp : Byte → σ → σ

/-- LZ.TOKEN (rule R166): consumes the items of one token in the order of rule R97 and answers which token it is.
The data bytes of RUN.D are left to its execution (rule R171). -/
def readToken {σ ε : Type} (src : TokenSource σ ε) (s : σ) : Except ε (Instr × σ) := do
  let (b0, s) ← src.rdBit s
  if b0 = false then
    let (v, s) ← src.rdByte s
    pure (.lit v, s)
  else
    let (b1, s) ← src.rdBit s
    if b1 = false then
      let (l, s) ← rdBitsWith src.rdBit 2 (0 : BitVec 2) s
      let (o, s) ← src.rdByte s
      pure (.refA l o, s)
    else
      let (hi, s) ← src.rdByte s
      let s := src.latchHi hi s
      let (lo, s) ← src.rdByte s
      let s := src.latchLo hi lo s
      if lenField hi ≠ 0 then
        pure (.refB (lenField hi) (offField hi lo), s)
      else
        let (b2, s) ← src.rdBit s
        if b2 = false then
          let (n, s) ← rdBitsWith src.rdBit 4 (0 : BitVec 4) s
          pure (.refC (offField hi lo) n, s)
        else
          let (t, s) ← src.rdByte s
          let s := src.latchTmp t s
          if t = Config.dEscape then pure (.runD (offField hi lo), s)
          else pure (.refE (offField hi lo) t, s)

/-- A position in a plain LZ77 stream: the bytes not yet fetched and the bit cursor (rule R25). -/
structure StreamPos where
  bytes : List Byte
  cur : Byte
  rem : BitVec 3
  deriving DecidableEq, Repr

/-- The position at the start of a stream: nothing fetched (rule R25). -/
def StreamPos.start (bytes : List Byte) : StreamPos := { bytes := bytes, cur := 0, rem := 0 }

/-- The next byte of a plain stream. -/
def StreamPos.rdByte (p : StreamPos) : Except DecodeError (Byte × StreamPos) :=
  match p.bytes with
  | [] => .error .tooShort
  | b :: bs => .ok (b, { p with bytes := bs })

/-- The next control bit of a plain stream (rule R145). -/
def StreamPos.rdBit (p : StreamPos) : Except DecodeError (Bool × StreamPos) :=
  rdBitWith (fun q => (q.cur, q.rem)) (fun c r q => { q with cur := c, rem := r }) StreamPos.rdByte p

/-- Plain bytes as a source of token items. -/
def streamSource : TokenSource StreamPos DecodeError where
  rdBit := StreamPos.rdBit
  rdByte := StreamPos.rdByte
  latchHi := fun _ p => p
  latchLo := fun _ _ p => p
  latchTmp := fun _ p => p

/-- The token at a position of a plain stream, and the position after it. -/
def decodeToken (p : StreamPos) : Except DecodeError (Instr × StreamPos) := readToken streamSource p

/-! ### Commands, data paths and table words (rules R92, R94, R112) -/

/-- What the host's write of a 32-bit value to CTRL starts (rule R112): `start` is bit 0, `op` bit 1, `alg` bits
31 to 16; bits 15 to 2 are ignored (rule R22). -/
def decodeCtrl (w : Word) : Except DecodeError Instr :=
  if w.getLsbD 0 = false then .error .notStarted
  else if w.getLsbD 1 = false then .ok .decompress
  else .ok (.compress (w.extractLsb' 16 16))

/-- Which encoder the algorithm id of a COMPRESS selects (rule R92). -/
def decodeEncAlg (id : Half) : Except DecodeError Instr :=
  if id = 0 then .ok .encRaw
  else if id = 2 then .ok .encHfirw
  else if id = 3 then .ok .encLz
  else if id = 4 then .ok .encHfi
  else .error (.unsupportedAlgorithm id)

/-- Which ENC.* row the CTRL word of a running COMPRESS selects (rules R92, R112, R262). -/
def decodeEncSelect (w : Word) : Except DecodeError Instr :=
  if w.getLsbD 0 = false then .error .notStarted
  else if w.getLsbD 1 = false then .error .notCompress
  else decodeEncAlg (w.extractLsb' 16 16)

/-- Which DEC.* row the header's `algorithm` field selects (rules R92, R256). -/
def decodeHdrAlg (id : Half) : Except DecodeError Instr :=
  if id = 0 then .ok .decRaw
  else if id = 2 then .ok .decHfirw
  else if id = 3 then .ok .decLz
  else if id = 4 then .ok .decHfi
  else .error (.unsupportedAlgorithm id)

/-- The kind of a table word (rule R94); every 16-bit word has one. -/
def decodeHtWord (w : Half) : Instr :=
  if w.msb then .htInvalid (w.extractLsb' 0 15)
  else if w.toNat < Config.htLeafLimit then .htLeaf (w.extractLsb' 0 8)
  else .htNode (w.extractLsb' 0 15)

/-! ### Decoding bytes -/

/-- The contexts in which the sequencer meets an instruction: which format the bytes in front of it have. -/
inductive Format where
  /-- The host's write to CTRL (rule R112). -/
  | ctrlWrite
  /-- The CTRL word of a running COMPRESS, read for its encoder (rule R262). -/
  | encSelect
  /-- The header's `algorithm` field of a running DECOMPRESS (rule R256). -/
  | hdrAlg
  /-- An LZ77 token stream (rule R96). -/
  | lzToken
  /-- A Huffman table word (rule R94). -/
  | htWord
  deriving DecidableEq, Repr

/-- The format in which an instruction is encoded. -/
def Instr.format : Instr → Format
  | .decompress | .compress _ => .ctrlWrite
  | .encRaw | .encHfirw | .encLz | .encHfi => .encSelect
  | .decRaw | .decHfirw | .decLz | .decHfi => .hdrAlg
  | .lit _ | .refA _ _ | .refB _ _ | .refC _ _ | .runD _ | .refE _ _ => .lzToken
  | .htLeaf _ | .htNode _ | .htInvalid _ => .htWord

/-- A 32-bit value from its four bytes in memory order (rule R68; CTRL's byte order: log 22). -/
def word32 : List Byte → Except DecodeError Word
  | b0 :: b1 :: b2 :: b3 :: _ => .ok (le32 b0 b1 b2 b3)
  | _ => .error .tooShort

/-- A 16-bit value from its two bytes in memory order (rule R68). -/
def word16 : List Byte → Except DecodeError Half
  | b0 :: b1 :: _ => .ok (le16 b0 b1)
  | _ => .error .tooShort

/-- The decoder: the instruction that the bytes of a format begin with, or a rejection by name. -/
def decode (f : Format) (bytes : List Byte) : Except DecodeError Instr :=
  match f with
  | .ctrlWrite => word32 bytes >>= decodeCtrl
  | .encSelect => word32 bytes >>= decodeEncSelect
  | .hdrAlg => word16 bytes >>= decodeHdrAlg
  | .lzToken => (decodeToken (StreamPos.start bytes)).map Prod.fst
  | .htWord => (word16 bytes).map decodeHtWord

/-! ### Encoding -/

/-- An item of a token (rule R96): a control bit or a payload byte. -/
inductive Item where
  | control (b : Bool)
  | payload (v : Byte)
  deriving DecidableEq, Repr

/-- The `w` bits of a field as control bits, most significant first (rules R69, R97). -/
def fieldItems {w : Nat} (v : BitVec w) : List Item :=
  (List.range w).map fun i => .control (v.getLsbD (w - 1 - i))

/-- The two payload bytes of a reference word, `hi` then `lo` (rules R70, R104). -/
def refWordItems (l : BitVec 3) (o : BitVec 13) : List Item :=
  [.payload (refHi l o), .payload (refLo o)]

/-- The items of a token in the order of rule R97 (rules R98 to R103). RUN.D's items stop before its data bytes.
An instruction that is no token has none. -/
def Instr.items : Instr → List Item
  | .lit v => [.control false, .payload v]
  | .refA l o => [.control true, .control false] ++ fieldItems l ++ [.payload o]
  | .refB l o => [.control true, .control true] ++ refWordItems l o
  | .refC o n => [.control true, .control true] ++ refWordItems 0 o ++ [.control false] ++ fieldItems n
  | .runD o => [.control true, .control true] ++ refWordItems 0 o ++ [.control true, .payload Config.dEscape]
  | .refE o t => [.control true, .control true] ++ refWordItems 0 o ++ [.control true, .payload t]
  | .decompress | .compress _ | .encRaw | .encHfirw | .encLz | .encHfi => []
  | .decRaw | .decHfirw | .decLz | .decHfi => []
  | .htLeaf _ | .htNode _ | .htInvalid _ => []

/-- Shifts control bits into an accumulator, the first bit ending up most significant (rule R152). -/
def pushBit (acc : Byte) (b : Bool) : Byte := (acc <<< 1) ||| (BitVec.ofBool b).setWidth 8

/-- The flag byte of a group of at most eight control bits: the first in bit 7, missing low bits 0 (rule R96). -/
def flagByte (bits : List Bool) : Byte := (bits.foldl pushBit 0) <<< (8 - bits.length)

/-- The serialization of rule R96 with an open group: its control bits and the payload bytes attributed to it.
A group is closed by the ninth control bit or by the end. -/
def frameItems : List Item → List Bool → List Byte → List Byte
  | [], bits, pay => if bits = [] then [] else flagByte bits :: pay
  | .control b :: rest, bits, pay =>
    if bits.length = 8 then flagByte bits :: (pay ++ frameItems rest [b] [])
    else frameItems rest (bits ++ [b]) pay
  | .payload v :: rest, bits, pay => frameItems rest bits (pay ++ [v])

/-- The LZ77 stream of a token sequence (rule R96). -/
def lzStream (tokens : List Instr) : List Byte := frameItems (tokens.flatMap Instr.items) [] []

/-- The bytes of a CTRL word with `start = 1` (rules R22, R112). -/
def ctrlBytes (op : Bool) (alg : Half) : List Byte :=
  le32Bytes (alg ++ (0 : BitVec 14) ++ BitVec.ofBool op ++ (1 : BitVec 1))

/-- The encoder: the bytes of an instruction, reserved bits 0. A token stands at the start of a stream, its flag
byte padded with 0 bits; RUN.D without its data bytes. -/
def encode : Instr → List Byte
  | .decompress => ctrlBytes false 0
  | .compress alg => ctrlBytes true alg
  | .encRaw => ctrlBytes true 0
  | .encHfirw => ctrlBytes true 2
  | .encLz => ctrlBytes true 3
  | .encHfi => ctrlBytes true 4
  | .decRaw => le16Bytes 0
  | .decHfirw => le16Bytes 2
  | .decLz => le16Bytes 3
  | .decHfi => le16Bytes 4
  | .lit v => lzStream [.lit v]
  | .refA l o => lzStream [.refA l o]
  | .refB l o => lzStream [.refB l o]
  | .refC o n => lzStream [.refC o n]
  | .runD o => lzStream [.runD o]
  | .refE o t => lzStream [.refE o t]
  | .htLeaf b => le16Bytes (b.setWidth 16)
  | .htNode n => le16Bytes (n.setWidth 16)
  | .htInvalid x => le16Bytes ((1 : BitVec 1) ++ x)

/-! ### The opcode table's numbering (log 20) -/

/-- The low `n` bytes of a number, least significant first. -/
def natBytes : Nat → Nat → List Byte
  | 0, _ => []
  | n + 1, w => BitVec.ofNat 8 w :: natBytes n (w / 256)

/-- Whether a 32-bit number has the fixed bits that the table gives the item string of REF.C (control bits 30 and
28 are 1, bits 26 to 24 are `hi[7:5] = 0`, control bit 8 is 0). -/
def isRefCRow (w : Word) : Bool :=
  w.getLsbD 30 && w.getLsbD 28 && (w.extractLsb' 24 3 == 0) && !w.getLsbD 8

/-- The stream bytes of the table's 32-bit reading of REF.C, whose item letters take bits of their own: control
bits 30, 28, 8, 6, 4, 2, 0 make the flag byte, bits 26 to 19 are `hi`, bits 17 to 10 are `lo`. -/
def refCRowBytes (w : Word) : List Byte :=
  [flagByte ([30, 28, 8, 6, 4, 2, 0].map w.getLsbD), w.extractLsb' 19 8, w.extractLsb' 10 8]

/-- Which format a number of the table stands in, and its bytes as the hardware stores them. The table gives no
format with the bits, so 32-bit numbers with `start = 1` are CTRL words (for a legal `alg` with `op = 1` the ENC.*
row, the more specific one), 16-bit numbers 0, 2, 3, 4 are header algorithm ids and all others table words; every
other width is the bytes of a token stream. -/
def tableLayout (nbits w : Nat) : Format × List Byte :=
  if nbits = 32 then
    let v := BitVec.ofNat 32 w
    if isRefCRow v && (!v.getLsbD 0 || v.extractLsb' 2 14 != 0) then (.lzToken, refCRowBytes v)
    else match decodeEncSelect v with
      | .ok _ => (.encSelect, natBytes 4 w)
      | .error _ => (.ctrlWrite, natBytes 4 w)
  else if nbits = 16 then
    match decodeHdrAlg (BitVec.ofNat 16 w) with
    | .ok _ => (.hdrAlg, natBytes 2 w)
    | .error _ => (.htWord, natBytes 2 w)
  else (.lzToken, natBytes ((nbits + 7) / 8 + 5) w)

/-- The instruction the decoder reads from a number of the opcode table. -/
def decodeTableWord (nbits w : Nat) : Option Instr :=
  match decode (tableLayout nbits w).1 (tableLayout nbits w).2 with
  | .ok i => some i
  | .error _ => none

end Sys2Proof
end

