-- ==== Sys2Proof/Machine/State.lean ====
section
/-! DEFINITION. The state of the JKR codec core (`10_state.md`, `20_memory.md`), the reasons a step can stop, and
the state after reset (rules R35, R320). -/

namespace Sys2Proof.Machine

/-- `STATUS.state` (rule R22); the values 5 to 7 never occur. -/
inductive Status where
  | idle
  | busy
  | done
  | noMatch
  | fault
  deriving DecidableEq, Repr

/-- The core's faults (rule R281). They are exceptions the core takes (rule R283), not stops of the model. -/
inductive CoreFault where
  /-- Truncated input (rule R285). -/
  | eTrunc
  /-- Unsupported algorithm id (rule R286). -/
  | eAlg
  /-- A reference beyond the bytes produced so far (rule R287). -/
  | eBadref
  /-- A token that would pass `dsize` (rule R288). -/
  | eOverrun
  /-- A Huffman child index outside the table (rule R289). -/
  | eHtIndex
  /-- A negative table word (rule R290). -/
  | eHtEntry
  /-- `data_offset` out of range (rule R292). -/
  | eHdr
  /-- COMPRESS of more than `2^32 - 1` bytes (rule R291). -/
  | eSize
  deriving DecidableEq, Repr

/-- The element memories that a rule reads (rule R60), and the node paths of rule R241. -/
inductive Space where
  | inp
  | win
  | htab
  | mid
  | code
  | path
  deriving DecidableEq, Repr

/-- Why the model stops. -/
inductive Fault where
  /-- Raised by every read of a memory element that nothing has written (rule R35: such a read "must be
  impossible by the rules ... or must fault"; log 6). Safe: no value is invented. -/
  | readUnwritten (m : Space) (index : Nat)
  /-- Raised by the Huffman descent if it outlives the bits of its bitstream, which rule R222 excludes (log 23).
  Safe: it is never reached. -/
  | descentBound
  deriving DecidableEq, Repr

/-- What the model refuses. -/
inductive Refusal where
  /-- Raised by `exec` for an instruction that has no meaning yet. Safe. -/
  | notModelled (mnemonic : String)
  /-- Raised when the host writes IN, IN_LEN or CTRL without `start`, or reads OUT or OUT_LEN, while the core is
  BUSY (rule R331: "a model should not define the result"). Safe. -/
  | hostAccessWhileBusy
  /-- Raised when the host reads a byte of OUT at or beyond OUT_LEN (rule R35: "the host reads only below
  OUT_LEN"), or a register that does not exist. Safe. -/
  | hostReadOutOfRange
  /-- Raised by LZ.SELECT outside its precondition, which rule R202 says to refuse; unreachable. Safe. -/
  | selectOutOfRange
  deriving DecidableEq, Repr

/-- An action of the host (rules R322, R338) or of the reset line (rule R320). -/
inductive HostOp where
  /-- Write one byte of IN. -/
  | writeIn (addr : Nat) (b : Byte)
  /-- Write IN_LEN (CR1). -/
  | writeInLen (n : Nat)
  /-- Write CTRL (CR0). -/
  | writeCtrl (w : Word)
  /-- Poll STATUS until the core is not BUSY. -/
  | waitDone
  /-- Hardware reset. -/
  | reset
  deriving DecidableEq, Repr

/-- The rule the sequencer continues with (log 1). -/
inductive Phase where
  /-- Nothing executes (rules R269, R305, R320). -/
  | idle
  /-- The `case alg of` of DECOMPRESS (rule R256). -/
  | decSelect
  /-- The `case alg of` of COMPRESS (rule R262). -/
  | encSelect
  /-- The loop of LZ.DECODE, between tokens (rule R165). -/
  | lzLoop
  /-- The loop of HFIRW.DECODE, between bytes (rule R221). -/
  | hfirwLoop
  /-- Inside a Huffman descent of HFIRW.DECODE, `node` holding the current table word (rule R216). -/
  | hfirwWord
  deriving DecidableEq, Repr

/-- A memory space: the elements that hold a value, by strictly rising index. -/
abbrev Memory (α : Type) := List (Nat × α)

/-- A register file with one entry per byte value (FREQ and CODE, rule R32): every entry holds a value. -/
def regFile {α : Type} (f : Nat → α) : Memory α := (List.range 256).map fun b => (b, f b)

/-- CR0 to CR9 (rule R22). `ver`, `alg`, `doff`, `dsize` of rule R28 mirror CR6 to CR9 and have their home here. -/
structure CtrlRegs where
  /-- CR0: `op` and `alg` as last written; `start` and the reserved bits read 0. -/
  ctrl : Word
  /-- CR1. -/
  inLenReg : Nat
  /-- CR2. -/
  status : Status
  /-- CR3. -/
  faultCode : BitVec 4
  /-- CR4. -/
  faultInfo : Nat
  /-- CR5. -/
  outLenReg : Nat
  /-- CR6. -/
  hdrVersion : Half
  /-- CR7. -/
  hdrAlg : Half
  /-- CR8. -/
  hdrDoff : Word
  /-- CR9. -/
  hdrDsize : Word
  deriving DecidableEq, Repr

/-- The sequencer: where it is, and what a command sampled at its start (rules R30, R255). -/
structure Sequencer where
  phase : Phase
  /-- `op` sampled at start. -/
  smpOp : Bool
  /-- `alg` sampled at start. -/
  smpAlg : Half
  /-- `in_len`. -/
  inLen : Nat
  /-- `hf_en` (rule R30). -/
  hfEn : Bool
  deriving DecidableEq, Repr

/-- The LZ77 decoder's cursors (rules R24, R25, R29). -/
structure LzDecoder where
  ip : Nat
  /-- `lz_cur`. -/
  cur : Byte
  /-- `lz_rem`. -/
  rem : BitVec 3
  /-- `out_len`. -/
  outLen : Nat
  wp : BitVec 13
  deriving DecidableEq, Repr

/-- The token temporaries of the LZ77 decoder (rule R29). -/
structure TokenTemps where
  hi : Byte
  lo : Byte
  lenf : BitVec 3
  off : BitVec 13
  tmp : Byte
  len : BitVec 9
  run : BitVec 14
  cnt : BitVec 14
  deriving DecidableEq, Repr

/-- The Huffman decoder's registers (rules R26, R27). -/
structure HfDecoder where
  hp : Nat
  /-- `hf_cur`. -/
  cur : Byte
  /-- `hf_rem`. -/
  rem : BitVec 3
  node : Half
  htLen : Half
  htCnt : Nat
  deriving DecidableEq, Repr

/-- The LZ77 encoder and its stream writer (rules R31, R67). `pf_len` is the length of `pfifo` (log 25). -/
structure LzEncoder where
  srcLen : Nat
  p : Nat
  bestLen : Nat
  bestDist : BitVec 14
  candDist : BitVec 14
  candLen : Nat
  chunk : BitVec 9
  wAcc : Byte
  wCnt : Nat
  /-- PFIFO, at most 8 bytes. -/
  pfifo : List Byte
  /-- The payload bytes of the open group that wait behind a full PFIFO (the model's own field, log 25). -/
  pfOver : List Byte
  dp : Nat
  deriving DecidableEq, Repr

/-- The Huffman encoder (rules R32, R66). `nl_len` is the length of `nlist` (log 25). -/
structure HfEncoder where
  /-- FREQ, 256 counters. -/
  freq : Memory Nat
  nlist : List (Nat × Half)
  nextIdx : Half
  /-- CODE, 256 bit sequences, each with its own length. -/
  code : Memory (List Bool)
  hAcc : Byte
  hCnt : Nat
  deriving DecidableEq, Repr

/-- The whole machine. The byte memories are lists of `Host.Cell`. -/
structure State where
  cr : CtrlRegs
  seq : Sequencer
  lz : LzDecoder
  tmp : TokenTemps
  hf : HfDecoder
  le : LzEncoder
  he : HfEncoder
  inMem : List Host.Cell
  out : List Host.Cell
  win : List Host.Cell
  mid : List Host.Cell
  htab : Memory Half
  /-- The host's pending actions, first one next (the model's own field, log 2). -/
  host : List HostOp
  /-- How many free values have been drawn (the model's own field, log 8). -/
  freeCtr : Nat
  deriving DecidableEq, Repr

/-- The column "after reset" of rule R35 for CR0 to CR9. -/
def CtrlRegs.reset : CtrlRegs :=
  { ctrl := 0, inLenReg := 0, status := .idle, faultCode := 0, faultInfo := 0, outLenReg := 0, hdrVersion := 0,
    hdrAlg := 0, hdrDoff := 0, hdrDsize := 0 }

/-- The sequencer after reset: nothing executes (rule R320); the samples: log 9. -/
def Sequencer.reset : Sequencer :=
  { phase := .idle, smpOp := false, smpAlg := 0, inLen := 0, hfEn := false }

/-- The LZ77 decoder after reset (rule R35). -/
def LzDecoder.reset : LzDecoder := { ip := 0, cur := 0, rem := 0, outLen := 0, wp := 0 }

/-- The token temporaries after reset. DESIGN CHOICE: rule R35 leaves them unspecified, the model takes 0 (log 7). -/
def TokenTemps.reset : TokenTemps :=
  { hi := 0, lo := 0, lenf := 0, off := 0, tmp := 0, len := 0, run := 0, cnt := 0 }

/-- The Huffman decoder after reset (rule R35). -/
def HfDecoder.reset : HfDecoder := { hp := 0, cur := 0, rem := 0, node := 0, htLen := 0, htCnt := 0 }

/-- The LZ77 encoder after reset (rule R35). -/
def LzEncoder.reset : LzEncoder :=
  { srcLen := 0, p := 0, bestLen := 0, bestDist := 0, candDist := 0, candLen := 0, chunk := 0, wAcc := 0,
    wCnt := 0, pfifo := [], pfOver := [], dp := 0 }

/-- The Huffman encoder after reset (rule R35): `nl_len = 0`, `next_idx = 0x100`. DESIGN CHOICE: rule R35 leaves FREQ
and CODE unspecified, the model takes 0 in every counter and the empty sequence in every entry of CODE (log 35). -/
def HfEncoder.reset : HfEncoder :=
  { freq := regFile fun _ => 0
    nlist := []
    nextIdx := 0x100
    code := regFile fun _ => []
    hAcc := 0
    hCnt := 0 }

/-- The machine right after hardware reset (rules R35, R320): IN, OUT, WIN, HTAB and MID without a value (log 6). -/
def State.reset : State :=
  { cr := CtrlRegs.reset, seq := Sequencer.reset, lz := LzDecoder.reset, tmp := TokenTemps.reset,
    hf := HfDecoder.reset, le := LzEncoder.reset, he := HfEncoder.reset, inMem := [], out := [], win := [],
    mid := [], htab := [], host := [], freeCtr := 0 }

end Sys2Proof.Machine
end

