-- ==== Sys2Proof/Machine/Flags.lean ====
section
/-! DEFINITION. The mode flag, the status and fault codes, and the fields of CTRL (rules R22, R30, R257, R281).
The core has no condition codes (rule R30). -/

namespace Sys2Proof.Machine

/-- The value of `STATUS[2:0]` (rule R22). -/
def Status.code : Status → BitVec 3
  | .idle => 0
  | .busy => 1
  | .done => 2
  | .noMatch => 3
  | .fault => 4

/-- The value of FAULT_CODE for a fault (rule R281). -/
def CoreFault.code : CoreFault → BitVec 4
  | .eTrunc => 2
  | .eAlg => 3
  | .eBadref => 4
  | .eOverrun => 5
  | .eHtIndex => 6
  | .eHtEntry => 7
  | .eHdr => 8
  | .eSize => 9

/-- Whether a command is running (rule R23). -/
def State.busy (s : State) : Bool := s.cr.status == .busy

/-- The bits of CTRL that a write stores: `op` [1] and `alg` [31:16]; `start` and [15:2] read 0 (rule R22). -/
def ctrlMask : Word := 0xFFFF0002

/-- A write of `w` to CTRL as it stands in the register afterwards (rule R22). -/
def writeCtrlReg (w : Word) (s : State) : State := { s with cr := { s.cr with ctrl := w &&& ctrlMask } }

/-- `CTRL.alg` (rule R22). -/
def State.ctrlAlg (s : State) : Half := s.cr.ctrl.extractLsb' 16 16

/-- The write of `hf_en` at the start of a data path (rule R257). -/
def setHfEn (v : Bool) (s : State) : State := { s with seq := { s.seq with hfEn := v } }

/-- The sequencer goes on with another rule (log 1). -/
def setPhase (p : Phase) (s : State) : State := { s with seq := { s.seq with phase := p } }

/-- `dsize` as a number (rule R28). -/
def State.dsize (s : State) : Nat := s.cr.hdrDsize.toNat

/-- `doff` as a number (rule R28). -/
def State.doff (s : State) : Nat := s.cr.hdrDoff.toNat

end Sys2Proof.Machine
end

