-- ==== Sys2Proof/Machine/Ops.lean ====
section
/-! DEFINITION. The named operations over memory, the ends of a command (rules R269, R282, R283) and its start
(rule R255). -/

namespace Sys2Proof.Machine

/-! ### Memory spaces (rules R60, R72, R79) -/

/-- One element of a memory space; `none` where nothing has been written (log 6). -/
def Memory.read {α : Type} : Memory α → Nat → Option α
  | [], _ => none
  | (i, v) :: rest, a => if a = i then some v else Memory.read rest a

/-- Writes one element, keeping the indices strictly rising. -/
def Memory.write {α : Type} : Memory α → Nat → α → Memory α
  | [], a, v => [(a, v)]
  | (i, w) :: rest, a, v =>
    if a < i then (a, v) :: (i, w) :: rest
    else if a = i then (a, v) :: rest
    else (i, w) :: Memory.write rest a v

/-- Writes a sequence of elements at rising indices (`MemWrite` of rule R10). -/
def Memory.writeAll {α : Type} (m : Memory α) (a : Nat) : List α → Memory α
  | [] => m
  | v :: vs => Memory.writeAll (Memory.write m a v) (a + 1) vs

/-- The canonical form: every index is below the next one. -/
def Memory.wf {α : Type} : Memory α → Bool
  | [] => true
  | [_] => true
  | (i, _) :: (j, w) :: rest => decide (i < j) && Memory.wf ((j, w) :: rest)

/-! ### How a rule's pseudocode ends early -/

/-- Why a statement of a rule's pseudocode does not continue; it carries the state at that moment. -/
inductive Stop where
  /-- `raise F(info)` (rules R10, R283). -/
  | raise (f : CoreFault) (info : Nat) (s : State)
  /-- "end command with NOMATCH" (rule R131). -/
  | noMatch (s : State)
  /-- The model stops. -/
  | fault (f : Fault)
  /-- The model refuses. -/
  | refuse (r : Refusal)
  deriving DecidableEq, Repr

/-- Fault entry (rule R283): FAULT_CODE and FAULT_INFO record the fault, OUT_LEN becomes 0, STATUS becomes FAULT,
nothing is saved for a handler and the working registers keep what they held. The contents of OUT and WIN are
unspecified from here on: no element has a value (log 12). There is no return from a fault (rule R295). -/
def takeFault (f : CoreFault) (info : Nat) (s : State) : State :=
  { s with
    cr := { s.cr with faultCode := f.code, faultInfo := info, outLenReg := 0, status := .fault }
    seq := { s.seq with phase := .idle }
    out := []
    win := [] }

/-- NOMATCH entry (rule R282). DESIGN CHOICE: U14 of `93_implementation_defined.md` leaves OUT, WIN and the working
registers any value from here on; they keep what the command start gave them (log 34). -/
def endNoMatch (s : State) : State :=
  { s with
    cr := { s.cr with faultCode := 0, faultInfo := 0, outLenReg := 0, status := .noMatch }
    seq := { s.seq with phase := .idle } }

/-- Command end with DONE and `n` result bytes (rule R269). -/
def endDone (n : Nat) (s : State) : State :=
  { s with
    cr := { s.cr with faultCode := 0, faultInfo := 0, outLenReg := n, status := .done }
    seq := { s.seq with phase := .idle } }

/-- What a step answers when a rule's pseudocode stops. -/
def Stop.outcome : Stop → Host.Outcome State Fault Refusal
  | .raise f info s => .next (takeFault f info s)
  | .noMatch s => .next (endNoMatch s)
  | .fault f => .fault f
  | .refuse r => .refused r

/-- What a step answers when it has run a rule's pseudocode. -/
def outcomeOf : Except Stop State → Host.Outcome State Fault Refusal
  | .ok s => .next s
  | .error e => e.outcome

/-! ### Reads -/

/-- The value of an element, or the model's stop where nothing has been written (log 6). -/
def readOrStop {α : Type} (sp : Space) (m : Memory α) (a : Nat) : Except Stop α :=
  match Memory.read m a with
  | some v => .ok v
  | none => .error (.fault (.readUnwritten sp a))

/-- A read of IN (rule R78): E_TRUNC at an index at or beyond `in_len`, checked before the read (rule R347). -/
def inRead (a : Nat) (s : State) : Except Stop Byte :=
  if s.seq.inLen ≤ a then .error (.raise .eTrunc a s) else readOrStop .inp s.inMem a

/-- `MemRead(IN, a, n)` (rule R10), in ascending order. -/
def inReadMany (s : State) : Nat → Nat → Except Stop (List Byte)
  | _, 0 => .ok []
  | a, n + 1 => do
    let b ← inRead a s
    let bs ← inReadMany s (a + 1) n
    .ok (b :: bs)

/-! ### Output -/

/-- EMIT(b) (rule R179): appends to OUT and writes the same byte to the ring WIN. -/
def emit (b : Byte) (s : State) : State :=
  { s with
    out := Memory.write s.out s.lz.outLen b
    win := Memory.write s.win s.lz.wp.toNat b
    lz := { s.lz with wp := s.lz.wp + 1, outLen := s.lz.outLen + 1 } }

/-- Where an encoder's stream goes (rule R152): OUT for ENC.LZ, MID for ENC.HFI. -/
inductive Dst where
  | out
  | mid
  deriving DecidableEq, Repr

/-- `append(DST, b)` of an encoder: stores at `dp` and increments it (rules R62, R65, R154). -/
def appendDst (d : Dst) (b : Byte) (s : State) : State :=
  match d with
  | .out => { s with out := Memory.write s.out s.le.dp b, le := { s.le with dp := s.le.dp + 1 } }
  | .mid => { s with mid := Memory.write s.mid s.le.dp b, le := { s.le with dp := s.le.dp + 1 } }

/-- `append` of each byte of a sequence in turn. -/
def appendAll (d : Dst) : List Byte → State → State
  | [], s => s
  | b :: bs, s => appendAll d bs (appendDst d b s)

/-- `MemWrite(OUT, a, n, v)` (rule R10). -/
def outWriteAll (a : Nat) (bs : List Byte) (s : State) : State :=
  { s with out := Memory.writeAll s.out a bs }

/-- Sets `dp`. -/
def setDp (n : Nat) (s : State) : State := { s with le := { s.le with dp := n } }

/-! ### Command start (rule R255) -/

/-- The token temporaries at command start: rule R35 leaves them unspecified, so they are free values (log 8). -/
def freeTemps (n : Nat) : TokenTemps :=
  { hi := Config.freeBits 8 n
    lo := Config.freeBits 8 (n + 1)
    lenf := Config.freeBits 3 (n + 2)
    off := Config.freeBits 13 (n + 3)
    tmp := Config.freeBits 8 (n + 4)
    len := Config.freeBits 9 (n + 5)
    run := Config.freeBits 14 (n + 6)
    cnt := Config.freeBits 14 (n + 7) }

/-- FREQ with every counter 0 (rules R35, R231). -/
def zeroFreq : Memory Nat := regFile fun _ => 0

/-- CODE at command start: rule R35 leaves it unspecified, so its entries are free values, each at most 255 bits long
(rule R32; log 8). -/
def freeCodes (n : Nat) : Memory (List Bool) := regFile fun b => (Config.freeCode (n + b)).take 255

/-- Steps (1) and (2) of rule R255: samples `op`, `alg` and IN_LEN and puts every register at the column "at command
start" of rule R35. CTRL, IN_LEN, CR6 to CR9 and IN are kept. -/
def cmdStart (op : Bool) (alg : Half) (s : State) : State :=
  { s with
    cr := { s.cr with status := .busy, faultCode := 0, faultInfo := 0, outLenReg := 0 }
    seq := { phase := .idle, smpOp := op, smpAlg := alg, inLen := s.cr.inLenReg, hfEn := false }
    lz := LzDecoder.reset
    tmp := freeTemps s.freeCtr
    hf := HfDecoder.reset
    le := LzEncoder.reset
    he := { HfEncoder.reset with freq := zeroFreq, code := freeCodes (s.freeCtr + 8) }
    out := []
    win := []
    mid := []
    htab := []
    freeCtr := s.freeCtr + 264 }

end Sys2Proof.Machine
end

