-- ==== Sys2Proof/Machine/Operands.lean ====
section
/-! DEFINITION. Operand assembly of the tokens and the Huffman index arithmetic (rules R13, R95, R105). All fields
are unsigned and zero-extended. -/

namespace Sys2Proof.Machine

/-- `dist = off + 1` (rule R105). -/
def distOf (off : BitVec 13) : Nat := off.toNat + 1

/-- `len = L + 3` of REF.A (rule R105). -/
def lenRefA (l : BitVec 2) : Nat := l.toNat + Config.aLenBase

/-- `len = hi[7:5] + 2` of REF.B (rule R105). -/
def lenRefB (l : BitVec 3) : Nat := l.toNat + Config.bLenBase

/-- `len = N + 10` of REF.C (rule R105). -/
def lenRefC (n : BitVec 4) : Nat := n.toNat + Config.cLenBase

/-- `len = T + 0x1A` of REF.E (rule R105). -/
def lenRefE (t : Byte) : Nat := t.toNat + Config.eLenBase

/-- `run = off + 0x1B` of RUN.D (rule R105). -/
def runOf (off : BitVec 13) : Nat := off.toNat + Config.dRunBase

/-- The stored offset of REF.A, one payload byte (rule R105). -/
def offRefA (o : Byte) : BitVec 13 := o.setWidth 13

/-- `node*2 - 0x200 + bit` (rule R95), for `node >= 0x100`. -/
def htIndex (node : Nat) (bit : Bool) : Nat := node * 2 - Config.htIndexBias + bit.toNat

/-- `HT_NENT(t)` (rule R7): the number of entries the encoder writes after `table_length = t`. -/
def htNent (t : Half) : Nat := if t.toNat < Config.htLeafLimit then 0 else 2 * t.toNat

/-- Entry `i` belongs to the tree with root `root`: `i < 2*(ht_len - 0xFF)` of rule R239, without the subtraction. -/
def isTreeEntry (root i : Nat) : Bool := decide (i + 2 * 0xFF < 2 * root)

end Sys2Proof.Machine
end

