-- ==== Sys2Proof/Machine/BitIO.lean ====
section
/-! DEFINITION. Unit U2 (`41_bit_io.md`): the direct byte source, the Huffman bit reader, the LZ77 stream writer LZW
and the plain bit writer HFW. -/

namespace Sys2Proof.Machine

/-! ### Readers -/

/-- IN.RDBYTE, the direct byte source (rule R150). -/
def inRdByte (s : State) : Except Stop (Byte × State) := do
  let b ← inRead s.lz.ip s
  .ok (b, { s with lz := { s.lz with ip := s.lz.ip + 1 } })

/-- The byte fetch of the Huffman bit reader (rule R147). -/
def hfFetch (s : State) : Except Stop (Byte × State) := do
  let b ← inRead s.hf.hp s
  .ok (b, { s with hf := { s.hf with hp := s.hf.hp + 1 } })

/-- HF.RDBIT (rule R147): RDBIT on `(hf_cur, hf_rem)`. -/
def hfRdBit (s : State) : Except Stop (Bool × State) :=
  rdBitWith (fun s => (s.hf.cur, s.hf.rem)) (fun c r s => { s with hf := { s.hf with cur := c, rem := r } })
    hfFetch s

/-! ### LZ77 stream writer (rules R152 to R155) -/

/-- The payload bytes of the open flag group, in order of writing (rule R67; log 25). -/
def LzEncoder.waiting (e : LzEncoder) : List Byte := e.pfifo ++ e.pfOver

/-- LZW.FLUSH (rule R154): the flag byte, padded with trailing 0 bits, then its payload bytes. -/
def lzwFlush (d : Dst) (s : State) : State :=
  let s' := appendAll d ((s.le.wAcc <<< (8 - s.le.wCnt)) :: s.le.waiting) s
  { s' with le := { s'.le with wAcc := 0, wCnt := 0, pfifo := [], pfOver := [] } }

/-- LZW.WBIT (rule R152): the ninth bit closes the group, not the eighth (rule R344). -/
def lzwBit (d : Dst) (b : Bool) (s : State) : State :=
  let s' := if s.le.wCnt = 8 then lzwFlush d s else s
  { s' with le := { s'.le with wAcc := pushBit s'.le.wAcc b, wCnt := s'.le.wCnt + 1 } }

/-- LZW.WBYTE (rule R153): the byte goes behind those that wait; the first 8 of them stand in PFIFO (rule R67), and a
ninth, for which the spec has no place, behind it (log 25). -/
def lzwByte (v : Byte) (s : State) : State :=
  let w := s.le.waiting ++ [v]
  { s with le := { s.le with pfifo := w.take Config.pfifoSize, pfOver := w.drop Config.pfifoSize } }

/-- Writes one item of a token. -/
def lzwItem (d : Dst) (i : Item) (s : State) : State :=
  match i with
  | .control b => lzwBit d b s
  | .payload v => lzwByte v s

/-- Writes items in order. -/
def lzwItems (d : Dst) : List Item → State → State
  | [], s => s
  | i :: is, s => lzwItems d is (lzwItem d i s)

/-- LZW.FINISH (rule R155). -/
def lzwFinish (d : Dst) (s : State) : State := if 0 < s.le.wCnt then lzwFlush d s else s

/-! ### Plain bit writer (rules R157 to R159) -/

/-- HFW.WBIT (rule R157): the first bit lands in bit 7, a full byte goes out at once. -/
def hfwBit (b : Bool) (s : State) : State :=
  let acc := pushBit s.he.hAcc b
  if s.he.hCnt + 1 = 8 then
    let s' := appendDst .out acc s
    { s' with he := { s'.he with hAcc := 0, hCnt := 0 } }
  else
    { s with he := { s.he with hAcc := acc, hCnt := s.he.hCnt + 1 } }

/-- HFW.WCODE (rule R158): the first traversal bit first. -/
def hfwCode : List Bool → State → State
  | [], s => s
  | b :: bs, s => hfwCode bs (hfwBit b s)

/-- HFW.FINISH (rule R159). -/
def hfwFinish (s : State) : State :=
  if 0 < s.he.hCnt then
    let s' := appendDst .out (s.he.hAcc <<< (8 - s.he.hCnt)) s
    { s' with he := { s'.he with hAcc := 0, hCnt := 0 } }
  else s

end Sys2Proof.Machine
end

