-- ==== Sys2Proof/Machine/Header.lean ====
section
/-! DEFINITION. Unit U1, the header codec (`40_header_codec.md`). -/

namespace Sys2Proof.Machine

/-- Whether a 16-bit id is one of the four algorithms (rules R92, R134). -/
def legalAlg (id : Half) : Bool := id == 0 || id == 2 || id == 3 || id == 4

/-- Whether the algorithm carries a Huffman block (rule R90). -/
def huffmanAlg (id : Half) : Bool := id == 2 || id == 4

/-- Latches the header fields into CR6 to CR9 (rules R131, R136). -/
def latchHeader (ver alg : Half) (doff dsize : Word) (s : State) : State :=
  { s with cr := { s.cr with hdrVersion := ver, hdrAlg := alg, hdrDoff := doff, hdrDsize := dsize } }

/-- The 16-bit little-endian value at an index of IN (rule R68). -/
def inRead16 (a : Nat) (s : State) : Except Stop Half := do
  let b0 ← inRead a s
  let b1 ← inRead (a + 1) s
  .ok (le16 b0 b1)

/-- The 32-bit little-endian value at an index of IN (rule R68). -/
def inRead32 (a : Nat) (s : State) : Except Stop Word := do
  let b0 ← inRead a s
  let b1 ← inRead (a + 1) s
  let b2 ← inRead (a + 2) s
  let b3 ← inRead (a + 3) s
  .ok (le32 b0 b1 b2 b3)

/-- The tests of HDR.PARSE on the latched fields, in the order of rule R131 (rules R134, R135, R294). -/
def hdrChecks (s : State) : Except Stop State :=
  if legalAlg s.cr.hdrAlg = false then .error (.raise .eAlg s.cr.hdrAlg.toNat s)
  else if huffmanAlg s.cr.hdrAlg = true ∧ s.seq.inLen < 18 then .error (.raise .eTrunc s.seq.inLen s)
  else if huffmanAlg s.cr.hdrAlg = false ∧ (s.doff < 16 ∨ s.seq.inLen < s.doff) then
    .error (.raise .eHdr s.doff s)
  else if huffmanAlg s.cr.hdrAlg = true ∧ (s.doff < 18 ∨ s.seq.inLen < s.doff) then
    .error (.raise .eHdr s.doff s)
  else .ok s

/-- HDR.PARSE (rules R131 to R135) for a given value of `MAGIC`. -/
def hdrParse (magic : Word) (s : State) : Except Stop State :=
  if s.seq.inLen < 4 then .error (.noMatch s)
  else do
    let m ← inRead32 0 s
    if m ≠ magic then .error (.noMatch s)
    else if s.seq.inLen < Config.hdrLen then .error (.raise .eTrunc s.seq.inLen s)
    else
      let ver ← inRead16 4 s
      let alg ← inRead16 6 s
      let doff ← inRead32 8 s
      let dsize ← inRead32 12 s
      hdrChecks (latchHeader ver alg doff dsize s)

/-- `data_offset` as HDR.BUILD writes it (rule R136; conflict C1). -/
def builtDoff (alg : Half) (nent : Nat) : Nat := if huffmanAlg alg then 16 + 2 + 2 * nent else 16

/-- The 16 header bytes (rules R91, R136). -/
def headerBytes (magic : Word) (ver alg : Half) (doff dsize : Word) : List Byte :=
  le32Bytes magic ++ le16Bytes ver ++ le16Bytes alg ++ le32Bytes doff ++ le32Bytes dsize

/-- HDR.BUILD(algorithm, decompressed_size, nent) (rule R136). -/
def hdrBuild (alg : Half) (size nent : Nat) (s : State) : State :=
  let doff := BitVec.ofNat 32 (builtDoff alg nent)
  let dsize := BitVec.ofNat 32 size
  outWriteAll 0 (headerBytes Config.magic Config.version alg doff dsize)
    (latchHeader Config.version alg doff dsize s)

end Sys2Proof.Machine
end

