-- ==== Sys2Proof/Machine/HfDecode.lean ====
section
/-! DEFINITION. Unit U5, the Huffman tree decoder (`44_huffman_decoder.md`): table load, descent, and the meanings of
the table words. -/

namespace Sys2Proof.Machine

/-- Sets the state register of the descent. -/
def setNode (v : Half) (s : State) : State := { s with hf := { s.hf with node := v } }

/-! ### Table load (rule R215) -/

/-- The entries of HTAB from index `i`, `n` of them, out of IN (rules R64, R68, R215). -/
def htLoadEntries : Nat → Nat → State → Except Stop State
  | 0, _, s => .ok s
  | n + 1, i, s => do
    let v ← inRead16 (18 + 2 * i) s
    htLoadEntries n (i + 1) { s with htab := Memory.write s.htab i v }

/-- The number of entries that lie between offset 18 and `data_offset` (rules R93, R215). -/
def htCount (doff : Nat) : Nat := min ((doff - 18) / 2) Config.htMaxEntries

/-- HT.LOAD (rule R215). -/
def htLoad (s : State) : Except Stop State := do
  let t ← inRead16 16 s
  let s1 := { s with hf := { s.hf with htLen := t } }
  if t.msb then .error (.raise .eHtEntry t.toNat s1)
  else
    let n := htCount s.doff
    let s2 ← htLoadEntries n 0 { s1 with hf := { s1.hf with htCnt := n } }
    .ok { s2 with hf := { s2.hf with hp := s2.doff, cur := 0, rem := 0 } }

/-! ### Descent (rules R216 to R220) -/

/-- One iteration of the descent at node `n` (rule R217): one bit, the index check before the table read, the next
state, and E_HT_ENTRY when that is negative. -/
def htStep (n : BitVec 15) (s : State) : Except Stop State := do
  let (b, s) ← hfRdBit s
  let idx := htIndex n.toNat b
  if s.hf.htCnt ≤ idx then .error (.raise .eHtIndex idx s)
  else
    let v ← readOrStop .htab s.htab idx
    let s := setNode v s
    if v.msb then .error (.raise .eHtEntry v.toNat s) else .ok s

/-- E_HT_ENTRY for a negative word (rules R220, R290): FAULT_INFO is the 16-bit word zero-extended. -/
def htInvalidWord (x : BitVec 15) : Half := (1 : BitVec 1) ++ x

/-- The `while` of HF.RDBYTE (rule R216) with a bound on its iterations (log 23). -/
def hfDescend : Nat → State → Except Stop (Byte × State)
  | 0, _ => .error (.fault .descentBound)
  | k + 1, s =>
    match decodeHtWord s.hf.node with
    | .htLeaf b => .ok (b, s)
    | .htNode n => do
      let s ← htStep n s
      hfDescend k s
    | _ => .error (.raise .eHtEntry s.hf.node.toNat s)

/-- The bits of the Huffman bitstream that have not been read: a descent cannot take more steps (rule R222). -/
def hfBitsLeft (s : State) : Nat := s.hf.rem.toNat + 8 * (s.seq.inLen - s.hf.hp)

/-- HF.RDBYTE (rule R216). -/
def hfRdByte (s : State) : Except Stop (Byte × State) :=
  hfDescend (hfBitsLeft s + 1) (setNode s.hf.htLen s)

/-! ### The table words as instructions of HFIRW.DECODE (rule R221; log 13) -/

/-- HT.NODE (rule R217). -/
def execHtNode (n : BitVec 15) (s : State) : Host.Outcome State Fault Refusal :=
  outcomeOf (do
    let s ← htStep n s
    .ok (setPhase .hfirwWord s))

/-- HT.LEAF (rules R218, R221): the descent ends, the decoded byte goes to EMIT, and the next descent starts from
the root. -/
def execHtLeaf (b : Byte) (s : State) : Host.Outcome State Fault Refusal :=
  .next (setPhase .hfirwLoop (emit b (setNode (b.setWidth 16) s)))

/-- HT.INVALID (rules R220, R290): E_HT_ENTRY. -/
def execHtInvalid (x : BitVec 15) (s : State) : Host.Outcome State Fault Refusal :=
  outcomeOf (.error (.raise .eHtEntry (htInvalidWord x).toNat s))

end Sys2Proof.Machine
end

