-- ==== Sys2Proof/Machine/LzDecode.lean ====
section
/-! DEFINITION. Unit U3, the LZ77 decoder (`42_lz77_decoder.md`): the byte source, the token fetch, the copy engine
and the meanings of the tokens. -/

namespace Sys2Proof.Machine

/-! ### Token fetch (rules R146, R149, R166) -/

/-- RDBYTE (rule R149): the only place `hf_en` is read. -/
def rdByte (s : State) : Except Stop (Byte × State) := if s.seq.hfEn then hfRdByte s else inRdByte s

/-- LZ.RDBIT (rule R146): RDBIT on `(lz_cur, lz_rem)`, flag bytes coming from the same byte source. -/
def lzRdBit (s : State) : Except Stop (Bool × State) :=
  rdBitWith (fun s => (s.lz.cur, s.lz.rem)) (fun c r s => { s with lz := { s.lz with cur := c, rem := r } })
    rdByte s

/-- `hi <- RDBYTE()` (rule R166). -/
def latchHi (hi : Byte) (s : State) : State := { s with tmp := { s.tmp with hi := hi } }

/-- `lo <- RDBYTE()` and the fields of the reference word (rules R104, R166). -/
def latchLo (hi lo : Byte) (s : State) : State :=
  { s with tmp := { s.tmp with lo := lo, lenf := lenField hi, off := offField hi lo } }

/-- `tmp <- RDBYTE()` (rule R166). -/
def latchTmp (t : Byte) (s : State) : State := { s with tmp := { s.tmp with tmp := t } }

/-- The machine as the source of token items. -/
def machineSource : TokenSource State Stop where
  rdBit := lzRdBit
  rdByte := rdByte
  latchHi := latchHi
  latchLo := latchLo
  latchTmp := latchTmp

/-- LZ.TOKEN up to the choice of the token (rule R166). -/
def fetchToken (s : State) : Except Stop (Instr × State) := readToken machineSource s

/-! ### Copy engine (rules R178, R184, R341) -/

/-- The loop of COPY: the ring is read before EMIT writes it, one byte at a time in ascending order; `cnt` counts
down (rule R29). -/
def copyLoop (off : BitVec 13) : Nat → State → Except Stop State
  | 0, s => .ok s
  | n + 1, s => do
    let b ← readOrStop .win s.win (s.lz.wp - (off + 1)).toNat
    let s := emit b s
    copyLoop off n { s with tmp := { s.tmp with cnt := BitVec.ofNat 14 n } }

/-- COPY(off, len) (rule R178): both checks before the first byte, E_BADREF first. -/
def copy (off : BitVec 13) (len : Nat) (s : State) : Except Stop State :=
  let s := { s with tmp := { s.tmp with off := off, len := BitVec.ofNat 9 len } }
  if s.lz.outLen < distOf off then .error (.raise .eBadref (distOf off) s)
  else if s.dsize < s.lz.outLen + len then .error (.raise .eOverrun len s)
  else copyLoop off len { s with tmp := { s.tmp with cnt := BitVec.ofNat 14 len } }

/-- `repeat n times: b <- RDBYTE(); call EMIT(b)` (rule R171), `cnt` counting down. -/
def runLoop : Nat → State → Except Stop State
  | 0, s => .ok s
  | n + 1, s => do
    let (b, s) ← rdByte s
    let s := emit b s
    runLoop n { s with tmp := { s.tmp with cnt := BitVec.ofNat 14 n } }

/-! ### Tokens -/

/-- LIT (rule R167). -/
def execLit (v : Byte) (s : State) : Host.Outcome State Fault Refusal := .next (emit v s)

/-- REF.A (rule R168). -/
def execRefA (l : BitVec 2) (o : Byte) (s : State) : Host.Outcome State Fault Refusal :=
  outcomeOf (copy (offRefA o) (lenRefA l) s)

/-- REF.B (rule R169). -/
def execRefB (l : BitVec 3) (o : BitVec 13) (s : State) : Host.Outcome State Fault Refusal :=
  outcomeOf (copy o (lenRefB l) s)

/-- REF.C (rule R170). -/
def execRefC (o : BitVec 13) (n : BitVec 4) (s : State) : Host.Outcome State Fault Refusal :=
  outcomeOf (copy o (lenRefC n) s)

/-- RUN.D (rule R171): E_OVERRUN is tested before the first data byte is fetched; the bytes come through RDBYTE. -/
def execRunD (o : BitVec 13) (s : State) : Host.Outcome State Fault Refusal :=
  let s := { s with tmp := { s.tmp with run := BitVec.ofNat 14 (runOf o) } }
  if s.dsize < s.lz.outLen + runOf o then outcomeOf (.error (.raise .eOverrun (runOf o) s))
  else outcomeOf (runLoop (runOf o) { s with tmp := { s.tmp with cnt := BitVec.ofNat 14 (runOf o) } })

/-- REF.E (rule R172). -/
def execRefE (o : BitVec 13) (t : Byte) (s : State) : Host.Outcome State Fault Refusal :=
  outcomeOf (copy o (lenRefE t) s)

end Sys2Proof.Machine
end

