-- ==== Sys2Proof/Machine/LzEncode.lean ====
section
/-! DEFINITION. Unit U4, the LZ77 encoder (`43_lz77_encoder.md`): match search, chunking, case selection, serializers
and the main loop. `src` is the source byte sequence SRC (log 18). -/

namespace Sys2Proof.Machine

/-! ### Match search (rules R191, R192) -/

/-- The inner `while` of LZ.SEARCH: the length of the match at distance `d`, bounded by the end of the source and
free to run past `p`. `k` bounds the iterations, `n` is `cand_len` so far. -/
def matchLen (src : List Byte) (p d : Nat) : Nat → Nat → Nat
  | 0, n => n
  | k + 1, n =>
    match src[p + n]?, src[p + n - d]? with
    | some a, some b => if a = b then matchLen src p d k (n + 1) else n
    | _, _ => n

/-- What LZ.SEARCH holds: the best match so far and the last candidate. -/
structure SearchResult where
  bestLen : Nat
  bestDist : Nat
  candDist : Nat
  candLen : Nat
  deriving DecidableEq, Repr

/-- The outer loop of LZ.SEARCH: `k` candidate distances from `d` upward; only a strictly longer match replaces the
best, so the smallest distance wins a tie (rule R192). -/
def searchLoop (src : List Byte) (p : Nat) : Nat → Nat → SearchResult → SearchResult
  | 0, _, r => r
  | k + 1, d, r =>
    let n := matchLen src p d (src.length - p) 0
    let r := if r.bestLen < n then { r with bestLen := n, bestDist := d } else r
    searchLoop src p k (d + 1) { r with candDist := d, candLen := n }

/-- LZ.SEARCH(p) (rule R191), starting with the candidate registers as they stand. -/
def lzSearch (src : List Byte) (p candDist candLen : Nat) : SearchResult :=
  searchLoop src p (min p Config.winSize) 1
    { bestLen := 0, bestDist := 0, candDist := candDist, candLen := candLen }

/-- Writes the registers of LZ.SEARCH (rule R31). -/
def setSearch (r : SearchResult) (s : State) : State :=
  { s with le := { s.le with
      bestLen := r.bestLen
      bestDist := BitVec.ofNat 14 r.bestDist
      candDist := BitVec.ofNat 14 r.candDist
      candLen := r.candLen } }

/-! ### Case selection and serializers (rules R195 to R200) -/

/-- Which reference token the encoder takes for a stored offset and a length (rule R195); none outside the
precondition (rule R202). RUN.D is never taken (rule R201). -/
def selectToken (off len : Nat) : Option Instr :=
  if Config.winSize ≤ off ∨ len < Config.lenMin ∨ Config.lenMax < len then none
  else if len ≤ 6 ∧ off ≤ 255 then some (.refA (BitVec.ofNat 2 (len - Config.aLenBase)) (BitVec.ofNat 8 off))
  else if len ≤ 9 then some (.refB (BitVec.ofNat 3 (len - Config.bLenBase)) (BitVec.ofNat 13 off))
  else if len ≤ 25 then some (.refC (BitVec.ofNat 13 off) (BitVec.ofNat 4 (len - Config.cLenBase)))
  else some (.refE (BitVec.ofNat 13 off) (BitVec.ofNat 8 (len - Config.eLenBase)))

/-- SER.LIT, SER.A, SER.B, SER.C, SER.E (rules R196 to R200): the items of the token in their order. -/
def serialize (d : Dst) (t : Instr) (s : State) : State := lzwItems d t.items s

/-- LZ.SELECT(off, len) and the serializer it chooses (rule R195); refused outside its precondition (rule R202). -/
def lzSelect (d : Dst) (off len : Nat) (s : State) : Except Stop State :=
  match selectToken off len with
  | some t => .ok (serialize d t s)
  | none => .error (.refuse .selectOutOfRange)

/-! ### Chunking (rule R194) -/

/-- `total`: a remainder of 1 or 2 is left out of the match. -/
def chunkTotal (bestLen : Nat) : Nat :=
  if bestLen % Config.lenMax = 1 ∨ bestLen % Config.lenMax = 2 then bestLen - bestLen % Config.lenMax else bestLen

/-- The loop of LZ.CHUNK: chunks of at most 280 at one stored offset. `k` bounds the iterations. -/
def chunkLoop (d : Dst) (off : Nat) : Nat → Nat → State → Except Stop State
  | 0, _, s => .ok s
  | k + 1, rem, s =>
    if rem = 0 then .ok s
    else do
      let c := min rem Config.lenMax
      let s ← lzSelect d off c { s with le := { s.le with chunk := BitVec.ofNat 9 c } }
      chunkLoop d off k (rem - c) s

/-! ### Main loop (rules R190, R193) -/

/-- `p <- v`. -/
def setP (v : Nat) (s : State) : State := { s with le := { s.le with p := v } }

/-- One iteration of LZ.ENCODE at a position `p` that holds the byte `v`. -/
def lzEncodeIter (d : Dst) (src : List Byte) (v : Byte) (s : State) : Except Stop State :=
  let r := lzSearch src s.le.p s.le.candDist.toNat s.le.candLen
  let s := setSearch r s
  if r.bestLen < Config.lenMin then .ok (setP (s.le.p + 1) (serialize d (.lit v) s))
  else do
    let total := chunkTotal r.bestLen
    let s' ← chunkLoop d (r.bestDist - 1) total total s
    .ok (setP (s.le.p + total) s')

/-- The `while` of LZ.ENCODE; `k` bounds the iterations, each of which consumes at least one byte (log 24). -/
def lzEncodeLoop (d : Dst) (src : List Byte) : Nat → State → Except Stop State
  | 0, s => .ok s
  | k + 1, s =>
    match src[s.le.p]? with
    | none => .ok s
    | some v => do
      let s ← lzEncodeIter d src v s
      lzEncodeLoop d src k s

/-- LZ.ENCODE (rule R190) on the source bytes `src`. -/
def lzEncode (d : Dst) (src : List Byte) (s : State) : Except Stop State := do
  let s ← lzEncodeLoop d src src.length (setP 0 s)
  .ok (lzwFinish d s)

end Sys2Proof.Machine
end

