-- ==== Sys2Proof/Machine/HfEncode.lean ====
section
/-! DEFINITION. Unit U6, the Huffman encoder (`45_huffman_encoder.md`): frequency count, tree build, table
serialization, codes and packing. `hsrc` is the byte sequence HSRC (log 18). -/

namespace Sys2Proof.Machine

/-! ### Frequency count (rules R66, R231) -/

/-- FREQ after HF.COUNT: for every byte value, the number of its occurrences. -/
def freqTable (hsrc : List Byte) : Memory Nat := regFile fun b => hsrc.count (BitVec.ofNat 8 b)

/-! ### Tree build (rules R232 to R238) -/

/-- The position of reinsertion (rule R236): after every item whose frequency is less than or equal. -/
def nlInsert (f : Nat) (id : Half) : List (Nat × Half) → List (Nat × Half)
  | [] => [(f, id)]
  | (g, j) :: rest => if g ≤ f then (g, j) :: nlInsert f id rest else (f, id) :: (g, j) :: rest

/-- The initial list (rule R234): the present byte values, inserted in byte-value order. -/
def initialList (freq : Memory Nat) : List (Nat × Half) :=
  freq.foldl (fun l c => if 0 < c.2 then nlInsert c.2 (BitVec.ofNat 16 c.1) l else l) []

/-- HF.MERGE (rules R235 to R237) on the two items extracted and the items left. -/
def hfMerge (fa fb : Nat) (a b : Half) (rest : List (Nat × Half)) (s : State) : State :=
  let m := s.he.nextIdx
  let slot := 2 * (m.toNat - 0x100)
  { s with
    htab := Memory.write (Memory.write s.htab slot a) (slot + 1) b
    he := { s.he with nextIdx := m + 1, nlist := nlInsert (fa + fb) m rest } }

/-- HF.MERGE while `nl_len > 1`; `k` bounds the iterations, each of which shortens NLIST by one. -/
def mergeLoop : Nat → State → State
  | 0, s => s
  | k + 1, s =>
    match s.he.nlist with
    | (fa, a) :: (fb, b) :: rest => mergeLoop k (hfMerge fa fb a b rest s)
    | _ => s

/-- `ht_len` when the build ends (rules R232, R233, R238). -/
def rootOf : List (Nat × Half) → Half
  | [] => 0
  | (_, id) :: _ => id

/-- HF.COUNT and HF.BUILD (rules R231 to R238). -/
def hfBuild (hsrc : List Byte) (s : State) : State :=
  let freq := freqTable hsrc
  let l := initialList freq
  let s := mergeLoop l.length { s with he := { s.he with freq := freq, nlist := l, nextIdx := 0x100 } }
  { s with hf := { s.hf with htLen := rootOf s.he.nlist } }

/-! ### Table serialization (rules R239, R240) -/

/-- Entries `i` to `i + n - 1` of the stored table: those of the tree, then 0. -/
def hfStoreEntries (root : Nat) : Nat → Nat → State → Except Stop State
  | 0, _, s => .ok s
  | n + 1, i, s => do
    let v ← if isTreeEntry root i then readOrStop .htab s.htab i else .ok 0
    hfStoreEntries root n (i + 1) (outWriteAll (18 + 2 * i) (le16Bytes v) s)

/-- HF.STORE (rule R239). -/
def hfStore (s : State) : Except Stop State :=
  hfStoreEntries s.hf.htLen.toNat (htNent s.hf.htLen) 0 (outWriteAll 16 (le16Bytes s.hf.htLen) s)

/-! ### Codes and packing (rules R241 to R243) -/

/-- `path(v)` of rule R241: the bits from the root to the table value `v`, first traversal bit first, found by
walking up from the entry that holds `v`: entry `i` belongs to node `0x100 + i/2`, child bit `i mod 2` (rule R95).
`k` bounds the depth (log 24). -/
def treePath (htab : Memory Half) (root : Half) : Nat → Half → Option (List Bool)
  | 0, v => if v = root then some [] else none
  | k + 1, v =>
    if v = root then some []
    else match htab.find? (fun e => e.2 == v) with
      | none => none
      | some (i, _) => (treePath htab root k (BitVec.ofNat 16 (0x100 + i / 2))).map (· ++ [i % 2 == 1])

/-- The present byte values in ascending order (rule R231). -/
def presentBytes (freq : Memory Nat) : List Nat := (freq.filter fun c => 0 < c.2).map Prod.fst

/-- CODE for each byte value of a list (rule R241). -/
def codesLoop : List Nat → State → Except Stop State
  | [], s => .ok s
  | b :: bs, s =>
    match treePath s.htab s.hf.htLen 256 (BitVec.ofNat 16 b) with
    | none => .error (.fault (.readUnwritten .path b))
    | some bits => codesLoop bs { s with he := { s.he with code := Memory.write s.he.code b bits } }

/-- HF.CODES (rule R241). -/
def hfCodes (s : State) : Except Stop State := codesLoop (presentBytes s.he.freq) s

/-- The loop of HF.PACK (rule R242). -/
def packLoop : List Byte → State → Except Stop State
  | [], s => .ok s
  | v :: vs, s => do
    let bits ← readOrStop .code s.he.code v.toNat
    packLoop vs (hfwCode bits s)

/-- HF.PACK (rules R242, R243), the bitstream going to OUT right after the table (log 17). -/
def hfPack (hsrc : List Byte) (s : State) : Except Stop State := do
  let s := setDp (18 + 2 * htNent s.hf.htLen) { s with he := { s.he with hAcc := 0, hCnt := 0 } }
  let s ← packLoop hsrc s
  .ok (hfwFinish s)

/-- HF.ENCODE (rule R230). -/
def hfEncode (hsrc : List Byte) (s : State) : Except Stop State := do
  let s ← hfStore (hfBuild hsrc s)
  let s ← hfCodes s
  hfPack hsrc s

end Sys2Proof.Machine
end

