-- ==== Sys2Proof/Machine/Commands.lean ====
section
/-! DEFINITION. Unit U7 (`46_dispatch.md`): the meanings of the two commands and of their data paths. -/

namespace Sys2Proof.Machine

/-! ### The commands (rules R255, R256, R262) -/

/-- DECOMPRESS (rules R255, R256): command start and HDR.PARSE, after which the header's algorithm selects the data
path. While BUSY it changes nothing (rule R255). -/
def execDecompress (s : State) : Host.Outcome State Fault Refusal :=
  if s.busy then .next s
  else outcomeOf (do
    let s ← hdrParse Config.magic (cmdStart false s.ctrlAlg s)
    .ok (setPhase .decSelect s))

/-- The two checks of COMPRESS (rule R262), E_ALG before E_SIZE (rule R294). -/
def compressChecks (s : State) : Except Stop State :=
  if legalAlg s.seq.smpAlg = false then .error (.raise .eAlg s.seq.smpAlg.toNat s)
  else if Config.sizeMax < s.seq.inLen then .error (.raise .eSize s.seq.inLen s)
  else .ok { s with le := { s.le with srcLen := s.seq.inLen } }

/-- COMPRESS (rules R255, R262): command start and the two checks, after which the sampled algorithm selects the
data path. While BUSY it changes nothing (rule R255). -/
def execCompress (alg : Half) (s : State) : Host.Outcome State Fault Refusal :=
  if s.busy then .next s
  else outcomeOf (do
    let s ← compressChecks (cmdStart true alg s)
    .ok (setPhase .encSelect s))

/-! ### Decoder data paths (rules R257 to R261) -/

/-- `ip <- doff` (rules R258, R259). -/
def setIp (n : Nat) (s : State) : State := { s with lz := { s.lz with ip := n } }

/-- `repeat n times: b <- IN.RDBYTE(); call EMIT(b)` (rule R258). -/
def rawLoop : Nat → State → Except Stop State
  | 0, s => .ok s
  | n + 1, s => do
    let (b, s) ← inRdByte s
    rawLoop n (emit b s)

/-- DEC.RAW (rules R258, R269). -/
def execDecRaw (s : State) : Host.Outcome State Fault Refusal :=
  outcomeOf (do
    let s := setIp s.doff (setHfEn false s)
    if s.seq.inLen < s.doff + s.dsize then .error (.raise .eTrunc s.seq.inLen s)
    else
      let s ← rawLoop s.dsize s
      .ok (endDone s.lz.outLen s))

/-- DEC.LZ (rule R259): the tokens follow. -/
def execDecLz (s : State) : Host.Outcome State Fault Refusal :=
  .next (setPhase .lzLoop (setIp s.doff (setHfEn false s)))

/-- DEC.HFIRW (rule R260): the table words follow. -/
def execDecHfirw (s : State) : Host.Outcome State Fault Refusal :=
  outcomeOf (do
    let s ← htLoad (setHfEn true s)
    .ok (setPhase .hfirwLoop s))

/-- DEC.HFI (rule R261): the tokens follow, their bytes coming out of the Huffman decoder. -/
def execDecHfi (s : State) : Host.Outcome State Fault Refusal :=
  outcomeOf (do
    let s ← htLoad (setHfEn true s)
    .ok (setPhase .lzLoop s))

/-! ### Encoder data paths (rules R263 to R266, R269) -/

/-- The source bytes of a COMPRESS: `IN[0 .. src_len - 1]`. -/
def srcBytes (s : State) : Except Stop (List Byte) := inReadMany s 0 s.le.srcLen

/-- The bytes `MID[a], ..., MID[a + n - 1]` (rule R266). -/
def midBytes (s : State) : Nat → Nat → Except Stop (List Byte)
  | _, 0 => .ok []
  | a, n + 1 => do
    let b ← readOrStop .mid s.mid a
    let bs ← midBytes s (a + 1) n
    .ok (b :: bs)

/-- `OUT_LEN <- dp; end command with DONE` (rules R262, R269). -/
def endCompress (s : State) : State := endDone s.le.dp s

/-- ENC.RAW (rule R263). -/
def execEncRaw (s : State) : Host.Outcome State Fault Refusal :=
  outcomeOf (do
    let src ← srcBytes s
    .ok (endCompress (appendAll .out src (setDp 16 (hdrBuild 0 s.le.srcLen 0 s)))))

/-- ENC.LZ (rule R264). -/
def execEncLz (s : State) : Host.Outcome State Fault Refusal :=
  outcomeOf (do
    let src ← srcBytes s
    let s ← lzEncode .out src (setDp 16 (hdrBuild 3 s.le.srcLen 0 s))
    .ok (endCompress s))

/-- ENC.HFIRW (rule R265). -/
def execEncHfirw (s : State) : Host.Outcome State Fault Refusal :=
  outcomeOf (do
    let src ← srcBytes s
    let s ← hfEncode src s
    .ok (endCompress (hdrBuild 2 s.le.srcLen (htNent s.hf.htLen) s)))

/-- ENC.HFI (rule R266): the LZ77 stream is complete in MID before the Huffman pass reads it. -/
def execEncHfi (s : State) : Host.Outcome State Fault Refusal :=
  outcomeOf (do
    let src ← srcBytes s
    let s ← lzEncode .mid src (setDp 0 s)
    let hsrc ← midBytes s 0 s.le.dp
    let s ← hfEncode hsrc s
    .ok (endCompress (hdrBuild 4 s.le.srcLen (htNent s.hf.htLen) s)))

end Sys2Proof.Machine
end

