-- ==== Sys2Proof/Machine/Dispatch.lean ====
section
/-! DEFINITION. The dispatch: one arm per instruction. -/

namespace Sys2Proof.Machine

def exec (i : Instr) (s : State) : Host.Outcome State Fault Refusal :=
  match i with
  | .decompress => Sys2Proof.Machine.execDecompress s
  | .compress alg => Sys2Proof.Machine.execCompress alg s
  | .encRaw => Sys2Proof.Machine.execEncRaw s
  | .encHfirw => Sys2Proof.Machine.execEncHfirw s
  | .encLz => Sys2Proof.Machine.execEncLz s
  | .encHfi => Sys2Proof.Machine.execEncHfi s
  | .decRaw => Sys2Proof.Machine.execDecRaw s
  | .decHfirw => Sys2Proof.Machine.execDecHfirw s
  | .decLz => Sys2Proof.Machine.execDecLz s
  | .decHfi => Sys2Proof.Machine.execDecHfi s
  | .lit v => Sys2Proof.Machine.execLit v s
  | .refA l o => Sys2Proof.Machine.execRefA l o s
  | .refB l o => Sys2Proof.Machine.execRefB l o s
  | .refC o n => Sys2Proof.Machine.execRefC o n s
  | .runD o => Sys2Proof.Machine.execRunD o s
  | .refE o t => Sys2Proof.Machine.execRefE o t s
  | .htLeaf b => Sys2Proof.Machine.execHtLeaf b s
  | .htNode n => Sys2Proof.Machine.execHtNode n s
  | .htInvalid x => Sys2Proof.Machine.execHtInvalid x s

end Sys2Proof.Machine
end

