-- ==== Sys2Proof/Machine/Sequencer.lean ====
section
/-! DEFINITION. The sequencer between instructions, the host's accesses, and the placing of an instruction where
the next step fetches it (rules R22, R23, R165, R221, R255, R256, R262, R331, R338). -/

namespace Sys2Proof.Machine

/-! ### One step of the sequencer -/

/-- The CTRL word of the running COMPRESS: what `case alg of` reads (rule R262). -/
def encWord (s : State) : Word :=
  s.seq.smpAlg ++ (0 : BitVec 14) ++ BitVec.ofBool s.seq.smpOp ++ (1 : BitVec 1)

/-- Runs what a fetch delivered. -/
def runFetched : Except Stop (Instr × State) → Host.Outcome State Fault Refusal
  | .ok (i, s) => exec i s
  | .error e => e.outcome

/-- One step of the sequencer: it fetches the next instruction in the format its phase says and runs it; the loops
of rules R165 and R221 end the command when `out_len = dsize`. Between commands nothing happens (rule R305). An
algorithm id without a data path raises E_ALG (rules R134, R291); HDR.PARSE and COMPRESS let none through. -/
def seqStep (s : State) : Host.Outcome State Fault Refusal :=
  match s.seq.phase with
  | .idle => .next s
  | .decSelect =>
    match decodeHdrAlg s.cr.hdrAlg with
    | .ok i => exec i s
    | .error _ => outcomeOf (.error (.raise .eAlg s.cr.hdrAlg.toNat s))
  | .encSelect =>
    match decodeEncSelect (encWord s) with
    | .ok i => exec i s
    | .error _ => outcomeOf (.error (.raise .eAlg s.seq.smpAlg.toNat s))
  | .lzLoop => if s.lz.outLen = s.dsize then .next (endDone s.lz.outLen s) else runFetched (fetchToken s)
  | .hfirwLoop =>
    if s.lz.outLen = s.dsize then .next (endDone s.lz.outLen s)
    else exec (decodeHtWord s.hf.htLen) (setNode s.hf.htLen s)
  | .hfirwWord => exec (decodeHtWord s.hf.node) s

/-! ### The host's accesses (rules R22, R331, R338) -/

/-- A host action that reaches an idle core takes effect; one that reaches a BUSY core is refused (rule R331). -/
def whenIdle (s s' : State) : Host.Outcome State Fault Refusal :=
  if s.busy then .refused .hostAccessWhileBusy else .next s'

/-- A host's write to CTRL (rules R22, R255; log 3). With `start = 1` it runs the command, or changes nothing while
BUSY; with `start = 0` it only stores `op` and `alg`. -/
def hostWriteCtrl (w : Word) (s : State) : Host.Outcome State Fault Refusal :=
  match decodeCtrl w with
  | .ok i => exec i (if s.busy then s else writeCtrlReg w s)
  | .error _ => whenIdle s (writeCtrlReg w s)

/-- Takes the action at the head of the host's queue; `s` is the state without it. -/
def hostStep (op : HostOp) (s : State) : Host.Outcome State Fault Refusal :=
  match op with
  | .writeIn a b => whenIdle s { s with inMem := Memory.write s.inMem a b }
  | .writeInLen n => whenIdle s { s with cr := { s.cr with inLenReg := n } }
  | .writeCtrl w => hostWriteCtrl w s
  | .waitDone => if s.busy then seqStep { s with host := .waitDone :: s.host } else .next s
  | .reset => .next { State.reset with host := s.host, freeCtr := s.freeCtr }

/-- One step of the machine: the host's next action, or a step of the sequencer (log 2). -/
def machineStep (s : State) : Host.Outcome State Fault Refusal :=
  match s.host with
  | [] => seqStep s
  | op :: rest => hostStep op { s with host := rest }

/-! ### The host's reads (rules R22, R79, R331; log 27) -/

/-- The value the host reads from register CR<n> (rule R22). -/
def hostReadReg (n : Nat) (s : State) : Except Refusal Nat :=
  match n with
  | 0 => .ok s.cr.ctrl.toNat
  | 1 => .ok s.cr.inLenReg
  | 2 => .ok s.cr.status.code.toNat
  | 3 => .ok s.cr.faultCode.toNat
  | 4 => .ok s.cr.faultInfo
  | 5 => if s.busy then .error .hostAccessWhileBusy else .ok s.cr.outLenReg
  | 6 => .ok s.cr.hdrVersion.toNat
  | 7 => .ok s.cr.hdrAlg.toNat
  | 8 => .ok s.cr.hdrDoff.toNat
  | 9 => .ok s.cr.hdrDsize.toNat
  | _ => .error .hostReadOutOfRange

/-- The byte the host reads from OUT (rules R35, R62, R331). -/
def hostReadOut (a : Nat) (s : State) : Except Refusal Byte :=
  if s.busy then .error .hostAccessWhileBusy
  else if s.cr.outLenReg ≤ a then .error .hostReadOutOfRange
  else match Memory.read s.out a with
    | some b => .ok b
    | none => .error .hostReadOutOfRange

/-! ### Placing an instruction (log 21) -/

/-- How many data bytes follow a token's own items (rule R171). -/
def dataBytes : Except DecodeError Instr → Nat
  | .ok (.runD o) => runOf o
  | _ => 0

/-- A running command at a given phase, no host action in front of it. -/
def runningAt (p : Phase) (s : State) : State :=
  { setPhase p s with cr := { s.cr with status := .busy }, host := [] }

/-- Puts a token's bytes at `ip`, with a fresh bit cursor and `out_len != dsize`, so that the loop of LZ.DECODE
fetches it from IN. -/
def placeToken (bytes : List Byte) (s : State) : State :=
  let s := setHfEn false (runningAt .lzLoop s)
  { s with
    seq := { s.seq with inLen := max s.seq.inLen (s.lz.ip + bytes.length) }
    cr := { s.cr with hdrDsize := if s.lz.outLen = s.dsize then s.cr.hdrDsize - 1 else s.cr.hdrDsize }
    lz := { s.lz with rem := 0 }
    inMem := Memory.writeAll s.inMem s.lz.ip bytes }

/-- `s` with the bytes of a format placed where the next step fetches an instruction of that format. -/
def placeInstruction (f : Format) (bytes : List Byte) (s : State) : State :=
  match f with
  | .ctrlWrite =>
    { setPhase .idle s with
      cr := { s.cr with status := if s.busy then .idle else s.cr.status }
      host := [.writeCtrl ((word32 bytes).toOption.getD 0)] }
  | .encSelect =>
    let w := (word32 bytes).toOption.getD 0
    let s := runningAt .encSelect s
    { s with seq := { s.seq with smpOp := w.getLsbD 1, smpAlg := w.extractLsb' 16 16 } }
  | .hdrAlg =>
    let s := runningAt .decSelect s
    { s with cr := { s.cr with hdrAlg := (word16 bytes).toOption.getD 0 } }
  | .lzToken => placeToken (bytes ++ List.replicate (dataBytes (decode .lzToken bytes)) 0) s
  | .htWord => setNode ((word16 bytes).toOption.getD 0) (runningAt .hfirwWord s)

end Sys2Proof.Machine
end

