-- ==== Sys2Proof/Machine/Step.lean ====
section
/-! DEFINITION. The machine's step and the placing of an instruction in front of it. -/

namespace Sys2Proof.Machine

/-- One step: a host action, or the sequencer's next instruction (log 1, log 2). -/
def step (s : State) : Host.Outcome State Fault Refusal := machineStep s

/-- `s` with an instruction of the opcode table placed where `step` fetches its next instruction (log 21). -/
def State.withFetchWord (s : State) (nbits w : Nat) : State :=
  placeInstruction (tableLayout nbits w).1 (tableLayout nbits w).2 s

end Sys2Proof.Machine
end

