-- ==== Sys2Proof/Safety.lean ====
section
/-! DEFINITION. The terms in which claims about the machine are stated: what a legal state is, what IN holds, what
a token sequence stands for, and what counts as a safe step. -/

namespace Sys2Proof.Safety

open Sys2Proof.Machine

/-! ### Memories -/

/-- The elements `a, ..., a + n - 1` of a memory have been written. -/
def WrittenFrom {α : Type} (m : Memory α) (a n : Nat) : Prop :=
  ∀ k, k < n → (Memory.read m (a + k)).isSome = true

/-- A register file in canonical form, with a value in each of its 256 entries (rule R32). -/
def RegisterFile {α : Type} (m : Memory α) : Prop := Memory.wf m = true ∧ WrittenFrom m 0 256

/-- Every memory of the machine is in canonical form, and every entry of FREQ and CODE holds a value. -/
def Canonical (s : State) : Prop :=
  Memory.wf s.inMem = true ∧ Memory.wf s.out = true ∧ Memory.wf s.win = true ∧ Memory.wf s.mid = true ∧
    Memory.wf s.htab = true ∧ RegisterFile s.he.freq ∧ RegisterFile s.he.code

/-- The elements `a, a + 1, ...` of a memory hold a sequence. -/
def HoldsAt {α : Type} (m : Memory α) (a : Nat) (vs : List α) : Prop :=
  ∀ k, k < vs.length → Memory.read m (a + k) = vs[k]?

/-- The host has loaded IN with `bs` and written IN_LEN (rule R322). -/
def Loaded (s : State) (bs : List Byte) : Prop := s.cr.inLenReg = bs.length ∧ HoldsAt s.inMem 0 bs

/-- Every byte of IN that the running command may read has been written (rules R61, R322). -/
def InCovered (s : State) : Prop := WrittenFrom s.inMem 0 s.seq.inLen

/-! ### The window (rules R63, R181) -/

/-- The last 8192 output bytes stand in WIN: `WIN[(out_len - k) mod 8192] = OUT[out_len - k]` for
`1 <= k <= min(out_len, 8192)`, all of OUT below `out_len` written, and `wp = out_len mod 8192`. -/
def WindowHolds (s : State) : Prop :=
  s.lz.wp.toNat = s.lz.outLen % Config.winSize ∧ WrittenFrom s.out 0 s.lz.outLen ∧
    ∀ k, 1 ≤ k → k ≤ s.lz.outLen → k ≤ Config.winSize →
      Memory.read s.win ((s.lz.outLen - k) % Config.winSize) = Memory.read s.out (s.lz.outLen - k)

/-! ### Legal states -/

/-- The phases of a DECOMPRESS. -/
def Phase.decoding : Phase → Bool
  | .decSelect | .lzLoop | .hfirwLoop | .hfirwWord => true
  | .idle | .encSelect => false

/-- The phases in which a decoder produces output. -/
def Phase.producing : Phase → Bool
  | .lzLoop | .hfirwLoop | .hfirwWord => true
  | .idle | .encSelect | .decSelect => false

/-- The LZ77 stream writer rests with a legal group: at most 8 open bits, at most 8 bytes in PFIFO, and others only
behind a full PFIFO (rules R31, R60, R67; log 25). -/
def WriterLegal (e : LzEncoder) : Prop :=
  e.wCnt ≤ 8 ∧ e.pfifo.length ≤ 8 ∧ (e.pfOver ≠ [] → e.pfifo.length = 8)

/-- The register rules: CTRL's unstored bits are 0, FAULT_CODE and FAULT_INFO are 0 unless STATUS is FAULT and a
legal code then, OUT_LEN is 0 unless STATUS is DONE (rules R22, R281 to R283), and the bit writers rest with a legal
count (rules R31, R32, R67), HTAB's size is legal (rule R64). -/
def RegistersLegal (s : State) : Prop :=
  s.cr.ctrl &&& ~~~ctrlMask = 0 ∧
  (s.cr.status ≠ .fault → s.cr.faultCode = 0 ∧ s.cr.faultInfo = 0) ∧
  (s.cr.status = .fault → 2 ≤ s.cr.faultCode.toNat ∧ s.cr.faultCode.toNat ≤ 9) ∧
  (s.cr.status ≠ .done → s.cr.outLenReg = 0) ∧
  WriterLegal s.le ∧ s.he.hCnt ≤ 7 ∧ s.hf.htCnt ≤ Config.htMaxEntries

/-- STATUS is BUSY exactly while a rule is left to continue with; DECOMPRESS and COMPRESS go through their own
phases with the operands their checks let through (rules R131, R255, R256, R262). -/
def PhaseLegal (s : State) : Prop :=
  (s.cr.status = .busy ↔ s.seq.phase ≠ .idle) ∧
  (Phase.decoding s.seq.phase = true → s.seq.smpOp = false ∧ legalAlg s.cr.hdrAlg = true ∧
    16 ≤ s.doff ∧ s.doff ≤ s.seq.inLen ∧ (huffmanAlg s.cr.hdrAlg = true → 18 ≤ s.doff)) ∧
  (s.seq.phase = .decSelect → s.lz.outLen = 0 ∧ s.lz.wp = 0) ∧
  (s.seq.phase = .encSelect → s.seq.smpOp = true ∧ legalAlg s.seq.smpAlg = true ∧
    s.le.srcLen = s.seq.inLen ∧ s.seq.inLen ≤ Config.sizeMax)

/-- A decoder that produces output has not passed `dsize`, its window holds, and its table is loaded (rules R180,
R181, R223); after a DECOMPRESS that ended DONE, OUT holds exactly `dsize` bytes (rule R268). -/
def DecodeLegal (s : State) : Prop :=
  (Phase.producing s.seq.phase = true → s.lz.outLen ≤ s.dsize ∧ WindowHolds s) ∧
  (s.seq.phase = .hfirwWord → s.lz.outLen < s.dsize) ∧
  (s.seq.phase = .hfirwLoop ∨ s.seq.phase = .hfirwWord ∨ (s.seq.phase = .lzLoop ∧ s.seq.hfEn = true) →
    WrittenFrom s.htab 0 s.hf.htCnt) ∧
  (s.cr.status = .done → s.seq.smpOp = false →
    s.cr.outLenReg = s.dsize ∧ WrittenFrom s.out 0 s.cr.outLenReg)

/-- The invariant of the machine. -/
def Inv (s : State) : Prop := Canonical s ∧ RegistersLegal s ∧ PhaseLegal s ∧ DecodeLegal s

/-! ### Steps -/

/-- The step neither stops the model nor is refused. -/
def Completes (o : Host.Outcome State Fault Refusal) : Prop := ∃ t, o = .next t

/-- The values of `STATUS.state` of rule R22, written out. -/
def statusNumber : Status → Nat
  | .idle => 0
  | .busy => 1
  | .done => 2
  | .noMatch => 3
  | .fault => 4

/-- The FAULT_CODE values of rule R281, written out. -/
def faultNumber : CoreFault → BitVec 4
  | .eTrunc => 2
  | .eAlg => 3
  | .eBadref => 4
  | .eOverrun => 5
  | .eHtIndex => 6
  | .eHtEntry => 7
  | .eHdr => 8
  | .eSize => 9

/-- The core has taken a fault, and nothing executes any more (rules R281, R283). -/
def Faulted (f : CoreFault) (info : Nat) (t : State) : Prop :=
  t.cr.status = .fault ∧ t.cr.faultCode = faultNumber f ∧ t.cr.faultInfo = info ∧ t.cr.outLenReg = 0 ∧
    t.seq.phase = .idle

/-- What a fault of a data path leaves alone, whichever rule raised it (rule R283): the other registers of the host's
block, the sequencer but for its phase, HTAB, everything the encoders own, IN, MID, and what the host has queued. -/
def FaultFrame (s t : State) : Prop :=
  t.cr = { s.cr with
    status := t.cr.status
    faultCode := t.cr.faultCode
    faultInfo := t.cr.faultInfo
    outLenReg := t.cr.outLenReg } ∧
  t.seq = { s.seq with phase := .idle } ∧ t.htab = s.htab ∧ t.le = s.le ∧ t.he = s.he ∧ t.inMem = s.inMem ∧
    t.mid = s.mid ∧ t.host = s.host ∧ t.freeCtr = s.freeCtr

/-- An operation of a decoder leaves alone everything the encoders own, IN, MID, and what the host sees or has
queued. -/
def SameOutsideDecoder (s t : State) : Prop :=
  t.cr = s.cr ∧ t.le = s.le ∧ t.he = s.he ∧ t.inMem = s.inMem ∧ t.mid = s.mid ∧ t.host = s.host ∧
    t.freeCtr = s.freeCtr

/-- The header registers hold the four fields of a header (rules R22, R131). -/
def HeaderLatched (ver alg : Half) (doff dsize : Word) (t : State) : Prop :=
  t.cr.hdrVersion = ver ∧ t.cr.hdrAlg = alg ∧ t.cr.hdrDoff = doff ∧ t.cr.hdrDsize = dsize

/-- `u` is `t` but for CR6 to CR9, which rule R22 leaves as they were until a header is latched, and the values that rule
R35 leaves unspecified at command start: the token temporaries and CODE, drawn by the counter of free values (log 8). -/
def SameButHeader (t u : State) : Prop :=
  u = { t with
    cr := { t.cr with
      hdrVersion := u.cr.hdrVersion
      hdrAlg := u.cr.hdrAlg
      hdrDoff := u.cr.hdrDoff
      hdrDsize := u.cr.hdrDsize }
    tmp := u.tmp
    he := { t.he with code := u.he.code }
    freeCtr := u.freeCtr }

/-- The column "at command start" of rule R35, value by value, and the samples of rule R255: what the start of a
command makes of `s`. It says nothing of CR6 to CR9, `src_len` and the phase, which the rest of the command's first
step writes, nor of the registers that the column leaves unspecified. OUT, WIN, HTAB and MID hold no value (log 6);
`pfOver` is empty with PFIFO (log 25). -/
def StartedFrom (op : Bool) (alg : Half) (s t : State) : Prop :=
  t.cr = { t.cr with
    ctrl := s.cr.ctrl
    inLenReg := s.cr.inLenReg
    status := .busy
    faultCode := 0
    faultInfo := 0
    outLenReg := 0 } ∧
  t.seq = { phase := t.seq.phase, smpOp := op, smpAlg := alg, inLen := s.cr.inLenReg, hfEn := false } ∧
  t.lz = { ip := 0, cur := 0, rem := 0, outLen := 0, wp := 0 } ∧
  t.hf = { hp := 0, cur := 0, rem := 0, node := 0, htLen := 0, htCnt := 0 } ∧
  t.le = {
    srcLen := t.le.srcLen
    p := 0
    bestLen := 0
    bestDist := 0
    candDist := 0
    candLen := 0
    chunk := 0
    wAcc := 0
    wCnt := 0
    pfifo := []
    pfOver := []
    dp := 0 } ∧
  (∀ b, b < 256 → Memory.read t.he.freq b = some 0) ∧ t.he.nlist.length = 0 ∧ t.he.nextIdx = 0x100 ∧
  t.he.hAcc = 0 ∧ t.he.hCnt = 0 ∧
  t.out = [] ∧ t.win = [] ∧ t.htab = [] ∧ t.mid = [] ∧ t.inMem = s.inMem ∧ t.host = s.host

/-! ### Byte and bit sources -/

/-- `n` bytes from RDBYTE, one after another (rules R149, R171). -/
def rdBytes : Nat → State → Except Stop (List Byte × State)
  | 0, s => .ok ([], s)
  | n + 1, s => do
    let (b, s) ← rdByte s
    let (bs, s) ← rdBytes n s
    .ok (b :: bs, s)

/-- `n` bits of the Huffman bitstream, one after another (rule R147). -/
def rdBits : Nat → State → Except Stop (List Bool × State)
  | 0, s => .ok ([], s)
  | n + 1, s => do
    let (b, s) ← hfRdBit s
    let (bs, s) ← rdBits n s
    .ok (b :: bs, s)

/-- Reading `k` tokens of a plain stream in a row (rule R156). -/
def decodeTokens : Nat → StreamPos → Except DecodeError (List Instr × StreamPos)
  | 0, p => .ok ([], p)
  | k + 1, p => do
    let (t, p) ← decodeToken p
    let (ts, p) ← decodeTokens k p
    .ok (t :: ts, p)

/-- How many data bytes follow a token's own items (rule R102): RUN.D has `off + 0x1B`. -/
def dataLength : Instr → Nat
  | .runD o => o.toNat + 0x1B
  | .decompress | .compress _ | .encRaw | .encHfirw | .encLz | .encHfi => 0
  | .decRaw | .decHfirw | .decLz | .decHfi => 0
  | .lit _ | .refA _ _ | .refB _ _ | .refC _ _ | .refE _ _ => 0
  | .htLeaf _ | .htNode _ | .htInvalid _ => 0

/-- The items of a token and of its data bytes (rules R96, R102). -/
def itemsWithData (t : Instr × List Byte) : List Item := t.1.items ++ t.2.map Item.payload

/-- `n` payload bytes of a plain stream (rule R149). -/
def readPayload : Nat → StreamPos → Except DecodeError (List Byte × StreamPos)
  | 0, p => .ok ([], p)
  | n + 1, p => do
    let (b, p) ← p.rdByte
    let (bs, p) ← readPayload n p
    .ok (b :: bs, p)

/-- Reading `k` tokens of a plain stream in a row, each with its data bytes (rules R102, R156). -/
def decodeWithData : Nat → StreamPos → Except DecodeError (List (Instr × List Byte) × StreamPos)
  | 0, p => .ok ([], p)
  | k + 1, p => do
    let (t, p) ← decodeToken p
    let (bs, p) ← readPayload (dataLength t) p
    let (ts, p) ← decodeWithData k p
    .ok ((t, bs) :: ts, p)

/-- Following the bits of a code from a table value (rule R216, on a table held as a memory): the value reached,
none where a step meets no node or no entry. -/
def walkTable (htab : Memory Half) : List Bool → Half → Option Half
  | [], v => some v
  | b :: bs, v =>
    match decodeHtWord v with
    | .htNode n => (Memory.read htab (htIndex n.toNat b)).bind (walkTable htab bs)
    | _ => none

/-- Every index `node*2 - 0x200 + bit` on the walk along `bits` from the root is below `ht_cnt` (rules R95, R216). -/
def WalkInTable (s : State) (bits : List Bool) : Prop :=
  ∀ k v b, walkTable s.htab (bits.take k) s.hf.htLen = some v → bits[k]? = some b →
    v.toNat * 2 - 0x200 + b.toNat < s.hf.htCnt

/-- A descent from `s` has read `bits` and stands at the node `n`, in the state `u` (rule R216). -/
def DescentAt (s : State) (bits : List Bool) (n : BitVec 15) (u : State) : Prop :=
  WalkInTable s bits ∧ ∃ w, rdBits bits.length s = .ok (bits, w) ∧ 0x100 ≤ n.toNat ∧
    walkTable s.htab bits s.hf.htLen = some (n.setWidth 16) ∧ u = { w with hf := { w.hf with node := n.setWidth 16 } }

/-! ### What tokens stand for (rule R105) -/

/-- The stored offset and the length of a reference token (rule R105). -/
def refOperands : Instr → Option (BitVec 13 × Nat)
  | .refA l o => some (o.setWidth 13, l.toNat + 3)
  | .refB l o => some (o, l.toNat + 2)
  | .refC o n => some (o, n.toNat + 10)
  | .refE o t => some (o, t.toNat + 0x1A)
  | .decompress | .compress _ | .encRaw | .encHfirw | .encLz | .encHfi => none
  | .decRaw | .decHfirw | .decLz | .decHfi => none
  | .lit _ | .runD _ | .htLeaf _ | .htNode _ | .htInvalid _ => none

/-- `n` bytes of `dest[i] = dest[i - dist]` appended to `dest` (rules R105, R184); none where `dist` reaches beyond
the bytes produced. -/
def copyBytes (dist : Nat) : Nat → List Byte → Option (List Byte)
  | 0, dest => some dest
  | n + 1, dest =>
    if dist = 0 ∨ dest.length < dist then none
    else match dest[dest.length - dist]? with
      | some b => copyBytes dist n (dest ++ [b])
      | none => none

/-- The output that a sequence of literal and reference tokens appends to `dest` (rules R97, R105). RUN.D is none
of the encoder's tokens (rule R201). -/
def expandTokens : List Instr → List Byte → Option (List Byte)
  | [], dest => some dest
  | t :: ts, dest =>
    match t with
    | .lit v => expandTokens ts (dest ++ [v])
    | t =>
      match refOperands t with
      | some (off, len) => (copyBytes (distOf off) len dest).bind (expandTokens ts)
      | none => none

/-- The token is one of the six kinds (rule R97). -/
def isToken (i : Instr) : Bool := i.format == .lzToken

/-- The `k` bytes at distance `d` before position `p` of a source match those at `p` (rule R191). -/
def Matches (src : List Byte) (p d n : Nat) : Prop :=
  ∀ i, i < n → p + i < src.length ∧ src[p + i]? = src[p + i - d]?

/-! ### What the encoders choose -/

/-- `n` is the length of the longest match of the window at `p`, and `d` the smallest distance that has it (rules R191,
R192). -/
def LongestMatch (src : List Byte) (p d n : Nat) : Prop :=
  1 ≤ d ∧ d ≤ min p 8192 ∧ Matches src p d n ∧
    ∀ e, 1 ≤ e → e ≤ min p 8192 → ¬ Matches src p e (n + 1) ∧ (e < d → ¬ Matches src p e n)

/-- The lengths of the chunks of a match of length `n` (rule R194): 280 each, then the remainder unless it is 1 or 2. -/
def chunkLengths (n : Nat) : List Nat := List.replicate (n / 280) 280 ++ if n % 280 < 3 then [] else [n % 280]

/-- The token is well-formed, stands for a stored offset and a length, and is of the narrowest case that fits (rules
R105, R195). -/
def NarrowestCase (off len : Nat) (t : Instr) : Prop :=
  t.wellFormed = true ∧ refOperands t = some (BitVec.ofNat 13 off, len) ∧
    (if len ≤ 6 ∧ off ≤ 255 then ∃ l o, t = .refA l o
     else if len ≤ 9 then ∃ l o, t = .refB l o
     else if len ≤ 25 then ∃ o n, t = .refC o n
     else ∃ o e, t = .refE o e)

/-- The tokens of the greedy encoder for a source from a position on (rules R190, R193 to R195): a literal where no
match of the window has length 3, else the chunks of the longest match. -/
inductive GreedyTokens (src : List Byte) : Nat → List Instr → Prop where
  /-- The source is used up. -/
  | done (p : Nat) (h : src.length ≤ p) : GreedyTokens src p []
  /-- A literal (rule R193). -/
  | literal (p : Nat) (v : Byte) (ts : List Instr) (hv : src[p]? = some v)
      (hn : ∀ d, 1 ≤ d → d ≤ min p 8192 → ¬ Matches src p d 3) (h : GreedyTokens src (p + 1) ts) :
      GreedyTokens src p (.lit v :: ts)
  /-- The chunks of a match, one token each (rules R194, R195). -/
  | reference (p d n : Nat) (cs ts : List Instr) (hm : LongestMatch src p d n) (hn : 3 ≤ n)
      (hc : List.Forall₂ (NarrowestCase (d - 1)) (chunkLengths n) cs)
      (h : GreedyTokens src (p + (chunkLengths n).sum) ts) : GreedyTokens src p (cs ++ ts)

/-- The list that HF.BUILD starts with (rule R234): one item for each present byte value, by frequency and, among equal
frequencies, by value. -/
def InitialList (hsrc : List Byte) (l : List (Nat × Half)) : Prop :=
  l.Pairwise (fun x y => x.1 < y.1 ∨ (x.1 = y.1 ∧ x.2.toNat < y.2.toNat)) ∧
    ∀ x, x ∈ l ↔ ∃ b ∈ hsrc, x = (hsrc.count b, b.setWidth 16)

/-- The merges from node `0x100 + j` on, begun with the list given, end with the root given and have left their entries
in `htab` (rules R235 to R238): the first item is the bit-0 child, the second the bit-1 child, and the new node goes
behind every item of at most its frequency. -/
inductive Merged (htab : Memory Half) : Nat → List (Nat × Half) → Half → Prop where
  /-- One item is left (rule R238). -/
  | root (j f : Nat) (id : Half) : Merged htab j [(f, id)] id
  /-- HF.MERGE (rule R235). -/
  | merge (j fa fb : Nat) (a b : Half) (l1 l2 : List (Nat × Half)) (id : Half)
      (h0 : Memory.read htab (2 * j) = some a) (h1 : Memory.read htab (2 * j + 1) = some b)
      (hl : ∀ x ∈ l1, x.1 ≤ fa + fb) (hg : ∀ x ∈ l2, fa + fb < x.1)
      (h : Merged htab (j + 1) (l1 ++ (fa + fb, BitVec.ofNat 16 (0x100 + j)) :: l2) id) :
      Merged htab j ((fa, a) :: (fb, b) :: (l1 ++ l2)) id

/-- Bits packed into bytes, the first in bit 7, the last byte padded with 0 (rules R108, R157, R159). -/
def packBits : List Bool → List Bool → List Byte
  | [], acc => if acc = [] then [] else [flagByte acc]
  | b :: bs, acc =>
    if acc.length = 7 then flagByte (acc ++ [b]) :: packBits bs [] else packBits bs (acc ++ [b])

/-! ### Whole blobs (rules R90, R91, R244) -/

/-- The header that a COMPRESS writes in front of `size` bytes with `nent` table entries (rule R136). -/
def builtHeader (alg : Half) (size nent : Nat) : List Byte :=
  headerBytes Config.magic Config.version alg (BitVec.ofNat 32 (builtDoff alg nent)) (BitVec.ofNat 32 size)

/-- The table entries a blob stores (rules R239, R240): those of the tree, then 0. -/
def storedEntries (htab : Memory Half) (root : Half) : List Half :=
  (List.range (htNent root)).map fun i =>
    if isTreeEntry root.toNat i then (Memory.read htab i).getD 0 else 0

/-- The blob of a Huffman-bearing COMPRESS (rule R244) whose bitstream codes `hsrc` by `code`. -/
def huffmanBlob (alg : Half) (size : Nat) (htab : Memory Half) (root : Half) (code : Byte → List Bool)
    (hsrc : List Byte) : List Byte :=
  builtHeader alg size (htNent root) ++ le16Bytes root ++ (storedEntries htab root).flatMap le16Bytes ++
    packBits (hsrc.flatMap code) []

/-- The host starts a command with the CTRL word `w` on the bytes `bs` in IN and waits for its end. -/
def StartsWith (s : State) (bs : List Byte) (w : Word) : Prop :=
  Loaded s bs ∧ s.busy = false ∧ s.host = [.writeCtrl w, .waitDone]

/-- The command that `s` starts ends DONE with the result `bs` (rules R267, R269, R338). -/
def EndsDoneWith (s : State) (bs : List Byte) : Prop :=
  ∃ n t, Sys2Proof.core.run n s = .next t ∧ t.host = [] ∧ t.cr.status = .done ∧ t.cr.outLenReg = bs.length ∧
    HoldsAt t.out 0 bs

/-- CTRL words (rule R112): DECOMPRESS, and COMPRESS with an algorithm id. -/
def ctrlDecompress : Word := 1
/-- COMPRESS with an algorithm id. -/
def ctrlCompress (alg : Half) : Word := alg ++ (3 : BitVec 16)

/-- `decompress(compress(x, alg)) = x` for every `x` of at most `2^32 - 1` bytes (rule R267), from any state in
which the host may start a command. -/
def RoundTrips (alg : Half) : Prop :=
  ∀ (x : List Byte), x.length ≤ Config.sizeMax → ∀ s, StartsWith s x (ctrlCompress alg) →
    ∃ y, EndsDoneWith s y ∧ ∀ u, StartsWith u y ctrlDecompress → EndsDoneWith u x

end Sys2Proof.Safety
end

