-- ==== Sys2Proof/Certificates/Slice0/Obligations.lean ====
section
/-! DEFINITION. The statements for the provers.

`seq.phase` is the model's own field (log 1). Where a statement names a phase, it says which rule the sequencer
continues with; `idle` says that nothing executes any more. The host's queue is the model's own too (log 2). -/

open Sys2Proof Sys2Proof.Machine Sys2Proof.Safety

/-! ### Encodings -/

/-- Decoding an encoded well-formed instruction gives it back (sections 2 to 8 of `30_encoding.md`). -/
def Obligations.DecodeEncodeAgree : Prop :=
  ∀ i : Instr, i.wellFormed = true → decode i.format (encode i) = .ok i

/-- Whatever the decoder accepts is well-formed and of the format it was read in (rules R97, R106). -/
def Obligations.DecodedIsWellFormed : Prop :=
  ∀ (f : Format) (bytes : List Byte) (i : Instr), decode f bytes = .ok i → i.wellFormed = true ∧ i.format = f

/-- Words decode to the instructions they stand for (a sanity statement): tokens and table words written out from their
encodings, the RUN.D word without the data bytes that rule R102 counts among its items (the model's reading, log 15),
and CTRL words in the byte order that the model gives CTRL (log 22). -/
def Obligations.SpecWordsDecode : Prop :=
  decode .ctrlWrite [0x01, 0x00, 0x00, 0x00] = .ok .decompress ∧
  decode .ctrlWrite [0x03, 0x00, 0x05, 0x00] = .ok (.compress 5) ∧
  decode .encSelect [0x03, 0x00, 0x04, 0x00] = .ok .encHfi ∧
  decode .hdrAlg [0x03, 0x00] = .ok .decLz ∧
  decode .lzToken [0x00, 0x41] = .ok (.lit 0x41) ∧
  decode .lzToken [0xB0, 0x01] = .ok (.refA 3 1) ∧
  decode .lzToken [0xC0, 0x5F, 0xFF] = .ok (.refB 2 8191) ∧
  decode .lzToken [0xC4, 0x00, 0x05] = .ok (.refC 5 2) ∧
  decode .lzToken [0xE0, 0x00, 0x00, 0xFF] = .ok (.runD 0) ∧
  decode .lzToken [0xE0, 0x00, 0x02, 0x07] = .ok (.refE 2 7) ∧
  decode .htWord [0x63, 0x00] = .ok (.htLeaf 0x63) ∧
  decode .htWord [0x01, 0x01] = .ok (.htNode 0x101) ∧
  decode .htWord [0xFE, 0xFF] = .ok (.htInvalid 0x7FFE)

/-- A table word's kind follows its signed value, and the decoded operand keeps the value (rule R94). -/
def Obligations.TableWordKindByValue : Prop :=
  ∀ v : Half,
    (0 ≤ v.toInt ∧ v.toInt < 0x100 → ∃ b, decodeHtWord v = .htLeaf b ∧ (b.toNat : Int) = v.toInt) ∧
    (0x100 ≤ v.toInt → ∃ n, decodeHtWord v = .htNode n ∧ (n.toNat : Int) = v.toInt) ∧
    (v.toInt < 0 → ∃ x, decodeHtWord v = .htInvalid x ∧ htInvalidWord x = v)

/-- A decoder that demands items in token order reads back every token sequence from its stream, flag bytes and
payload bytes interleaved as rule R96 lays them out, and needs every byte of it (rule R156). The first clause is about
`lzStream`, which leaves out RUN.D's data bytes, as the model's RUN.D does (log 15): it is the stream of rule R96 for
sequences without RUN.D. The second clause is about the stream with the data bytes, which rule R102 counts among RUN.D's
items, and a decoder that reads them behind each RUN.D. -/
def Obligations.TokenStreamReadsBack : Prop :=
  (∀ ts : List Instr, (∀ t ∈ ts, isToken t = true ∧ t.wellFormed = true) →
    ∃ p, decodeTokens ts.length (StreamPos.start (lzStream ts)) = .ok (ts, p) ∧ p.bytes = []) ∧
  (∀ ts : List (Instr × List Byte),
    (∀ t ∈ ts, isToken t.1 = true ∧ t.1.wellFormed = true ∧ t.2.length = dataLength t.1) →
    ∃ p, decodeWithData ts.length (StreamPos.start (frameItems (ts.flatMap itemsWithData) [] [])) = .ok (ts, p) ∧
      p.bytes = [])

/-- The LZ77 stream writer, from an empty group, appends exactly the stream of rule R96 to its destination and
changes nothing else (rules R152 to R156). -/
def Obligations.WriterAppendsTheStream : Prop :=
  ∀ (d : Dst) (items : List Item) (s : State), s.le.wAcc = 0 → s.le.wCnt = 0 → s.le.waiting = [] →
    (∀ v, items.head? ≠ some (.payload v)) →
    lzwFinish d (lzwItems d items s) = appendAll d (frameItems items [] []) s

/-- With the direct byte source the machine fetches from IN exactly the token that the plain decoder reads from the
same bytes at the same bit cursor, and leaves its cursors where the plain decoder's are (rules R146, R149, R150,
R166). Nothing but `ip`, `lz_cur`, `lz_rem` and the token temporaries changes. -/
def Obligations.FetchReadsTheStream : Prop :=
  ∀ (s : State) (bytes : List Byte) (i : Instr) (p : StreamPos),
    s.seq.hfEn = false → HoldsAt s.inMem s.lz.ip bytes → s.seq.inLen = s.lz.ip + bytes.length →
    decodeToken ⟨bytes, s.lz.cur, s.lz.rem⟩ = .ok (i, p) →
    ∃ t, fetchToken s = .ok (i, t) ∧
      t = { s with
        lz := { s.lz with ip := s.lz.ip + (bytes.length - p.bytes.length), cur := p.cur, rem := p.rem }
        tmp := t.tmp } ∧
      p.bytes = bytes.drop (bytes.length - p.bytes.length)

/-- In every context in which the sequencer meets an instruction, the step is `exec` of the instruction that the
context's bytes decode to: a CTRL write, the selections of COMPRESS and DECOMPRESS, a token, and a table word at the
root and inside a descent. Where `out_len = dsize` the two loops fetch and read nothing: they end the command with DONE,
OUT_LEN = dsize and no fault, also for `dsize = 0` (rules R165, R221, R269). A host that waits for a BUSY core lets the
sequencer step. That CTRL is stored before the command runs, and kept when the core is BUSY, is the model's reading (log
3); the granularity is the model's choice (log 1, 2, 13). -/
def Obligations.StepRunsTheDecodedInstruction : Prop :=
  ∀ (s : State) (i : Instr),
    (∀ w rest, s.host = .writeCtrl w :: rest → decodeCtrl w = .ok i →
      step s = exec i (if s.busy then { s with host := rest } else writeCtrlReg w { s with host := rest })) ∧
    (s.host = [] → s.seq.phase = .decSelect → decodeHdrAlg s.cr.hdrAlg = .ok i → step s = exec i s) ∧
    (s.host = [] → s.seq.phase = .encSelect → decodeEncSelect (encWord s) = .ok i → step s = exec i s) ∧
    (∀ t, s.host = [] → s.seq.phase = .lzLoop → s.lz.outLen ≠ s.dsize → fetchToken s = .ok (i, t) →
      step s = exec i t) ∧
    (s.host = [] → s.seq.phase = .hfirwLoop → s.lz.outLen ≠ s.dsize → decodeHtWord s.hf.htLen = i →
      step s = exec i (setNode s.hf.htLen s)) ∧
    (s.host = [] → s.seq.phase = .hfirwWord → decodeHtWord s.hf.node = i → step s = exec i s) ∧
    (s.host = [] → s.seq.phase = .lzLoop ∨ s.seq.phase = .hfirwLoop → s.lz.outLen = s.dsize →
      step s = .next { s with
        cr := { s.cr with
          status := .done
          faultCode := 0
          faultInfo := 0
          outLenReg := s.dsize }
        seq := { s.seq with phase := .idle } }) ∧
    (∀ rest, s.host = .waitDone :: rest → s.busy = true → step s = seqStep s)

/-- Fault entry (rule R283), for a fault met while a token's items are fetched (rule R166): it is taken in the state of
that moment and the token does not execute. FAULT_CODE and FAULT_INFO record it, OUT_LEN becomes 0, STATUS becomes
FAULT, nothing executes any more; nothing is saved and every working register keeps what it held. OUT and WIN have no
value from here on (the model's reading of "unspecified", log 12). -/
def Obligations.FetchFaultIsTaken : Prop :=
  ∀ (s t : State) (f : CoreFault) (info : Nat), s.host = [] → s.seq.phase = .lzLoop → s.lz.outLen ≠ s.dsize →
    fetchToken s = .error (.raise f info t) →
    step s = .next { t with
      cr := { t.cr with
        status := .fault
        faultCode := faultNumber f
        faultInfo := info
        outLenReg := 0 }
      seq := { t.seq with phase := .idle }
      out := []
      win := [] }

/-! ### Bit and byte sources, bit writers -/

/-- IN.RDBYTE: E_TRUNC with `ip` at or beyond the end of IN; else the byte at `ip`, and `ip` moves past it (rule
R150). -/
def Obligations.DirectByteSource : Prop :=
  ∀ (s : State) (b : Byte),
    (s.seq.inLen ≤ s.lz.ip → inRdByte s = .error (.raise .eTrunc s.lz.ip s)) ∧
    (s.lz.ip < s.seq.inLen → Memory.read s.inMem s.lz.ip = some b →
      inRdByte s = .ok (b, { s with lz := { s.lz with ip := s.lz.ip + 1 } }))

/-- HF.RDBIT (rules R145, R147): bit `hf_rem - 1` of `hf_cur` while a bit is left; else a fetch at `hp`, whose bit 7
comes first; E_TRUNC with `hp` at the end of IN, nothing changed. -/
def Obligations.HuffmanBitReader : Prop :=
  ∀ (s : State) (b : Byte),
    (s.hf.rem ≠ 0 → hfRdBit s =
      .ok (s.hf.cur.getLsbD (s.hf.rem.toNat - 1), { s with hf := { s.hf with rem := s.hf.rem - 1 } })) ∧
    (s.hf.rem = 0 → s.hf.hp < s.seq.inLen → Memory.read s.inMem s.hf.hp = some b → hfRdBit s =
      .ok (b.getLsbD 7, { s with hf := { s.hf with hp := s.hf.hp + 1, cur := b, rem := 7 } })) ∧
    (s.hf.rem = 0 → s.seq.inLen ≤ s.hf.hp → hfRdBit s = .error (.raise .eTrunc s.hf.hp s))

/-- LZ.RDBIT (rules R145, R146, R342): no byte is fetched while a bit is left; a fetch comes from RDBYTE; if it
raises, `lz_cur` and `lz_rem` are what they were. -/
def Obligations.LazyFlagFetch : Prop :=
  ∀ s : State,
    (s.lz.rem ≠ 0 → lzRdBit s =
      .ok (s.lz.cur.getLsbD (s.lz.rem.toNat - 1), { s with lz := { s.lz with rem := s.lz.rem - 1 } })) ∧
    (∀ b t, s.lz.rem = 0 → rdByte s = .ok (b, t) → lzRdBit s =
      .ok (b.getLsbD 7, { t with lz := { t.lz with cur := b, rem := 7 } })) ∧
    (∀ f info t, s.lz.rem = 0 → rdByte s = .error (.raise f info t) →
      lzRdBit s = .error (.raise f info t) ∧ t.lz = s.lz)

/-- The plain bit writer, from an empty accumulator, packs a code sequence MSB-first into bytes, pads the last one
with 0 bits and changes nothing else (rules R108, R157, R158, R159). -/
def Obligations.HuffmanWriterPacks : Prop :=
  ∀ (bits : List Bool) (s : State), s.he.hAcc = 0 → s.he.hCnt = 0 →
    hfwFinish (hfwCode bits s) = appendAll .out (packBits bits []) s

/-- That rule R67's 8 bytes of PFIFO always suffice, for the token sequences the encoder may write: at every point at
most eight payload bytes wait. The model says that it fails: a group that begins with the second control bit of a REF.B and goes on with
seven LIT tokens holds nine (log 25). -/
def Obligations.PfifoStaysWithinEightBytes : Prop :=
  ∀ (ts : List Instr) (n : Nat) (s : State),
    (∀ t ∈ ts, isToken t = true ∧ t.wellFormed = true ∧ ∀ o, t ≠ .runD o) →
    s.le.wCnt = 0 → s.le.waiting = [] →
    (lzwItems .out ((ts.flatMap Instr.items).take n) s).le.waiting.length ≤ 8

/-! ### Header codec and DECOMPRESS -/

/-- HDR.BUILD writes the 16 header bytes at OUT[0 .. 15] and nothing else to OUT, and latches the fields; parsing
those bytes with anything behind them that `data_offset` allows gives the same fields (rules R131, R136). -/
def Obligations.BuiltHeaderParses : Prop :=
  ∀ (alg : Half) (size nent : Nat) (s u : State) (rest : List Byte),
    legalAlg alg = true → size ≤ Config.sizeMax → nent ≤ 1020 →
    HoldsAt u.inMem 0 (builtHeader alg size nent ++ rest) → u.seq.inLen = 16 + rest.length →
    builtDoff alg nent ≤ u.seq.inLen →
    HoldsAt (hdrBuild alg size nent s).out 0 (builtHeader alg size nent) ∧
    (∀ a, 16 ≤ a → Memory.read (hdrBuild alg size nent s).out a = Memory.read s.out a) ∧
    (hdrBuild alg size nent s).dsize = size ∧ (hdrBuild alg size nent s).doff = builtDoff alg nent ∧
    hdrParse Config.magic u = .ok { u with
      cr := { u.cr with
        hdrVersion := (hdrBuild alg size nent s).cr.hdrVersion
        hdrAlg := (hdrBuild alg size nent s).cr.hdrAlg
        hdrDoff := (hdrBuild alg size nent s).cr.hdrDoff
        hdrDsize := (hdrBuild alg size nent s).cr.hdrDsize } }

/-- DECOMPRESS of a blob whose header passes every test of rule R131: the command has started, the header fields
are latched, every register holds what rule R35 states for a command start, and the sequencer goes on with the data path
(rules R35, R255, R256). The token temporaries and CODE become free values (the model's form of "unspecified", log 8),
and OUT, WIN, HTAB and MID hold no value (log 6). -/
def Obligations.DecompressAccepts : Prop :=
  ∀ (s : State) (ver alg : Half) (doff dsize : Word) (rest : List Byte),
    s.busy = false → Loaded s (headerBytes Config.magic ver alg doff dsize ++ rest) →
    legalAlg alg = true → 16 ≤ doff.toNat → doff.toNat ≤ 16 + rest.length →
    (huffmanAlg alg = true → 18 ≤ doff.toNat) →
    ∃ t, exec .decompress s = .next t ∧
      t = setPhase .decSelect (latchHeader ver alg doff dsize (cmdStart false s.ctrlAlg s)) ∧
      StartedFrom false (s.cr.ctrl.extractLsb' 16 16) s t ∧ HeaderLatched ver alg doff dsize t ∧ t.le.srcLen = 0 ∧
      t.seq.phase = .decSelect

/-- DECOMPRESS of bytes that do not begin with MAGIC ends NOMATCH whatever follows: no fault, no result, IN unchanged
(rules R132, R282). That CR6 to CR9 are as they were, and that the working registers are as a command start leaves them,
is the model's choice: U14 and U15 of `93_implementation_defined.md` say any value (log 34). -/
def Obligations.DecompressNoMatch : Prop :=
  ∀ (s : State) (bs : List Byte), s.busy = false → Loaded s bs → bs.take 4 ≠ le32Bytes Config.magic →
    ∃ t, exec .decompress s = .next t ∧
      t.cr = { s.cr with
        status := .noMatch
        faultCode := 0
        faultInfo := 0
        outLenReg := 0 } ∧
      t.lz = LzDecoder.reset ∧ t.hf = HfDecoder.reset ∧ t.le = LzEncoder.reset ∧ t.inMem = s.inMem ∧
      t.host = s.host

/-- DECOMPRESS of a blob that begins with MAGIC and fails a later test of rule R131 faults, in the order of rule
R294: header cut short, unsupported algorithm, Huffman-bearing blob without a `table_length`, `data_offset` out of
range. In all but the first CR6 to CR9 hold the header's fields (rule R281). -/
def Obligations.DecompressRejectsInOrder : Prop :=
  ∀ (s : State), s.busy = false →
    (∀ tail, Loaded s (le32Bytes Config.magic ++ tail) → tail.length < 12 →
      ∃ t, exec .decompress s = .next t ∧ Faulted .eTrunc (4 + tail.length) t) ∧
    (∀ ver alg doff dsize rest, Loaded s (headerBytes Config.magic ver alg doff dsize ++ rest) →
      (legalAlg alg = false →
        ∃ t, exec .decompress s = .next t ∧ Faulted .eAlg alg.toNat t ∧ HeaderLatched ver alg doff dsize t) ∧
      (huffmanAlg alg = true → rest.length < 2 →
        ∃ t, exec .decompress s = .next t ∧ Faulted .eTrunc (16 + rest.length) t ∧
          HeaderLatched ver alg doff dsize t) ∧
      (legalAlg alg = true → (huffmanAlg alg = true → 2 ≤ rest.length) →
        (doff.toNat < 16 ∨ (huffmanAlg alg = true ∧ doff.toNat < 18) ∨ 16 + rest.length < doff.toNat) →
        ∃ t, exec .decompress s = .next t ∧ Faulted .eHdr doff.toNat t ∧ HeaderLatched ver alg doff dsize t))

/-- While BUSY a write of CTRL with `start = 1` changes nothing (rule R255), and the host's writes of IN, IN_LEN and
CTRL without `start` are refused (rule R331). That CTRL itself keeps its value is the model's reading of "changes
nothing" (log 3). -/
def Obligations.HostWritesWhileBusy : Prop :=
  ∀ (s : State) (rest : List HostOp), s.busy = true →
    (∀ w, s.host = .writeCtrl w :: rest → w.getLsbD 0 = true → step s = .next { s with host := rest }) ∧
    (∀ w, s.host = .writeCtrl w :: rest → w.getLsbD 0 = false → step s = .refused .hostAccessWhileBusy) ∧
    (∀ a b, s.host = .writeIn a b :: rest → step s = .refused .hostAccessWhileBusy) ∧
    (∀ n, s.host = .writeInLen n :: rest → step s = .refused .hostAccessWhileBusy)

/-- The start of a command forgets what an earlier command left (rules R34, R321): two idle machines with the same CTRL,
IN_LEN, IN and pending host actions, whatever their working registers, memories, STATUS and header registers hold, take
the same outcome, but for CR6 to CR9 and for the values that rule R35 leaves unspecified (log 8). CR6 to CR9 differ only where the command
latches no header: behind a whole header that begins with MAGIC a DECOMPRESS leaves the two machines equal there too. -/
def Obligations.CommandForgetsThePast : Prop :=
  ∀ (s u : State) (alg : Half), s.busy = false → u.busy = false →
    s.cr.ctrl = u.cr.ctrl → s.cr.inLenReg = u.cr.inLenReg → s.inMem = u.inMem → s.host = u.host →
    (∀ i, i = .decompress ∨ i = .compress alg →
      (∀ t, exec i s = .next t → ∃ v, exec i u = .next v ∧ SameButHeader t v) ∧
      (∀ f, exec i s = .fault f → exec i u = .fault f) ∧
      (∀ r, exec i s = .refused r → exec i u = .refused r) ∧
      (s.freeCtr = u.freeCtr →
        HeaderLatched s.cr.hdrVersion s.cr.hdrAlg s.cr.hdrDoff s.cr.hdrDsize u → exec i s = exec i u)) ∧
    (∀ ver hdrAlg doff dsize rest, Loaded s (headerBytes Config.magic ver hdrAlg doff dsize ++ rest) →
      s.freeCtr = u.freeCtr → exec .decompress s = exec .decompress u)

/-! ### Decoder data paths -/

/-- DEC.RAW copies `IN[doff .. doff + dsize - 1]` to OUT, writes the same bytes to the ring, and ends DONE with
`OUT_LEN = dsize` (rules R179, R258, R269). The command has produced nothing before it (rule R35). -/
def Obligations.DecRawCopies : Prop :=
  ∀ s : State, s.lz.outLen = 0 → s.lz.wp = 0 → s.doff + s.dsize ≤ s.seq.inLen →
    WrittenFrom s.inMem s.doff s.dsize →
    ∃ t, exec .decRaw s = .next t ∧
      t.cr = { s.cr with
        status := .done
        faultCode := 0
        faultInfo := 0
        outLenReg := s.dsize } ∧
      (∀ k, k < s.dsize → Memory.read t.out k = Memory.read s.inMem (s.doff + k)) ∧
      (∀ a, s.dsize ≤ a → Memory.read t.out a = Memory.read s.out a) ∧
      WindowHolds t ∧
      (∀ a, s.dsize ≤ a ∨ Config.winSize ≤ a → Memory.read t.win a = Memory.read s.win a) ∧
      t.seq = { s.seq with hfEn := false, phase := .idle } ∧
      t.lz = { s.lz with
        ip := s.doff + s.dsize
        outLen := s.dsize
        wp := t.lz.wp } ∧
      t.hf = s.hf ∧ t.htab = s.htab ∧ t.le = s.le ∧ t.he = s.he ∧ t.tmp = s.tmp ∧ t.inMem = s.inMem ∧
      t.mid = s.mid ∧ t.host = s.host ∧ t.freeCtr = s.freeCtr

/-- The faults of the data paths before their first output byte: DEC.RAW of a blob shorter than `doff + dsize` (rule
R258), and a negative `table_length` in DEC.HFIRW and DEC.HFI, reported zero-extended (rules R215, R220, R290). That OUT
and WIN have no value from here on is the model's reading of "unspecified" (log 12). -/
def Obligations.DataPathFaults : Prop :=
  ∀ s : State,
    (s.seq.inLen < s.doff + s.dsize →
      exec .decRaw s = .next (takeFault .eTrunc s.seq.inLen (setIp s.doff (setHfEn false s)))) ∧
    (∀ (bs : List Byte) (i : Instr), i = .decHfirw ∨ i = .decHfi →
      HoldsAt s.inMem 0 bs → s.seq.inLen = bs.length → 18 ≤ bs.length →
      (le16 (bs.getD 16 0) (bs.getD 17 0)).msb = true →
      ∃ t, exec i s = .next t ∧ Faulted .eHtEntry (le16 (bs.getD 16 0) (bs.getD 17 0)).toNat t ∧
        t.lz = s.lz ∧ t.htab = s.htab)

/-- DEC.LZ (rule R259): the direct byte source is selected and positioned at `data_offset`, and the token loop
follows; nothing else changes. -/
def Obligations.DecLzPositionsTheSource : Prop :=
  ∀ s : State, exec .decLz s = .next { s with
    seq := { s.seq with hfEn := false, phase := .lzLoop }
    lz := { s.lz with ip := s.doff } }

/-- DEC.HFIRW and DEC.HFI load the table (rules R215, R257, R260, R261): `table_length` from offset 16, the entries
between offset 18 and `data_offset`, the bitstream pointer at `data_offset` with an empty bit cursor; then the byte
loop or the token loop follows. -/
def Obligations.TableLoadCompletes : Prop :=
  ∀ (s : State) (bs : List Byte) (i : Instr) (p : Phase),
    (i = .decHfirw ∧ p = .hfirwLoop) ∨ (i = .decHfi ∧ p = .lzLoop) →
    HoldsAt s.inMem 0 bs → s.seq.inLen = bs.length → 18 ≤ s.doff → s.doff ≤ bs.length →
    (le16 (bs.getD 16 0) (bs.getD 17 0)).msb = false →
    ∃ t, exec i s = .next t ∧
      t.hf = { s.hf with
        htLen := le16 (bs.getD 16 0) (bs.getD 17 0)
        htCnt := min ((s.doff - 18) / 2) 0xFE00
        hp := s.doff
        cur := 0
        rem := 0 } ∧
      (∀ k, k < t.hf.htCnt →
        Memory.read t.htab k = some (le16 (bs.getD (18 + 2 * k) 0) (bs.getD (18 + 2 * k + 1) 0))) ∧
      (∀ k, t.hf.htCnt ≤ k → Memory.read t.htab k = Memory.read s.htab k) ∧
      t.seq = { s.seq with hfEn := true, phase := p } ∧ t.lz = s.lz ∧ t.tmp = s.tmp ∧ t.out = s.out ∧
      t.win = s.win ∧ SameOutsideDecoder s t

/-! ### Tokens -/

/-- LIT appends its byte to OUT and to the ring, and changes nothing else (rules R167, R179). -/
def Obligations.LitEmits : Prop :=
  ∀ (s : State) (v : Byte), ∃ t, exec (.lit v) s = .next t ∧
    t.lz = { s.lz with wp := s.lz.wp + 1, outLen := s.lz.outLen + 1 } ∧
    Memory.read t.out s.lz.outLen = some v ∧ Memory.read t.win s.lz.wp.toNat = some v ∧
    (∀ a, a ≠ s.lz.outLen → Memory.read t.out a = Memory.read s.out a) ∧
    (∀ a, a ≠ s.lz.wp.toNat → Memory.read t.win a = Memory.read s.win a) ∧
    t.seq = s.seq ∧ t.tmp = s.tmp ∧ t.hf = s.hf ∧ t.htab = s.htab ∧ SameOutsideDecoder s t

/-- REF.A, REF.B, REF.C and REF.E append `len` bytes, each the byte `dist` back in the output at the moment it is
produced, so that a copy with `dist < len` repeats its own output (rules R105, R168 to R170, R172, R178, R184);
the window holds again, and nothing else changes. `WindowHolds` is what every step keeps (`StepKeepsInvariant`). That
`cnt` ends at 0 is the model's choice (log 16). -/
def Obligations.ReferencesCopy : Prop :=
  ∀ (s : State) (i : Instr) (off : BitVec 13) (len : Nat), refOperands i = some (off, len) → WindowHolds s →
    off.toNat + 1 ≤ s.lz.outLen → s.lz.outLen + len ≤ s.dsize →
    ∃ t, exec i s = .next t ∧ t.lz.outLen = s.lz.outLen + len ∧ WindowHolds t ∧
      (∀ k, k < len →
        Memory.read t.out (s.lz.outLen + k) = Memory.read t.out (s.lz.outLen + k - (off.toNat + 1))) ∧
      (∀ a, a < s.lz.outLen ∨ s.lz.outLen + len ≤ a → Memory.read t.out a = Memory.read s.out a) ∧
      (∀ a, (∀ k, k < len → a ≠ (s.lz.outLen + k) % Config.winSize) →
        Memory.read t.win a = Memory.read s.win a) ∧
      t.lz.ip = s.lz.ip ∧ t.lz.cur = s.lz.cur ∧ t.lz.rem = s.lz.rem ∧
      t.tmp = { s.tmp with off := off, len := BitVec.ofNat 9 len, cnt := 0 } ∧
      t.seq = s.seq ∧ t.hf = s.hf ∧ t.htab = s.htab ∧ SameOutsideDecoder s t

/-- A reference beyond the bytes produced raises E_BADREF with the distance, whether or not it is also too long; a
reachable one that would pass `dsize` raises E_OVERRUN with its length and is not cut to fit. Neither moves a cursor
or appends a byte (rules R178, R180, R182, R287, R288, R294). -/
def Obligations.ReferenceFaults : Prop :=
  ∀ (s : State) (i : Instr) (off : BitVec 13) (len : Nat), refOperands i = some (off, len) →
    (s.lz.outLen < off.toNat + 1 →
      ∃ t, exec i s = .next t ∧ Faulted .eBadref (off.toNat + 1) t ∧ t.lz = s.lz ∧ t.hf = s.hf ∧ FaultFrame s t) ∧
    (off.toNat + 1 ≤ s.lz.outLen → s.dsize < s.lz.outLen + len →
      ∃ t, exec i s = .next t ∧ Faulted .eOverrun len t ∧ t.lz = s.lz ∧ t.hf = s.hf ∧ FaultFrame s t)

/-- RUN.D appends the next `off + 0x1B` bytes of the byte source, whichever source it is, and consumes no control
bit (rules R105, R149, R171). That `cnt` ends at 0 is the model's choice (log 16). -/
def Obligations.RunCopiesTheSource : Prop :=
  ∀ (s s' : State) (o : BitVec 13) (n : Nat) (bs : List Byte), n = o.toNat + 0x1B → rdBytes n s = .ok (bs, s') →
    s.lz.outLen + n ≤ s.dsize →
    ∃ t, exec (.runD o) s = .next t ∧ bs.length = n ∧
      t.lz = { s'.lz with wp := s.lz.wp + BitVec.ofNat 13 n, outLen := s.lz.outLen + n } ∧
      HoldsAt t.out s.lz.outLen bs ∧
      (∀ a, a < s.lz.outLen ∨ s.lz.outLen + n ≤ a → Memory.read t.out a = Memory.read s.out a) ∧
      (∀ a, (∀ k, k < n → a ≠ (s.lz.wp.toNat + k) % Config.winSize) →
        Memory.read t.win a = Memory.read s.win a) ∧
      (WindowHolds s → WindowHolds t) ∧ t.lz.cur = s.lz.cur ∧ t.lz.rem = s.lz.rem ∧ t.hf = s'.hf ∧
      t.tmp = { s.tmp with run := BitVec.ofNat 14 n, cnt := 0 } ∧
      t.seq = s.seq ∧ t.htab = s.htab ∧ SameOutsideDecoder s t

/-- RUN.D raises E_OVERRUN before its first data byte is fetched, and otherwise the fault of the data byte that is
missing (rules R171, R284). -/
def Obligations.RunFaults : Prop :=
  ∀ (s : State) (o : BitVec 13) (n : Nat), n = o.toNat + 0x1B →
    (s.dsize < s.lz.outLen + n →
      ∃ t, exec (.runD o) s = .next t ∧ Faulted .eOverrun n t ∧ t.lz = s.lz ∧ t.hf = s.hf ∧ FaultFrame s t) ∧
    (∀ f info u, s.lz.outLen + n ≤ s.dsize → rdBytes n s = .error (.raise f info u) →
      ∃ t, exec (.runD o) s = .next t ∧ Faulted f info t ∧ t.lz.ip = u.lz.ip ∧ t.lz.cur = s.lz.cur ∧
        t.lz.rem = s.lz.rem ∧ t.hf = u.hf ∧ FaultFrame s t)

/-! ### Table words -/

/-- HT.LEAF appends its byte and returns to the loop of HFIRW.DECODE (rules R179, R218, R221). That the byte is
emitted in the leaf's own step is the model's granularity (log 13). -/
def Obligations.LeafEmits : Prop :=
  ∀ (s : State) (b : Byte), ∃ t, exec (.htLeaf b) s = .next t ∧
    t.lz = { s.lz with wp := s.lz.wp + 1, outLen := s.lz.outLen + 1 } ∧
    Memory.read t.out s.lz.outLen = some b ∧ Memory.read t.win s.lz.wp.toNat = some b ∧
    (∀ a, a ≠ s.lz.outLen → Memory.read t.out a = Memory.read s.out a) ∧
    (∀ a, a ≠ s.lz.wp.toNat → Memory.read t.win a = Memory.read s.win a) ∧
    t.seq = { s.seq with phase := .hfirwLoop } ∧ t.hf = { s.hf with node := b.setWidth 16 } ∧
    t.tmp = s.tmp ∧ t.htab = s.htab ∧ SameOutsideDecoder s t

/-- HT.NODE reads one bit and takes the entry at `node*2 - 0x200 + bit` as the next state (rules R95, R217). -/
def Obligations.NodeStepsToItsChild : Prop :=
  ∀ (s s' : State) (n : BitVec 15) (b : Bool) (idx : Nat) (v : Half), hfRdBit s = .ok (b, s') →
    idx = n.toNat * 2 - 0x200 + b.toNat → idx < s.hf.htCnt → Memory.read s.htab idx = some v → v.msb = false →
    exec (.htNode n) s = .next { s with
      seq := { s.seq with phase := .hfirwWord }
      hf := { s'.hf with node := v } }

/-- HT.NODE's faults, in the order of rule R216: E_TRUNC for the missing bit, E_HT_INDEX with the index
`node*2 - 0x200 + bit` before the table is read, E_HT_ENTRY for a negative entry (rules R217, R220, R289, R290). -/
def Obligations.NodeFaults : Prop :=
  ∀ (s : State) (n : BitVec 15),
    (s.hf.rem = 0 → s.seq.inLen ≤ s.hf.hp →
      ∃ t, exec (.htNode n) s = .next t ∧ Faulted .eTrunc s.hf.hp t ∧ t.hf = s.hf ∧ t.lz = s.lz ∧ FaultFrame s t) ∧
    (∀ b s' idx, hfRdBit s = .ok (b, s') → idx = n.toNat * 2 - 0x200 + b.toNat → s.hf.htCnt ≤ idx →
      ∃ t, exec (.htNode n) s = .next t ∧ Faulted .eHtIndex idx t ∧ t.hf = s'.hf ∧ t.lz = s.lz ∧
        FaultFrame s t) ∧
    (∀ b s' idx v, hfRdBit s = .ok (b, s') → idx = n.toNat * 2 - 0x200 + b.toNat → idx < s.hf.htCnt →
      Memory.read s.htab idx = some v → v.msb = true →
      ∃ t, exec (.htNode n) s = .next t ∧ Faulted .eHtEntry v.toNat t ∧ t.hf = { s'.hf with node := v } ∧
        t.lz = s.lz ∧ FaultFrame s t)

/-- A negative table word raises E_HT_ENTRY, code 7, with the word zero-extended; the fault entry of rule R283 is all
that happens (rules R220, R283, R290). That OUT and WIN have no value from here on is the model's reading of
"unspecified" (log 12). -/
def Obligations.InvalidWordFaults : Prop :=
  ∀ (s : State) (x : BitVec 15), exec (.htInvalid x) s = .next { s with
    cr := { s.cr with
      status := .fault
      faultCode := 7
      faultInfo := 0x8000 + x.toNat
      outLenReg := 0 }
    seq := { s.seq with phase := .idle }
    out := []
    win := [] }

/-- A decoded symbol is the leaf that the next bits of the bitstream, read one after another by HF.RDBIT, lead to from
the root, one bit a step; a root that is a leaf delivers its byte without a bit and without the table. The descent
leaves the Huffman cursor where those reads leave it, changes nothing else but `node`, and never outlives its bitstream.
Conversely, for any table, whichever program built it, bits that lead to a leaf through entries the blob holds deliver
that leaf's byte, to the LZ77 decoder too when `hf_en = 1`; and a descent that stands at a node faults there if the next
bit is missing (E_TRUNC), if its index is not below `ht_cnt` (E_HT_INDEX), or if the entry is negative (E_HT_ENTRY)
(rules R149, R216 to R220, R222 to R224). -/
def Obligations.DescentFollowsTheTable : Prop :=
  ∀ s : State, hfRdByte s ≠ .error (.fault .descentBound) ∧ (s.seq.hfEn = true → rdByte s = hfRdByte s) ∧
    (∀ (b : Byte) (bits : List Bool) (u : State), rdBits bits.length s = .ok (bits, u) → WalkInTable s bits →
      walkTable s.htab bits s.hf.htLen = some (b.setWidth 16) →
      hfRdByte s = .ok (b, { u with hf := { u.hf with node := b.setWidth 16 } })) ∧
    (∀ (bits : List Bool) (n : BitVec 15) (u : State), DescentAt s bits n u →
      (u.hf.rem = 0 → u.seq.inLen ≤ u.hf.hp → hfRdByte s = .error (.raise .eTrunc u.hf.hp u)) ∧
      (∀ b w idx, hfRdBit u = .ok (b, w) → idx = n.toNat * 2 - 0x200 + b.toNat →
        (s.hf.htCnt ≤ idx → hfRdByte s = .error (.raise .eHtIndex idx w)) ∧
        (∀ x : Half, idx < s.hf.htCnt → Memory.read s.htab idx = some x → x.msb = true →
          hfRdByte s = .error (.raise .eHtEntry x.toNat { w with hf := { w.hf with node := x } })))) ∧
    (∀ b t, hfRdByte s = .ok (b, t) →
      ∃ (bits : List Bool) (u : State), rdBits bits.length s = .ok (bits, u) ∧ WalkInTable s bits ∧
        walkTable s.htab bits s.hf.htLen = some (b.setWidth 16) ∧
        t = { u with hf := { u.hf with node := b.setWidth 16 } } ∧
        hfBitsLeft t + bits.length = hfBitsLeft s ∧ t = { s with hf := t.hf } ∧
        t.hf.htLen = s.hf.htLen ∧ t.hf.htCnt = s.hf.htCnt) ∧
    (s.hf.htLen.toNat < 0x100 → ∃ b : Byte, b.toNat = s.hf.htLen.toNat ∧
      hfRdByte s = .ok (b, { s with hf := { s.hf with node := s.hf.htLen } }))

/-! ### COMPRESS and its data paths -/

/-- COMPRESS with a legal algorithm and a length that fits the size field starts the command, with every register at
what rule R35 states for a command start and `src_len` at the length of the input, and goes on with the data path (rules
R35, R255, R262). The token temporaries and CODE become free values (the model's form of "unspecified", log 8), and OUT,
WIN, HTAB and MID hold no value (log 6). -/
def Obligations.CompressAccepts : Prop :=
  ∀ (s : State) (alg : Half), s.busy = false → legalAlg alg = true → s.cr.inLenReg ≤ Config.sizeMax →
    ∃ t, exec (.compress alg) s = .next t ∧
      t = { cmdStart true alg s with
        seq := { (cmdStart true alg s).seq with phase := .encSelect }
        le := { LzEncoder.reset with srcLen := s.cr.inLenReg } } ∧
      StartedFrom true alg s t ∧ HeaderLatched s.cr.hdrVersion s.cr.hdrAlg s.cr.hdrDoff s.cr.hdrDsize t ∧
      t.le.srcLen = s.cr.inLenReg ∧ t.seq.phase = .encSelect

/-- COMPRESS raises E_ALG for every other algorithm id, and otherwise E_SIZE for a longer input (rules R262, R291,
R294). -/
def Obligations.CompressRejectsInOrder : Prop :=
  ∀ (s : State) (alg : Half), s.busy = false →
    (legalAlg alg = false → ∃ t, exec (.compress alg) s = .next t ∧ Faulted .eAlg alg.toNat t) ∧
    (legalAlg alg = true → Config.sizeMax < s.cr.inLenReg →
      ∃ t, exec (.compress alg) s = .next t ∧ Faulted .eSize s.cr.inLenReg t)

/-- ENC.RAW: the header followed by the data unchanged, the header registers as built, DONE (rules R136, R262, R263,
R269). -/
def Obligations.EncRawWritesTheBlob : Prop :=
  ∀ (s : State) (src : List Byte), s.le.srcLen = src.length → src.length ≤ s.seq.inLen →
    src.length ≤ Config.sizeMax → HoldsAt s.inMem 0 src →
    ∃ t, exec .encRaw s = .next t ∧
      t.cr = { s.cr with
        status := .done
        faultCode := 0
        faultInfo := 0
        outLenReg := 16 + src.length
        hdrVersion := Config.version
        hdrAlg := 0
        hdrDoff := BitVec.ofNat 32 16
        hdrDsize := BitVec.ofNat 32 src.length } ∧
      HoldsAt t.out 0 (builtHeader 0 src.length 0 ++ src) ∧
      (∀ a, 16 + src.length ≤ a → Memory.read t.out a = Memory.read s.out a) ∧
      t.seq = { s.seq with phase := .idle } ∧ t.lz = s.lz ∧ t.hf = s.hf ∧ t.he = s.he ∧ t.tmp = s.tmp ∧
      t.le = { s.le with dp := 16 + src.length } ∧ t.inMem = s.inMem ∧ t.win = s.win ∧ t.mid = s.mid ∧
      t.htab = s.htab ∧ t.host = s.host ∧ t.freeCtr = s.freeCtr

/-- ENC.LZ never faults or is refused: it ends DONE with the header and the LZ77 stream of the tokens that the greedy
encoder chooses (at every position a literal or the longest match at the smallest distance, chunked, each chunk in its
narrowest case). They are legal, none of them is RUN.D, and they stand for the source; the stream is at most
`n + ceil(n/8)` bytes long (rules R190 to R195, R201, R204, R206, R264). -/
def Obligations.EncLzWritesTokensOfTheSource : Prop :=
  ∀ (s : State) (src : List Byte), s.le.srcLen = src.length → src.length ≤ s.seq.inLen →
    src.length ≤ Config.sizeMax → HoldsAt s.inMem 0 src →
    s.le.wAcc = 0 → s.le.wCnt = 0 → s.le.waiting = [] →
    ∃ ts t, exec .encLz s = .next t ∧
      t.cr = { s.cr with
        status := .done
        faultCode := 0
        faultInfo := 0
        outLenReg := 16 + (lzStream ts).length
        hdrVersion := Config.version
        hdrAlg := 3
        hdrDoff := BitVec.ofNat 32 16
        hdrDsize := BitVec.ofNat 32 src.length } ∧
      GreedyTokens src 0 ts ∧ (∀ x ∈ ts, isToken x = true ∧ x.wellFormed = true) ∧
      expandTokens ts [] = some src ∧ (lzStream ts).length ≤ src.length + (src.length + 7) / 8 ∧
      HoldsAt t.out 0 (builtHeader 3 src.length 0 ++ lzStream ts) ∧
      (∀ a, 16 + (lzStream ts).length ≤ a → Memory.read t.out a = Memory.read s.out a) ∧
      t.seq = { s.seq with phase := .idle } ∧ t.lz = s.lz ∧ t.hf = s.hf ∧ t.he = s.he ∧ t.tmp = s.tmp ∧
      t.le.srcLen = s.le.srcLen ∧ t.le.dp = t.cr.outLenReg ∧ t.le.wAcc = 0 ∧ t.le.wCnt = 0 ∧ t.le.waiting = [] ∧
      t.inMem = s.inMem ∧
      t.win = s.win ∧ t.mid = s.mid ∧ t.htab = s.htab ∧ t.host = s.host ∧ t.freeCtr = s.freeCtr

/-- ENC.HFIRW never faults: it ends DONE with the blob of rule R244, in which every byte of the source is coded by
the bits that lead to its leaf in the stored table, the table being the one that the merges build (`hfBuild`, see
`RootIsTheLastNode`; rules R239 to R245, R265). -/
def Obligations.EncHfirwWritesTheBlob : Prop :=
  ∀ (s : State) (src : List Byte), s.le.srcLen = src.length → src.length ≤ s.seq.inLen →
    src.length ≤ Config.sizeMax → HoldsAt s.inMem 0 src → Memory.wf s.htab = true →
    ∃ (code : Byte → List Bool) (t : State), exec .encHfirw s = .next t ∧
      t.cr = { s.cr with
        status := .done
        faultCode := 0
        faultInfo := 0
        outLenReg := (huffmanBlob 2 src.length t.htab t.hf.htLen code src).length
        hdrVersion := Config.version
        hdrAlg := 2
        hdrDoff := BitVec.ofNat 32 (18 + 2 * htNent t.hf.htLen)
        hdrDsize := BitVec.ofNat 32 src.length } ∧
      t.htab = (hfBuild src s).htab ∧ t.hf.htLen = (hfBuild src s).hf.htLen ∧
      (∀ b ∈ src, walkTable t.htab (code b) t.hf.htLen = some (b.setWidth 16)) ∧
      HoldsAt t.out 0 (huffmanBlob 2 src.length t.htab t.hf.htLen code src) ∧
      (∀ a, t.cr.outLenReg ≤ a → Memory.read t.out a = Memory.read s.out a) ∧
      (∀ a, isTreeEntry t.hf.htLen.toNat a = false → Memory.read t.htab a = Memory.read s.htab a) ∧
      t.seq = { s.seq with phase := .idle } ∧ t.lz = s.lz ∧ t.hf = { s.hf with htLen := t.hf.htLen } ∧
      t.tmp = s.tmp ∧ t.le = { s.le with dp := t.cr.outLenReg } ∧ t.inMem = s.inMem ∧ t.win = s.win ∧
      t.mid = s.mid ∧ t.host = s.host ∧ t.freeCtr = s.freeCtr

/-- ENC.HFI never faults or is refused: the LZ77 stream of the source, of the tokens that the greedy encoder chooses,
goes to MID, and the blob of rule R244 codes that stream with the table that the merges build for it (`hfBuild`, see
`RootIsTheLastNode`), `decompressed_size` being the raw length (rules R137, R190, R266). -/
def Obligations.EncHfiWritesTheBlob : Prop :=
  ∀ (s : State) (src : List Byte), s.le.srcLen = src.length → src.length ≤ s.seq.inLen →
    src.length ≤ Config.sizeMax → HoldsAt s.inMem 0 src → Memory.wf s.htab = true →
    s.le.wAcc = 0 → s.le.wCnt = 0 → s.le.waiting = [] →
    ∃ (ts : List Instr) (code : Byte → List Bool) (t : State), exec .encHfi s = .next t ∧
      t.cr = { s.cr with
        status := .done
        faultCode := 0
        faultInfo := 0
        outLenReg := (huffmanBlob 4 src.length t.htab t.hf.htLen code (lzStream ts)).length
        hdrVersion := Config.version
        hdrAlg := 4
        hdrDoff := BitVec.ofNat 32 (18 + 2 * htNent t.hf.htLen)
        hdrDsize := BitVec.ofNat 32 src.length } ∧
      GreedyTokens src 0 ts ∧ (∀ x ∈ ts, isToken x = true ∧ x.wellFormed = true) ∧
      expandTokens ts [] = some src ∧ t.htab = (hfBuild (lzStream ts) s).htab ∧
      t.hf.htLen = (hfBuild (lzStream ts) s).hf.htLen ∧
      HoldsAt t.mid 0 (lzStream ts) ∧
      (∀ a, (lzStream ts).length ≤ a → Memory.read t.mid a = Memory.read s.mid a) ∧
      (∀ b ∈ lzStream ts, walkTable t.htab (code b) t.hf.htLen = some (b.setWidth 16)) ∧
      HoldsAt t.out 0 (huffmanBlob 4 src.length t.htab t.hf.htLen code (lzStream ts)) ∧
      (∀ a, t.cr.outLenReg ≤ a → Memory.read t.out a = Memory.read s.out a) ∧
      (∀ a, isTreeEntry t.hf.htLen.toNat a = false → Memory.read t.htab a = Memory.read s.htab a) ∧
      t.seq = { s.seq with phase := .idle } ∧ t.lz = s.lz ∧ t.hf = { s.hf with htLen := t.hf.htLen } ∧
      t.tmp = s.tmp ∧ t.le.srcLen = s.le.srcLen ∧ t.le.dp = t.cr.outLenReg ∧ t.inMem = s.inMem ∧
      t.win = s.win ∧ t.host = s.host ∧ t.freeCtr = s.freeCtr

/-! ### The encoders' parts -/

/-- LZ.SEARCH finds the longest match of the window at the smallest distance that has it (rules R191, R192). -/
def Obligations.SearchFindsTheLongest : Prop :=
  ∀ (src : List Byte) (p cd cl : Nat), p < src.length →
    (∀ d n, 1 ≤ d → d ≤ min p Config.winSize → Matches src p d n → n ≤ (lzSearch src p cd cl).bestLen) ∧
    ((lzSearch src p cd cl).bestLen ≠ 0 →
      1 ≤ (lzSearch src p cd cl).bestDist ∧ (lzSearch src p cd cl).bestDist ≤ min p Config.winSize ∧
      Matches src p (lzSearch src p cd cl).bestDist (lzSearch src p cd cl).bestLen ∧
      ∀ d, 1 ≤ d → d < (lzSearch src p cd cl).bestDist → ¬ Matches src p d (lzSearch src p cd cl).bestLen)

/-- LZ.CHUNK drops a remainder of 1 or 2 bytes and nothing else, so that every chunk is in LZ.SELECT's range (rule
R194). LZ.SELECT chooses by the table of rule R195, and the token it chooses is well-formed and stands for the offset
and the length it was given (rule R105); outside its precondition it is refused (rule R202). -/
def Obligations.SelectTakesTheNarrowestCase : Prop :=
  (∀ n : Nat, 3 ≤ n → 3 ≤ chunkTotal n ∧ (chunkTotal n % 280 = 0 ∨ 3 ≤ chunkTotal n % 280) ∧
    chunkTotal n = if n % 280 = 1 ∨ n % 280 = 2 then n - n % 280 else n) ∧
  ∀ off len : Nat,
    (off ≤ 8191 → 3 ≤ len → len ≤ 280 →
      ∃ t, selectToken off len = some t ∧ NarrowestCase off len t) ∧
    (8191 < off ∨ len < 3 ∨ 280 < len →
      ∀ (d : Dst) (s : State), lzSelect d off len s = .error (.refuse .selectOutOfRange))

/-- A merged node goes after every item of at most its frequency that stands at the front, and before the first item
of a greater one (rule R236). -/
def Obligations.MergedNodeGoesAfterEquals : Prop :=
  ∀ (f : Nat) (id : Half) (l : List (Nat × Half)), l.Pairwise (fun a b => a.1 ≤ b.1) →
    ∃ l1 l2, l = l1 ++ l2 ∧ nlInsert f id l = l1 ++ (f, id) :: l2 ∧
      (∀ x ∈ l1, x.1 ≤ f) ∧ (∀ x ∈ l2, f < x.1) ∧ (nlInsert f id l).Pairwise (fun a b => a.1 ≤ b.1)

/-- Every byte value of the source has a leaf, and following its code from the root ends exactly there; the code is
at most 255 bits long (rules R241, R245, R246). HTAB is in canonical form, which every step keeps
(`StepKeepsInvariant`). -/
def Obligations.TreeCodesReachTheirLeaves : Prop :=
  ∀ (hsrc : List Byte) (s : State) (b : Byte), b ∈ hsrc → Memory.wf s.htab = true →
    ∃ bits, treePath (hfBuild hsrc s).htab (hfBuild hsrc s).hf.htLen 256 (b.setWidth 16) = some bits ∧
      walkTable (hfBuild hsrc s).htab bits (hfBuild hsrc s).hf.htLen = some (b.setWidth 16) ∧ bits.length ≤ 255

/-- HF.BUILD builds its tree by the merges of rules R234 to R237, from the list of the present byte values by frequency
and value: the first item extracted is the bit-0 child, the second the bit-1 child, at entries `2*(m - 0x100)` and
`2*(m - 0x100) + 1` of node `m`, the nodes are numbered from 0x100 in order of creation, and a new node goes behind
every item of at most its frequency. It writes no other entry. The root of the tree of `k` present byte values is 0, the
one value, or the node `0xFE + k` of the last merge (rules R232, R233, R238). -/
def Obligations.RootIsTheLastNode : Prop :=
  ∀ (hsrc : List Byte) (s : State),
    (hsrc = [] → (hfBuild hsrc s).hf.htLen = 0) ∧
    (∀ b, hsrc.dedup = [b] → (hfBuild hsrc s).hf.htLen = b.setWidth 16) ∧
    (2 ≤ hsrc.dedup.length → (hfBuild hsrc s).hf.htLen.toNat = 0xFE + hsrc.dedup.length) ∧
    (hsrc ≠ [] → ∃ l, InitialList hsrc l ∧ Merged (hfBuild hsrc s).htab 0 l (hfBuild hsrc s).hf.htLen) ∧
    (∀ a, 2 * (hsrc.dedup.length - 1) ≤ a → Memory.read (hfBuild hsrc s).htab a = Memory.read s.htab a)

/-! ### The machine as a whole -/

/-- The state after reset satisfies the invariant (a sanity statement). -/
def Obligations.ResetSatisfiesInvariant : Prop := Inv State.reset

/-- The registers after reset hold what rule R35 states, and nothing executes (rule R320). That the model's own field
`pfOver` is empty belongs to the empty PFIFO (log 25). -/
def Obligations.ResetRegisters : Prop :=
  State.reset.cr.status = .idle ∧ State.reset.cr.ctrl = 0 ∧ State.reset.cr.inLenReg = 0 ∧
  State.reset.cr.faultCode = 0 ∧ State.reset.cr.faultInfo = 0 ∧ State.reset.cr.outLenReg = 0 ∧
  State.reset.cr.hdrVersion = 0 ∧ State.reset.cr.hdrAlg = 0 ∧ State.reset.cr.hdrDoff = 0 ∧
  State.reset.cr.hdrDsize = 0 ∧ State.reset.lz = { ip := 0, cur := 0, rem := 0, outLen := 0, wp := 0 } ∧
  State.reset.hf = { hp := 0, cur := 0, rem := 0, node := 0, htLen := 0, htCnt := 0 } ∧
  State.reset.seq.hfEn = false ∧
  State.reset.le = {
    srcLen := 0
    p := 0
    bestLen := 0
    bestDist := 0
    candDist := 0
    candLen := 0
    chunk := 0
    wAcc := 0
    wCnt := 0
    pfifo := []
    pfOver := []
    dp := 0 } ∧
  State.reset.he.nlist.length = 0 ∧ State.reset.he.nextIdx = 0x100 ∧ State.reset.he.hAcc = 0 ∧
  State.reset.he.hCnt = 0 ∧ step State.reset = .next State.reset

/-- Every step keeps the invariant: canonical memories, register files that hold all their values, legal registers and
phases, at most 8 bytes in PFIFO (what waits behind a full one is the model's own field, log 25), `out_len <= dsize`,
the window of rule R181, a loaded table, and exactly `dsize` result bytes after a DECOMPRESS that ended DONE (rules
R32, R60, R63, R67, R180, R181, R223, R268). -/
def Obligations.StepKeepsInvariant : Prop := ∀ s t : State, Inv s → step s = .next t → Inv t

/-- A DECOMPRESS never stops the model and is never refused: from every legal state in which one runs and whose IN is
written, the step answers a next state (rules R181, R222, R280). -/
def Obligations.DecoderNeverStuck : Prop :=
  ∀ s : State, Inv s → InCovered s → s.host = [] → Phase.decoding s.seq.phase = true → Completes (step s)

/-- Every DECOMPRESS ends (rules R183, R222, R338). -/
def Obligations.EveryDecompressEnds : Prop :=
  ∀ s : State, Inv s → InCovered s → s.host = [] → Phase.decoding s.seq.phase = true →
    ∃ n t, Sys2Proof.core.run n s = .next t ∧ t.cr.status ≠ .busy

/-- Only DECOMPRESS can end NOMATCH (rule R282). -/
def Obligations.OnlyDecompressEndsNoMatch : Prop :=
  ∀ (i : Instr) (s t : State), exec i s = .next t → t.cr.status = .noMatch → s.cr.status ≠ .noMatch →
    i = .decompress

/-- No instruction writes IN, IN_LEN or CTRL, and none takes a host action (rules R33, R61). -/
def Obligations.NoInstructionWritesIn : Prop :=
  ∀ (i : Instr) (s t : State), exec i s = .next t →
    t.inMem = s.inMem ∧ t.cr.inLenReg = s.cr.inLenReg ∧ t.cr.ctrl = s.cr.ctrl ∧ t.host = s.host

/-- Between table load and the end of the command nothing writes HTAB, `ht_len` or `ht_cnt`: neither a token, nor a
table word, nor the fetch of a token (rules R77, R223). -/
def Obligations.TableIsRom : Prop :=
  ∀ (s t : State),
    (∀ i, i.format = .lzToken ∨ i.format = .htWord → exec i s = .next t →
      t.htab = s.htab ∧ t.hf.htLen = s.hf.htLen ∧ t.hf.htCnt = s.hf.htCnt) ∧
    (∀ i, fetchToken s = .ok (i, t) → t.htab = s.htab ∧ t.hf.htLen = s.hf.htLen ∧ t.hf.htCnt = s.hf.htCnt)

/-- The two bit cursors are separate (rules R26, R224, R345): a Huffman descent leaves the LZ77 cursor; a token's fetch
leaves the Huffman cursor with the direct byte source, and `ip` with the Huffman source. -/
def Obligations.CursorsAreSeparate : Prop :=
  ∀ (s t : State),
    (∀ b, hfRdByte s = .ok (b, t) → t.lz = s.lz) ∧
    (∀ i, s.seq.hfEn = false → fetchToken s = .ok (i, t) → t.hf = s.hf) ∧
    (∀ i, s.seq.hfEn = true → fetchToken s = .ok (i, t) → t.lz.ip = s.lz.ip)

/-- Without a host action nothing changes between commands (rule R305), and STATUS leaves its value there only by a
hardware reset or by a write of CTRL with `start = 1` (rule R23). -/
def Obligations.OnlyAStartLeavesIdle : Prop :=
  ∀ (s t : State), PhaseLegal s → s.cr.status ≠ .busy → step s = .next t →
    (s.host = [] → t = s) ∧
    (t.cr.status ≠ s.cr.status → (∃ rest, s.host = .reset :: rest) ∨
      ∃ w rest, s.host = .writeCtrl w :: rest ∧ w.getLsbD 0 = true)

/-- The round trip of rule R267 for algorithm 0. -/
def Obligations.RawRoundTrip : Prop := RoundTrips 0

/-- The round trip of rule R267 for algorithm 3, which is rule R205 on whole commands. -/
def Obligations.LzRoundTrip : Prop := RoundTrips 3

/-- The round trip of rule R267 for algorithm 2. -/
def Obligations.HfirwRoundTrip : Prop := RoundTrips 2

/-- The round trip of rule R267 for algorithm 4. -/
def Obligations.HfiRoundTrip : Prop := RoundTrips 4

/-! ### The host -/

/-- What the host reads, and what its actions do to a core that is not BUSY (rules R22, R35, R281, R320, R322, R331).
While BUSY the reads of OUT and OUT_LEN are refused, and so are always those of a byte at or beyond OUT_LEN and of a
register that does not exist (the model's form, log 27). A write of CTRL with `start = 0` stores `op` and `alg`, and the
other bits read 0. A hardware reset leaves `State.reset` and keeps the model's own two fields (log 28). -/
def Obligations.HostAccesses : Prop :=
  ∀ (s : State) (rest : List HostOp),
    (hostReadReg 0 s = .ok s.cr.ctrl.toNat ∧ hostReadReg 1 s = .ok s.cr.inLenReg ∧
      hostReadReg 2 s = .ok (statusNumber s.cr.status) ∧ hostReadReg 3 s = .ok s.cr.faultCode.toNat ∧
      hostReadReg 4 s = .ok s.cr.faultInfo ∧
      hostReadReg 6 s = .ok s.cr.hdrVersion.toNat ∧ hostReadReg 7 s = .ok s.cr.hdrAlg.toNat ∧
      hostReadReg 8 s = .ok s.cr.hdrDoff.toNat ∧ hostReadReg 9 s = .ok s.cr.hdrDsize.toNat ∧
      (∀ n, 10 ≤ n → hostReadReg n s = .error .hostReadOutOfRange)) ∧
    (s.cr.status = .busy → hostReadReg 5 s = .error .hostAccessWhileBusy ∧
      ∀ a, hostReadOut a s = .error .hostAccessWhileBusy) ∧
    (s.cr.status ≠ .busy → hostReadReg 5 s = .ok s.cr.outLenReg ∧
      (∀ a b, a < s.cr.outLenReg → Memory.read s.out a = some b → hostReadOut a s = .ok b) ∧
      (∀ a, s.cr.outLenReg ≤ a → hostReadOut a s = .error .hostReadOutOfRange)) ∧
    (s.cr.status ≠ .busy →
      (∀ a b, s.host = .writeIn a b :: rest → ∃ t, step s = .next t ∧ Memory.read t.inMem a = some b ∧
        (∀ c, c ≠ a → Memory.read t.inMem c = Memory.read s.inMem c) ∧
        t = { s with host := rest, inMem := t.inMem }) ∧
      (∀ n, s.host = .writeInLen n :: rest →
        step s = .next { s with host := rest, cr := { s.cr with inLenReg := n } }) ∧
      (∀ w, s.host = .writeCtrl w :: rest → w.getLsbD 0 = false → ∃ t, step s = .next t ∧
        (∀ k, t.cr.ctrl.getLsbD k = (w.getLsbD k && (decide (k = 1) || decide (16 ≤ k)))) ∧
        t = { s with host := rest, cr := { s.cr with ctrl := t.cr.ctrl } }) ∧
      (s.host = .waitDone :: rest → step s = .next { s with host := rest })) ∧
    (s.host = .reset :: rest → step s = .next { State.reset with host := rest, freeCtr := s.freeCtr })
end

