-- ==== Sys2Proof/Laws/State.lean ====
section
/-! SUPPORT. What each named update does to each field of the state, by definition, so that no proof unfolds a record
update. A group of registers that an update leaves alone is one lemma; a group it writes is one lemma per register. -/

namespace Sys2Proof.Machine

variable (s : State)

/-! ### `takeFault` -/

@[simp] theorem takeFault_cr_ctrl (f : CoreFault) (info : Nat) : (takeFault f info s).cr.ctrl = s.cr.ctrl := rfl
@[simp] theorem takeFault_cr_inLenReg (f : CoreFault) (info : Nat) : (takeFault f info s).cr.inLenReg = s.cr.inLenReg := rfl
@[simp] theorem takeFault_cr_status (f : CoreFault) (info : Nat) : (takeFault f info s).cr.status = .fault := rfl
@[simp] theorem takeFault_cr_faultCode (f : CoreFault) (info : Nat) : (takeFault f info s).cr.faultCode = f.code := rfl
@[simp] theorem takeFault_cr_faultInfo (f : CoreFault) (info : Nat) : (takeFault f info s).cr.faultInfo = info := rfl
@[simp] theorem takeFault_cr_outLenReg (f : CoreFault) (info : Nat) : (takeFault f info s).cr.outLenReg = 0 := rfl
@[simp] theorem takeFault_cr_hdrVersion (f : CoreFault) (info : Nat) : (takeFault f info s).cr.hdrVersion = s.cr.hdrVersion := rfl
@[simp] theorem takeFault_cr_hdrAlg (f : CoreFault) (info : Nat) : (takeFault f info s).cr.hdrAlg = s.cr.hdrAlg := rfl
@[simp] theorem takeFault_cr_hdrDoff (f : CoreFault) (info : Nat) : (takeFault f info s).cr.hdrDoff = s.cr.hdrDoff := rfl
@[simp] theorem takeFault_cr_hdrDsize (f : CoreFault) (info : Nat) : (takeFault f info s).cr.hdrDsize = s.cr.hdrDsize := rfl
@[simp] theorem takeFault_seq_phase (f : CoreFault) (info : Nat) : (takeFault f info s).seq.phase = .idle := rfl
@[simp] theorem takeFault_seq_smpOp (f : CoreFault) (info : Nat) : (takeFault f info s).seq.smpOp = s.seq.smpOp := rfl
@[simp] theorem takeFault_seq_smpAlg (f : CoreFault) (info : Nat) : (takeFault f info s).seq.smpAlg = s.seq.smpAlg := rfl
@[simp] theorem takeFault_seq_inLen (f : CoreFault) (info : Nat) : (takeFault f info s).seq.inLen = s.seq.inLen := rfl
@[simp] theorem takeFault_seq_hfEn (f : CoreFault) (info : Nat) : (takeFault f info s).seq.hfEn = s.seq.hfEn := rfl
@[simp] theorem takeFault_lz (f : CoreFault) (info : Nat) : (takeFault f info s).lz = s.lz := rfl
@[simp] theorem takeFault_tmp (f : CoreFault) (info : Nat) : (takeFault f info s).tmp = s.tmp := rfl
@[simp] theorem takeFault_hf (f : CoreFault) (info : Nat) : (takeFault f info s).hf = s.hf := rfl
@[simp] theorem takeFault_le (f : CoreFault) (info : Nat) : (takeFault f info s).le = s.le := rfl
@[simp] theorem takeFault_he (f : CoreFault) (info : Nat) : (takeFault f info s).he = s.he := rfl
@[simp] theorem takeFault_inMem (f : CoreFault) (info : Nat) : (takeFault f info s).inMem = s.inMem := rfl
@[simp] theorem takeFault_out (f : CoreFault) (info : Nat) : (takeFault f info s).out = [] := rfl
@[simp] theorem takeFault_win (f : CoreFault) (info : Nat) : (takeFault f info s).win = [] := rfl
@[simp] theorem takeFault_mid (f : CoreFault) (info : Nat) : (takeFault f info s).mid = s.mid := rfl
@[simp] theorem takeFault_htab (f : CoreFault) (info : Nat) : (takeFault f info s).htab = s.htab := rfl
@[simp] theorem takeFault_host (f : CoreFault) (info : Nat) : (takeFault f info s).host = s.host := rfl
@[simp] theorem takeFault_freeCtr (f : CoreFault) (info : Nat) : (takeFault f info s).freeCtr = s.freeCtr := rfl
@[simp] theorem takeFault_dsize (f : CoreFault) (info : Nat) : (takeFault f info s).dsize = s.dsize := rfl
@[simp] theorem takeFault_doff (f : CoreFault) (info : Nat) : (takeFault f info s).doff = s.doff := rfl

/-! ### `endNoMatch` -/

@[simp] theorem endNoMatch_cr_ctrl : (endNoMatch s).cr.ctrl = s.cr.ctrl := rfl
@[simp] theorem endNoMatch_cr_inLenReg : (endNoMatch s).cr.inLenReg = s.cr.inLenReg := rfl
@[simp] theorem endNoMatch_cr_status : (endNoMatch s).cr.status = .noMatch := rfl
@[simp] theorem endNoMatch_cr_faultCode : (endNoMatch s).cr.faultCode = 0 := rfl
@[simp] theorem endNoMatch_cr_faultInfo : (endNoMatch s).cr.faultInfo = 0 := rfl
@[simp] theorem endNoMatch_cr_outLenReg : (endNoMatch s).cr.outLenReg = 0 := rfl
@[simp] theorem endNoMatch_cr_hdrVersion : (endNoMatch s).cr.hdrVersion = s.cr.hdrVersion := rfl
@[simp] theorem endNoMatch_cr_hdrAlg : (endNoMatch s).cr.hdrAlg = s.cr.hdrAlg := rfl
@[simp] theorem endNoMatch_cr_hdrDoff : (endNoMatch s).cr.hdrDoff = s.cr.hdrDoff := rfl
@[simp] theorem endNoMatch_cr_hdrDsize : (endNoMatch s).cr.hdrDsize = s.cr.hdrDsize := rfl
@[simp] theorem endNoMatch_seq_phase : (endNoMatch s).seq.phase = .idle := rfl
@[simp] theorem endNoMatch_seq_smpOp : (endNoMatch s).seq.smpOp = s.seq.smpOp := rfl
@[simp] theorem endNoMatch_seq_smpAlg : (endNoMatch s).seq.smpAlg = s.seq.smpAlg := rfl
@[simp] theorem endNoMatch_seq_inLen : (endNoMatch s).seq.inLen = s.seq.inLen := rfl
@[simp] theorem endNoMatch_seq_hfEn : (endNoMatch s).seq.hfEn = s.seq.hfEn := rfl
@[simp] theorem endNoMatch_lz : (endNoMatch s).lz = s.lz := rfl
@[simp] theorem endNoMatch_tmp : (endNoMatch s).tmp = s.tmp := rfl
@[simp] theorem endNoMatch_hf : (endNoMatch s).hf = s.hf := rfl
@[simp] theorem endNoMatch_le : (endNoMatch s).le = s.le := rfl
@[simp] theorem endNoMatch_he : (endNoMatch s).he = s.he := rfl
@[simp] theorem endNoMatch_inMem : (endNoMatch s).inMem = s.inMem := rfl
@[simp] theorem endNoMatch_out : (endNoMatch s).out = s.out := rfl
@[simp] theorem endNoMatch_win : (endNoMatch s).win = s.win := rfl
@[simp] theorem endNoMatch_mid : (endNoMatch s).mid = s.mid := rfl
@[simp] theorem endNoMatch_htab : (endNoMatch s).htab = s.htab := rfl
@[simp] theorem endNoMatch_host : (endNoMatch s).host = s.host := rfl
@[simp] theorem endNoMatch_freeCtr : (endNoMatch s).freeCtr = s.freeCtr := rfl
@[simp] theorem endNoMatch_dsize : (endNoMatch s).dsize = s.dsize := rfl
@[simp] theorem endNoMatch_doff : (endNoMatch s).doff = s.doff := rfl

/-! ### `endDone` -/

@[simp] theorem endDone_cr_ctrl (n : Nat) : (endDone n s).cr.ctrl = s.cr.ctrl := rfl
@[simp] theorem endDone_cr_inLenReg (n : Nat) : (endDone n s).cr.inLenReg = s.cr.inLenReg := rfl
@[simp] theorem endDone_cr_status (n : Nat) : (endDone n s).cr.status = .done := rfl
@[simp] theorem endDone_cr_faultCode (n : Nat) : (endDone n s).cr.faultCode = 0 := rfl
@[simp] theorem endDone_cr_faultInfo (n : Nat) : (endDone n s).cr.faultInfo = 0 := rfl
@[simp] theorem endDone_cr_outLenReg (n : Nat) : (endDone n s).cr.outLenReg = n := rfl
@[simp] theorem endDone_cr_hdrVersion (n : Nat) : (endDone n s).cr.hdrVersion = s.cr.hdrVersion := rfl
@[simp] theorem endDone_cr_hdrAlg (n : Nat) : (endDone n s).cr.hdrAlg = s.cr.hdrAlg := rfl
@[simp] theorem endDone_cr_hdrDoff (n : Nat) : (endDone n s).cr.hdrDoff = s.cr.hdrDoff := rfl
@[simp] theorem endDone_cr_hdrDsize (n : Nat) : (endDone n s).cr.hdrDsize = s.cr.hdrDsize := rfl
@[simp] theorem endDone_seq_phase (n : Nat) : (endDone n s).seq.phase = .idle := rfl
@[simp] theorem endDone_seq_smpOp (n : Nat) : (endDone n s).seq.smpOp = s.seq.smpOp := rfl
@[simp] theorem endDone_seq_smpAlg (n : Nat) : (endDone n s).seq.smpAlg = s.seq.smpAlg := rfl
@[simp] theorem endDone_seq_inLen (n : Nat) : (endDone n s).seq.inLen = s.seq.inLen := rfl
@[simp] theorem endDone_seq_hfEn (n : Nat) : (endDone n s).seq.hfEn = s.seq.hfEn := rfl
@[simp] theorem endDone_lz (n : Nat) : (endDone n s).lz = s.lz := rfl
@[simp] theorem endDone_tmp (n : Nat) : (endDone n s).tmp = s.tmp := rfl
@[simp] theorem endDone_hf (n : Nat) : (endDone n s).hf = s.hf := rfl
@[simp] theorem endDone_le (n : Nat) : (endDone n s).le = s.le := rfl
@[simp] theorem endDone_he (n : Nat) : (endDone n s).he = s.he := rfl
@[simp] theorem endDone_inMem (n : Nat) : (endDone n s).inMem = s.inMem := rfl
@[simp] theorem endDone_out (n : Nat) : (endDone n s).out = s.out := rfl
@[simp] theorem endDone_win (n : Nat) : (endDone n s).win = s.win := rfl
@[simp] theorem endDone_mid (n : Nat) : (endDone n s).mid = s.mid := rfl
@[simp] theorem endDone_htab (n : Nat) : (endDone n s).htab = s.htab := rfl
@[simp] theorem endDone_host (n : Nat) : (endDone n s).host = s.host := rfl
@[simp] theorem endDone_freeCtr (n : Nat) : (endDone n s).freeCtr = s.freeCtr := rfl
@[simp] theorem endDone_dsize (n : Nat) : (endDone n s).dsize = s.dsize := rfl
@[simp] theorem endDone_doff (n : Nat) : (endDone n s).doff = s.doff := rfl

/-! ### `endCompress` -/

@[simp] theorem endCompress_cr_ctrl : (endCompress s).cr.ctrl = s.cr.ctrl := rfl
@[simp] theorem endCompress_cr_inLenReg : (endCompress s).cr.inLenReg = s.cr.inLenReg := rfl
@[simp] theorem endCompress_cr_status : (endCompress s).cr.status = .done := rfl
@[simp] theorem endCompress_cr_faultCode : (endCompress s).cr.faultCode = 0 := rfl
@[simp] theorem endCompress_cr_faultInfo : (endCompress s).cr.faultInfo = 0 := rfl
@[simp] theorem endCompress_cr_outLenReg : (endCompress s).cr.outLenReg = s.le.dp := rfl
@[simp] theorem endCompress_cr_hdrVersion : (endCompress s).cr.hdrVersion = s.cr.hdrVersion := rfl
@[simp] theorem endCompress_cr_hdrAlg : (endCompress s).cr.hdrAlg = s.cr.hdrAlg := rfl
@[simp] theorem endCompress_cr_hdrDoff : (endCompress s).cr.hdrDoff = s.cr.hdrDoff := rfl
@[simp] theorem endCompress_cr_hdrDsize : (endCompress s).cr.hdrDsize = s.cr.hdrDsize := rfl
@[simp] theorem endCompress_seq_phase : (endCompress s).seq.phase = .idle := rfl
@[simp] theorem endCompress_seq_smpOp : (endCompress s).seq.smpOp = s.seq.smpOp := rfl
@[simp] theorem endCompress_seq_smpAlg : (endCompress s).seq.smpAlg = s.seq.smpAlg := rfl
@[simp] theorem endCompress_seq_inLen : (endCompress s).seq.inLen = s.seq.inLen := rfl
@[simp] theorem endCompress_seq_hfEn : (endCompress s).seq.hfEn = s.seq.hfEn := rfl
@[simp] theorem endCompress_lz : (endCompress s).lz = s.lz := rfl
@[simp] theorem endCompress_tmp : (endCompress s).tmp = s.tmp := rfl
@[simp] theorem endCompress_hf : (endCompress s).hf = s.hf := rfl
@[simp] theorem endCompress_le : (endCompress s).le = s.le := rfl
@[simp] theorem endCompress_he : (endCompress s).he = s.he := rfl
@[simp] theorem endCompress_inMem : (endCompress s).inMem = s.inMem := rfl
@[simp] theorem endCompress_out : (endCompress s).out = s.out := rfl
@[simp] theorem endCompress_win : (endCompress s).win = s.win := rfl
@[simp] theorem endCompress_mid : (endCompress s).mid = s.mid := rfl
@[simp] theorem endCompress_htab : (endCompress s).htab = s.htab := rfl
@[simp] theorem endCompress_host : (endCompress s).host = s.host := rfl
@[simp] theorem endCompress_freeCtr : (endCompress s).freeCtr = s.freeCtr := rfl
@[simp] theorem endCompress_dsize : (endCompress s).dsize = s.dsize := rfl
@[simp] theorem endCompress_doff : (endCompress s).doff = s.doff := rfl

/-! ### `writeCtrlReg` -/

@[simp] theorem writeCtrlReg_cr_ctrl (w : Word) : (writeCtrlReg w s).cr.ctrl = w &&& ctrlMask := rfl
@[simp] theorem writeCtrlReg_cr_inLenReg (w : Word) : (writeCtrlReg w s).cr.inLenReg = s.cr.inLenReg := rfl
@[simp] theorem writeCtrlReg_cr_status (w : Word) : (writeCtrlReg w s).cr.status = s.cr.status := rfl
@[simp] theorem writeCtrlReg_cr_faultCode (w : Word) : (writeCtrlReg w s).cr.faultCode = s.cr.faultCode := rfl
@[simp] theorem writeCtrlReg_cr_faultInfo (w : Word) : (writeCtrlReg w s).cr.faultInfo = s.cr.faultInfo := rfl
@[simp] theorem writeCtrlReg_cr_outLenReg (w : Word) : (writeCtrlReg w s).cr.outLenReg = s.cr.outLenReg := rfl
@[simp] theorem writeCtrlReg_cr_hdrVersion (w : Word) : (writeCtrlReg w s).cr.hdrVersion = s.cr.hdrVersion := rfl
@[simp] theorem writeCtrlReg_cr_hdrAlg (w : Word) : (writeCtrlReg w s).cr.hdrAlg = s.cr.hdrAlg := rfl
@[simp] theorem writeCtrlReg_cr_hdrDoff (w : Word) : (writeCtrlReg w s).cr.hdrDoff = s.cr.hdrDoff := rfl
@[simp] theorem writeCtrlReg_cr_hdrDsize (w : Word) : (writeCtrlReg w s).cr.hdrDsize = s.cr.hdrDsize := rfl
@[simp] theorem writeCtrlReg_seq (w : Word) : (writeCtrlReg w s).seq = s.seq := rfl
@[simp] theorem writeCtrlReg_lz (w : Word) : (writeCtrlReg w s).lz = s.lz := rfl
@[simp] theorem writeCtrlReg_tmp (w : Word) : (writeCtrlReg w s).tmp = s.tmp := rfl
@[simp] theorem writeCtrlReg_hf (w : Word) : (writeCtrlReg w s).hf = s.hf := rfl
@[simp] theorem writeCtrlReg_le (w : Word) : (writeCtrlReg w s).le = s.le := rfl
@[simp] theorem writeCtrlReg_he (w : Word) : (writeCtrlReg w s).he = s.he := rfl
@[simp] theorem writeCtrlReg_inMem (w : Word) : (writeCtrlReg w s).inMem = s.inMem := rfl
@[simp] theorem writeCtrlReg_out (w : Word) : (writeCtrlReg w s).out = s.out := rfl
@[simp] theorem writeCtrlReg_win (w : Word) : (writeCtrlReg w s).win = s.win := rfl
@[simp] theorem writeCtrlReg_mid (w : Word) : (writeCtrlReg w s).mid = s.mid := rfl
@[simp] theorem writeCtrlReg_htab (w : Word) : (writeCtrlReg w s).htab = s.htab := rfl
@[simp] theorem writeCtrlReg_host (w : Word) : (writeCtrlReg w s).host = s.host := rfl
@[simp] theorem writeCtrlReg_freeCtr (w : Word) : (writeCtrlReg w s).freeCtr = s.freeCtr := rfl
@[simp] theorem writeCtrlReg_dsize (w : Word) : (writeCtrlReg w s).dsize = s.dsize := rfl
@[simp] theorem writeCtrlReg_doff (w : Word) : (writeCtrlReg w s).doff = s.doff := rfl

/-! ### `setHfEn` -/

@[simp] theorem setHfEn_cr (v : Bool) : (setHfEn v s).cr = s.cr := rfl
@[simp] theorem setHfEn_seq_phase (v : Bool) : (setHfEn v s).seq.phase = s.seq.phase := rfl
@[simp] theorem setHfEn_seq_smpOp (v : Bool) : (setHfEn v s).seq.smpOp = s.seq.smpOp := rfl
@[simp] theorem setHfEn_seq_smpAlg (v : Bool) : (setHfEn v s).seq.smpAlg = s.seq.smpAlg := rfl
@[simp] theorem setHfEn_seq_inLen (v : Bool) : (setHfEn v s).seq.inLen = s.seq.inLen := rfl
@[simp] theorem setHfEn_seq_hfEn (v : Bool) : (setHfEn v s).seq.hfEn = v := rfl
@[simp] theorem setHfEn_lz (v : Bool) : (setHfEn v s).lz = s.lz := rfl
@[simp] theorem setHfEn_tmp (v : Bool) : (setHfEn v s).tmp = s.tmp := rfl
@[simp] theorem setHfEn_hf (v : Bool) : (setHfEn v s).hf = s.hf := rfl
@[simp] theorem setHfEn_le (v : Bool) : (setHfEn v s).le = s.le := rfl
@[simp] theorem setHfEn_he (v : Bool) : (setHfEn v s).he = s.he := rfl
@[simp] theorem setHfEn_inMem (v : Bool) : (setHfEn v s).inMem = s.inMem := rfl
@[simp] theorem setHfEn_out (v : Bool) : (setHfEn v s).out = s.out := rfl
@[simp] theorem setHfEn_win (v : Bool) : (setHfEn v s).win = s.win := rfl
@[simp] theorem setHfEn_mid (v : Bool) : (setHfEn v s).mid = s.mid := rfl
@[simp] theorem setHfEn_htab (v : Bool) : (setHfEn v s).htab = s.htab := rfl
@[simp] theorem setHfEn_host (v : Bool) : (setHfEn v s).host = s.host := rfl
@[simp] theorem setHfEn_freeCtr (v : Bool) : (setHfEn v s).freeCtr = s.freeCtr := rfl
@[simp] theorem setHfEn_dsize (v : Bool) : (setHfEn v s).dsize = s.dsize := rfl
@[simp] theorem setHfEn_doff (v : Bool) : (setHfEn v s).doff = s.doff := rfl

/-! ### `setPhase` -/

@[simp] theorem setPhase_cr (p : Phase) : (setPhase p s).cr = s.cr := rfl
@[simp] theorem setPhase_seq_phase (p : Phase) : (setPhase p s).seq.phase = p := rfl
@[simp] theorem setPhase_seq_smpOp (p : Phase) : (setPhase p s).seq.smpOp = s.seq.smpOp := rfl
@[simp] theorem setPhase_seq_smpAlg (p : Phase) : (setPhase p s).seq.smpAlg = s.seq.smpAlg := rfl
@[simp] theorem setPhase_seq_inLen (p : Phase) : (setPhase p s).seq.inLen = s.seq.inLen := rfl
@[simp] theorem setPhase_seq_hfEn (p : Phase) : (setPhase p s).seq.hfEn = s.seq.hfEn := rfl
@[simp] theorem setPhase_lz (p : Phase) : (setPhase p s).lz = s.lz := rfl
@[simp] theorem setPhase_tmp (p : Phase) : (setPhase p s).tmp = s.tmp := rfl
@[simp] theorem setPhase_hf (p : Phase) : (setPhase p s).hf = s.hf := rfl
@[simp] theorem setPhase_le (p : Phase) : (setPhase p s).le = s.le := rfl
@[simp] theorem setPhase_he (p : Phase) : (setPhase p s).he = s.he := rfl
@[simp] theorem setPhase_inMem (p : Phase) : (setPhase p s).inMem = s.inMem := rfl
@[simp] theorem setPhase_out (p : Phase) : (setPhase p s).out = s.out := rfl
@[simp] theorem setPhase_win (p : Phase) : (setPhase p s).win = s.win := rfl
@[simp] theorem setPhase_mid (p : Phase) : (setPhase p s).mid = s.mid := rfl
@[simp] theorem setPhase_htab (p : Phase) : (setPhase p s).htab = s.htab := rfl
@[simp] theorem setPhase_host (p : Phase) : (setPhase p s).host = s.host := rfl
@[simp] theorem setPhase_freeCtr (p : Phase) : (setPhase p s).freeCtr = s.freeCtr := rfl
@[simp] theorem setPhase_dsize (p : Phase) : (setPhase p s).dsize = s.dsize := rfl
@[simp] theorem setPhase_doff (p : Phase) : (setPhase p s).doff = s.doff := rfl

/-! ### `latchHeader` -/

@[simp] theorem latchHeader_cr_ctrl (ver alg : Half) (doff dsize : Word) : (latchHeader ver alg doff dsize s).cr.ctrl = s.cr.ctrl := rfl
@[simp] theorem latchHeader_cr_inLenReg (ver alg : Half) (doff dsize : Word) : (latchHeader ver alg doff dsize s).cr.inLenReg = s.cr.inLenReg := rfl
@[simp] theorem latchHeader_cr_status (ver alg : Half) (doff dsize : Word) : (latchHeader ver alg doff dsize s).cr.status = s.cr.status := rfl
@[simp] theorem latchHeader_cr_faultCode (ver alg : Half) (doff dsize : Word) : (latchHeader ver alg doff dsize s).cr.faultCode = s.cr.faultCode := rfl
@[simp] theorem latchHeader_cr_faultInfo (ver alg : Half) (doff dsize : Word) : (latchHeader ver alg doff dsize s).cr.faultInfo = s.cr.faultInfo := rfl
@[simp] theorem latchHeader_cr_outLenReg (ver alg : Half) (doff dsize : Word) : (latchHeader ver alg doff dsize s).cr.outLenReg = s.cr.outLenReg := rfl
@[simp] theorem latchHeader_cr_hdrVersion (ver alg : Half) (doff dsize : Word) : (latchHeader ver alg doff dsize s).cr.hdrVersion = ver := rfl
@[simp] theorem latchHeader_cr_hdrAlg (ver alg : Half) (doff dsize : Word) : (latchHeader ver alg doff dsize s).cr.hdrAlg = alg := rfl
@[simp] theorem latchHeader_cr_hdrDoff (ver alg : Half) (doff dsize : Word) : (latchHeader ver alg doff dsize s).cr.hdrDoff = doff := rfl
@[simp] theorem latchHeader_cr_hdrDsize (ver alg : Half) (doff dsize : Word) : (latchHeader ver alg doff dsize s).cr.hdrDsize = dsize := rfl
@[simp] theorem latchHeader_seq (ver alg : Half) (doff dsize : Word) : (latchHeader ver alg doff dsize s).seq = s.seq := rfl
@[simp] theorem latchHeader_lz (ver alg : Half) (doff dsize : Word) : (latchHeader ver alg doff dsize s).lz = s.lz := rfl
@[simp] theorem latchHeader_tmp (ver alg : Half) (doff dsize : Word) : (latchHeader ver alg doff dsize s).tmp = s.tmp := rfl
@[simp] theorem latchHeader_hf (ver alg : Half) (doff dsize : Word) : (latchHeader ver alg doff dsize s).hf = s.hf := rfl
@[simp] theorem latchHeader_le (ver alg : Half) (doff dsize : Word) : (latchHeader ver alg doff dsize s).le = s.le := rfl
@[simp] theorem latchHeader_he (ver alg : Half) (doff dsize : Word) : (latchHeader ver alg doff dsize s).he = s.he := rfl
@[simp] theorem latchHeader_inMem (ver alg : Half) (doff dsize : Word) : (latchHeader ver alg doff dsize s).inMem = s.inMem := rfl
@[simp] theorem latchHeader_out (ver alg : Half) (doff dsize : Word) : (latchHeader ver alg doff dsize s).out = s.out := rfl
@[simp] theorem latchHeader_win (ver alg : Half) (doff dsize : Word) : (latchHeader ver alg doff dsize s).win = s.win := rfl
@[simp] theorem latchHeader_mid (ver alg : Half) (doff dsize : Word) : (latchHeader ver alg doff dsize s).mid = s.mid := rfl
@[simp] theorem latchHeader_htab (ver alg : Half) (doff dsize : Word) : (latchHeader ver alg doff dsize s).htab = s.htab := rfl
@[simp] theorem latchHeader_host (ver alg : Half) (doff dsize : Word) : (latchHeader ver alg doff dsize s).host = s.host := rfl
@[simp] theorem latchHeader_freeCtr (ver alg : Half) (doff dsize : Word) : (latchHeader ver alg doff dsize s).freeCtr = s.freeCtr := rfl
@[simp] theorem latchHeader_dsize (ver alg : Half) (doff dsize : Word) : (latchHeader ver alg doff dsize s).dsize = dsize.toNat := rfl
@[simp] theorem latchHeader_doff (ver alg : Half) (doff dsize : Word) : (latchHeader ver alg doff dsize s).doff = doff.toNat := rfl

/-! ### `emit` -/

@[simp] theorem emit_cr (b : Byte) : (emit b s).cr = s.cr := rfl
@[simp] theorem emit_seq (b : Byte) : (emit b s).seq = s.seq := rfl
@[simp] theorem emit_lz_ip (b : Byte) : (emit b s).lz.ip = s.lz.ip := rfl
@[simp] theorem emit_lz_cur (b : Byte) : (emit b s).lz.cur = s.lz.cur := rfl
@[simp] theorem emit_lz_rem (b : Byte) : (emit b s).lz.rem = s.lz.rem := rfl
@[simp] theorem emit_lz_outLen (b : Byte) : (emit b s).lz.outLen = s.lz.outLen + 1 := rfl
@[simp] theorem emit_lz_wp (b : Byte) : (emit b s).lz.wp = s.lz.wp + 1 := rfl
@[simp] theorem emit_tmp (b : Byte) : (emit b s).tmp = s.tmp := rfl
@[simp] theorem emit_hf (b : Byte) : (emit b s).hf = s.hf := rfl
@[simp] theorem emit_le (b : Byte) : (emit b s).le = s.le := rfl
@[simp] theorem emit_he (b : Byte) : (emit b s).he = s.he := rfl
@[simp] theorem emit_inMem (b : Byte) : (emit b s).inMem = s.inMem := rfl
@[simp] theorem emit_out (b : Byte) : (emit b s).out = Memory.write s.out s.lz.outLen b := rfl
@[simp] theorem emit_win (b : Byte) : (emit b s).win = Memory.write s.win s.lz.wp.toNat b := rfl
@[simp] theorem emit_mid (b : Byte) : (emit b s).mid = s.mid := rfl
@[simp] theorem emit_htab (b : Byte) : (emit b s).htab = s.htab := rfl
@[simp] theorem emit_host (b : Byte) : (emit b s).host = s.host := rfl
@[simp] theorem emit_freeCtr (b : Byte) : (emit b s).freeCtr = s.freeCtr := rfl
@[simp] theorem emit_dsize (b : Byte) : (emit b s).dsize = s.dsize := rfl
@[simp] theorem emit_doff (b : Byte) : (emit b s).doff = s.doff := rfl

/-! ### `outWriteAll` -/

@[simp] theorem outWriteAll_cr (a : Nat) (bs : List Byte) : (outWriteAll a bs s).cr = s.cr := rfl
@[simp] theorem outWriteAll_seq (a : Nat) (bs : List Byte) : (outWriteAll a bs s).seq = s.seq := rfl
@[simp] theorem outWriteAll_lz (a : Nat) (bs : List Byte) : (outWriteAll a bs s).lz = s.lz := rfl
@[simp] theorem outWriteAll_tmp (a : Nat) (bs : List Byte) : (outWriteAll a bs s).tmp = s.tmp := rfl
@[simp] theorem outWriteAll_hf (a : Nat) (bs : List Byte) : (outWriteAll a bs s).hf = s.hf := rfl
@[simp] theorem outWriteAll_le (a : Nat) (bs : List Byte) : (outWriteAll a bs s).le = s.le := rfl
@[simp] theorem outWriteAll_he (a : Nat) (bs : List Byte) : (outWriteAll a bs s).he = s.he := rfl
@[simp] theorem outWriteAll_inMem (a : Nat) (bs : List Byte) : (outWriteAll a bs s).inMem = s.inMem := rfl
@[simp] theorem outWriteAll_out (a : Nat) (bs : List Byte) : (outWriteAll a bs s).out = Memory.writeAll s.out a bs := rfl
@[simp] theorem outWriteAll_win (a : Nat) (bs : List Byte) : (outWriteAll a bs s).win = s.win := rfl
@[simp] theorem outWriteAll_mid (a : Nat) (bs : List Byte) : (outWriteAll a bs s).mid = s.mid := rfl
@[simp] theorem outWriteAll_htab (a : Nat) (bs : List Byte) : (outWriteAll a bs s).htab = s.htab := rfl
@[simp] theorem outWriteAll_host (a : Nat) (bs : List Byte) : (outWriteAll a bs s).host = s.host := rfl
@[simp] theorem outWriteAll_freeCtr (a : Nat) (bs : List Byte) : (outWriteAll a bs s).freeCtr = s.freeCtr := rfl
@[simp] theorem outWriteAll_dsize (a : Nat) (bs : List Byte) : (outWriteAll a bs s).dsize = s.dsize := rfl
@[simp] theorem outWriteAll_doff (a : Nat) (bs : List Byte) : (outWriteAll a bs s).doff = s.doff := rfl

/-! ### `setDp` -/

@[simp] theorem setDp_cr (n : Nat) : (setDp n s).cr = s.cr := rfl
@[simp] theorem setDp_seq (n : Nat) : (setDp n s).seq = s.seq := rfl
@[simp] theorem setDp_lz (n : Nat) : (setDp n s).lz = s.lz := rfl
@[simp] theorem setDp_tmp (n : Nat) : (setDp n s).tmp = s.tmp := rfl
@[simp] theorem setDp_hf (n : Nat) : (setDp n s).hf = s.hf := rfl
@[simp] theorem setDp_le_srcLen (n : Nat) : (setDp n s).le.srcLen = s.le.srcLen := rfl
@[simp] theorem setDp_le_p (n : Nat) : (setDp n s).le.p = s.le.p := rfl
@[simp] theorem setDp_le_bestLen (n : Nat) : (setDp n s).le.bestLen = s.le.bestLen := rfl
@[simp] theorem setDp_le_bestDist (n : Nat) : (setDp n s).le.bestDist = s.le.bestDist := rfl
@[simp] theorem setDp_le_candDist (n : Nat) : (setDp n s).le.candDist = s.le.candDist := rfl
@[simp] theorem setDp_le_candLen (n : Nat) : (setDp n s).le.candLen = s.le.candLen := rfl
@[simp] theorem setDp_le_chunk (n : Nat) : (setDp n s).le.chunk = s.le.chunk := rfl
@[simp] theorem setDp_le_wAcc (n : Nat) : (setDp n s).le.wAcc = s.le.wAcc := rfl
@[simp] theorem setDp_le_wCnt (n : Nat) : (setDp n s).le.wCnt = s.le.wCnt := rfl
@[simp] theorem setDp_le_pfifo (n : Nat) : (setDp n s).le.pfifo = s.le.pfifo := rfl
@[simp] theorem setDp_le_pfOver (n : Nat) : (setDp n s).le.pfOver = s.le.pfOver := rfl
@[simp] theorem setDp_le_dp (n : Nat) : (setDp n s).le.dp = n := rfl
@[simp] theorem setDp_he (n : Nat) : (setDp n s).he = s.he := rfl
@[simp] theorem setDp_inMem (n : Nat) : (setDp n s).inMem = s.inMem := rfl
@[simp] theorem setDp_out (n : Nat) : (setDp n s).out = s.out := rfl
@[simp] theorem setDp_win (n : Nat) : (setDp n s).win = s.win := rfl
@[simp] theorem setDp_mid (n : Nat) : (setDp n s).mid = s.mid := rfl
@[simp] theorem setDp_htab (n : Nat) : (setDp n s).htab = s.htab := rfl
@[simp] theorem setDp_host (n : Nat) : (setDp n s).host = s.host := rfl
@[simp] theorem setDp_freeCtr (n : Nat) : (setDp n s).freeCtr = s.freeCtr := rfl
@[simp] theorem setDp_dsize (n : Nat) : (setDp n s).dsize = s.dsize := rfl
@[simp] theorem setDp_doff (n : Nat) : (setDp n s).doff = s.doff := rfl

/-! ### `setP` -/

@[simp] theorem setP_cr (n : Nat) : (setP n s).cr = s.cr := rfl
@[simp] theorem setP_seq (n : Nat) : (setP n s).seq = s.seq := rfl
@[simp] theorem setP_lz (n : Nat) : (setP n s).lz = s.lz := rfl
@[simp] theorem setP_tmp (n : Nat) : (setP n s).tmp = s.tmp := rfl
@[simp] theorem setP_hf (n : Nat) : (setP n s).hf = s.hf := rfl
@[simp] theorem setP_le_srcLen (n : Nat) : (setP n s).le.srcLen = s.le.srcLen := rfl
@[simp] theorem setP_le_p (n : Nat) : (setP n s).le.p = n := rfl
@[simp] theorem setP_le_bestLen (n : Nat) : (setP n s).le.bestLen = s.le.bestLen := rfl
@[simp] theorem setP_le_bestDist (n : Nat) : (setP n s).le.bestDist = s.le.bestDist := rfl
@[simp] theorem setP_le_candDist (n : Nat) : (setP n s).le.candDist = s.le.candDist := rfl
@[simp] theorem setP_le_candLen (n : Nat) : (setP n s).le.candLen = s.le.candLen := rfl
@[simp] theorem setP_le_chunk (n : Nat) : (setP n s).le.chunk = s.le.chunk := rfl
@[simp] theorem setP_le_wAcc (n : Nat) : (setP n s).le.wAcc = s.le.wAcc := rfl
@[simp] theorem setP_le_wCnt (n : Nat) : (setP n s).le.wCnt = s.le.wCnt := rfl
@[simp] theorem setP_le_pfifo (n : Nat) : (setP n s).le.pfifo = s.le.pfifo := rfl
@[simp] theorem setP_le_pfOver (n : Nat) : (setP n s).le.pfOver = s.le.pfOver := rfl
@[simp] theorem setP_le_dp (n : Nat) : (setP n s).le.dp = s.le.dp := rfl
@[simp] theorem setP_he (n : Nat) : (setP n s).he = s.he := rfl
@[simp] theorem setP_inMem (n : Nat) : (setP n s).inMem = s.inMem := rfl
@[simp] theorem setP_out (n : Nat) : (setP n s).out = s.out := rfl
@[simp] theorem setP_win (n : Nat) : (setP n s).win = s.win := rfl
@[simp] theorem setP_mid (n : Nat) : (setP n s).mid = s.mid := rfl
@[simp] theorem setP_htab (n : Nat) : (setP n s).htab = s.htab := rfl
@[simp] theorem setP_host (n : Nat) : (setP n s).host = s.host := rfl
@[simp] theorem setP_freeCtr (n : Nat) : (setP n s).freeCtr = s.freeCtr := rfl
@[simp] theorem setP_dsize (n : Nat) : (setP n s).dsize = s.dsize := rfl
@[simp] theorem setP_doff (n : Nat) : (setP n s).doff = s.doff := rfl

/-! ### `setIp` -/

@[simp] theorem setIp_cr (n : Nat) : (setIp n s).cr = s.cr := rfl
@[simp] theorem setIp_seq (n : Nat) : (setIp n s).seq = s.seq := rfl
@[simp] theorem setIp_lz_ip (n : Nat) : (setIp n s).lz.ip = n := rfl
@[simp] theorem setIp_lz_cur (n : Nat) : (setIp n s).lz.cur = s.lz.cur := rfl
@[simp] theorem setIp_lz_rem (n : Nat) : (setIp n s).lz.rem = s.lz.rem := rfl
@[simp] theorem setIp_lz_outLen (n : Nat) : (setIp n s).lz.outLen = s.lz.outLen := rfl
@[simp] theorem setIp_lz_wp (n : Nat) : (setIp n s).lz.wp = s.lz.wp := rfl
@[simp] theorem setIp_tmp (n : Nat) : (setIp n s).tmp = s.tmp := rfl
@[simp] theorem setIp_hf (n : Nat) : (setIp n s).hf = s.hf := rfl
@[simp] theorem setIp_le (n : Nat) : (setIp n s).le = s.le := rfl
@[simp] theorem setIp_he (n : Nat) : (setIp n s).he = s.he := rfl
@[simp] theorem setIp_inMem (n : Nat) : (setIp n s).inMem = s.inMem := rfl
@[simp] theorem setIp_out (n : Nat) : (setIp n s).out = s.out := rfl
@[simp] theorem setIp_win (n : Nat) : (setIp n s).win = s.win := rfl
@[simp] theorem setIp_mid (n : Nat) : (setIp n s).mid = s.mid := rfl
@[simp] theorem setIp_htab (n : Nat) : (setIp n s).htab = s.htab := rfl
@[simp] theorem setIp_host (n : Nat) : (setIp n s).host = s.host := rfl
@[simp] theorem setIp_freeCtr (n : Nat) : (setIp n s).freeCtr = s.freeCtr := rfl
@[simp] theorem setIp_dsize (n : Nat) : (setIp n s).dsize = s.dsize := rfl
@[simp] theorem setIp_doff (n : Nat) : (setIp n s).doff = s.doff := rfl

/-! ### `setNode` -/

@[simp] theorem setNode_cr (v : Half) : (setNode v s).cr = s.cr := rfl
@[simp] theorem setNode_seq (v : Half) : (setNode v s).seq = s.seq := rfl
@[simp] theorem setNode_lz (v : Half) : (setNode v s).lz = s.lz := rfl
@[simp] theorem setNode_tmp (v : Half) : (setNode v s).tmp = s.tmp := rfl
@[simp] theorem setNode_hf_hp (v : Half) : (setNode v s).hf.hp = s.hf.hp := rfl
@[simp] theorem setNode_hf_cur (v : Half) : (setNode v s).hf.cur = s.hf.cur := rfl
@[simp] theorem setNode_hf_rem (v : Half) : (setNode v s).hf.rem = s.hf.rem := rfl
@[simp] theorem setNode_hf_node (v : Half) : (setNode v s).hf.node = v := rfl
@[simp] theorem setNode_hf_htLen (v : Half) : (setNode v s).hf.htLen = s.hf.htLen := rfl
@[simp] theorem setNode_hf_htCnt (v : Half) : (setNode v s).hf.htCnt = s.hf.htCnt := rfl
@[simp] theorem setNode_le (v : Half) : (setNode v s).le = s.le := rfl
@[simp] theorem setNode_he (v : Half) : (setNode v s).he = s.he := rfl
@[simp] theorem setNode_inMem (v : Half) : (setNode v s).inMem = s.inMem := rfl
@[simp] theorem setNode_out (v : Half) : (setNode v s).out = s.out := rfl
@[simp] theorem setNode_win (v : Half) : (setNode v s).win = s.win := rfl
@[simp] theorem setNode_mid (v : Half) : (setNode v s).mid = s.mid := rfl
@[simp] theorem setNode_htab (v : Half) : (setNode v s).htab = s.htab := rfl
@[simp] theorem setNode_host (v : Half) : (setNode v s).host = s.host := rfl
@[simp] theorem setNode_freeCtr (v : Half) : (setNode v s).freeCtr = s.freeCtr := rfl
@[simp] theorem setNode_dsize (v : Half) : (setNode v s).dsize = s.dsize := rfl
@[simp] theorem setNode_doff (v : Half) : (setNode v s).doff = s.doff := rfl

/-! ### `latchHi` -/

@[simp] theorem latchHi_cr (h : Byte) : (latchHi h s).cr = s.cr := rfl
@[simp] theorem latchHi_seq (h : Byte) : (latchHi h s).seq = s.seq := rfl
@[simp] theorem latchHi_lz (h : Byte) : (latchHi h s).lz = s.lz := rfl
@[simp] theorem latchHi_tmp_hi (h : Byte) : (latchHi h s).tmp.hi = h := rfl
@[simp] theorem latchHi_tmp_lo (h : Byte) : (latchHi h s).tmp.lo = s.tmp.lo := rfl
@[simp] theorem latchHi_tmp_lenf (h : Byte) : (latchHi h s).tmp.lenf = s.tmp.lenf := rfl
@[simp] theorem latchHi_tmp_off (h : Byte) : (latchHi h s).tmp.off = s.tmp.off := rfl
@[simp] theorem latchHi_tmp_tmp (h : Byte) : (latchHi h s).tmp.tmp = s.tmp.tmp := rfl
@[simp] theorem latchHi_tmp_len (h : Byte) : (latchHi h s).tmp.len = s.tmp.len := rfl
@[simp] theorem latchHi_tmp_run (h : Byte) : (latchHi h s).tmp.run = s.tmp.run := rfl
@[simp] theorem latchHi_tmp_cnt (h : Byte) : (latchHi h s).tmp.cnt = s.tmp.cnt := rfl
@[simp] theorem latchHi_hf (h : Byte) : (latchHi h s).hf = s.hf := rfl
@[simp] theorem latchHi_le (h : Byte) : (latchHi h s).le = s.le := rfl
@[simp] theorem latchHi_he (h : Byte) : (latchHi h s).he = s.he := rfl
@[simp] theorem latchHi_inMem (h : Byte) : (latchHi h s).inMem = s.inMem := rfl
@[simp] theorem latchHi_out (h : Byte) : (latchHi h s).out = s.out := rfl
@[simp] theorem latchHi_win (h : Byte) : (latchHi h s).win = s.win := rfl
@[simp] theorem latchHi_mid (h : Byte) : (latchHi h s).mid = s.mid := rfl
@[simp] theorem latchHi_htab (h : Byte) : (latchHi h s).htab = s.htab := rfl
@[simp] theorem latchHi_host (h : Byte) : (latchHi h s).host = s.host := rfl
@[simp] theorem latchHi_freeCtr (h : Byte) : (latchHi h s).freeCtr = s.freeCtr := rfl
@[simp] theorem latchHi_dsize (h : Byte) : (latchHi h s).dsize = s.dsize := rfl
@[simp] theorem latchHi_doff (h : Byte) : (latchHi h s).doff = s.doff := rfl

/-! ### `latchLo` -/

@[simp] theorem latchLo_cr (h l : Byte) : (latchLo h l s).cr = s.cr := rfl
@[simp] theorem latchLo_seq (h l : Byte) : (latchLo h l s).seq = s.seq := rfl
@[simp] theorem latchLo_lz (h l : Byte) : (latchLo h l s).lz = s.lz := rfl
@[simp] theorem latchLo_tmp_hi (h l : Byte) : (latchLo h l s).tmp.hi = s.tmp.hi := rfl
@[simp] theorem latchLo_tmp_lo (h l : Byte) : (latchLo h l s).tmp.lo = l := rfl
@[simp] theorem latchLo_tmp_lenf (h l : Byte) : (latchLo h l s).tmp.lenf = lenField h := rfl
@[simp] theorem latchLo_tmp_off (h l : Byte) : (latchLo h l s).tmp.off = offField h l := rfl
@[simp] theorem latchLo_tmp_tmp (h l : Byte) : (latchLo h l s).tmp.tmp = s.tmp.tmp := rfl
@[simp] theorem latchLo_tmp_len (h l : Byte) : (latchLo h l s).tmp.len = s.tmp.len := rfl
@[simp] theorem latchLo_tmp_run (h l : Byte) : (latchLo h l s).tmp.run = s.tmp.run := rfl
@[simp] theorem latchLo_tmp_cnt (h l : Byte) : (latchLo h l s).tmp.cnt = s.tmp.cnt := rfl
@[simp] theorem latchLo_hf (h l : Byte) : (latchLo h l s).hf = s.hf := rfl
@[simp] theorem latchLo_le (h l : Byte) : (latchLo h l s).le = s.le := rfl
@[simp] theorem latchLo_he (h l : Byte) : (latchLo h l s).he = s.he := rfl
@[simp] theorem latchLo_inMem (h l : Byte) : (latchLo h l s).inMem = s.inMem := rfl
@[simp] theorem latchLo_out (h l : Byte) : (latchLo h l s).out = s.out := rfl
@[simp] theorem latchLo_win (h l : Byte) : (latchLo h l s).win = s.win := rfl
@[simp] theorem latchLo_mid (h l : Byte) : (latchLo h l s).mid = s.mid := rfl
@[simp] theorem latchLo_htab (h l : Byte) : (latchLo h l s).htab = s.htab := rfl
@[simp] theorem latchLo_host (h l : Byte) : (latchLo h l s).host = s.host := rfl
@[simp] theorem latchLo_freeCtr (h l : Byte) : (latchLo h l s).freeCtr = s.freeCtr := rfl
@[simp] theorem latchLo_dsize (h l : Byte) : (latchLo h l s).dsize = s.dsize := rfl
@[simp] theorem latchLo_doff (h l : Byte) : (latchLo h l s).doff = s.doff := rfl

/-! ### `latchTmp` -/

@[simp] theorem latchTmp_cr (t : Byte) : (latchTmp t s).cr = s.cr := rfl
@[simp] theorem latchTmp_seq (t : Byte) : (latchTmp t s).seq = s.seq := rfl
@[simp] theorem latchTmp_lz (t : Byte) : (latchTmp t s).lz = s.lz := rfl
@[simp] theorem latchTmp_tmp_hi (t : Byte) : (latchTmp t s).tmp.hi = s.tmp.hi := rfl
@[simp] theorem latchTmp_tmp_lo (t : Byte) : (latchTmp t s).tmp.lo = s.tmp.lo := rfl
@[simp] theorem latchTmp_tmp_lenf (t : Byte) : (latchTmp t s).tmp.lenf = s.tmp.lenf := rfl
@[simp] theorem latchTmp_tmp_off (t : Byte) : (latchTmp t s).tmp.off = s.tmp.off := rfl
@[simp] theorem latchTmp_tmp_tmp (t : Byte) : (latchTmp t s).tmp.tmp = t := rfl
@[simp] theorem latchTmp_tmp_len (t : Byte) : (latchTmp t s).tmp.len = s.tmp.len := rfl
@[simp] theorem latchTmp_tmp_run (t : Byte) : (latchTmp t s).tmp.run = s.tmp.run := rfl
@[simp] theorem latchTmp_tmp_cnt (t : Byte) : (latchTmp t s).tmp.cnt = s.tmp.cnt := rfl
@[simp] theorem latchTmp_hf (t : Byte) : (latchTmp t s).hf = s.hf := rfl
@[simp] theorem latchTmp_le (t : Byte) : (latchTmp t s).le = s.le := rfl
@[simp] theorem latchTmp_he (t : Byte) : (latchTmp t s).he = s.he := rfl
@[simp] theorem latchTmp_inMem (t : Byte) : (latchTmp t s).inMem = s.inMem := rfl
@[simp] theorem latchTmp_out (t : Byte) : (latchTmp t s).out = s.out := rfl
@[simp] theorem latchTmp_win (t : Byte) : (latchTmp t s).win = s.win := rfl
@[simp] theorem latchTmp_mid (t : Byte) : (latchTmp t s).mid = s.mid := rfl
@[simp] theorem latchTmp_htab (t : Byte) : (latchTmp t s).htab = s.htab := rfl
@[simp] theorem latchTmp_host (t : Byte) : (latchTmp t s).host = s.host := rfl
@[simp] theorem latchTmp_freeCtr (t : Byte) : (latchTmp t s).freeCtr = s.freeCtr := rfl
@[simp] theorem latchTmp_dsize (t : Byte) : (latchTmp t s).dsize = s.dsize := rfl
@[simp] theorem latchTmp_doff (t : Byte) : (latchTmp t s).doff = s.doff := rfl

/-! ### `lzwByte` -/

@[simp] theorem lzwByte_cr (v : Byte) : (lzwByte v s).cr = s.cr := rfl
@[simp] theorem lzwByte_seq (v : Byte) : (lzwByte v s).seq = s.seq := rfl
@[simp] theorem lzwByte_lz (v : Byte) : (lzwByte v s).lz = s.lz := rfl
@[simp] theorem lzwByte_tmp (v : Byte) : (lzwByte v s).tmp = s.tmp := rfl
@[simp] theorem lzwByte_hf (v : Byte) : (lzwByte v s).hf = s.hf := rfl
@[simp] theorem lzwByte_le_srcLen (v : Byte) : (lzwByte v s).le.srcLen = s.le.srcLen := rfl
@[simp] theorem lzwByte_le_p (v : Byte) : (lzwByte v s).le.p = s.le.p := rfl
@[simp] theorem lzwByte_le_bestLen (v : Byte) : (lzwByte v s).le.bestLen = s.le.bestLen := rfl
@[simp] theorem lzwByte_le_bestDist (v : Byte) : (lzwByte v s).le.bestDist = s.le.bestDist := rfl
@[simp] theorem lzwByte_le_candDist (v : Byte) : (lzwByte v s).le.candDist = s.le.candDist := rfl
@[simp] theorem lzwByte_le_candLen (v : Byte) : (lzwByte v s).le.candLen = s.le.candLen := rfl
@[simp] theorem lzwByte_le_chunk (v : Byte) : (lzwByte v s).le.chunk = s.le.chunk := rfl
@[simp] theorem lzwByte_le_wAcc (v : Byte) : (lzwByte v s).le.wAcc = s.le.wAcc := rfl
@[simp] theorem lzwByte_le_wCnt (v : Byte) : (lzwByte v s).le.wCnt = s.le.wCnt := rfl
@[simp] theorem lzwByte_le_pfifo (v : Byte) :
    (lzwByte v s).le.pfifo = (s.le.waiting ++ [v]).take Config.pfifoSize := rfl
@[simp] theorem lzwByte_le_pfOver (v : Byte) :
    (lzwByte v s).le.pfOver = (s.le.waiting ++ [v]).drop Config.pfifoSize := rfl
@[simp] theorem lzwByte_le_waiting (v : Byte) : (lzwByte v s).le.waiting = s.le.waiting ++ [v] :=
  List.take_append_drop _ _
@[simp] theorem lzwByte_le_dp (v : Byte) : (lzwByte v s).le.dp = s.le.dp := rfl
@[simp] theorem lzwByte_he (v : Byte) : (lzwByte v s).he = s.he := rfl
@[simp] theorem lzwByte_inMem (v : Byte) : (lzwByte v s).inMem = s.inMem := rfl
@[simp] theorem lzwByte_out (v : Byte) : (lzwByte v s).out = s.out := rfl
@[simp] theorem lzwByte_win (v : Byte) : (lzwByte v s).win = s.win := rfl
@[simp] theorem lzwByte_mid (v : Byte) : (lzwByte v s).mid = s.mid := rfl
@[simp] theorem lzwByte_htab (v : Byte) : (lzwByte v s).htab = s.htab := rfl
@[simp] theorem lzwByte_host (v : Byte) : (lzwByte v s).host = s.host := rfl
@[simp] theorem lzwByte_freeCtr (v : Byte) : (lzwByte v s).freeCtr = s.freeCtr := rfl
@[simp] theorem lzwByte_dsize (v : Byte) : (lzwByte v s).dsize = s.dsize := rfl
@[simp] theorem lzwByte_doff (v : Byte) : (lzwByte v s).doff = s.doff := rfl

/-! ### `setSearch` -/

@[simp] theorem setSearch_cr (r : SearchResult) : (setSearch r s).cr = s.cr := rfl
@[simp] theorem setSearch_seq (r : SearchResult) : (setSearch r s).seq = s.seq := rfl
@[simp] theorem setSearch_lz (r : SearchResult) : (setSearch r s).lz = s.lz := rfl
@[simp] theorem setSearch_tmp (r : SearchResult) : (setSearch r s).tmp = s.tmp := rfl
@[simp] theorem setSearch_hf (r : SearchResult) : (setSearch r s).hf = s.hf := rfl
@[simp] theorem setSearch_le_srcLen (r : SearchResult) : (setSearch r s).le.srcLen = s.le.srcLen := rfl
@[simp] theorem setSearch_le_p (r : SearchResult) : (setSearch r s).le.p = s.le.p := rfl
@[simp] theorem setSearch_le_bestLen (r : SearchResult) : (setSearch r s).le.bestLen = r.bestLen := rfl
@[simp] theorem setSearch_le_bestDist (r : SearchResult) : (setSearch r s).le.bestDist = BitVec.ofNat 14 r.bestDist := rfl
@[simp] theorem setSearch_le_candDist (r : SearchResult) : (setSearch r s).le.candDist = BitVec.ofNat 14 r.candDist := rfl
@[simp] theorem setSearch_le_candLen (r : SearchResult) : (setSearch r s).le.candLen = r.candLen := rfl
@[simp] theorem setSearch_le_chunk (r : SearchResult) : (setSearch r s).le.chunk = s.le.chunk := rfl
@[simp] theorem setSearch_le_wAcc (r : SearchResult) : (setSearch r s).le.wAcc = s.le.wAcc := rfl
@[simp] theorem setSearch_le_wCnt (r : SearchResult) : (setSearch r s).le.wCnt = s.le.wCnt := rfl
@[simp] theorem setSearch_le_pfifo (r : SearchResult) : (setSearch r s).le.pfifo = s.le.pfifo := rfl
@[simp] theorem setSearch_le_pfOver (r : SearchResult) : (setSearch r s).le.pfOver = s.le.pfOver := rfl
@[simp] theorem setSearch_le_dp (r : SearchResult) : (setSearch r s).le.dp = s.le.dp := rfl
@[simp] theorem setSearch_he (r : SearchResult) : (setSearch r s).he = s.he := rfl
@[simp] theorem setSearch_inMem (r : SearchResult) : (setSearch r s).inMem = s.inMem := rfl
@[simp] theorem setSearch_out (r : SearchResult) : (setSearch r s).out = s.out := rfl
@[simp] theorem setSearch_win (r : SearchResult) : (setSearch r s).win = s.win := rfl
@[simp] theorem setSearch_mid (r : SearchResult) : (setSearch r s).mid = s.mid := rfl
@[simp] theorem setSearch_htab (r : SearchResult) : (setSearch r s).htab = s.htab := rfl
@[simp] theorem setSearch_host (r : SearchResult) : (setSearch r s).host = s.host := rfl
@[simp] theorem setSearch_freeCtr (r : SearchResult) : (setSearch r s).freeCtr = s.freeCtr := rfl
@[simp] theorem setSearch_dsize (r : SearchResult) : (setSearch r s).dsize = s.dsize := rfl
@[simp] theorem setSearch_doff (r : SearchResult) : (setSearch r s).doff = s.doff := rfl

/-! ### `cmdStart` -/

@[simp] theorem cmdStart_cr_ctrl (op : Bool) (alg : Half) : (cmdStart op alg s).cr.ctrl = s.cr.ctrl := rfl
@[simp] theorem cmdStart_cr_inLenReg (op : Bool) (alg : Half) : (cmdStart op alg s).cr.inLenReg = s.cr.inLenReg := rfl
@[simp] theorem cmdStart_cr_status (op : Bool) (alg : Half) : (cmdStart op alg s).cr.status = .busy := rfl
@[simp] theorem cmdStart_cr_faultCode (op : Bool) (alg : Half) : (cmdStart op alg s).cr.faultCode = 0 := rfl
@[simp] theorem cmdStart_cr_faultInfo (op : Bool) (alg : Half) : (cmdStart op alg s).cr.faultInfo = 0 := rfl
@[simp] theorem cmdStart_cr_outLenReg (op : Bool) (alg : Half) : (cmdStart op alg s).cr.outLenReg = 0 := rfl
@[simp] theorem cmdStart_cr_hdrVersion (op : Bool) (alg : Half) : (cmdStart op alg s).cr.hdrVersion = s.cr.hdrVersion := rfl
@[simp] theorem cmdStart_cr_hdrAlg (op : Bool) (alg : Half) : (cmdStart op alg s).cr.hdrAlg = s.cr.hdrAlg := rfl
@[simp] theorem cmdStart_cr_hdrDoff (op : Bool) (alg : Half) : (cmdStart op alg s).cr.hdrDoff = s.cr.hdrDoff := rfl
@[simp] theorem cmdStart_cr_hdrDsize (op : Bool) (alg : Half) : (cmdStart op alg s).cr.hdrDsize = s.cr.hdrDsize := rfl
@[simp] theorem cmdStart_seq_phase (op : Bool) (alg : Half) : (cmdStart op alg s).seq.phase = .idle := rfl
@[simp] theorem cmdStart_seq_smpOp (op : Bool) (alg : Half) : (cmdStart op alg s).seq.smpOp = op := rfl
@[simp] theorem cmdStart_seq_smpAlg (op : Bool) (alg : Half) : (cmdStart op alg s).seq.smpAlg = alg := rfl
@[simp] theorem cmdStart_seq_inLen (op : Bool) (alg : Half) : (cmdStart op alg s).seq.inLen = s.cr.inLenReg := rfl
@[simp] theorem cmdStart_seq_hfEn (op : Bool) (alg : Half) : (cmdStart op alg s).seq.hfEn = false := rfl
@[simp] theorem cmdStart_lz (op : Bool) (alg : Half) : (cmdStart op alg s).lz = LzDecoder.reset := rfl
@[simp] theorem cmdStart_tmp (op : Bool) (alg : Half) : (cmdStart op alg s).tmp = freeTemps s.freeCtr := rfl
@[simp] theorem cmdStart_hf (op : Bool) (alg : Half) : (cmdStart op alg s).hf = HfDecoder.reset := rfl
@[simp] theorem cmdStart_le (op : Bool) (alg : Half) : (cmdStart op alg s).le = LzEncoder.reset := rfl
@[simp] theorem cmdStart_he (op : Bool) (alg : Half) : (cmdStart op alg s).he = { HfEncoder.reset with freq := zeroFreq, code := freeCodes (s.freeCtr + 8) } := rfl
@[simp] theorem cmdStart_inMem (op : Bool) (alg : Half) : (cmdStart op alg s).inMem = s.inMem := rfl
@[simp] theorem cmdStart_out (op : Bool) (alg : Half) : (cmdStart op alg s).out = [] := rfl
@[simp] theorem cmdStart_win (op : Bool) (alg : Half) : (cmdStart op alg s).win = [] := rfl
@[simp] theorem cmdStart_mid (op : Bool) (alg : Half) : (cmdStart op alg s).mid = [] := rfl
@[simp] theorem cmdStart_htab (op : Bool) (alg : Half) : (cmdStart op alg s).htab = [] := rfl
@[simp] theorem cmdStart_host (op : Bool) (alg : Half) : (cmdStart op alg s).host = s.host := rfl
@[simp] theorem cmdStart_freeCtr (op : Bool) (alg : Half) : (cmdStart op alg s).freeCtr = s.freeCtr + 264 := rfl
@[simp] theorem cmdStart_dsize (op : Bool) (alg : Half) : (cmdStart op alg s).dsize = s.dsize := rfl
@[simp] theorem cmdStart_doff (op : Bool) (alg : Half) : (cmdStart op alg s).doff = s.doff := rfl

end Sys2Proof.Machine
end

