-- ==== Sys2Proof/Laws/Memory.lean ====
section
/-! SUPPORT. Memory spaces: a read after a write, and the canonical form that every operation keeps. -/

namespace Sys2Proof.Machine

variable {α : Type}

/-! ### Read after write -/

theorem Memory.read_write (m : Memory α) (a b : Nat) (v : α) :
    Memory.read (Memory.write m a v) b = if b = a then some v else Memory.read m b := by
  induction m with
  | nil => by_cases h : b = a <;> simp [Memory.write, Memory.read, h]
  | cons c rest ih =>
    obtain ⟨i, w⟩ := c
    by_cases h1 : a < i
    · by_cases h : b = a <;> simp [Memory.write, Memory.read, h1, h]
    · by_cases h2 : a = i
      · subst h2
        by_cases h : b = a <;> simp [Memory.write, Memory.read, h]
      · by_cases h3 : b = i
        · subst h3
          have : b ≠ a := fun h => h2 h.symm
          simp [Memory.write, Memory.read, h1, h2, this]
        · simp [Memory.write, Memory.read, h1, h2, h3, ih]

@[simp] theorem Memory.read_write_same (m : Memory α) (a : Nat) (v : α) :
    Memory.read (Memory.write m a v) a = some v := by
  rw [Memory.read_write, if_pos rfl]

theorem Memory.read_write_ne (m : Memory α) {a b : Nat} (v : α) (h : b ≠ a) :
    Memory.read (Memory.write m a v) b = Memory.read m b := by
  rw [Memory.read_write, if_neg h]

@[simp] theorem Memory.read_nil (a : Nat) : Memory.read ([] : Memory α) a = none := rfl

/-- What a write of a sequence leaves outside its range. -/
theorem Memory.read_writeAll_outside (vs : List α) (m : Memory α) (a b : Nat) (h : b < a ∨ a + vs.length ≤ b) :
    Memory.read (Memory.writeAll m a vs) b = Memory.read m b := by
  induction vs generalizing m a with
  | nil => rfl
  | cons v vs ih =>
    simp only [List.length_cons] at h
    rw [Memory.writeAll, ih _ _ (by omega), Memory.read_write_ne _ _ (by omega)]

/-- What a write of a sequence stores: its `k`-th element at the `k`-th index. -/
theorem Memory.read_writeAll_inside (vs : List α) (m : Memory α) (a k : Nat) (h : k < vs.length) :
    Memory.read (Memory.writeAll m a vs) (a + k) = vs[k]? := by
  induction vs generalizing m a k with
  | nil => simp at h
  | cons v vs ih =>
    cases k with
    | zero =>
      rw [Memory.writeAll, Memory.read_writeAll_outside _ _ _ _ (by omega)]
      simp
    | succ k =>
      rw [Memory.writeAll, show a + (k + 1) = a + 1 + k by omega, ih _ _ _ (by simpa using h)]
      rfl

/-- A write of two sequences in a row. -/
theorem Memory.writeAll_append (vs ws : List α) (m : Memory α) (a : Nat) :
    Memory.writeAll m a (vs ++ ws) = Memory.writeAll (Memory.writeAll m a vs) (a + vs.length) ws := by
  induction vs generalizing m a with
  | nil => rfl
  | cons v vs ih =>
    simp only [List.cons_append, Memory.writeAll, ih, List.length_cons]
    congr 1
    omega

/-! ### Canonical form -/

theorem Memory.wf_cons (i : Nat) (v : α) (m : Memory α) :
    Memory.wf ((i, v) :: m) = true ↔ (∀ c ∈ m.head?, i < c.1) ∧ Memory.wf m = true := by
  cases m with
  | nil => simp [Memory.wf]
  | cons c rest => obtain ⟨j, w⟩ := c; simp [Memory.wf]

/-- The lowest index after a write is the written one or the lowest index before it. -/
theorem Memory.head_write (m : Memory α) (a : Nat) (v : α) :
    ∀ c ∈ (Memory.write m a v).head?, c.1 = a ∨ ∃ d ∈ m.head?, c.1 = d.1 := by
  cases m with
  | nil => simp [Memory.write]
  | cons d rest =>
    obtain ⟨i, w⟩ := d
    simp only [Memory.write]
    split_ifs <;> simp

/-- Every write keeps the canonical form. -/
theorem Memory.wf_write (m : Memory α) (a : Nat) (v : α) (h : Memory.wf m = true) :
    Memory.wf (Memory.write m a v) = true := by
  induction m with
  | nil => rfl
  | cons c rest ih =>
    obtain ⟨i, w⟩ := c
    have hr := (Memory.wf_cons i w rest).1 h
    simp only [Memory.write]
    split_ifs with h1 h2
    · exact (Memory.wf_cons _ _ _).2 ⟨by simpa using h1, h⟩
    · subst h2; exact (Memory.wf_cons _ _ _).2 hr
    · refine (Memory.wf_cons _ _ _).2 ⟨fun c hc => ?_, ih hr.2⟩
      rcases Memory.head_write rest a v c hc with h | ⟨d, hd, h⟩
      · omega
      · have := hr.1 d hd; omega

/-- Every write of a sequence keeps the canonical form. -/
theorem Memory.wf_writeAll (vs : List α) (m : Memory α) (a : Nat) (h : Memory.wf m = true) :
    Memory.wf (Memory.writeAll m a vs) = true := by
  induction vs generalizing m a with
  | nil => exact h
  | cons v vs ih => exact ih _ _ (Memory.wf_write m a v h)

@[simp] theorem Memory.wf_nil : Memory.wf ([] : Memory α) = true := rfl

/-- A table over consecutive indices is in canonical form. -/
theorem Memory.wf_tabulate (f : Nat → α) (n : Nat) (a : Nat) :
    Memory.wf ((List.range' a n).map fun b => (b, f b)) = true := by
  induction n generalizing a with
  | zero => rfl
  | succ n ih =>
    rw [List.range'_succ, List.map_cons, Memory.wf_cons]
    refine ⟨fun c hc => ?_, ih (a + 1)⟩
    cases n with
    | zero => simp at hc
    | succ n => simp [List.range'_succ] at hc; rw [← hc]; omega

/-- What a table over consecutive indices holds. -/
theorem Memory.read_tabulate (f : Nat → α) (n a b : Nat) :
    Memory.read ((List.range' a n).map fun b => (b, f b)) b = if a ≤ b ∧ b < a + n then some (f b) else none := by
  induction n generalizing a with
  | zero => rw [if_neg (by omega)]; rfl
  | succ n ih =>
    rw [List.range'_succ, List.map_cons, Memory.read, ih]
    by_cases h : b = a
    · subst h; rw [if_pos rfl, if_pos (by omega)]
    · rw [if_neg h]
      by_cases h2 : a ≤ b ∧ b < a + (n + 1)
      · rw [if_pos h2, if_pos (by omega)]
      · rw [if_neg h2, if_neg (by omega)]

/-- A register file is in canonical form. -/
theorem regFile_wf (f : Nat → α) : Memory.wf (regFile f) = true := by
  rw [regFile, List.range_eq_range']; exact Memory.wf_tabulate f 256 0

/-- A register file holds a value in each of its 256 entries. -/
theorem regFile_read (f : Nat → α) (b : Nat) : Memory.read (regFile f) b = if b < 256 then some (f b) else none := by
  rw [regFile, List.range_eq_range', Memory.read_tabulate]
  simp

/-- FREQ after a command start is in canonical form. -/
theorem zeroFreq_wf : Memory.wf zeroFreq = true := regFile_wf _

/-- CODE after a command start is in canonical form. -/
theorem freeCodes_wf (n : Nat) : Memory.wf (freeCodes n) = true := regFile_wf _

/-- FREQ after HF.COUNT is in canonical form. -/
theorem freqTable_wf (hsrc : List Byte) : Memory.wf (freqTable hsrc) = true := regFile_wf _

/-- What HF.COUNT leaves in FREQ (rules R66, R231). -/
theorem freqTable_read (hsrc : List Byte) (b : Nat) :
    Memory.read (freqTable hsrc) b = if b < 256 then some (hsrc.count (BitVec.ofNat 8 b)) else none := by
  exact regFile_read _ b

/-- Memory right after reset is in canonical form. -/
theorem reset_memories_wf :
    Memory.wf State.reset.inMem = true ∧ Memory.wf State.reset.out = true ∧ Memory.wf State.reset.win = true ∧
    Memory.wf State.reset.mid = true ∧ Memory.wf State.reset.htab = true ∧
    Memory.wf State.reset.he.freq = true ∧ Memory.wf State.reset.he.code = true :=
  ⟨rfl, rfl, rfl, rfl, rfl, regFile_wf (fun _ => 0), regFile_wf (fun _ => [])⟩

end Sys2Proof.Machine
end

