-- ==== Sys2Proof/Laws/Ops.lean ====
section
/-! SUPPORT. What the shared operations of Ops and Operands can do: how a rule's pseudocode ends, reads, output. -/

namespace Sys2Proof.Machine

/-! ### Sequencing -/

theorem bind_ok {ε α β : Type} {x : Except ε α} {f : α → Except ε β} {b : β} :
    (x >>= f) = .ok b ↔ ∃ a, x = .ok a ∧ f a = .ok b := by
  cases x <;> simp [bind, Except.bind]

theorem bind_error {ε α β : Type} {x : Except ε α} {f : α → Except ε β} {e : ε} :
    (x >>= f) = .error e ↔ x = .error e ∨ ∃ a, x = .ok a ∧ f a = .error e := by
  cases x <;> simp [bind, Except.bind]

@[simp] theorem ok_bind {ε α β : Type} (a : α) (f : α → Except ε β) : (Except.ok a >>= f) = f a := rfl

@[simp] theorem error_bind {ε α β : Type} (e : ε) (f : α → Except ε β) :
    ((Except.error e : Except ε α) >>= f) = .error e := rfl

/-- A step goes on exactly when the pseudocode ran to its end, raised a core fault, or ended with NOMATCH. -/
theorem outcomeOf_next {x : Except Stop State} {t : State} :
    outcomeOf x = .next t ↔ x = .ok t ∨ (∃ f info u, x = .error (.raise f info u) ∧ t = takeFault f info u) ∨
      ∃ u, x = .error (.noMatch u) ∧ t = endNoMatch u := by
  rcases x with e | u
  · cases e <;> simp [outcomeOf, Stop.outcome, eq_comm]
  · simp [outcomeOf]

@[simp] theorem outcomeOf_ok (t : State) : outcomeOf (.ok t) = .next t := rfl

@[simp] theorem outcomeOf_raise (f : CoreFault) (info : Nat) (u : State) :
    outcomeOf (.error (.raise f info u)) = .next (takeFault f info u) := rfl

@[simp] theorem outcomeOf_noMatch (u : State) : outcomeOf (.error (.noMatch u)) = .next (endNoMatch u) := rfl

@[simp] theorem outcomeOf_fault (f : Fault) : outcomeOf (.error (.fault f)) = .fault f := rfl

@[simp] theorem outcomeOf_refuse (r : Refusal) : outcomeOf (.error (.refuse r)) = .refused r := rfl

/-! ### Reads -/

theorem readOrStop_ok {α : Type} {sp : Space} {m : Memory α} {a : Nat} {v : α} :
    readOrStop sp m a = .ok v ↔ Memory.read m a = some v := by
  unfold readOrStop; cases Memory.read m a <;> simp

theorem readOrStop_error {α : Type} {sp : Space} {m : Memory α} {a : Nat} {e : Stop} :
    readOrStop sp m a = .error e ↔ Memory.read m a = none ∧ e = .fault (.readUnwritten sp a) := by
  unfold readOrStop; cases Memory.read m a <;> simp [eq_comm]

/-- A read of IN answers the byte there, if the index is below `in_len` (rule R78). -/
theorem inRead_ok {a : Nat} {s : State} {b : Byte} :
    inRead a s = .ok b ↔ a < s.seq.inLen ∧ Memory.read s.inMem a = some b := by
  unfold inRead
  split_ifs with h
  · simp; omega
  · rw [readOrStop_ok]; constructor
    · exact fun h' => ⟨by omega, h'⟩
    · exact fun h' => h'.2

/-- A read of IN raises E_TRUNC at or beyond `in_len` (rule R78), and stops the model on a byte never written. -/
theorem inRead_error {a : Nat} {s : State} {e : Stop} :
    inRead a s = .error e ↔ (s.seq.inLen ≤ a ∧ e = .raise .eTrunc a s) ∨
      (a < s.seq.inLen ∧ Memory.read s.inMem a = none ∧ e = .fault (.readUnwritten .inp a)) := by
  unfold inRead
  split_ifs with h
  · constructor
    · exact fun h' => .inl ⟨h, (Except.error.inj h').symm⟩
    · rintro (h' | h')
      · rw [h'.2]
      · omega
  · rw [readOrStop_error]; constructor
    · exact fun h' => .inr ⟨by omega, h'⟩
    · rintro (h' | h')
      · omega
      · exact h'.2

/-- Reading a row of IN bytes below `in_len`. -/
theorem inReadMany_ok {s : State} {n a : Nat} {bs : List Byte} :
    inReadMany s a n = .ok bs ↔ bs.length = n ∧ ∀ k, k < n → a + k < s.seq.inLen ∧ Memory.read s.inMem (a + k) = bs[k]? := by
  induction n generalizing a bs with
  | zero => cases bs <;> simp [inReadMany]
  | succ n ih =>
    simp only [inReadMany, bind_ok, inRead_ok, ih, Except.ok.injEq]
    constructor
    · rintro ⟨b, ⟨h1, h2⟩, cs, ⟨h3, h4⟩, rfl⟩
      refine ⟨by simp [h3], fun k hk => ?_⟩
      cases k with
      | zero => simpa using ⟨h1, h2⟩
      | succ k =>
        have := h4 k (by omega)
        rw [show a + (k + 1) = a + 1 + k by omega]
        simpa using this
    · rintro ⟨h1, h2⟩
      cases bs with
      | nil => simp at h1
      | cons b cs =>
        refine ⟨b, by simpa using h2 0 (by omega), cs, ⟨by simpa using h1, fun k hk => ?_⟩, rfl⟩
        have := h2 (k + 1) (by omega)
        rw [show a + (k + 1) = a + 1 + k by omega] at this
        simpa using this

/-! ### Output -/

/-- What `append` of a byte sequence leaves. -/
theorem appendAll_out (bs : List Byte) (s : State) :
    appendAll .out bs s = { s with
      out := Memory.writeAll s.out s.le.dp bs
      le := { s.le with dp := s.le.dp + bs.length } } := by
  induction bs generalizing s with
  | nil => rfl
  | cons b bs ih => rw [appendAll, ih]; simp [appendDst, Memory.writeAll, Nat.add_assoc, Nat.add_comm 1]

/-- What `append` of a byte sequence leaves. -/
theorem appendAll_mid (bs : List Byte) (s : State) :
    appendAll .mid bs s = { s with
      mid := Memory.writeAll s.mid s.le.dp bs
      le := { s.le with dp := s.le.dp + bs.length } } := by
  induction bs generalizing s with
  | nil => rfl
  | cons b bs ih => rw [appendAll, ih]; simp [appendDst, Memory.writeAll, Nat.add_assoc, Nat.add_comm 1]

theorem appendAll_append (d : Dst) (as bs : List Byte) (s : State) :
    appendAll d (as ++ bs) s = appendAll d bs (appendAll d as s) := by
  induction as generalizing s with
  | nil => rfl
  | cons a as ih => exact ih _

end Sys2Proof.Machine
end

