-- ==== Sys2Proof/Laws/BitIO.lean ====
section
/-! SUPPORT. What the readers and writers of unit U2 can do. -/

namespace Sys2Proof.Machine

/-! ### The generic bit reader (rule R145) -/

/-- RDBIT delivers a bit of the cursor while one is left, and else the top bit of a fetched byte. -/
theorem rdBitWith_ok {σ ε : Type} {get : σ → Byte × BitVec 3} {set : Byte → BitVec 3 → σ → σ}
    {fetch : σ → Except ε (Byte × σ)} {s t : σ} {b : Bool} :
    rdBitWith get set fetch s = .ok (b, t) ↔
      ((get s).2 ≠ 0 ∧ b = (get s).1.getLsbD ((get s).2.toNat - 1) ∧ t = set (get s).1 ((get s).2 - 1) s) ∨
      ((get s).2 = 0 ∧ ∃ c u, fetch s = .ok (c, u) ∧ b = c.getLsbD 7 ∧ t = set c 7 u) := by
  unfold rdBitWith
  by_cases h : (get s).2 = 0
  · rw [if_pos h]
    rcases hf : fetch s with e | ⟨c, u⟩
    · constructor
      · intro h'; cases h'
      · rintro (⟨h', -⟩ | ⟨-, c, u, h', -⟩)
        · exact absurd h h'
        · cases h'
    · constructor
      · intro h'; cases h'; exact .inr ⟨h, c, u, rfl, rfl, rfl⟩
      · rintro (⟨h', -⟩ | ⟨-, c', u', h', rfl, rfl⟩)
        · exact absurd h h'
        · cases h'; rfl
  · rw [if_neg h]
    constructor
    · intro h'; cases h'; exact .inl ⟨h, rfl, rfl⟩
    · rintro (⟨-, rfl, rfl⟩ | ⟨h', -⟩)
      · rfl
      · exact absurd h' h

/-- RDBIT fails only when the fetch it needs fails, with the state that the fetch leaves. -/
theorem rdBitWith_error {σ ε : Type} {get : σ → Byte × BitVec 3} {set : Byte → BitVec 3 → σ → σ}
    {fetch : σ → Except ε (Byte × σ)} {s : σ} {e : ε} :
    rdBitWith get set fetch s = .error e ↔ (get s).2 = 0 ∧ fetch s = .error e := by
  unfold rdBitWith
  by_cases h : (get s).2 = 0
  · rw [if_pos h]
    rcases hf : fetch s with e' | ⟨c, u⟩ <;> simp [h]
  · rw [if_neg h]
    exact ⟨nofun, fun h' => absurd h'.1 h⟩

/-! ### Byte sources and the Huffman bit reader (rules R147, R150) -/

/-- IN.RDBYTE (rule R150). -/
theorem inRdByte_ok {s t : State} {b : Byte} :
    inRdByte s = .ok (b, t) ↔ s.lz.ip < s.seq.inLen ∧ Memory.read s.inMem s.lz.ip = some b ∧
      t = { s with lz := { s.lz with ip := s.lz.ip + 1 } } := by
  simp only [inRdByte, bind_ok, inRead_ok, Except.ok.injEq, Prod.mk.injEq]
  constructor
  · rintro ⟨c, ⟨h1, h2⟩, rfl, rfl⟩; exact ⟨h1, h2, rfl⟩
  · rintro ⟨h1, h2, rfl⟩; exact ⟨b, ⟨h1, h2⟩, rfl, rfl⟩

theorem inRdByte_error {s : State} {e : Stop} : inRdByte s = .error e ↔ inRead s.lz.ip s = .error e := by
  simp [inRdByte, bind_error]

/-- The byte fetch of the Huffman bit reader (rule R147). -/
theorem hfFetch_ok {s t : State} {b : Byte} :
    hfFetch s = .ok (b, t) ↔ s.hf.hp < s.seq.inLen ∧ Memory.read s.inMem s.hf.hp = some b ∧
      t = { s with hf := { s.hf with hp := s.hf.hp + 1 } } := by
  simp only [hfFetch, bind_ok, inRead_ok, Except.ok.injEq, Prod.mk.injEq]
  constructor
  · rintro ⟨c, ⟨h1, h2⟩, rfl, rfl⟩; exact ⟨h1, h2, rfl⟩
  · rintro ⟨h1, h2, rfl⟩; exact ⟨b, ⟨h1, h2⟩, rfl, rfl⟩

theorem hfFetch_error {s : State} {e : Stop} : hfFetch s = .error e ↔ inRead s.hf.hp s = .error e := by
  simp [hfFetch, bind_error]

/-- HF.RDBIT changes only its own cursor. -/
theorem hfRdBit_frame {s t : State} {b : Bool} (h : hfRdBit s = .ok (b, t)) :
    t = { s with hf := { s.hf with hp := t.hf.hp, cur := t.hf.cur, rem := t.hf.rem } } := by
  rcases rdBitWith_ok.1 h with ⟨-, -, rfl⟩ | ⟨-, c, u, hu, -, rfl⟩
  · rfl
  · obtain ⟨-, -, rfl⟩ := hfFetch_ok.1 hu; rfl

/-- HF.RDBIT fails only at the end of IN, or on a byte never written, with nothing changed. -/
theorem hfRdBit_error {s : State} {e : Stop} :
    hfRdBit s = .error e ↔ s.hf.rem = 0 ∧ inRead s.hf.hp s = .error e := by
  rw [hfRdBit, rdBitWith_error, hfFetch_error]

/-! ### LZ77 stream writer -/

@[simp] theorem lzwItems_nil (d : Dst) (s : State) : lzwItems d [] s = s := rfl

theorem lzwItems_cons (d : Dst) (i : Item) (is : List Item) (s : State) :
    lzwItems d (i :: is) s = lzwItems d is (lzwItem d i s) := rfl

theorem lzwItems_append (d : Dst) (as bs : List Item) (s : State) :
    lzwItems d (as ++ bs) s = lzwItems d bs (lzwItems d as s) := by
  induction as generalizing s with
  | nil => rfl
  | cons a as ih => exact ih _

/-- What LZW.FLUSH appends (rule R154). -/
theorem lzwFlush_eq (d : Dst) (s : State) :
    lzwFlush d s =
      { appendAll d ((s.le.wAcc <<< (8 - s.le.wCnt)) :: s.le.waiting) s with
        le := { (appendAll d ((s.le.wAcc <<< (8 - s.le.wCnt)) :: s.le.waiting) s).le with
          wAcc := 0
          wCnt := 0
          pfifo := []
          pfOver := [] } } := rfl

/-! ### Plain bit writer -/

@[simp] theorem hfwCode_nil (s : State) : hfwCode [] s = s := rfl

theorem hfwCode_append (as bs : List Bool) (s : State) : hfwCode (as ++ bs) s = hfwCode bs (hfwCode as s) := by
  induction as generalizing s with
  | nil => rfl
  | cons a as ih => exact ih _

end Sys2Proof.Machine
end

