-- ==== Sys2Proof/Laws/Decoder.lean ====
section
/-! SUPPORT. What the shared operations of the two decoders can do: the Huffman descent, the byte source, the token
fetch, the copy and the run. -/

namespace Sys2Proof.Machine

/-! ### States that pseudocode ends in -/

/-- `P` holds of the state in which pseudocode ends, whether it runs to its end, raises a core fault, or ends with
NOMATCH. -/
def EndsIn {α : Type} (st : α → State) (P : State → Prop) : Except Stop α → Prop
  | .ok a => P (st a)
  | .error (.raise _ _ u) => P u
  | .error (.noMatch u) => P u
  | .error (.fault _) => True
  | .error (.refuse _) => True

theorem EndsIn.bind {α β : Type} {st : α → State} {st' : β → State} {P : State → Prop} {x : Except Stop α}
    {f : α → Except Stop β} (h : EndsIn st P x) (hf : ∀ a, x = .ok a → P (st a) → EndsIn st' P (f a)) :
    EndsIn st' P (x >>= f) := by
  rcases x with e | a
  · cases e <;> exact h
  · exact hf a rfl h

theorem EndsIn.mono {α : Type} {st : α → State} {P Q : State → Prop} {x : Except Stop α}
    (h : EndsIn st P x) (hPQ : ∀ s, P s → Q s) : EndsIn st Q x := by
  rcases x with e | a
  · cases e <;> first | exact hPQ _ h | trivial
  · exact hPQ _ h

theorem EndsIn.ok {α : Type} {st : α → State} {P : State → Prop} {x : Except Stop α} {a : α}
    (h : EndsIn st P x) (hx : x = .ok a) : P (st a) := by subst hx; exact h

theorem EndsIn.raise {α : Type} {st : α → State} {P : State → Prop} {x : Except Stop α} {f : CoreFault} {i : Nat}
    {u : State} (h : EndsIn st P x) (hx : x = .error (.raise f i u)) : P u := by subst hx; exact h

theorem endsIn_readOrStop {α : Type} {st : α → State} {P : State → Prop} (sp : Space) (m : Memory α) (a : Nat)
    (h : ∀ v, Memory.read m a = some v → P (st v)) : EndsIn st P (readOrStop sp m a) := by
  unfold readOrStop
  cases hr : Memory.read m a with
  | none => trivial
  | some v => exact h v hr

theorem endsIn_inRead {P : State → Prop} {a : Nat} {s : State} (h : P s) : EndsIn (fun _ => s) P (inRead a s) := by
  unfold inRead
  split_ifs
  · exact h
  · exact endsIn_readOrStop _ _ _ fun _ _ => h

/-! ### Huffman descent (rules R216 to R222) -/

/-- Only the Huffman decoder's cursor and state register differ. -/
def HfFrame (s t : State) : Prop := t = { s with hf := t.hf } ∧ t.hf.htLen = s.hf.htLen ∧ t.hf.htCnt = s.hf.htCnt

theorem HfFrame.refl (s : State) : HfFrame s s := ⟨rfl, rfl, rfl⟩

theorem HfFrame.trans {s t u : State} (h1 : HfFrame s t) (h2 : HfFrame t u) : HfFrame s u := by
  obtain ⟨h1, h3, h4⟩ := h1
  obtain ⟨h2, h5, h6⟩ := h2
  exact ⟨by rw [h2, h1], h5.trans h3, h6.trans h4⟩

theorem hfRdBit_endsIn (s : State) : EndsIn Prod.snd (HfFrame s) (hfRdBit s) := by
  rcases h : hfRdBit s with e | ⟨b, t⟩
  · obtain ⟨-, h⟩ := hfRdBit_error.1 h
    rcases inRead_error.1 h with ⟨-, rfl⟩ | ⟨-, -, rfl⟩
    · exact HfFrame.refl s
    · trivial
  · rw [hfRdBit_frame h]; exact ⟨rfl, rfl, rfl⟩

/-- HT.NODE's iteration runs to its end exactly when the bit is there and the child is a stored, non-negative
entry. -/
theorem htStep_ok {n : BitVec 15} {s t : State} :
    htStep n s = .ok t ↔ ∃ b u v, hfRdBit s = .ok (b, u) ∧ htIndex n.toNat b < s.hf.htCnt ∧
      Memory.read s.htab (htIndex n.toNat b) = some v ∧ v.msb = false ∧ t = setNode v u := by
  simp only [htStep, bind_ok, Prod.exists]
  constructor
  · rintro ⟨b, u, hb, h⟩
    obtain ⟨hu, -, hc⟩ := (hfRdBit_endsIn s).ok hb
    simp only at hu hc
    split_ifs at h with h1
    obtain ⟨v, hv, h⟩ := bind_ok.1 h
    rw [readOrStop_ok] at hv
    split_ifs at h with h2
    refine ⟨b, u, v, hb, by omega, by rw [hu] at hv; exact hv, by simpa using h2, ?_⟩
    cases h; rfl
  · rintro ⟨b, u, v, hb, h1, hv, h2, rfl⟩
    obtain ⟨hu, -, hc⟩ := (hfRdBit_endsIn s).ok hb
    simp only at hu hc
    refine ⟨b, u, hb, ?_⟩
    rw [if_neg (by omega)]
    refine bind_ok.2 ⟨v, readOrStop_ok.2 (by rw [hu]; exact hv), ?_⟩
    simp [h2]

/-- How HT.NODE's iteration stops. -/
theorem htStep_error {n : BitVec 15} {s : State} {e : Stop} :
    htStep n s = .error e ↔ hfRdBit s = .error e ∨ ∃ b u, hfRdBit s = .ok (b, u) ∧
      ((s.hf.htCnt ≤ htIndex n.toNat b ∧ e = .raise .eHtIndex (htIndex n.toNat b) u) ∨
       (htIndex n.toNat b < s.hf.htCnt ∧ Memory.read s.htab (htIndex n.toNat b) = none ∧
          e = .fault (.readUnwritten .htab (htIndex n.toNat b))) ∨
       (htIndex n.toNat b < s.hf.htCnt ∧ ∃ v, Memory.read s.htab (htIndex n.toNat b) = some v ∧ v.msb = true ∧
          e = .raise .eHtEntry v.toNat (setNode v u))) := by
  simp only [htStep, bind_error, Prod.exists]
  refine or_congr_right (exists_congr fun b => exists_congr fun u => and_congr_right fun hb => ?_)
  obtain ⟨hu, -, hc⟩ := (hfRdBit_endsIn s).ok hb
  simp only at hu hc
  have ht : u.htab = s.htab := by rw [hu]
  rw [hc, ht]
  by_cases h1 : s.hf.htCnt ≤ htIndex n.toNat b
  · rw [if_pos h1]
    constructor
    · intro h; cases h; exact .inl ⟨h1, rfl⟩
    · rintro (⟨-, rfl⟩ | ⟨h, -⟩ | ⟨h, -⟩)
      · rfl
      · omega
      · omega
  · rw [if_neg h1]
    cases hr : Memory.read s.htab (htIndex n.toNat b) with
    | none =>
      rw [readOrStop_error.2 ⟨hr, rfl⟩]
      constructor
      · intro h; cases h; exact .inr (.inl ⟨by omega, rfl, rfl⟩)
      · rintro (⟨h, -⟩ | ⟨-, -, rfl⟩ | ⟨-, v, h, -⟩)
        · omega
        · rfl
        · cases h
    | some v =>
      rw [readOrStop_ok.2 hr, ok_bind]
      by_cases h2 : v.msb = true
      · rw [if_pos h2]
        constructor
        · intro h; cases h; exact .inr (.inr ⟨by omega, v, rfl, h2, rfl⟩)
        · rintro (⟨h, -⟩ | ⟨-, h, -⟩ | ⟨-, v', h, -, rfl⟩)
          · omega
          · cases h
          · cases h; rfl
      · rw [if_neg h2]
        constructor
        · intro h; cases h
        · rintro (⟨h, -⟩ | ⟨-, h, -⟩ | ⟨-, v', h, h3, -⟩)
          · omega
          · cases h
          · cases h; exact absurd h3 h2

theorem htStep_endsIn (n : BitVec 15) (s : State) : EndsIn id (HfFrame s) (htStep n s) := by
  refine (hfRdBit_endsIn s).bind fun ⟨b, u⟩ _ hu => ?_
  dsimp only at hu ⊢
  split_ifs
  · exact hu
  · refine EndsIn.bind (st := fun _ => u) (endsIn_readOrStop _ _ _ fun _ _ => hu) fun v _ _ => ?_
    have : HfFrame s (setNode v u) := hu.trans ⟨rfl, rfl, rfl⟩
    split_ifs <;> exact this

theorem hfDescend_endsIn (k : Nat) (s : State) : EndsIn Prod.snd (HfFrame s) (hfDescend k s) := by
  induction k generalizing s with
  | zero => trivial
  | succ k ih =>
    unfold hfDescend
    split
    · exact HfFrame.refl s
    · exact (htStep_endsIn _ s).bind fun t _ ht => (ih t).mono fun u hu => HfFrame.trans ht hu
    · exact HfFrame.refl s

/-- HF.RDBYTE changes only the Huffman cursor and `node`. -/
theorem hfRdByte_endsIn (s : State) : EndsIn Prod.snd (HfFrame s) (hfRdByte s) :=
  (hfDescend_endsIn _ _).mono fun _ h => HfFrame.trans (t := setNode s.hf.htLen s) ⟨rfl, rfl, rfl⟩ h

/-- Every bit read is one bit less in the bitstream (rule R222). -/
theorem hfRdBit_bitsLeft {s t : State} {b : Bool} (h : hfRdBit s = .ok (b, t)) : hfBitsLeft t + 1 = hfBitsLeft s := by
  rcases rdBitWith_ok.1 h with ⟨h1, -, rfl⟩ | ⟨h1, c, u, hu, -, rfl⟩
  · have h2 : s.hf.rem.toNat ≠ 0 := fun h => h1 (BitVec.eq_of_toNat_eq (by simpa using h))
    have h3 : (s.hf.rem - 1).toNat = s.hf.rem.toNat - 1 := by
      have := s.hf.rem.isLt
      rw [BitVec.toNat_sub]; simp; omega
    simp only [hfBitsLeft]
    rw [h3]; omega
  · obtain ⟨h2, -, rfl⟩ := hfFetch_ok.1 hu
    have h3 : s.hf.rem.toNat = 0 := by have : s.hf.rem = 0 := h1; rw [this]; rfl
    simp only [hfBitsLeft]
    rw [h3]
    simp
    omega

theorem htStep_bitsLeft {n : BitVec 15} {s t : State} (h : htStep n s = .ok t) : hfBitsLeft t + 1 = hfBitsLeft s := by
  obtain ⟨b, u, v, hb, -, -, -, rfl⟩ := htStep_ok.1 h
  have := hfRdBit_bitsLeft hb
  exact this

/-- A descent given more iterations than the bitstream has bits does not run out of them (rule R222). -/
theorem hfDescend_bound {k : Nat} {s : State} (h : hfBitsLeft s < k) :
    hfDescend k s ≠ .error (.fault .descentBound) := by
  induction k generalizing s with
  | zero => omega
  | succ k ih =>
    unfold hfDescend
    split
    · nofun
    · rename_i n hn
      intro h'
      rcases bind_error.1 h' with h' | ⟨t, ht, h'⟩
      · rcases htStep_error.1 h' with h' | ⟨b, u, -, ⟨-, h'⟩ | ⟨-, -, h'⟩ | ⟨-, v, -, -, h'⟩⟩
        · obtain ⟨-, h'⟩ := hfRdBit_error.1 h'
          rcases inRead_error.1 h' with ⟨-, h'⟩ | ⟨-, -, h'⟩ <;> cases h'
        · cases h'
        · cases h'
        · cases h'
      · have := htStep_bitsLeft ht
        exact ih (by omega) h'
    · nofun

/-! ### Byte source and token fetch (rules R146, R149, R166) -/

/-- Only the two cursors, `node` and the token temporaries differ; the source that is not selected is untouched
(rules R224, R345). -/
def FetchFrame (s t : State) : Prop :=
  t = { s with
    lz := { s.lz with ip := t.lz.ip, cur := t.lz.cur, rem := t.lz.rem }
    tmp := t.tmp
    hf := t.hf } ∧
  t.hf.htLen = s.hf.htLen ∧ t.hf.htCnt = s.hf.htCnt ∧
  (s.seq.hfEn = false → t.hf = s.hf) ∧ (s.seq.hfEn = true → t.lz.ip = s.lz.ip)

theorem FetchFrame.refl (s : State) : FetchFrame s s := ⟨rfl, rfl, rfl, fun _ => rfl, fun _ => rfl⟩

theorem FetchFrame.trans {s t u : State} (h1 : FetchFrame s t) (h2 : FetchFrame t u) : FetchFrame s u := by
  obtain ⟨h1, h3, h4, h5, h6⟩ := h1
  obtain ⟨h2, h7, h8, h9, h10⟩ := h2
  have he : t.seq.hfEn = s.seq.hfEn := by rw [h1]
  rw [he] at h9 h10
  exact ⟨by rw [h2, h1], h7.trans h3, h8.trans h4, fun h => (h9 h).trans (h5 h), fun h => (h10 h).trans (h6 h)⟩

/-- RDBYTE: the direct source moves `ip`, the Huffman source its own registers; nothing else changes. -/
theorem rdByte_endsIn (s : State) : EndsIn Prod.snd (fun t => FetchFrame s t ∧ t.lz.cur = s.lz.cur ∧
    t.lz.rem = s.lz.rem ∧ t.tmp = s.tmp) (rdByte s) := by
  unfold rdByte
  split_ifs with h
  · refine (hfRdByte_endsIn s).mono fun t ht => ?_
    obtain ⟨ht, h1, h2⟩ := ht
    refine ⟨⟨by rw [ht], h1, h2, fun h' => by simp [h] at h', fun _ => by rw [ht]⟩, by rw [ht], by rw [ht], by rw [ht]⟩
  · rcases hr : inRdByte s with e | ⟨b, t⟩
    · rcases inRead_error.1 (inRdByte_error.1 hr) with ⟨-, rfl⟩ | ⟨-, -, rfl⟩
      · exact ⟨FetchFrame.refl s, rfl, rfl, rfl⟩
      · trivial
    · obtain ⟨-, -, rfl⟩ := inRdByte_ok.1 hr
      exact ⟨⟨rfl, rfl, rfl, fun _ => rfl, fun h' => absurd h' h⟩, rfl, rfl, rfl⟩

theorem rdByte_fetchFrame (s : State) : EndsIn Prod.snd (FetchFrame s) (rdByte s) :=
  (rdByte_endsIn s).mono fun _ h => h.1

theorem lzRdBit_endsIn (s : State) : EndsIn Prod.snd (FetchFrame s) (lzRdBit s) := by
  rcases h : lzRdBit s with e | ⟨b, t⟩
  · have := (rdBitWith_error.1 h).2
    cases e with
    | raise f i u => exact (rdByte_fetchFrame s).raise this
    | noMatch u =>
      have hh := rdByte_fetchFrame s
      rw [this] at hh
      exact hh
    | fault _ => trivial
    | refuse _ => trivial
  · rcases rdBitWith_ok.1 h with ⟨-, -, rfl⟩ | ⟨-, c, u, hu, -, rfl⟩
    · exact ⟨rfl, rfl, rfl, fun _ => rfl, fun _ => rfl⟩
    · exact FetchFrame.trans ((rdByte_fetchFrame s).ok hu) ⟨rfl, rfl, rfl, fun _ => rfl, fun _ => rfl⟩

theorem rdBits_endsIn {w : Nat} (k : Nat) (v : BitVec w) (s : State) :
    EndsIn Prod.snd (FetchFrame s) (rdBitsWith lzRdBit k v s) := by
  induction k generalizing v s with
  | zero => exact FetchFrame.refl s
  | succ k ih => exact (lzRdBit_endsIn s).bind fun ⟨b, t⟩ _ ht => (ih _ t).mono fun u hu => ht.trans hu

/-- LZ.TOKEN's fetch changes only the two cursors, `node` and the token temporaries. -/
theorem fetchToken_endsIn (s : State) : EndsIn Prod.snd (FetchFrame s) (fetchToken s) := by
  have latch {s t : State} (tt : TokenTemps) (h : FetchFrame s t) : FetchFrame s { t with tmp := tt } :=
    h.trans ⟨rfl, rfl, rfl, fun _ => rfl, fun _ => rfl⟩
  have bit {s t : State} (h : FetchFrame s t) : EndsIn Prod.snd (FetchFrame s) (lzRdBit t) :=
    (lzRdBit_endsIn t).mono fun _ hu => h.trans hu
  have byte {s t : State} (h : FetchFrame s t) : EndsIn Prod.snd (FetchFrame s) (rdByte t) :=
    (rdByte_fetchFrame t).mono fun _ hu => h.trans hu
  have bits {s t : State} {w : Nat} (k : Nat) (v : BitVec w) (h : FetchFrame s t) :
      EndsIn Prod.snd (FetchFrame s) (rdBitsWith lzRdBit k v t) := (rdBits_endsIn k v t).mono fun _ hu => h.trans hu
  unfold fetchToken readToken machineSource
  dsimp only
  refine (bit (FetchFrame.refl s)).bind fun ⟨b0, s0⟩ _ h0 => ?_
  dsimp only
  split_ifs
  · exact (byte h0).bind fun ⟨v, s1⟩ _ h1 => h1
  refine (bit h0).bind fun ⟨b1, s1⟩ _ h1 => ?_
  dsimp only
  split_ifs
  · refine (bits 2 0 h1).bind fun ⟨l, s2⟩ _ h2 => ?_
    exact (byte h2).bind fun ⟨o, s3⟩ _ h3 => h3
  refine (byte h1).bind fun ⟨hi, s2⟩ _ h2 => ?_
  refine (byte (latch _ h2)).bind fun ⟨lo, s3⟩ _ h3 => ?_
  dsimp only
  split_ifs
  · exact latch _ h3
  refine (bit (latch _ h3)).bind fun ⟨b2, s4⟩ _ h4 => ?_
  dsimp only
  split_ifs
  · exact (bits 4 0 h4).bind fun ⟨n, s5⟩ _ h5 => h5
  refine (byte h4).bind fun ⟨t, s5⟩ _ h5 => ?_
  dsimp only
  split_ifs <;> exact latch _ h5

end Sys2Proof.Machine
end

