-- ==== Sys2Proof/Laws/Encoder.lean ====
section
/-! SUPPORT. What the shared operations of the two encoders can change. -/

namespace Sys2Proof.Machine

open Sys2Proof.Safety (RegisterFile WriterLegal)

/-- What `regFile` makes is a register file. -/
theorem regFile_registerFile {α : Type} (f : Nat → α) : RegisterFile (regFile f) :=
  ⟨regFile_wf f, fun k hk => by rw [Nat.zero_add, regFile_read, if_pos hk]; rfl⟩

/-- A register file after reset holds a value in every entry (rule R32). -/
theorem reset_registerFiles : RegisterFile State.reset.he.freq ∧ RegisterFile State.reset.he.code :=
  ⟨regFile_registerFile fun _ => 0, regFile_registerFile fun _ => []⟩

/-- A write keeps a register file. -/
theorem registerFile_write {α : Type} (m : Memory α) (a : Nat) (v : α) (h : RegisterFile m) :
    RegisterFile (Memory.write m a v) := by
  refine ⟨Memory.wf_write m a v h.1, fun k hk => ?_⟩
  rw [Memory.read_write]
  split_ifs
  · rfl
  · exact h.2 k hk

/-- Every memory is in canonical form, FREQ and CODE hold all their values, and the bit writers' counts are legal. -/
def Tidy (s : State) : Prop :=
  Memory.wf s.inMem = true ∧ Memory.wf s.out = true ∧ Memory.wf s.win = true ∧ Memory.wf s.mid = true ∧
    Memory.wf s.htab = true ∧ RegisterFile s.he.freq ∧ RegisterFile s.he.code ∧ WriterLegal s.le ∧ s.he.hCnt ≤ 7

/-- Only what an encoder owns differs, and a tidy state stays tidy. -/
def EncFrame (s t : State) : Prop :=
  t = { s with
    out := t.out
    mid := t.mid
    htab := t.htab
    le := { t.le with srcLen := s.le.srcLen }
    he := t.he
    hf := { s.hf with htLen := t.hf.htLen } } ∧ (Tidy s → Tidy t)

theorem EncFrame.refl (s : State) : EncFrame s s := ⟨rfl, id⟩

theorem EncFrame.trans {s t u : State} (h1 : EncFrame s t) (h2 : EncFrame t u) : EncFrame s u :=
  ⟨by rw [h2.1, h1.1], fun h => h2.2 (h1.2 h)⟩

theorem encFrame_appendDst (d : Dst) (b : Byte) (s : State) : EncFrame s (appendDst d b s) := by
  cases d
  · exact ⟨rfl, fun ⟨h1, h2, h3, h4, h5, h6, h7, h8, h9⟩ => ⟨h1, Memory.wf_write _ _ _ h2, h3, h4, h5, h6, h7, h8, h9⟩⟩
  · exact ⟨rfl, fun ⟨h1, h2, h3, h4, h5, h6, h7, h8, h9⟩ => ⟨h1, h2, h3, Memory.wf_write _ _ _ h4, h5, h6, h7, h8, h9⟩⟩

theorem encFrame_appendAll (d : Dst) (bs : List Byte) (s : State) : EncFrame s (appendAll d bs s) := by
  induction bs generalizing s with
  | nil => exact EncFrame.refl s
  | cons b bs ih => exact (encFrame_appendDst d b s).trans (ih _)

theorem encFrame_outWriteAll (a : Nat) (bs : List Byte) (s : State) : EncFrame s (outWriteAll a bs s) :=
  ⟨rfl, fun ⟨h1, h2, h3, h4, h5, h6, h7, h8, h9⟩ => ⟨h1, Memory.wf_writeAll _ _ _ h2, h3, h4, h5, h6, h7, h8, h9⟩⟩

theorem encFrame_setDp (n : Nat) (s : State) : EncFrame s (setDp n s) := ⟨rfl, id⟩

theorem encFrame_lzwFlush (d : Dst) (s : State) : EncFrame s (lzwFlush d s) := by
  refine (encFrame_appendAll d _ s).trans ⟨rfl, fun ⟨h1, h2, h3, h4, h5, h6, h7, _, h9⟩ => ?_⟩
  exact ⟨h1, h2, h3, h4, h5, h6, h7, ⟨Nat.zero_le _, Nat.zero_le _, fun h => absurd rfl h⟩, h9⟩

theorem lzwFlush_wCnt (d : Dst) (s : State) : (lzwFlush d s).le.wCnt = 0 := rfl

theorem encFrame_lzwBit (d : Dst) (b : Bool) (s : State) : EncFrame s (lzwBit d b s) := by
  unfold lzwBit
  by_cases h : s.le.wCnt = 8
  · rw [if_pos h]
    refine (encFrame_lzwFlush d s).trans ⟨rfl, fun ⟨h1, h2, h3, h4, h5, h6, h7, _, h9⟩ => ?_⟩
    have hc : (lzwFlush d s).le.wCnt + 1 ≤ 8 := by rw [lzwFlush_wCnt]; omega
    exact ⟨h1, h2, h3, h4, h5, h6, h7, ⟨hc, Nat.zero_le _, fun h => absurd rfl h⟩, h9⟩
  · rw [if_neg h]
    refine ⟨rfl, fun ⟨h1, h2, h3, h4, h5, h6, h7, h8, h9⟩ => ⟨h1, h2, h3, h4, h5, h6, h7, ⟨?_, h8.2⟩, h9⟩⟩
    have := h8.1
    show s.le.wCnt + 1 ≤ 8
    omega

theorem encFrame_lzwByte (v : Byte) (s : State) : EncFrame s (lzwByte v s) := by
  refine ⟨rfl, fun ⟨h1, h2, h3, h4, h5, h6, h7, h8, h9⟩ => ⟨h1, h2, h3, h4, h5, h6, h7, ⟨h8.1, ?_, ?_⟩, h9⟩⟩
  · simp [Config.pfifoSize]
  · simp only [lzwByte_le_pfOver, lzwByte_le_pfifo, ne_eq, List.drop_eq_nil_iff, List.length_take, Config.pfifoSize]
    omega

theorem encFrame_lzwItems (d : Dst) (is : List Item) (s : State) : EncFrame s (lzwItems d is s) := by
  induction is generalizing s with
  | nil => exact EncFrame.refl s
  | cons i is ih =>
    rw [lzwItems_cons]
    refine EncFrame.trans ?_ (ih _)
    cases i with
    | control b => exact encFrame_lzwBit d b s
    | payload v => exact encFrame_lzwByte v s

theorem encFrame_lzwFinish (d : Dst) (s : State) : EncFrame s (lzwFinish d s) := by
  unfold lzwFinish; split_ifs
  · exact encFrame_lzwFlush d s
  · exact EncFrame.refl s

theorem encFrame_hfwBit (b : Bool) (s : State) : EncFrame s (hfwBit b s) := by
  unfold hfwBit
  dsimp only
  split_ifs with h
  · refine (encFrame_appendDst .out _ s).trans ⟨rfl, fun ⟨h1, h2, h3, h4, h5, h6, h7, h8, _⟩ => ?_⟩
    exact ⟨h1, h2, h3, h4, h5, h6, h7, h8, Nat.zero_le _⟩
  · refine ⟨rfl, fun ⟨h1, h2, h3, h4, h5, h6, h7, h8, h9⟩ => ⟨h1, h2, h3, h4, h5, h6, h7, h8, ?_⟩⟩
    show s.he.hCnt + 1 ≤ 7
    omega

theorem encFrame_hfwCode (bs : List Bool) (s : State) : EncFrame s (hfwCode bs s) := by
  induction bs generalizing s with
  | nil => exact EncFrame.refl s
  | cons b bs ih => exact (encFrame_hfwBit b s).trans (ih _)

theorem encFrame_hfwFinish (s : State) : EncFrame s (hfwFinish s) := by
  unfold hfwFinish; split_ifs
  · refine (encFrame_appendDst .out _ s).trans ⟨rfl, fun ⟨h1, h2, h3, h4, h5, h6, h7, h8, _⟩ => ?_⟩
    exact ⟨h1, h2, h3, h4, h5, h6, h7, h8, Nat.zero_le _⟩
  · exact EncFrame.refl s

/-! ### LZ77 stream writer -/

/-- A state with the registers of LZ.ENCODE, LZ.SEARCH and LZ.CHUNK at 0: what the stream writer sees of it. -/
def withoutSearch (s : State) : State :=
  { s with le := { s.le with p := 0, bestLen := 0, bestDist := 0, candDist := 0, candLen := 0, chunk := 0 } }

theorem withoutSearch_appendAll (d : Dst) (bs : List Byte) (s : State) :
    withoutSearch (appendAll d bs s) = appendAll d bs (withoutSearch s) := by
  induction bs generalizing s with
  | nil => rfl
  | cons b bs ih => rw [appendAll, appendAll, ih]; cases d <;> rfl

theorem withoutSearch_lzwFlush (d : Dst) (s : State) :
    withoutSearch (lzwFlush d s) = lzwFlush d (withoutSearch s) := by
  have e : ((withoutSearch s).le.wAcc <<< (8 - (withoutSearch s).le.wCnt)) :: (withoutSearch s).le.waiting =
      (s.le.wAcc <<< (8 - s.le.wCnt)) :: s.le.waiting := rfl
  unfold lzwFlush
  rw [e, ← withoutSearch_appendAll]
  rfl

/-- The stream writer neither reads nor writes the registers of the search (rules R31, R152 to R154). -/
theorem withoutSearch_lzwItems (d : Dst) (is : List Item) (s : State) :
    withoutSearch (lzwItems d is s) = lzwItems d is (withoutSearch s) := by
  induction is generalizing s with
  | nil => rfl
  | cons i is ih =>
    rw [lzwItems, lzwItems, ih]
    congr 1
    cases i with
    | payload v => rfl
    | control b =>
      simp only [lzwItem, lzwBit]
      have h : (withoutSearch s).le.wCnt = s.le.wCnt := rfl
      rw [h]
      split_ifs
      · rw [← withoutSearch_lzwFlush]; rfl
      · rfl

/-! ### LZ77 encoder -/

theorem chunkLoop_endsIn (d : Dst) (off k rem : Nat) (s : State) :
    EndsIn id (EncFrame s) (chunkLoop d off k rem s) := by
  induction k generalizing rem s with
  | zero => exact EncFrame.refl s
  | succ k ih =>
    unfold chunkLoop
    split_ifs
    · exact EncFrame.refl s
    · refine EndsIn.bind (st := id) (P := EncFrame s) ?_ fun t _ ht => (ih _ t).mono fun u hu => ht.trans hu
      unfold lzSelect
      split
      · exact EncFrame.trans (t := { s with
          le := { s.le with chunk := BitVec.ofNat 9 (min rem Config.lenMax) } }) ⟨rfl, id⟩ (encFrame_lzwItems d _ _)
      · trivial

theorem lzEncode_endsIn (d : Dst) (src : List Byte) (s : State) : EndsIn id (EncFrame s) (lzEncode d src s) := by
  have iter : ∀ (v : Byte) (s : State), EndsIn id (EncFrame s) (lzEncodeIter d src v s) := by
    intro v s
    have h0 : EncFrame s (setSearch (lzSearch src s.le.p s.le.candDist.toNat s.le.candLen) s) := ⟨rfl, id⟩
    unfold lzEncodeIter
    dsimp only
    split_ifs
    · exact (h0.trans (encFrame_lzwItems d _ _)).trans ⟨rfl, id⟩
    · exact ((chunkLoop_endsIn d _ _ _ _).mono fun u hu => h0.trans hu).bind
        fun t _ ht => EncFrame.trans ht ⟨rfl, id⟩
  have loop : ∀ (k : Nat) (s : State), EndsIn id (EncFrame s) (lzEncodeLoop d src k s) := by
    intro k
    induction k with
    | zero => exact fun s => EncFrame.refl s
    | succ k ih =>
      intro s
      unfold lzEncodeLoop
      split
      · exact EncFrame.refl s
      · exact (iter _ s).bind fun t _ ht => (ih t).mono fun u hu => ht.trans hu
  exact ((loop src.length (setP 0 s)).mono fun u hu => EncFrame.trans (t := setP 0 s) ⟨rfl, id⟩ hu).bind
    fun t _ ht => EncFrame.trans ht (encFrame_lzwFinish d t)

/-! ### Huffman encoder -/

theorem encFrame_mergeLoop (k : Nat) (s : State) : EncFrame s (mergeLoop k s) := by
  induction k generalizing s with
  | zero => exact EncFrame.refl s
  | succ k ih =>
    unfold mergeLoop
    split
    · refine EncFrame.trans ⟨rfl, fun ⟨h1, h2, h3, h4, h5, h6, h7, h8, h9⟩ => ?_⟩ (ih _)
      exact ⟨h1, h2, h3, h4, Memory.wf_write _ _ _ (Memory.wf_write _ _ _ h5), h6, h7, h8, h9⟩
    · exact EncFrame.refl s

theorem encFrame_hfBuild (hsrc : List Byte) (s : State) : EncFrame s (hfBuild hsrc s) := by
  have hw : RegisterFile (freqTable hsrc) := regFile_registerFile _
  unfold hfBuild
  dsimp only
  generalize freqTable hsrc = fr at hw ⊢
  generalize initialList fr = l
  have h1 : EncFrame s { s with he := { s.he with freq := fr, nlist := l, nextIdx := 0x100 } } :=
    ⟨rfl, fun ⟨h1, h2, h3, h4, h5, _, h7, h8, h9⟩ => ⟨h1, h2, h3, h4, h5, hw, h7, h8, h9⟩⟩
  have h2 := h1.trans (encFrame_mergeLoop l.length _)
  exact h2.trans ⟨rfl, id⟩

/-- One entry of HF.STORE (rule R239): a tree entry, or 0 beyond the tree. -/
theorem hfStoreEntries_succ (root n i : Nat) (s : State) :
    (isTreeEntry root i = true ∧ hfStoreEntries root (n + 1) i s = (do
      let v ← readOrStop .htab s.htab i
      hfStoreEntries root n (i + 1) (outWriteAll (18 + 2 * i) (le16Bytes v) s))) ∨
    (isTreeEntry root i = false ∧ hfStoreEntries root (n + 1) i s =
      hfStoreEntries root n (i + 1) (outWriteAll (18 + 2 * i) (le16Bytes 0) s)) := by
  cases h : isTreeEntry root i
  · exact .inr ⟨rfl, by rw [hfStoreEntries, if_neg (by simp [h]), ok_bind]⟩
  · exact .inl ⟨rfl, by rw [hfStoreEntries, if_pos h]⟩

theorem hfEncode_endsIn (hsrc : List Byte) (s : State) : EndsIn id (EncFrame s) (hfEncode hsrc s) := by
  have store : ∀ (root n i : Nat) (s : State), EndsIn id (EncFrame s) (hfStoreEntries root n i s) := by
    intro root n
    induction n with
    | zero => exact fun i s => EncFrame.refl s
    | succ n ih =>
      intro i s
      have next : ∀ v, EndsIn id (EncFrame s)
          (hfStoreEntries root n (i + 1) (outWriteAll (18 + 2 * i) (le16Bytes v) s)) :=
        fun v => (ih _ _).mono fun u hu => (encFrame_outWriteAll _ _ s).trans hu
      rcases hfStoreEntries_succ root n i s with ⟨-, h⟩ | ⟨-, h⟩ <;> rw [h]
      · exact EndsIn.bind (st := fun _ => s) (endsIn_readOrStop _ _ _ fun _ _ => EncFrame.refl s) fun v _ _ => next v
      · exact next 0
  have codes : ∀ (bs : List Nat) (s : State), EndsIn id (EncFrame s) (codesLoop bs s) := by
    intro bs
    induction bs with
    | nil => exact fun s => EncFrame.refl s
    | cons b bs ih =>
      intro s
      unfold codesLoop
      split
      · trivial
      · refine (ih _).mono fun u hu => EncFrame.trans ⟨rfl, fun ⟨h1, h2, h3, h4, h5, h6, h7, h8, h9⟩ => ?_⟩ hu
        exact ⟨h1, h2, h3, h4, h5, h6, registerFile_write _ _ _ h7, h8, h9⟩
  have pack : ∀ (vs : List Byte) (s : State), EndsIn id (EncFrame s) (packLoop vs s) := by
    intro vs
    induction vs with
    | nil => exact fun s => EncFrame.refl s
    | cons v vs ih =>
      intro s
      exact (EndsIn.bind (st := fun _ => s) (endsIn_readOrStop _ _ _ fun _ _ => EncFrame.refl s)
        fun bits _ _ => (ih _).mono fun u hu => (encFrame_hfwCode bits s).trans hu)
  unfold hfEncode
  refine EndsIn.bind (st := id) (P := EncFrame s) ?_ fun t _ ht => ?_
  · exact (store _ _ _ _).mono fun u hu =>
      ((encFrame_hfBuild hsrc s).trans (encFrame_outWriteAll _ _ _)).trans hu
  refine EndsIn.bind (st := id) (P := EncFrame s) ((codes _ t).mono fun u hu => EncFrame.trans ht hu) fun u _ hu => ?_
  refine EndsIn.bind (st := id) (P := EncFrame s) ((pack _ _).mono fun w hw => EncFrame.trans hu
    (EncFrame.trans (t := setDp (18 + 2 * htNent u.hf.htLen) { u with he := { u.he with hAcc := 0, hCnt := 0 } })
      ⟨rfl, fun ⟨h1, h2, h3, h4, h5, h6, h7, h8, _⟩ => ⟨h1, h2, h3, h4, h5, h6, h7, h8, Nat.zero_le _⟩⟩ hw))
    fun w _ hw => EncFrame.trans hw (encFrame_hfwFinish w)

end Sys2Proof.Machine
end

