-- ==== Sys2Proof/Laws/Window.lean ====
section
/-! SUPPORT. Output: what a row of EMITs leaves in OUT and in the ring (rules R179, R181), and the loops of COPY, RUN.D
and DEC.RAW as rows of EMITs. -/

namespace Sys2Proof.Machine

open Sys2Proof.Safety

/-! ### Rows of EMITs -/

/-- EMIT of each byte of a sequence in turn. -/
def emitAll : List Byte → State → State
  | [], s => s
  | b :: bs, s => emitAll bs (emit b s)

theorem emitAll_append (as bs : List Byte) (s : State) : emitAll (as ++ bs) s = emitAll bs (emitAll as s) := by
  induction as generalizing s with
  | nil => rfl
  | cons a as ih => exact ih _

/-- What a row of EMITs leaves, but for the contents of the ring. -/
theorem emitAll_eq (bs : List Byte) (s : State) :
    emitAll bs s = { s with
      out := Memory.writeAll s.out s.lz.outLen bs
      win := (emitAll bs s).win
      lz := { s.lz with wp := s.lz.wp + BitVec.ofNat 13 bs.length, outLen := s.lz.outLen + bs.length } } := by
  induction bs generalizing s with
  | nil => simp [emitAll, Memory.writeAll]
  | cons b bs ih =>
    conv_lhs => rw [emitAll, ih]
    have h : s.lz.wp + 1 + BitVec.ofNat 13 bs.length = s.lz.wp + BitVec.ofNat 13 (bs.length + 1) := by
      rw [BitVec.add_assoc, BitVec.add_comm 1, ← BitVec.ofNat_add_ofNat]; rfl
    simp only [emit, Memory.writeAll, List.length_cons, emitAll, h, Nat.add_assoc, Nat.add_comm 1]

/-- The window invariant is kept by EMIT (rule R181). -/
theorem windowHolds_emit {s : State} (b : Byte) (h : WindowHolds s) : WindowHolds (emit b s) := by
  obtain ⟨h1, h2, h3⟩ := h
  have hp : (s.lz.wp + 1).toNat = (s.lz.outLen + 1) % 8192 := by
    rw [BitVec.toNat_add, h1]; simp [Config.winSize, Nat.add_mod]
  refine ⟨by simpa [Config.winSize] using hp, fun k hk => ?_, fun k hk1 hk2 hk3 => ?_⟩
  · simp only [emit_out, Nat.zero_add, Memory.read_write]
    split_ifs with h
    · rfl
    · simpa using h2 k (by simp only [emit_lz_outLen] at hk; omega)
  · have hs : Config.winSize = 8192 := rfl
    simp only [emit_out, emit_win, emit_lz_outLen] at hk2 ⊢
    rw [Memory.read_write, Memory.read_write]
    rw [hs] at h1 hk3 ⊢
    by_cases hk : k = 1
    · subst hk
      rw [if_pos (by rw [h1]; simp), if_pos (by omega)]
    · rw [if_neg (by rw [h1]; omega), if_neg (by omega)]
      have := h3 (k - 1) (by omega) (by omega) (by rw [hs]; omega)
      rw [show s.lz.outLen + 1 - k = s.lz.outLen - (k - 1) by omega]
      exact this

theorem windowHolds_emitAll {s : State} (bs : List Byte) (h : WindowHolds s) : WindowHolds (emitAll bs s) := by
  induction bs generalizing s with
  | nil => exact h
  | cons b bs ih => exact ih (windowHolds_emit b h)

/-- A row of EMITs writes only the ring slots it passes. -/
theorem emitAll_win_outside (bs : List Byte) (s : State) (a : Nat)
    (h : ∀ k, k < bs.length → a ≠ (s.lz.wp.toNat + k) % Config.winSize) :
    Memory.read (emitAll bs s).win a = Memory.read s.win a := by
  induction bs generalizing s with
  | nil => rfl
  | cons b bs ih =>
    rw [emitAll, ih]
    · have := h 0 (by simp)
      rw [emit_win, Memory.read_write_ne]
      have := s.lz.wp.isLt
      simp only [Config.winSize] at *; omega
    · intro k hk
      have := h (k + 1) (by simpa using hk)
      simp only [emit_lz_wp, BitVec.toNat_add, Config.winSize] at *
      simp at *
      omega

/-- `WindowHolds` looks only at the LZ77 decoder's counters, OUT and WIN. -/
theorem windowHolds_congr {s t : State} (h1 : t.lz.wp = s.lz.wp) (h2 : t.lz.outLen = s.lz.outLen)
    (h3 : t.out = s.out) (h4 : t.win = s.win) : WindowHolds t ↔ WindowHolds s := by
  unfold WindowHolds; rw [h1, h2, h3, h4]

/-- The slot that COPY reads holds the output byte `dist` positions back (rule R181). -/
theorem windowHolds_read {s : State} (off : BitVec 13) (h : WindowHolds s) (hd : distOf off ≤ s.lz.outLen) :
    Memory.read s.win (s.lz.wp - (off + 1)).toNat = Memory.read s.out (s.lz.outLen - distOf off) ∧
      (Memory.read s.out (s.lz.outLen - distOf off)).isSome = true := by
  obtain ⟨h1, h2, h3⟩ := h
  have ho := off.isLt
  unfold distOf at *
  refine ⟨?_, by simpa using h2 (s.lz.outLen - (off.toNat + 1)) (by omega)⟩
  rw [← h3 (off.toNat + 1) (by omega) hd (by simp only [Config.winSize]; omega)]
  congr 1
  rw [BitVec.toNat_sub, BitVec.toNat_add, h1]
  simp only [Config.winSize]
  simp
  omega

/-! ### The loops -/

/-- The state of a copy or a run after `n` bytes: `cnt` has counted down to 0. -/
def withCnt (n : Nat) (s : State) : State :=
  if n = 0 then s else { s with tmp := { s.tmp with cnt := 0 } }

theorem withCnt_succ (n : Nat) (s : State) (c : BitVec 14) (hc : n = 0 → c = 0) :
    withCnt n { s with tmp := { s.tmp with cnt := c } } = withCnt (n + 1) s := by
  unfold withCnt
  by_cases h : n = 0
  · subst h; simp [hc rfl]
  · simp [h]

/-- `emit` and the token temporaries are independent. -/
theorem emitAll_tmp (bs : List Byte) (s : State) (tt : TokenTemps) :
    emitAll bs { s with tmp := tt } = { emitAll bs s with tmp := tt } := by
  induction bs generalizing s with
  | nil => rfl
  | cons b bs ih => exact ih (emit b s)

/-- `emit` and `ip` are independent. -/
theorem emitAll_ip (bs : List Byte) (s : State) (q : Nat) :
    emitAll bs { s with lz := { s.lz with ip := q } } =
      { emitAll bs s with lz := { (emitAll bs s).lz with ip := q } } := by
  induction bs generalizing s with
  | nil => rfl
  | cons b bs ih => exact ih (emit b s)

/-- COPY's loop succeeds on a window that reaches far enough; every byte it emits is the byte `dist` back in OUT at
that moment (rules R178, R181, R184). -/
theorem copyLoop_ok {s : State} (off : BitVec 13) (n : Nat) (h : WindowHolds s) (hd : distOf off ≤ s.lz.outLen) :
    ∃ bs : List Byte, bs.length = n ∧ copyLoop off n s = .ok (withCnt n (emitAll bs s)) ∧
      ∀ k, k < n → bs[k]? = Memory.read (emitAll bs s).out (s.lz.outLen + k - distOf off) := by
  induction n generalizing s with
  | zero => exact ⟨[], rfl, rfl, by omega⟩
  | succ n ih =>
    obtain ⟨h1, h2⟩ := windowHolds_read off h hd
    obtain ⟨b, hb⟩ := Option.isSome_iff_exists.1 h2
    rw [hb] at h1
    have hd1 : 1 ≤ distOf off := by unfold distOf; omega
    have hw : WindowHolds { emit b s with tmp := { (emit b s).tmp with cnt := BitVec.ofNat 14 n } } :=
      (windowHolds_congr rfl rfl rfl rfl).2 (windowHolds_emit b h)
    obtain ⟨bs, hl, hc, hr⟩ := ih hw (by simp only [emit_lz_outLen]; omega)
    refine ⟨b :: bs, by simp [hl], ?_, fun k hk => ?_⟩
    · rw [copyLoop, readOrStop_ok.2 h1, ok_bind]
      dsimp only
      rw [hc, emitAll_tmp]
      have : (emitAll bs (emit b s)).tmp = (emit b s).tmp := by rw [emitAll_eq]
      rw [← this, withCnt_succ _ _ _ (by rintro rfl; rfl)]
      rfl
    · cases k with
      | zero =>
        rw [emitAll_eq]
        simp only [List.getElem?_cons_zero, Nat.add_zero]
        rw [Memory.read_writeAll_outside _ _ _ _ (by omega), hb]
      | succ k =>
        have := hr k (by omega)
        rw [emitAll_tmp] at this
        simp only [emit_lz_outLen] at this
        rw [List.getElem?_cons_succ, this, show s.lz.outLen + 1 + k = s.lz.outLen + (k + 1) by omega]
        rfl

/-- DEC.RAW's loop emits the bytes of IN from `ip` on (rule R258). -/
theorem rawLoop_ok {s : State} {n : Nat} {t : State} :
    rawLoop n s = .ok t ↔ ∃ bs : List Byte, bs.length = n ∧
      (∀ k, k < n → s.lz.ip + k < s.seq.inLen ∧ Memory.read s.inMem (s.lz.ip + k) = bs[k]?) ∧
      t = { emitAll bs s with lz := { (emitAll bs s).lz with ip := s.lz.ip + n } } := by
  induction n generalizing s with
  | zero =>
    simp only [rawLoop, Except.ok.injEq, List.length_eq_zero_iff]
    constructor
    · rintro rfl; exact ⟨[], rfl, by omega, rfl⟩
    · rintro ⟨bs, rfl, -, rfl⟩; rfl
  | succ n ih =>
    have key : ∀ (b : Byte) (bs : List Byte),
        { emitAll bs (emit b { s with lz := { s.lz with ip := s.lz.ip + 1 } }) with
          lz := { (emitAll bs (emit b { s with lz := { s.lz with ip := s.lz.ip + 1 } })).lz with
            ip := s.lz.ip + 1 + n } } =
        { emitAll (b :: bs) s with lz := { (emitAll (b :: bs) s).lz with ip := s.lz.ip + (n + 1) } } := by
      intro b bs
      have := emitAll_ip (b :: bs) s (s.lz.ip + 1)
      rw [show emitAll bs (emit b { s with lz := { s.lz with ip := s.lz.ip + 1 } }) = _ from this]
      simp [Nat.add_assoc, Nat.add_comm 1]
    rw [rawLoop, bind_ok]
    constructor
    · rintro ⟨⟨b, u⟩, hu, h⟩
      obtain ⟨h1, h2, rfl⟩ := inRdByte_ok.1 hu
      obtain ⟨bs, hl, hb, rfl⟩ := ih.1 h
      refine ⟨b :: bs, by simp [hl], fun k hk => ?_, key b bs⟩
      cases k with
      | zero => exact ⟨h1, h2⟩
      | succ k =>
        rw [show s.lz.ip + (k + 1) = s.lz.ip + 1 + k by omega]
        exact hb k (by omega)
    · rintro ⟨bs, hl, hb, rfl⟩
      cases bs with
      | nil => simp at hl
      | cons b bs =>
        refine ⟨(b, { s with lz := { s.lz with ip := s.lz.ip + 1 } }), ?_, ?_⟩
        · exact inRdByte_ok.2 ⟨(hb 0 (by omega)).1, (hb 0 (by omega)).2, rfl⟩
        · refine ih.2 ⟨bs, by simpa using hl, fun k hk => ?_, (key b bs).symm⟩
          have := hb (k + 1) (by omega)
          rw [show s.lz.ip + (k + 1) = s.lz.ip + 1 + k by omega] at this
          exact this

end Sys2Proof.Machine
end

