-- ==== Sys2Proof/Laws/Source.lean ====
section
/-! SUPPORT. The byte source does not look at the output: RDBYTE before and after an EMIT delivers the same byte
(rules R77, R149), so the loop of RUN.D is a row of RDBYTEs followed by a row of EMITs. The descent is a row of HF.RDBITs (rule R216). -/

namespace Sys2Proof.Machine

open Sys2Proof.Safety

/-- An update of the state that no byte source can see. -/
structure Unseen (g : State → State) : Prop where
  hf : ∀ s, (g s).hf = s.hf
  seq : ∀ s, (g s).seq = s.seq
  inMem : ∀ s, (g s).inMem = s.inMem
  htab : ∀ s, (g s).htab = s.htab
  ip : ∀ s, (g s).lz.ip = s.lz.ip
  setHf : ∀ s h, g { s with hf := h } = { g s with hf := h }
  setIp : ∀ s q, g { s with lz := { s.lz with ip := q } } = { g s with lz := { (g s).lz with ip := q } }

theorem unseen_emit (b : Byte) : Unseen (emit b) :=
  ⟨fun _ => rfl, fun _ => rfl, fun _ => rfl, fun _ => rfl, fun _ => rfl, fun _ _ => rfl, fun _ _ => rfl⟩

/-- Sets the down-counter. -/
def setCnt (c : BitVec 14) (s : State) : State := { s with tmp := { s.tmp with cnt := c } }

theorem unseen_setCnt (c : BitVec 14) : Unseen (setCnt c) :=
  ⟨fun _ => rfl, fun _ => rfl, fun _ => rfl, fun _ => rfl, fun _ => rfl, fun _ _ => rfl, fun _ _ => rfl⟩

theorem Unseen.comp {g h : State → State} (hg : Unseen g) (hh : Unseen h) : Unseen (fun s => g (h s)) where
  hf s := (hg.hf _).trans (hh.hf s)
  seq s := (hg.seq _).trans (hh.seq s)
  inMem s := (hg.inMem _).trans (hh.inMem s)
  htab s := (hg.htab _).trans (hh.htab s)
  ip s := (hg.ip _).trans (hh.ip s)
  setHf s x := by dsimp only; rw [hh.setHf, hg.setHf]
  setIp s q := by dsimp only; rw [hh.setIp, hg.setIp]

/-- An update of the state in which a stop happens. -/
def Stop.map (g : State → State) : Stop → Stop
  | .raise f i s => .raise f i (g s)
  | .noMatch s => .noMatch (g s)
  | .fault f => .fault f
  | .refuse r => .refuse r

/-- An update of the state that a source ends in. -/
def mapEnd {α : Type} (g : State → State) : Except Stop (α × State) → Except Stop (α × State)
  | .ok (a, s) => .ok (a, g s)
  | .error e => .error (e.map g)

theorem Unseen.inRead {g : State → State} (hg : Unseen g) (a : Nat) (s : State) :
    Sys2Proof.Machine.inRead a (g s) = (match Sys2Proof.Machine.inRead a s with
      | .ok b => .ok b
      | .error e => .error (e.map g)) := by
  unfold Sys2Proof.Machine.inRead
  rw [hg.seq, hg.inMem]
  split_ifs
  · rfl
  · unfold readOrStop; cases Memory.read s.inMem a <;> rfl

theorem Unseen.inRdByte {g : State → State} (hg : Unseen g) (s : State) :
    Sys2Proof.Machine.inRdByte (g s) = mapEnd g (Sys2Proof.Machine.inRdByte s) := by
  unfold Sys2Proof.Machine.inRdByte
  rw [hg.ip, hg.inRead]
  cases Sys2Proof.Machine.inRead s.lz.ip s with
  | error e => rfl
  | ok b => exact congrArg (fun u => Except.ok (b, u)) (hg.setIp s _).symm

theorem Unseen.hfFetch {g : State → State} (hg : Unseen g) (s : State) :
    Sys2Proof.Machine.hfFetch (g s) = mapEnd g (Sys2Proof.Machine.hfFetch s) := by
  unfold Sys2Proof.Machine.hfFetch
  rw [hg.hf, hg.inRead]
  cases Sys2Proof.Machine.inRead s.hf.hp s with
  | error e => rfl
  | ok b => exact congrArg (fun u => Except.ok (b, u)) (hg.setHf s _).symm

theorem Unseen.hfRdBit {g : State → State} (hg : Unseen g) (s : State) :
    Sys2Proof.Machine.hfRdBit (g s) = mapEnd g (Sys2Proof.Machine.hfRdBit s) := by
  rcases h : Sys2Proof.Machine.hfRdBit s with e | ⟨b, t⟩
  · obtain ⟨h1, h2⟩ := rdBitWith_error.1 h
    refine rdBitWith_error.2 ⟨by dsimp only; rw [hg.hf]; exact h1, ?_⟩
    rw [hg.hfFetch, h2]; rfl
  · refine rdBitWith_ok.2 ?_
    dsimp only
    rw [hg.hf]
    rcases rdBitWith_ok.1 h with ⟨h1, rfl, rfl⟩ | ⟨h1, c, u, hu, rfl, rfl⟩
    · exact .inl ⟨h1, rfl, hg.setHf s _⟩
    · refine .inr ⟨h1, c, g u, by rw [hg.hfFetch, hu]; rfl, rfl, ?_⟩
      rw [hg.setHf, hg.hf]

theorem Unseen.setNode {g : State → State} (hg : Unseen g) (v : Half) (t : State) :
    Sys2Proof.Machine.setNode v (g t) = g (Sys2Proof.Machine.setNode v t) := by
  simp only [Sys2Proof.Machine.setNode, hg.hf]
  exact (hg.setHf t _).symm

theorem Unseen.hfDescend {g : State → State} (hg : Unseen g) (k : Nat) (s : State) :
    Sys2Proof.Machine.hfDescend k (g s) = mapEnd g (Sys2Proof.Machine.hfDescend k s) := by
  induction k generalizing s with
  | zero => rfl
  | succ k ih =>
    unfold Sys2Proof.Machine.hfDescend
    rw [hg.hf]
    split
    · rfl
    · rename_i n hn
      unfold htStep
      simp only [hg.hfRdBit]
      rcases Sys2Proof.Machine.hfRdBit s with e | ⟨b, t⟩
      · rfl
      · simp only [mapEnd, ok_bind, hg.hf, hg.htab]
        split_ifs
        · rfl
        · unfold readOrStop
          cases Memory.read t.htab (htIndex n.toNat b) with
          | none => rfl
          | some v =>
            simp only [ok_bind]
            rw [hg.setNode]
            split_ifs
            · rfl
            · simp only [ok_bind]
              exact ih _
    · rfl

/-- RDBYTE is blind to everything but its own registers, IN and HTAB. -/
theorem Unseen.rdByte {g : State → State} (hg : Unseen g) (s : State) :
    Sys2Proof.Machine.rdByte (g s) = mapEnd g (Sys2Proof.Machine.rdByte s) := by
  unfold Sys2Proof.Machine.rdByte
  rw [hg.seq, hg.inRdByte]
  split_ifs
  · unfold hfRdByte
    have h2 : Sys2Proof.Machine.setNode (g s).hf.htLen (g s) = g (Sys2Proof.Machine.setNode s.hf.htLen s) := by
      rw [hg.hf, hg.setNode]
    have h3 : hfBitsLeft (g s) = hfBitsLeft s := by simp only [hfBitsLeft, hg.hf, hg.seq]
    rw [h3, h2, hg.hfDescend]
  · rfl

theorem Unseen.rdBytes {g : State → State} (hg : Unseen g) (n : Nat) (s : State) :
    Sys2Proof.Safety.rdBytes n (g s) = mapEnd g (Sys2Proof.Safety.rdBytes n s) := by
  induction n generalizing s with
  | zero => rfl
  | succ n ih =>
    simp only [Sys2Proof.Safety.rdBytes, hg.rdByte]
    rcases Sys2Proof.Machine.rdByte s with e | ⟨b, t⟩
    · rfl
    · simp only [mapEnd, ok_bind]
      rw [ih]
      rcases Sys2Proof.Safety.rdBytes n t with e | ⟨bs, u⟩ <;> rfl

/-- RUN.D's loop is its RDBYTEs, then its EMITs (rule R171); a source that raises ends the run in the same fault. -/
theorem runLoop_eq (n : Nat) (s : State) :
    (∀ bs t, rdBytes n s = .ok (bs, t) → bs.length = n ∧ runLoop n s = .ok (withCnt n (emitAll bs t))) ∧
    (∀ e, rdBytes n s = .error e → ∃ g, Unseen g ∧ runLoop n s = .error (e.map g)) := by
  induction n generalizing s with
  | zero =>
    refine ⟨fun bs t h => ?_, fun e h => by cases h⟩
    cases h; exact ⟨rfl, rfl⟩
  | succ n ih =>
    rcases hr : Sys2Proof.Machine.rdByte s with e | ⟨b, t⟩
    · refine ⟨fun bs t h => ?_, fun e' h => ?_⟩
      · simp [Sys2Proof.Safety.rdBytes, hr] at h
      · simp [Sys2Proof.Safety.rdBytes, hr] at h
        subst h
        refine ⟨fun s => s, ⟨fun _ => rfl, fun _ => rfl, fun _ => rfl, fun _ => rfl, fun _ => rfl, fun _ _ => rfl,
          fun _ _ => rfl⟩, ?_⟩
        rw [runLoop, hr]
        cases e <;> rfl
    · have hu : Unseen (fun s => setCnt (BitVec.ofNat 14 n) (emit b s)) := (unseen_setCnt _).comp (unseen_emit b)
      have hrun : runLoop (n + 1) s = runLoop n (setCnt (BitVec.ofNat 14 n) (emit b t)) := by
        rw [runLoop, hr]; rfl
      have hb := hu.rdBytes n t
      obtain ⟨ih1, ih2⟩ := ih (setCnt (BitVec.ofNat 14 n) (emit b t))
      rw [hb] at ih1 ih2
      constructor
      · intro bs u h
        simp only [Sys2Proof.Safety.rdBytes, hr, ok_bind, bind_ok, Prod.exists, Except.ok.injEq, Prod.mk.injEq] at h
        obtain ⟨cs, v, h, rfl, rfl⟩ := h
        obtain ⟨hl, h2⟩ := ih1 cs _ (by rw [h]; rfl)
        refine ⟨by simp [hl], ?_⟩
        rw [hrun, h2]
        simp only [setCnt]
        rw [emitAll_tmp]
        have : (emitAll cs (emit b v)).tmp = (emit b v).tmp := by rw [emitAll_eq]
        rw [← this, withCnt_succ _ _ _ (by rintro rfl; rfl)]
        rfl
      · intro e h
        simp only [Sys2Proof.Safety.rdBytes, hr, ok_bind, bind_error] at h
        rcases h with h | ⟨⟨cs, v⟩, -, h⟩
        · obtain ⟨g, hg, h2⟩ := ih2 (e.map _) (by rw [h]; rfl)
          refine ⟨_, hg.comp hu, ?_⟩
          rw [hrun, h2]
          cases e <;> rfl
        · cases h

/-! ### What the output loops leave alone -/

/-- Only the output and its counters, the byte source's cursors and the token temporaries differ; the LZ77 bit cursor
is untouched, and so is the loaded table. -/
def LoopFrame (s t : State) : Prop :=
  t = { s with
    lz := { s.lz with ip := t.lz.ip, outLen := t.lz.outLen, wp := t.lz.wp }
    tmp := t.tmp
    hf := t.hf
    out := t.out
    win := t.win } ∧
  t.hf.htLen = s.hf.htLen ∧ t.hf.htCnt = s.hf.htCnt

theorem LoopFrame.refl (s : State) : LoopFrame s s := ⟨rfl, rfl, rfl⟩

theorem LoopFrame.trans {s t u : State} (h1 : LoopFrame s t) (h2 : LoopFrame t u) : LoopFrame s u := by
  obtain ⟨h1, h3, h4⟩ := h1
  obtain ⟨h2, h5, h6⟩ := h2
  exact ⟨by rw [h2, h1], h5.trans h3, h6.trans h4⟩

theorem LoopFrame.emit (s : State) (b : Byte) (c : BitVec 14) :
    LoopFrame s (setCnt c (Sys2Proof.Machine.emit b s)) := ⟨rfl, rfl, rfl⟩

theorem rdByte_loopFrame (s : State) : EndsIn Prod.snd (LoopFrame s) (rdByte s) := by
  refine (rdByte_endsIn s).mono fun t ht => ?_
  obtain ⟨⟨h1, h2, h3, -, -⟩, h4, h5, -⟩ := ht
  refine ⟨?_, h2, h3⟩
  rw [h1]
  simp only [h4, h5]

/-- RUN.D's loop, however it ends. -/
theorem runLoop_endsIn (n : Nat) (s : State) : EndsIn id (LoopFrame s) (runLoop n s) := by
  induction n generalizing s with
  | zero => exact LoopFrame.refl s
  | succ n ih =>
    refine (rdByte_loopFrame s).bind fun ⟨b, t⟩ _ ht => ?_
    exact (ih _).mono fun u hu => (ht.trans (LoopFrame.emit t b _)).trans hu

/-- COPY's loop, however it ends. -/
theorem copyLoop_endsIn (off : BitVec 13) (n : Nat) (s : State) : EndsIn id (LoopFrame s) (copyLoop off n s) := by
  induction n generalizing s with
  | zero => exact LoopFrame.refl s
  | succ n ih =>
    unfold copyLoop
    refine (endsIn_readOrStop (st := fun _ => s) _ _ _ fun _ _ => LoopFrame.refl s).bind fun b _ _ => ?_
    exact (ih _).mono fun u hu => (LoopFrame.emit s b _).trans hu

/-! ### Bits of the Huffman bitstream, one after another -/

/-- HF.RDBIT does not see `node` (rule R147). -/
theorem hfRdBit_setNode {v : Half} {s t : State} {b : Bool} (h : hfRdBit (setNode v s) = .ok (b, t)) :
    ∃ y, hfRdBit s = .ok (b, y) ∧ t = setNode v y := by
  unfold hfRdBit rdBitWith at h ⊢
  by_cases h0 : s.hf.rem = 0
  · rw [if_pos (by exact h0)] at h ⊢
    unfold hfFetch at h ⊢
    have e : ∀ d, inRead (setNode v s).hf.hp (setNode v s) = .ok d → inRead s.hf.hp s = .ok d := by
      intro d h
      unfold inRead at h ⊢
      by_cases h1 : s.seq.inLen ≤ s.hf.hp
      · rw [if_pos (by exact h1)] at h; cases h
      · rw [if_neg (by exact h1)] at h ⊢; exact h
    cases hr : inRead (setNode v s).hf.hp (setNode v s) with
    | error _ => rw [hr] at h; cases h
    | ok d => rw [hr] at h; cases h; rw [e d hr]; exact ⟨_, rfl, rfl⟩
  · rw [if_neg (by exact h0)] at h ⊢
    cases h; exact ⟨_, rfl, rfl⟩

/-- Neither do successive reads. -/
theorem rdBits_setNode {v : Half} {n : Nat} {s t : State} {bs : List Bool} (h : rdBits n (setNode v s) = .ok (bs, t)) :
    ∃ y, rdBits n s = .ok (bs, y) ∧ t = setNode v y := by
  induction n generalizing s bs with
  | zero => cases h; exact ⟨s, rfl, rfl⟩
  | succ n ih =>
    rw [rdBits] at h ⊢
    obtain ⟨⟨c, u⟩, hc, h⟩ := bind_ok.1 h
    obtain ⟨⟨d, w⟩, hd, h⟩ := bind_ok.1 h
    cases h
    obtain ⟨y, hy, rfl⟩ := hfRdBit_setNode hc
    obtain ⟨z, hz, rfl⟩ := ih hd
    exact ⟨z, by rw [hy, ok_bind]; dsimp only; rw [hz]; rfl, rfl⟩

/-- HF.RDBIT reads the same bit whatever `node` holds. -/
theorem hfRdBit_setNode_ok {v : Half} {s t : State} {b : Bool} (h : hfRdBit s = .ok (b, t)) :
    hfRdBit (setNode v s) = .ok (b, setNode v t) := by
  obtain ⟨y, hy, rfl⟩ := hfRdBit_setNode (v := s.hf.node) (s := setNode v s) h
  rw [hy]
  have hf := hfRdBit_frame hy
  rw [hf]; rfl

/-- A row of reads is its first bit and the row behind it. -/
theorem rdBits_cons {n : Nat} {s t : State} {b : Bool} {bs : List Bool} :
    rdBits (n + 1) s = .ok (b :: bs, t) ↔ ∃ u, hfRdBit s = .ok (b, u) ∧ rdBits n u = .ok (bs, t) := by
  rw [rdBits]
  constructor
  · intro h
    obtain ⟨⟨c, u⟩, hc, h⟩ := bind_ok.1 h
    obtain ⟨⟨d, w⟩, hd, h⟩ := bind_ok.1 h
    cases h
    exact ⟨u, hc, hd⟩
  · rintro ⟨u, hc, hd⟩
    rw [hc, ok_bind]
    dsimp only
    rw [hd]
    rfl

/-- A row of reads changes only the cursor of the Huffman bitstream, and takes its bits off it. -/
theorem rdBits_frame {n : Nat} {s t : State} {bs : List Bool} (h : rdBits n s = .ok (bs, t)) :
    t = { s with hf := { s.hf with hp := t.hf.hp, cur := t.hf.cur, rem := t.hf.rem } } ∧
      hfBitsLeft t + n = hfBitsLeft s := by
  induction n generalizing s bs with
  | zero => cases h; exact ⟨rfl, rfl⟩
  | succ n ih =>
    cases bs with
    | nil =>
      rw [rdBits] at h
      obtain ⟨⟨c, u⟩, -, h⟩ := bind_ok.1 h
      obtain ⟨⟨d, w⟩, -, h⟩ := bind_ok.1 h
      cases h
    | cons b bs =>
      obtain ⟨u, hu, h⟩ := rdBits_cons.1 h
      obtain ⟨h1, h2⟩ := ih h
      have h3 := hfRdBit_bitsLeft hu
      refine ⟨?_, by omega⟩
      rw [h1, hfRdBit_frame hu]

/-- A descent that can read the bits of a walk through the table, every index below `ht_cnt`, comes to the walk's end
(rule R216); it may take as many iterations as the walk has bits, and more. -/
theorem hfDescend_walk {bits : List Bool} {v x : Half} {s w : State} (j : Nat)
    (hr : rdBits bits.length s = .ok (bits, w)) (hw : walkTable s.htab bits v = some x) (hx : x.msb = false)
    (hi : ∀ k y b, walkTable s.htab (bits.take k) v = some y → bits[k]? = some b → htIndex y.toNat b < s.hf.htCnt) :
    hfDescend (bits.length + j) (setNode v s) = hfDescend j (setNode x w) := by
  induction bits generalizing v s with
  | nil => cases hr; cases hw; rw [List.length_nil, Nat.zero_add]
  | cons b bits ih =>
    obtain ⟨u, hb, hr⟩ := rdBits_cons.1 hr
    have hf := hfRdBit_frame hb
    have hn : ∃ n, decodeHtWord v = .htNode n ∧ n.toNat = v.toNat := by
      rw [walkTable] at hw
      unfold decodeHtWord at hw ⊢
      by_cases h1 : v.msb
      · rw [if_pos h1] at hw; cases hw
      · rw [if_neg h1] at hw ⊢
        have := BitVec.msb_eq_false_iff_two_mul_lt.1 (by simpa using h1)
        by_cases h2 : v.toNat < Config.htLeafLimit
        · rw [if_pos h2] at hw; cases hw
        · rw [if_neg h2]
          exact ⟨_, rfl, by rw [BitVec.extractLsb'_toNat]; simp; omega⟩
    obtain ⟨n, hn, hnv⟩ := hn
    rw [walkTable, hn] at hw
    obtain ⟨y, hy, hw⟩ := Option.bind_eq_some_iff.1 hw
    have hidx := hi 0 v b rfl rfl
    rw [← hnv] at hidx
    have hym : y.msb = false := by
      cases bits with
      | nil => cases hw; exact hx
      | cons c bits =>
        rw [walkTable] at hw
        unfold decodeHtWord at hw
        by_cases h1 : y.msb
        · rw [if_pos h1] at hw; cases hw
        · simpa using h1
    have hst : htStep n (setNode v s) = .ok (setNode y u) :=
      htStep_ok.2 ⟨b, setNode v u, y, hfRdBit_setNode_ok hb, hidx, hy, hym, rfl⟩
    have hh : u.htab = s.htab := by rw [hf]
    have hc : u.hf.htCnt = s.hf.htCnt := by rw [hf]
    rw [List.length_cons, Nat.add_right_comm, hfDescend]
    have hd : decodeHtWord (setNode v s).hf.node = .htNode n := hn
    rw [hd]
    dsimp only
    rw [hst, ok_bind]
    refine ih hr (by rw [hh]; exact hw) fun k z c hz hk => ?_
    rw [hc]
    refine hi (k + 1) z c ?_ (by simpa using hk)
    rw [List.take_succ_cons, walkTable, hn]
    rw [hh] at hz
    dsimp only
    rw [hy]
    exact hz

end Sys2Proof.Machine
end

