-- ==== Sys2Proof/Laws/Table.lean ====
section
/-! SUPPORT. Header and table load: multi-byte reads of IN, the entries of HTAB (rules R68, R131, R215). -/

namespace Sys2Proof.Machine

open Sys2Proof.Safety

/-- A 16-bit read of IN (rule R68). -/
theorem inRead16_ok {a : Nat} {s : State} {v : Half} :
    inRead16 a s = .ok v ↔ ∃ b0 b1, inRead a s = .ok b0 ∧ inRead (a + 1) s = .ok b1 ∧ v = le16 b0 b1 := by
  simp only [inRead16, bind_ok, Except.ok.injEq, eq_comm (a := v)]
  constructor
  · rintro ⟨b0, h0, b1, h1, h⟩; exact ⟨b0, b1, h0, h1, h⟩
  · rintro ⟨b0, b1, h0, h1, h⟩; exact ⟨b0, h0, b1, h1, h⟩

/-- A 32-bit read of IN (rule R68). -/
theorem inRead32_ok {a : Nat} {s : State} {v : Word} :
    inRead32 a s = .ok v ↔ ∃ b0 b1 b2 b3, inRead a s = .ok b0 ∧ inRead (a + 1) s = .ok b1 ∧
      inRead (a + 2) s = .ok b2 ∧ inRead (a + 3) s = .ok b3 ∧ v = le32 b0 b1 b2 b3 := by
  simp only [inRead32, bind_ok, Except.ok.injEq, eq_comm (a := v)]
  constructor
  · rintro ⟨b0, h0, b1, h1, b2, h2, b3, h3, h⟩; exact ⟨b0, b1, b2, b3, h0, h1, h2, h3, h⟩
  · rintro ⟨b0, b1, b2, b3, h0, h1, h2, h3, h⟩; exact ⟨b0, h0, b1, h1, b2, h2, b3, h3, h⟩

/-- Bytes held from index 0 are what reads of IN answer below `in_len`. -/
theorem inRead_holds {s : State} {bs : List Byte} (h : HoldsAt s.inMem 0 bs) {a : Nat} (ha : a < s.seq.inLen)
    (hb : a < bs.length) : inRead a s = .ok (bs.getD a 0) := by
  refine inRead_ok.2 ⟨ha, ?_⟩
  have := h a hb
  rw [Nat.zero_add] at this
  rw [this]
  simp [hb]

/-- A 16-bit read of held bytes. -/
theorem inRead16_holds {s : State} {bs : List Byte} (h : HoldsAt s.inMem 0 bs) {a : Nat} (ha : a + 1 < s.seq.inLen)
    (hb : a + 1 < bs.length) : inRead16 a s = .ok (le16 (bs.getD a 0) (bs.getD (a + 1) 0)) :=
  inRead16_ok.2 ⟨_, _, inRead_holds h (by omega) (by omega), inRead_holds h ha hb, rfl⟩

/-- A 32-bit read of held bytes. -/
theorem inRead32_holds {s : State} {bs : List Byte} (h : HoldsAt s.inMem 0 bs) {a : Nat} (ha : a + 3 < s.seq.inLen)
    (hb : a + 3 < bs.length) : inRead32 a s =
      .ok (le32 (bs.getD a 0) (bs.getD (a + 1) 0) (bs.getD (a + 2) 0) (bs.getD (a + 3) 0)) :=
  inRead32_ok.2 ⟨_, _, _, _, inRead_holds h (by omega) (by omega), inRead_holds h (by omega) (by omega),
    inRead_holds h (by omega) (by omega), inRead_holds h ha hb, rfl⟩

theorem inRead_frame {a : Nat} {s t : State} (h1 : t.inMem = s.inMem) (h2 : t.seq.inLen = s.seq.inLen) (b : Byte) :
    inRead a t = .ok b ↔ inRead a s = .ok b := by
  rw [inRead_ok, inRead_ok, h1, h2]

theorem inRead16_frame {a : Nat} {s t : State} (h1 : t.inMem = s.inMem) (h2 : t.seq.inLen = s.seq.inLen) (v : Half) :
    inRead16 a t = .ok v ↔ inRead16 a s = .ok v := by
  simp only [inRead16_ok, inRead_frame h1 h2]

/-- The entries that a table load stores. -/
theorem htLoadEntries_ok {n i : Nat} {s t : State} :
    htLoadEntries n i s = .ok t ↔ ∃ vs : List Half, vs.length = n ∧
      (∀ k v, vs[k]? = some v → inRead16 (18 + 2 * (i + k)) s = .ok v) ∧
      t = { s with htab := Memory.writeAll s.htab i vs } := by
  induction n generalizing i s with
  | zero =>
    simp only [htLoadEntries, Except.ok.injEq, List.length_eq_zero_iff]
    constructor
    · rintro rfl; exact ⟨[], rfl, by simp, rfl⟩
    · rintro ⟨vs, rfl, -, rfl⟩; rfl
  | succ n ih =>
    rw [htLoadEntries, bind_ok]
    constructor
    · rintro ⟨v, hv, h⟩
      obtain ⟨vs, h1, h2, rfl⟩ := ih.1 h
      refine ⟨v :: vs, by simp [h1], fun k w hk => ?_, rfl⟩
      cases k with
      | zero => simp at hk; subst hk; exact hv
      | succ k =>
        have := h2 k w (by simpa using hk)
        rw [show i + (k + 1) = i + 1 + k by omega]
        exact (inRead16_frame (s := s) (t := { s with htab := Memory.write s.htab i v }) rfl rfl w).1 this
    · rintro ⟨vs, h1, h2, rfl⟩
      cases vs with
      | nil => simp at h1
      | cons v vs =>
        refine ⟨v, h2 0 v rfl, ih.2 ⟨vs, by simpa using h1, fun k w hk => ?_, rfl⟩⟩
        have := h2 (k + 1) w (by simpa using hk)
        rw [show i + (k + 1) = i + 1 + k by omega] at this
        exact (inRead16_frame (s := s) (t := { s with htab := Memory.write s.htab i v }) rfl rfl w).2 this

/-- HT.LOAD never raises past the sign test, whatever it has stored so far, on bytes that IN holds. -/
theorem htLoadEntries_total {n i : Nat} {s : State} {bs : List Byte} (h : HoldsAt s.inMem 0 bs)
    (h1 : s.seq.inLen = bs.length) (h2 : 18 + 2 * (i + n) ≤ bs.length) :
    htLoadEntries n i s = .ok { s with
      htab := Memory.writeAll s.htab i
        ((List.range' i n).map fun k => le16 (bs.getD (18 + 2 * k) 0) (bs.getD (18 + 2 * k + 1) 0)) } := by
  refine htLoadEntries_ok.2 ⟨_, by simp, fun k v hk => ?_, rfl⟩
  by_cases hkn : k < n
  · simp [hkn] at hk
    rw [← hk, inRead16_holds h (by omega) (by omega)]
    simp
  · simp [hkn] at hk

end Sys2Proof.Machine
end

