-- ==== Sys2Proof/Laws/Header.lean ====
section
/-! SUPPORT. What HDR.PARSE and HT.LOAD can do (rules R131, R215), and that a fetched token is a token. -/

namespace Sys2Proof.Machine

/-- A 16-bit read of IN changes nothing, however it ends. -/
theorem inRead16_endsIn {P : State → Prop} (a : Nat) {s : State} (h : P s) :
    EndsIn (fun _ => s) P (inRead16 a s) :=
  (endsIn_inRead h).bind fun _ _ _ => (endsIn_inRead h).bind fun _ _ _ => h

/-- A 32-bit read of IN changes nothing, however it ends. -/
theorem inRead32_endsIn {P : State → Prop} (a : Nat) {s : State} (h : P s) :
    EndsIn (fun _ => s) P (inRead32 a s) :=
  (endsIn_inRead h).bind fun _ _ _ => (endsIn_inRead h).bind fun _ _ _ => (endsIn_inRead h).bind fun _ _ _ =>
    (endsIn_inRead h).bind fun _ _ _ => h

/-- The tests on the latched fields pass exactly for a legal algorithm and an offset in range. -/
theorem hdrChecks_ok {s t : State} :
    hdrChecks s = .ok t ↔ t = s ∧ legalAlg s.cr.hdrAlg = true ∧ 16 ≤ s.doff ∧ s.doff ≤ s.seq.inLen ∧
      (huffmanAlg s.cr.hdrAlg = true → 18 ≤ s.doff) := by
  unfold hdrChecks
  cases h1 : legalAlg s.cr.hdrAlg <;> cases h2 : huffmanAlg s.cr.hdrAlg <;> simp <;> split_ifs <;> simp <;> try omega
  all_goals
    constructor
    · intro h
      exact ⟨h.symm, by omega⟩
    · intro h
      exact h.1.symm

/-- HDR.PARSE goes on exactly when the magic is there, the header is whole, and the tests pass; it has then latched
the fields and done nothing else. -/
theorem hdrParse_ok {m : Word} {s t : State} :
    hdrParse m s = .ok t ↔ 16 ≤ s.seq.inLen ∧ inRead32 0 s = .ok m ∧ ∃ ver alg doff dsize,
      inRead16 4 s = .ok ver ∧ inRead16 6 s = .ok alg ∧ inRead32 8 s = .ok doff ∧ inRead32 12 s = .ok dsize ∧
      t = latchHeader ver alg doff dsize s ∧ legalAlg alg = true ∧ 16 ≤ doff.toNat ∧ doff.toNat ≤ s.seq.inLen ∧
      (huffmanAlg alg = true → 18 ≤ doff.toNat) := by
  unfold hdrParse
  by_cases h1 : s.seq.inLen < 4
  · rw [if_pos h1]
    exact ⟨nofun, fun h => by omega⟩
  rw [if_neg h1, bind_ok]
  constructor
  · rintro ⟨mm, hm, h⟩
    by_cases h2 : mm ≠ m
    · rw [if_pos h2] at h; cases h
    rw [if_neg h2] at h
    by_cases h3 : s.seq.inLen < Config.hdrLen
    · rw [if_pos h3] at h; cases h
    rw [if_neg h3] at h
    obtain ⟨ver, e1, h⟩ := bind_ok.1 h
    obtain ⟨alg, e2, h⟩ := bind_ok.1 h
    obtain ⟨doff, e3, h⟩ := bind_ok.1 h
    obtain ⟨dsize, e4, h⟩ := bind_ok.1 h
    obtain ⟨rfl, h4⟩ := hdrChecks_ok.1 h
    exact ⟨Nat.not_lt.1 h3, (not_not.1 h2) ▸ hm, ver, alg, doff, dsize, e1, e2, e3, e4, rfl, h4⟩
  · rintro ⟨h3, hm, ver, alg, doff, dsize, e1, e2, e3, e4, rfl, h⟩
    refine ⟨m, hm, ?_⟩
    have h4 : ¬ s.seq.inLen < Config.hdrLen := Nat.not_lt.2 h3
    rw [if_neg (by simp), if_neg h4, e1, ok_bind, e2, ok_bind, e3, ok_bind, e4, ok_bind]
    exact hdrChecks_ok.2 ⟨rfl, h⟩

/-- What holds of every state that differs from `s` only in the header registers holds where HDR.PARSE ends. -/
theorem hdrParse_endsIn {P : State → Prop} (m : Word) {s : State} (h : P s)
    (hl : ∀ ver alg doff dsize, P (latchHeader ver alg doff dsize s)) : EndsIn id P (hdrParse m s) := by
  have ch : ∀ u, P u → EndsIn id P (hdrChecks u) := by
    intro u hu
    unfold hdrChecks
    split_ifs <;> exact hu
  unfold hdrParse
  by_cases h1 : s.seq.inLen < 4
  · rw [if_pos h1]; exact h
  rw [if_neg h1]
  refine (inRead32_endsIn 0 h).bind fun mm _ _ => ?_
  by_cases h2 : mm ≠ m
  · rw [if_pos h2]; exact h
  rw [if_neg h2]
  by_cases h3 : s.seq.inLen < Config.hdrLen
  · rw [if_pos h3]; exact h
  rw [if_neg h3]
  refine (inRead16_endsIn 4 h).bind fun ver _ _ => ?_
  refine (inRead16_endsIn 6 h).bind fun alg _ _ => ?_
  refine (inRead32_endsIn 8 h).bind fun doff _ _ => ?_
  refine (inRead32_endsIn 12 h).bind fun dsize _ _ => ?_
  exact ch _ (hl _ _ _ _)

/-- HT.LOAD goes on exactly with a `table_length` that is not negative; it leaves the entries in HTAB and the
bitstream positioned. -/
theorem htLoad_ok {s t : State} :
    htLoad s = .ok t ↔ ∃ v vs, inRead16 16 s = .ok v ∧ v.msb = false ∧ vs.length = htCount s.doff ∧
      (∀ k w, vs[k]? = some w → inRead16 (18 + 2 * k) s = .ok w) ∧
      t = { s with
        htab := Memory.writeAll s.htab 0 vs
        hf := { s.hf with
          htLen := v
          htCnt := htCount s.doff
          hp := s.doff
          cur := 0
          rem := 0 } } := by
  have fr : ∀ (h : HfDecoder) (a : Nat) (w : Half),
      inRead16 a { s with hf := h } = .ok w ↔ inRead16 a s = .ok w :=
    fun h _ w => inRead16_frame (s := s) (t := { s with hf := h }) rfl rfl w
  unfold htLoad
  rw [bind_ok]
  constructor
  · rintro ⟨v, h1, h⟩
    dsimp only at h
    split_ifs at h with h2
    obtain ⟨u, h3, h⟩ := bind_ok.1 h
    cases h
    obtain ⟨vs, hl, hr, rfl⟩ := htLoadEntries_ok.1 h3
    refine ⟨v, vs, h1, by simpa using h2, hl, fun k w hk => ?_, rfl⟩
    have := hr k w hk
    rw [Nat.zero_add] at this
    exact (fr _ _ w).1 this
  · rintro ⟨v, vs, h1, h2, hl, hr, rfl⟩
    refine ⟨v, h1, ?_⟩
    dsimp only
    rw [if_neg (by simp [h2]), bind_ok]
    refine ⟨_, htLoadEntries_ok.2 ⟨vs, hl, fun k w hk => ?_, rfl⟩, rfl⟩
    rw [Nat.zero_add]
    exact (fr _ _ w).2 (hr k w hk)

/-- The token reader answers tokens only. -/
theorem readToken_format {σ ε : Type} {src : TokenSource σ ε} {s t : σ} {i : Instr}
    (h : readToken src s = .ok (i, t)) : i.format = .lzToken := by
  unfold readToken at h
  obtain ⟨⟨b0, s0⟩, -, h⟩ := bind_ok.1 h
  dsimp only at h
  split_ifs at h
  · obtain ⟨⟨v, s1⟩, -, h⟩ := bind_ok.1 h
    cases h; rfl
  obtain ⟨⟨b1, s1⟩, -, h⟩ := bind_ok.1 h
  dsimp only at h
  split_ifs at h
  · obtain ⟨⟨l, s2⟩, -, h⟩ := bind_ok.1 h
    obtain ⟨⟨o, s3⟩, -, h⟩ := bind_ok.1 h
    cases h; rfl
  obtain ⟨⟨hi, s2⟩, -, h⟩ := bind_ok.1 h
  obtain ⟨⟨lo, s3⟩, -, h⟩ := bind_ok.1 h
  dsimp only at h
  split_ifs at h with h1
  · cases h; rfl
  obtain ⟨⟨b2, s4⟩, -, h⟩ := bind_ok.1 h
  dsimp only at h
  split_ifs at h
  · obtain ⟨⟨n, s5⟩, -, h⟩ := bind_ok.1 h
    cases h; rfl
  obtain ⟨⟨t5, s5⟩, -, h⟩ := bind_ok.1 h
  dsimp only at h
  split_ifs at h with h2 <;> cases h <;> rfl

end Sys2Proof.Machine
end

