-- ==== Sys2Proof/Laws/PerInstr.lean ====
section
/-! SUPPORT. Facts about every instruction as syntax, one lemma per constructor. -/

open Sys2Proof

/-- How many bytes the encoding of an instruction has: 4 for a CTRL word (rule R112), 2 for an algorithm id (rule
R92) and for a table word (rule R94), one flag byte and the payload bytes for a token (rules R96 to R103). -/
def Sys2Proof.Laws.EncodeLength.size : Instr → Nat
  | .decompress | .compress _ | .encRaw | .encHfirw | .encLz | .encHfi => 4
  | .decRaw | .decHfirw | .decLz | .decHfi => 2
  | .lit _ | .refA _ _ => 2
  | .refB _ _ | .refC _ _ => 3
  | .runD _ | .refE _ _ => 4
  | .htLeaf _ | .htNode _ | .htInvalid _ => 2

/-- The encoder writes as many bytes as the instruction's format has. -/
def Sys2Proof.Laws.EncodeLength.Statement (i : Instr) : Prop :=
  (encode i).length = Sys2Proof.Laws.EncodeLength.size i

theorem Sys2Proof.Laws.EncodeLength.decompress :
    Sys2Proof.Laws.EncodeLength.Statement .decompress := rfl

theorem Sys2Proof.Laws.EncodeLength.compress (x : Half) :
    Sys2Proof.Laws.EncodeLength.Statement (.compress x) := rfl

theorem Sys2Proof.Laws.EncodeLength.encRaw :
    Sys2Proof.Laws.EncodeLength.Statement .encRaw := rfl

theorem Sys2Proof.Laws.EncodeLength.encHfirw :
    Sys2Proof.Laws.EncodeLength.Statement .encHfirw := rfl

theorem Sys2Proof.Laws.EncodeLength.encLz :
    Sys2Proof.Laws.EncodeLength.Statement .encLz := rfl

theorem Sys2Proof.Laws.EncodeLength.encHfi :
    Sys2Proof.Laws.EncodeLength.Statement .encHfi := rfl

theorem Sys2Proof.Laws.EncodeLength.decRaw :
    Sys2Proof.Laws.EncodeLength.Statement .decRaw := rfl

theorem Sys2Proof.Laws.EncodeLength.decHfirw :
    Sys2Proof.Laws.EncodeLength.Statement .decHfirw := rfl

theorem Sys2Proof.Laws.EncodeLength.decLz :
    Sys2Proof.Laws.EncodeLength.Statement .decLz := rfl

theorem Sys2Proof.Laws.EncodeLength.decHfi :
    Sys2Proof.Laws.EncodeLength.Statement .decHfi := rfl

theorem Sys2Proof.Laws.EncodeLength.lit (x : Byte) :
    Sys2Proof.Laws.EncodeLength.Statement (.lit x) := rfl

theorem Sys2Proof.Laws.EncodeLength.refA (x : BitVec 2) (y : Byte) :
    Sys2Proof.Laws.EncodeLength.Statement (.refA x y) := rfl

theorem Sys2Proof.Laws.EncodeLength.refB (x : BitVec 3) (y : BitVec 13) :
    Sys2Proof.Laws.EncodeLength.Statement (.refB x y) := rfl

theorem Sys2Proof.Laws.EncodeLength.refC (x : BitVec 13) (y : BitVec 4) :
    Sys2Proof.Laws.EncodeLength.Statement (.refC x y) := rfl

theorem Sys2Proof.Laws.EncodeLength.runD (x : BitVec 13) :
    Sys2Proof.Laws.EncodeLength.Statement (.runD x) := rfl

theorem Sys2Proof.Laws.EncodeLength.refE (x : BitVec 13) (y : Byte) :
    Sys2Proof.Laws.EncodeLength.Statement (.refE x y) := rfl

theorem Sys2Proof.Laws.EncodeLength.htLeaf (x : Byte) :
    Sys2Proof.Laws.EncodeLength.Statement (.htLeaf x) := rfl

theorem Sys2Proof.Laws.EncodeLength.htNode (x : BitVec 15) :
    Sys2Proof.Laws.EncodeLength.Statement (.htNode x) := rfl

theorem Sys2Proof.Laws.EncodeLength.htInvalid (x : BitVec 15) :
    Sys2Proof.Laws.EncodeLength.Statement (.htInvalid x) := rfl
end

