-- ==== Sys2Proof/Laws/Search.lean ====
section
/-! SUPPORT. What the match comparison of LZ.SEARCH answers (rule R191). -/

namespace Sys2Proof.Machine

open Sys2Proof.Safety

/-- The inner loop of LZ.SEARCH, begun with a match of length `n` and given the rest of the source as its bound,
answers the length of the longest match at that distance. -/
theorem matchLen_longest (src : List Byte) (p d k n : Nat) (hd : 1 ≤ d) (hdp : d ≤ p) (hp : p < src.length)
    (hk : n + k = src.length - p) (hn : Matches src p d n) :
    Matches src p d (matchLen src p d k n) ∧ ∀ m, Matches src p d m → m ≤ matchLen src p d k n := by
  induction k generalizing n with
  | zero =>
    refine ⟨hn, fun m hm => ?_⟩
    simp only [matchLen]
    by_contra h
    have := (hm n (by omega)).1
    omega
  | succ k ih =>
    unfold matchLen
    have h1 : p + n < src.length := by omega
    have h2 : p + n - d < src.length := by omega
    rw [List.getElem?_eq_getElem h1, List.getElem?_eq_getElem h2]
    simp only
    split_ifs with h
    · refine ih (n + 1) (by omega) ?_
      intro i hi
      by_cases hin : i < n
      · exact hn i hin
      · obtain rfl : i = n := by omega
        exact ⟨h1, by rw [List.getElem?_eq_getElem h1, List.getElem?_eq_getElem h2, h]⟩
    · refine ⟨hn, fun m hm => ?_⟩
      by_contra hmn
      have := (hm n (by omega)).2
      rw [List.getElem?_eq_getElem h1, List.getElem?_eq_getElem h2] at this
      exact h (by simpa using this)

end Sys2Proof.Machine
end

