-- ==== Sys2Proof/Laws/Stream.lean ====
section
/-! SUPPORT. The LZ77 stream (rule R96) as a reader meets it: which bytes lie ahead of a bit cursor, and what RDBIT,
RDBITS and RDBYTE deliver there. -/

namespace Sys2Proof

open Sys2Proof.Machine (bind_ok ok_bind)
open Sys2Proof.Safety (readPayload)

/-! ### Flag bytes -/

/-- The control bits of an item sequence, in order. -/
def controlBits : List Item → List Bool
  | [] => []
  | .control b :: rest => b :: controlBits rest
  | .payload _ :: rest => controlBits rest

theorem pushBit_getLsbD (acc : Byte) (b : Bool) (i : Nat) (hi : i < 8) :
    (pushBit acc b).getLsbD i = if i = 0 then b else acc.getLsbD (i - 1) := by
  unfold pushBit
  rw [BitVec.getLsbD_or, BitVec.getLsbD_shiftLeft, BitVec.getLsbD_setWidth, BitVec.getLsbD_ofBool]
  rcases Nat.eq_zero_or_pos i with h | h
  · subst h; simp
  · have : ¬ i = 0 := by omega
    simp [hi, this, show ¬ i < 1 by omega]

theorem foldl_pushBit_getLsbD (bits : List Bool) (acc : Byte) (i : Nat) (hi : i < 8) :
    (bits.foldl pushBit acc).getLsbD i =
      if i < bits.length then bits.getD (bits.length - 1 - i) false else acc.getLsbD (i - bits.length) := by
  induction bits generalizing acc with
  | nil => simp
  | cons b bits ih =>
    rw [List.foldl_cons, ih]
    by_cases h : i < bits.length
    · rw [if_pos h, if_pos (by simp; omega)]
      simp only [List.length_cons]
      rw [show bits.length + 1 - 1 - i = (bits.length - 1 - i) + 1 by omega]
      simp
    · rw [if_neg h, pushBit_getLsbD _ _ _ (by omega)]
      by_cases h2 : i = bits.length
      · subst h2; simp
      · rw [if_neg (by omega), if_neg (by simp; omega)]
        simp only [List.length_cons]
        congr 1

/-- Bit `7 - j` of a flag byte is its `j`-th control bit, 0 where there is none (rule R96). -/
theorem flagByte_getLsbD (bits : List Bool) (h : bits.length ≤ 8) (j : Nat) (hj : j < 8) :
    (flagByte bits).getLsbD (7 - j) = bits.getD j false := by
  unfold flagByte
  rw [BitVec.getLsbD_shiftLeft]
  by_cases h1 : j < bits.length
  · rw [foldl_pushBit_getLsbD _ _ _ (by omega), if_pos (by omega)]
    simp only [show 7 - j < 8 by omega, show ¬ 7 - j < 8 - bits.length by omega, decide_true, decide_false, Bool.not_false,
      Bool.true_and]
    congr 1; omega
  · simp only [show 7 - j < 8 - bits.length by omega, decide_true, Bool.not_true, Bool.and_false, Bool.false_and]
    simp [show bits.length ≤ j by omega]

/-! ### The bytes ahead of a bit cursor -/

/-- The bytes that follow a position at which `r` control bits of the open flag byte are left. -/
def layout : List Item → Nat → List Byte
  | [], _ => []
  | .control b :: rest, 0 => flagByte ((controlBits (.control b :: rest)).take 8) :: layout rest 7
  | .control _ :: rest, r + 1 => layout rest r
  | .payload v :: rest, r => v :: layout rest r

theorem frameItems_eq (items : List Item) (bits : List Bool) (pay : List Byte) (h1 : bits ≠ []) (h2 : bits.length ≤ 8) :
    frameItems items bits pay =
      flagByte ((bits ++ controlBits items).take 8) :: (pay ++ layout items (8 - bits.length)) := by
  induction items generalizing bits pay with
  | nil => simp [frameItems, h1, controlBits, layout, List.take_of_length_le h2]
  | cons i items ih =>
    cases i with
    | payload v => rw [frameItems, ih _ _ h1 h2]; simp [controlBits, layout]
    | control b =>
      rw [frameItems]
      by_cases h : bits.length = 8
      · rw [if_pos h, ih [b] [] (by simp) (by simp)]
        simp [h, layout, controlBits]
      · rw [if_neg h, ih _ _ (by simp) (by simp; omega)]
        obtain ⟨r, hr⟩ : ∃ r, 8 - bits.length = r + 1 := ⟨7 - bits.length, by omega⟩
        rw [hr, layout]
        simp only [controlBits, List.append_assoc, List.cons_append, List.nil_append, List.length_append,
          List.length_cons, List.length_nil]
        rw [show 8 - (bits.length + (0 + 1)) = r by omega]

/-- The stream of rule R96 is what lies ahead of a fresh cursor. -/
theorem frameItems_start (items : List Item) (h : ∀ v, items.head? ≠ some (.payload v)) :
    frameItems items [] [] = layout items 0 := by
  cases items with
  | nil => rfl
  | cons i items =>
    cases i with
    | payload v => exact absurd rfl (h v)
    | control b =>
      rw [frameItems, if_neg (by simp), List.nil_append, frameItems_eq _ _ _ (by simp) (by simp)]
      simp [layout, controlBits]

/-- A position whose next items are `items`: the bytes ahead are laid out for them, and the unread bits of the flag
byte are their first control bits. -/
def Ahead (p : StreamPos) (items : List Item) : Prop :=
  p.bytes = layout items p.rem.toNat ∧
    ∀ j, j < p.rem.toNat → p.cur.getLsbD (p.rem.toNat - 1 - j) = (controlBits items).getD j false

theorem ahead_start (items : List Item) (h : ∀ v, items.head? ≠ some (.payload v)) :
    Ahead (StreamPos.start (frameItems items [] [])) items :=
  ⟨frameItems_start items h, fun j hj => by simp [StreamPos.start] at hj⟩

theorem ahead_nil {p : StreamPos} (h : Ahead p []) : p.bytes = [] := h.1

theorem ahead_rdByte {p : StreamPos} {v : Byte} {rest : List Item} (h : Ahead p (.payload v :: rest)) :
    ∃ q, p.rdByte = .ok (v, q) ∧ Ahead q rest := by
  obtain ⟨h1, h2⟩ := h
  refine ⟨{ p with bytes := layout rest p.rem.toNat }, ?_, rfl, h2⟩
  unfold StreamPos.rdByte
  rw [h1]
  rfl

theorem ahead_rdBit {p : StreamPos} {b : Bool} {rest : List Item} (h : Ahead p (.control b :: rest)) :
    ∃ q, p.rdBit = .ok (b, q) ∧ Ahead q rest := by
  obtain ⟨h1, h2⟩ := h
  unfold StreamPos.rdBit rdBitWith
  dsimp only
  by_cases hr : p.rem = 0
  · rw [hr] at h1
    have hb : p.rdByte = .ok (flagByte ((controlBits (.control b :: rest)).take 8),
        { p with bytes := layout rest 7 }) := by
      unfold StreamPos.rdByte; rw [h1]; rfl
    have hl : ((controlBits (.control b :: rest)).take 8).length ≤ 8 := by simp
    rw [if_pos hr, hb]
    refine ⟨_, congrArg Except.ok (Prod.ext ?_ rfl), rfl, fun j hj => ?_⟩
    · have := flagByte_getLsbD _ hl 0 (by omega)
      simpa [controlBits] using this
    · have hj : j < 7 := hj
      have := flagByte_getLsbD _ hl (j + 1) (by omega)
      show BitVec.getLsbD _ (7 - 1 - j) = _
      rw [show 7 - 1 - j = 7 - (j + 1) by omega, this]
      rw [controlBits, List.take_succ_cons, List.getD_cons_succ]
      simp [List.getD_eq_getElem?_getD, hj]
  · have hn : p.rem.toNat ≠ 0 := fun h => hr (BitVec.eq_of_toNat_eq (by simpa using h))
    have hs : (p.rem - 1).toNat = p.rem.toNat - 1 := by
      have := p.rem.isLt
      rw [BitVec.toNat_sub]; simp; omega
    rw [if_neg hr]
    refine ⟨_, congrArg Except.ok (Prod.ext ?_ rfl), ?_, fun j hj => ?_⟩
    · have := h2 0 (by omega)
      simpa [controlBits] using this
    · show p.bytes = layout rest (p.rem - 1).toNat
      rw [h1, hs]
      obtain ⟨r, hr'⟩ : ∃ r, p.rem.toNat = r + 1 := ⟨p.rem.toNat - 1, by omega⟩
      rw [hr']; rfl
    · have hj : j < (p.rem - 1).toNat := hj
      show p.cur.getLsbD ((p.rem - 1).toNat - 1 - j) = _
      rw [hs] at hj ⊢
      have := h2 (j + 1) (by omega)
      rw [controlBits, List.getD_cons_succ] at this
      rw [← this]
      congr 1; omega

/-- The items of a field, from its bit `k - 1` down. -/
theorem ahead_rdBits {w : Nat} (v : BitVec w) {k : Nat} (hk : k ≤ w) {p : StreamPos} {rest : List Item} {acc : BitVec w}
    (hacc : ∀ i, i < w - k → acc.getLsbD i = v.getLsbD (i + k))
    (h : Ahead p ((List.range k).map (fun i => .control (v.getLsbD (k - 1 - i))) ++ rest)) :
    ∃ q, rdBitsWith StreamPos.rdBit k acc p = .ok (v, q) ∧ Ahead q rest := by
  induction k generalizing p acc with
  | zero =>
    refine ⟨p, ?_, by simpa using h⟩
    rw [rdBitsWith]
    congr 2
    ext i hi
    have := hacc i (by omega)
    simpa [← BitVec.getLsbD_eq_getElem] using this
  | succ k ih =>
    rw [List.range_succ_eq_map, List.map_cons, List.cons_append] at h
    obtain ⟨q, hq, h⟩ := ahead_rdBit h
    rw [rdBitsWith, hq, ok_bind]
    refine ih (by omega) (fun i hi => ?_) ?_
    · rw [BitVec.getLsbD_or, BitVec.getLsbD_shiftLeft, BitVec.getLsbD_setWidth, BitVec.getLsbD_ofBool]
      rcases Nat.eq_zero_or_pos i with h0 | h0
      · subst h0; simp [show 0 < w by omega]
      · have h1 := hacc (i - 1) (by omega)
        simp [show i < w by omega, show ¬ i = 0 by omega, show ¬ i < 1 by omega]
        rw [h1]
        congr 1; omega
    · rw [List.map_map] at h
      convert h using 4 with i
      simp only [Function.comp]
      congr 2; omega

/-- Payload bytes that lie ahead are read back, whatever the open flag byte holds (rule R156). -/
theorem ahead_readPayload (bs : List Byte) {p : StreamPos} {rest : List Item}
    (h : Ahead p (bs.map Item.payload ++ rest)) : ∃ q, readPayload bs.length p = .ok (bs, q) ∧ Ahead q rest := by
  induction bs generalizing p with
  | nil => exact ⟨p, rfl, h⟩
  | cons b bs ih =>
    rw [List.map_cons, List.cons_append] at h
    obtain ⟨q, hq, h⟩ := ahead_rdByte h
    obtain ⟨r, hr, h⟩ := ih h
    exact ⟨r, by rw [List.length_cons, readPayload, hq, ok_bind]; dsimp only; rw [hr]; rfl, h⟩

/-- LZ.TOKEN on plain bytes reads back the token whose items lie ahead (rules R97, R166). -/
theorem ahead_token {t : Instr} {p : StreamPos} {rest : List Item} (ht : t.format = .lzToken)
    (hw : t.wellFormed = true) (h : Ahead p (t.items ++ rest)) :
    ∃ q, decodeToken p = .ok (t, q) ∧ Ahead q rest := by
  have hl : ∀ l o, lenField (refHi l o) = l := by
    intro l o; unfold lenField refHi; apply BitVec.eq_of_getLsbD_eq; intro i hi
    simp only [BitVec.getLsbD_extractLsb', BitVec.getLsbD_append, show ¬ 5 + i < 5 by omega, if_false, hi, decide_true,
      Bool.true_and]
    congr 1; omega
  have ho : ∀ l o, offField (refHi l o) (refLo o) = o := by
    intro l o; unfold offField refHi refLo; apply BitVec.eq_of_getLsbD_eq; intro i hi
    simp only [BitVec.getLsbD_append, BitVec.getLsbD_extractLsb']
    by_cases h8 : i < 8
    · simp [h8]
    · simp [h8, show i - 8 < 5 by omega, show 8 + (i - 8) = i by omega]
  unfold decodeToken readToken streamSource
  dsimp only
  cases t with
  | lit v =>
    obtain ⟨q, h1, h⟩ := ahead_rdBit h
    obtain ⟨r, h2, h⟩ := ahead_rdByte h
    refine ⟨r, ?_, h⟩
    rw [h1, ok_bind]; simp only [if_true]; rw [h2]; rfl
  | refA l o =>
    simp only [Instr.items, List.cons_append, List.nil_append, List.append_assoc] at h
    obtain ⟨q, h1, h⟩ := ahead_rdBit h
    obtain ⟨r, h2, h⟩ := ahead_rdBit h
    obtain ⟨u, h3, h⟩ := ahead_rdBits l (Nat.le_refl 2) (acc := 0) (by omega) h
    obtain ⟨x, h4, h⟩ := ahead_rdByte h
    refine ⟨x, ?_, h⟩
    rw [h1, ok_bind]; simp only [Bool.true_eq_false, if_false]
    rw [h2, ok_bind]; simp only [if_true]
    rw [h3, ok_bind]; dsimp only; rw [h4]; rfl
  | refB l o =>
    simp only [Instr.items, refWordItems, List.cons_append, List.nil_append] at h
    obtain ⟨q, h1, h⟩ := ahead_rdBit h
    obtain ⟨r, h2, h⟩ := ahead_rdBit h
    obtain ⟨u, h3, h⟩ := ahead_rdByte h
    obtain ⟨x, h4, h⟩ := ahead_rdByte h
    refine ⟨x, ?_, h⟩
    rw [h1, ok_bind]; simp only [Bool.true_eq_false, if_false]
    rw [h2, ok_bind]; simp only [Bool.true_eq_false, if_false]
    rw [h3, ok_bind]; dsimp only; rw [h4, ok_bind]; dsimp only
    rw [hl, ho, if_pos (by simpa [Instr.wellFormed] using hw)]; rfl
  | refC o n =>
    simp only [Instr.items, refWordItems, List.cons_append, List.nil_append] at h
    obtain ⟨q, h1, h⟩ := ahead_rdBit h
    obtain ⟨r, h2, h⟩ := ahead_rdBit h
    obtain ⟨u, h3, h⟩ := ahead_rdByte h
    obtain ⟨x, h4, h⟩ := ahead_rdByte h
    obtain ⟨y, h5, h⟩ := ahead_rdBit h
    obtain ⟨z, h6, h⟩ := ahead_rdBits n (Nat.le_refl 4) (acc := 0) (by omega) h
    refine ⟨z, ?_, h⟩
    rw [h1, ok_bind]; simp only [Bool.true_eq_false, if_false]
    rw [h2, ok_bind]; simp only [Bool.true_eq_false, if_false]
    rw [h3, ok_bind]; dsimp only; rw [h4, ok_bind]; dsimp only
    rw [hl, ho, if_neg (by simp), h5, ok_bind]; simp only [if_true]
    rw [h6]; rfl
  | runD o =>
    simp only [Instr.items, refWordItems, List.cons_append, List.nil_append] at h
    obtain ⟨q, h1, h⟩ := ahead_rdBit h
    obtain ⟨r, h2, h⟩ := ahead_rdBit h
    obtain ⟨u, h3, h⟩ := ahead_rdByte h
    obtain ⟨x, h4, h⟩ := ahead_rdByte h
    obtain ⟨y, h5, h⟩ := ahead_rdBit h
    obtain ⟨z, h6, h⟩ := ahead_rdByte h
    refine ⟨z, ?_, h⟩
    rw [h1, ok_bind]; simp only [Bool.true_eq_false, if_false]
    rw [h2, ok_bind]; simp only [Bool.true_eq_false, if_false]
    rw [h3, ok_bind]; dsimp only; rw [h4, ok_bind]; dsimp only
    rw [hl, ho, if_neg (by simp), h5, ok_bind]; simp only [Bool.true_eq_false, if_false]
    rw [h6, ok_bind]; dsimp only; rw [if_pos rfl]; rfl
  | refE o t =>
    simp only [Instr.items, refWordItems, List.cons_append, List.nil_append] at h
    obtain ⟨q, h1, h⟩ := ahead_rdBit h
    obtain ⟨r, h2, h⟩ := ahead_rdBit h
    obtain ⟨u, h3, h⟩ := ahead_rdByte h
    obtain ⟨x, h4, h⟩ := ahead_rdByte h
    obtain ⟨y, h5, h⟩ := ahead_rdBit h
    obtain ⟨z, h6, h⟩ := ahead_rdByte h
    refine ⟨z, ?_, h⟩
    rw [h1, ok_bind]; simp only [Bool.true_eq_false, if_false]
    rw [h2, ok_bind]; simp only [Bool.true_eq_false, if_false]
    rw [h3, ok_bind]; dsimp only; rw [h4, ok_bind]; dsimp only
    rw [hl, ho, if_neg (by simp), h5, ok_bind]; simp only [Bool.true_eq_false, if_false]
    rw [h6, ok_bind]; dsimp only
    rw [if_neg (by simpa [Instr.wellFormed] using hw)]; rfl
  | decompress | compress _ | encRaw | encHfirw | encLz | encHfi | decRaw | decHfirw | decLz | decHfi | htLeaf _
  | htNode _ | htInvalid _ => cases ht

end Sys2Proof
end

