-- ==== Sys2Proof/Laws/Tree.lean ====
section
/-! SUPPORT. What HF.BUILD makes of a source (rules R231 to R238): which table it writes, and that its children stand
below their parents; the merges (rules R235 to R237) one by one. -/

namespace Sys2Proof.Machine

open Sys2Proof.Safety (InitialList Merged)

/-- The present byte values of a source as table values, in ascending order (rule R231). -/
def symbols (hsrc : List Byte) : List Half :=
  ((List.range 256).filter fun b => decide (0 < hsrc.count (BitVec.ofNat 8 b))).map (BitVec.ofNat 16)

/-- The first `j` internal nodes (rule R237). -/
def nodes (j : Nat) : List Half := (List.range j).map fun i => BitVec.ofNat 16 (0x100 + i)

/-- A present value is below the leaf limit. -/
theorem symbols_lt (hsrc : List Byte) (v : Half) (h : v ∈ symbols hsrc) : v.toNat < 0x100 := by
  obtain ⟨b, hb, rfl⟩ := List.mem_map.1 h
  have := List.mem_range.1 (List.mem_filter.1 hb).1
  rw [BitVec.toNat_ofNat, Nat.mod_eq_of_lt (by omega)]
  omega

/-- There are at most 256 present values (rule R231). -/
theorem symbols_length (hsrc : List Byte) : (symbols hsrc).length ≤ 256 := by
  rw [symbols, List.length_map]
  refine (List.length_filter_le _ _).trans ?_
  rw [List.length_range]

/-- Reinsertion adds its item and loses none (rule R236). -/
theorem nlInsert_perm (f : Nat) (id : Half) (l : List (Nat × Half)) : (nlInsert f id l).Perm ((f, id) :: l) := by
  induction l with
  | nil => exact List.Perm.refl _
  | cons x l ih =>
    obtain ⟨g, j⟩ := x
    unfold nlInsert
    split_ifs
    · exact (ih.cons _).trans (List.Perm.swap _ _ _)
    · exact List.Perm.refl _

/-- The ids of the initial list are the present byte values (rule R234). -/
theorem initialList_ids (hsrc : List Byte) : ((initialList (freqTable hsrc)).map Prod.snd).Perm (symbols hsrc) := by
  have key : ∀ (bs : List Nat) (l : List (Nat × Half)),
      (((bs.map fun b => (b, hsrc.count (BitVec.ofNat 8 b))).foldl
        (fun l c => if 0 < c.2 then nlInsert c.2 (BitVec.ofNat 16 c.1) l else l) l).map Prod.snd).Perm
      (l.map Prod.snd ++
        (bs.filter fun b => decide (0 < hsrc.count (BitVec.ofNat 8 b))).map (BitVec.ofNat 16)) := by
    intro bs
    induction bs with
    | nil => intro l; simp
    | cons b bs ih =>
      intro l
      rw [List.map_cons, List.foldl_cons]
      refine (ih _).trans ?_
      by_cases h : 0 < hsrc.count (BitVec.ofNat 8 b)
      · rw [if_pos h, List.filter_cons_of_pos (by simpa using h), List.map_cons]
        refine ((nlInsert_perm _ _ _).map Prod.snd).append_right _ |>.trans ?_
        exact List.perm_middle.symm
      · rw [if_neg h, List.filter_cons_of_neg (by simpa using h)]
  exact key (List.range 256) []

/-- The state of the tree builder after `j` merges, `es` the entries written so far (rules R235 to R237): `htab` is
`base` overwritten with them from index 0, every symbol and every node made so far stands exactly once in NLIST or in
`es`, and every child is below its parent. -/
structure TreeState (syms : List Half) (base : Memory Half) (j : Nat) (es : List Half) (s : State) : Prop where
  htab : s.htab = Memory.writeAll base 0 es
  entries : es.length = 2 * j
  next : s.he.nextIdx = BitVec.ofNat 16 (0x100 + j)
  count : j + s.he.nlist.length = syms.length
  all : (s.he.nlist.map Prod.snd ++ es).Perm (syms ++ nodes j)
  below : ∀ i v, es[i]? = some v → v.toNat < 0x100 + i / 2
  list : ∀ x ∈ s.he.nlist, x.2.toNat < 0x100 + j

/-- One merge (rule R235). -/
theorem TreeState.merge {syms : List Half} {base : Memory Half} {j fa fb : Nat} {es : List Half} {s : State}
    {a b : Half} {rest : List (Nat × Half)} (h : TreeState syms base j es s) (hk : syms.length ≤ 256)
    (hl : s.he.nlist = (fa, a) :: (fb, b) :: rest) :
    TreeState syms base (j + 1) (es ++ [a, b]) (hfMerge fa fb a b rest s) := by
  have hc := h.count
  rw [hl] at hc
  simp only [List.length_cons] at hc
  have hm : s.he.nextIdx.toNat = 0x100 + j := by
    rw [h.next, BitVec.toNat_ofNat, Nat.mod_eq_of_lt (by omega)]
  have hslot : 2 * (s.he.nextIdx.toNat - 0x100) = es.length := by rw [hm, h.entries]; omega
  have hp := nlInsert_perm (fa + fb) s.he.nextIdx rest
  refine ⟨?_, by simp [h.entries]; omega, ?_, ?_, ?_, ?_, ?_⟩
  · show Memory.write (Memory.write s.htab _ a) (_ + 1) b = _
    rw [hslot, h.htab, Memory.writeAll_append, Nat.zero_add]
    rfl
  · show s.he.nextIdx + 1 = _
    rw [h.next]
    apply BitVec.eq_of_toNat_eq
    simp
    omega
  · show j + 1 + (nlInsert _ _ rest).length = _
    rw [hp.length_eq, List.length_cons]
    omega
  · show ((nlInsert (fa + fb) s.he.nextIdx rest).map Prod.snd ++ (es ++ [a, b])).Perm _
    have h1 := h.all
    rw [hl] at h1
    simp only [List.map_cons] at h1
    have h2 : nodes (j + 1) = nodes j ++ [s.he.nextIdx] := by
      rw [nodes, nodes, List.range_succ, List.map_append, h.next]
      rfl
    rw [h2, ← List.append_assoc syms]
    refine (((hp.map Prod.snd).append_right _).trans ?_).trans (h1.append_right [s.he.nextIdx])
    simp only [List.map_cons, List.cons_append, List.append_assoc]
    rw [← List.append_assoc, ← List.append_assoc]
    refine (List.perm_append_comm (l₁ := [s.he.nextIdx])).trans ?_
    exact (List.perm_append_comm (l₁ := rest.map Prod.snd ++ es) (l₂ := [a, b])).append_right [s.he.nextIdx]
  · intro i v hv
    by_cases hi : i < es.length
    · exact h.below i v (by rwa [List.getElem?_append_left hi] at hv)
    · rw [List.getElem?_append_right (by omega)] at hv
      have h3 : i < es.length + 2 := by
        have := (List.getElem?_eq_some_iff.1 hv).1
        simp at this
        omega
      have ha := h.list (fa, a) (by rw [hl]; simp)
      have hb := h.list (fb, b) (by rw [hl]; simp)
      have he := h.entries
      simp only at ha hb
      rcases Nat.lt_or_ge i (es.length + 1) with h4 | h4
      · obtain rfl : i = es.length := by omega
        simp at hv
        subst hv
        omega
      · obtain rfl : i = es.length + 1 := by omega
        simp at hv
        subst hv
        omega
  · intro x hx
    have hx' := hp.mem_iff.1 hx
    rcases List.mem_cons.1 hx' with rfl | hx'
    · show s.he.nextIdx.toNat < _
      omega
    · have := h.list x (by rw [hl]; simp [hx'])
      omega

/-- The merge loop ends with one item, the root (rules R235, R238). -/
theorem TreeState.mergeLoop {syms : List Half} {base : Memory Half} (hk : syms.length ≤ 256) (n : Nat) {j : Nat}
    {es : List Half} {s : State} (h : TreeState syms base j es s) (h1 : 1 ≤ s.he.nlist.length)
    (hn : s.he.nlist.length ≤ n + 1) :
    ∃ j' es' r, TreeState syms base j' es' (mergeLoop n s) ∧ (Machine.mergeLoop n s).he.nlist = [r] := by
  induction n generalizing j es s with
  | zero =>
    rcases hl : s.he.nlist with _ | ⟨x, _ | ⟨y, l⟩⟩
    · simp [hl] at h1
    · exact ⟨j, es, x, h, hl⟩
    · simp [hl] at hn
  | succ n ih =>
    rcases hl : s.he.nlist with _ | ⟨⟨fa, a⟩, _ | ⟨⟨fb, b⟩, rest⟩⟩
    · simp [hl] at h1
    · refine ⟨j, es, (fa, a), ?_, ?_⟩ <;> unfold Machine.mergeLoop <;> rw [hl]
      · exact h
      · exact hl
    · unfold Machine.mergeLoop
      rw [hl]
      have hp := nlInsert_perm (fa + fb) s.he.nextIdx rest
      have hlen : (hfMerge fa fb a b rest s).he.nlist.length = rest.length + 1 := by
        show (nlInsert _ _ rest).length = _
        rw [hp.length_eq, List.length_cons]
      refine ih (h.merge hk hl) (by omega) ?_
      simp [hl] at hn
      omega

/-- HF.BUILD on a given frequency table. -/
theorem hfBuild_eq (hsrc : List Byte) (s : State) : ∃ fr : Memory Nat, ∃ l : List (Nat × Half),
    l = initialList (freqTable hsrc) ∧
      (hfBuild hsrc s).htab =
        (mergeLoop l.length { s with he := { s.he with freq := fr, nlist := l, nextIdx := 0x100 } }).htab ∧
      (hfBuild hsrc s).hf.htLen = rootOf
        (mergeLoop l.length { s with he := { s.he with freq := fr, nlist := l, nextIdx := 0x100 } }).he.nlist := by
  unfold hfBuild
  generalize freqTable hsrc = fr
  exact ⟨fr, initialList fr, rfl, rfl, rfl⟩

/-- HF.BUILD of a source that is not empty (rules R231 to R238): with `k` present byte values it writes the
`2*(k - 1)` entries `es` from index 0; root and entries together hold every present value and every node exactly once,
and every child is below its parent. -/
theorem hfBuild_tree (hsrc : List Byte) (s : State) (h : symbols hsrc ≠ []) :
    ∃ es : List Half, (hfBuild hsrc s).htab = Memory.writeAll s.htab 0 es ∧
      es.length = 2 * ((symbols hsrc).length - 1) ∧
      ((hfBuild hsrc s).hf.htLen :: es).Perm (symbols hsrc ++ nodes ((symbols hsrc).length - 1)) ∧
      (∀ i v, es[i]? = some v → v.toNat < 0x100 + i / 2) := by
  obtain ⟨fr, l, hl, e1, e2⟩ := hfBuild_eq hsrc s
  have hids := initialList_ids hsrc
  have hlt := symbols_lt hsrc
  have hk := symbols_length hsrc
  rw [e1, e2]
  rw [← hl] at hids
  clear e1 e2 hl
  generalize symbols hsrc = syms at *
  have hlen : l.length = syms.length := by
    rw [← hids.length_eq, List.length_map]
  have hpos : 0 < syms.length := List.length_pos_iff.2 h
  have h0 : TreeState syms s.htab 0 [] { s with
      he := { s.he with freq := fr, nlist := l, nextIdx := 0x100 } } := by
    refine ⟨rfl, rfl, rfl, by rw [Nat.zero_add]; exact hlen, ?_, by simp, ?_⟩
    · simpa [nodes] using hids
    · intro x hx
      exact hlt x.2 (hids.mem_iff.1 (List.mem_map_of_mem hx))
  obtain ⟨j, es, r, hT, hr⟩ := h0.mergeLoop hk l.length (by rw [← hlen] at hpos; exact hpos) (Nat.le_succ _)
  have hj := hT.count
  rw [hr] at hj
  simp only [List.length_singleton] at hj
  have hall := hT.all
  rw [hr] at hall
  refine ⟨es, hT.htab, by rw [hT.entries]; omega, ?_, hT.below⟩
  rw [hr, show syms.length - 1 = j by omega]
  exact hall

/-- HF.BUILD of the empty source writes no entry and leaves the root 0 (rule R232). -/
theorem hfBuild_nil (s : State) : (hfBuild [] s).htab = s.htab ∧ (hfBuild [] s).hf.htLen = 0 := by
  obtain ⟨fr, l, hl, e1, e2⟩ := hfBuild_eq [] s
  have h : l = [] := by
    have := (initialList_ids []).length_eq
    have h2 : symbols [] = [] := by simp [symbols]
    rw [h2, ← hl, List.length_map, List.length_nil] at this
    exact List.length_eq_zero_iff.1 this
  subst h
  exact ⟨e1, e2⟩

/-- The present values are the bytes of the source. -/
theorem mem_symbols (hsrc : List Byte) (b : Byte) : b.setWidth 16 ∈ symbols hsrc ↔ b ∈ hsrc := by
  have key : ∀ n, n < 256 → (BitVec.ofNat 16 n = b.setWidth 16 ↔ n = b.toNat) := by
    intro n hn
    have hb := b.isLt
    constructor
    · intro h
      have := congrArg BitVec.toNat h
      simp at this
      omega
    · rintro rfl
      apply BitVec.eq_of_toNat_eq
      simp
  rw [symbols, List.mem_map]
  constructor
  · rintro ⟨n, hn, h⟩
    obtain ⟨h1, h2⟩ := List.mem_filter.1 hn
    rw [key n (List.mem_range.1 h1)] at h
    subst h
    have h3 := List.count_pos_iff.1 (of_decide_eq_true h2)
    simpa using h3
  · intro h
    refine ⟨b.toNat, List.mem_filter.2 ⟨List.mem_range.2 b.isLt, ?_⟩, (key _ b.isLt).2 rfl⟩
    simpa using List.count_pos_iff.2 h

/-- No present value and no node is named twice. -/
theorem symbols_nodup (hsrc : List Byte) (j : Nat) (hj : j ≤ 256) : (symbols hsrc ++ nodes j).Nodup := by
  have inj : ∀ a b : Nat, a < 65536 → b < 65536 → BitVec.ofNat 16 a = BitVec.ofNat 16 b → a = b := by
    intro a b ha hb h
    have := congrArg BitVec.toNat h
    simp at this
    omega
  rw [List.nodup_append]
  refine ⟨?_, ?_, ?_⟩
  · refine List.Nodup.map_on (fun a ha b hb h => ?_) (List.nodup_range.filter _)
    have h1 := List.mem_range.1 (List.mem_filter.1 ha).1
    have h2 := List.mem_range.1 (List.mem_filter.1 hb).1
    exact inj a b (by omega) (by omega) h
  · refine List.Nodup.map_on (fun a ha b hb h => ?_) List.nodup_range
    have h1 := List.mem_range.1 ha
    have h2 := List.mem_range.1 hb
    have := inj _ _ (by omega) (by omega) h
    omega
  · intro a ha b hb hab
    subst hab
    have h1 := symbols_lt hsrc a ha
    obtain ⟨i, hi, rfl⟩ := List.mem_map.1 hb
    have := List.mem_range.1 hi
    rw [BitVec.toNat_ofNat, Nat.mod_eq_of_lt (by omega)] at h1
    omega

/-! ### The merges, one by one -/

/-- Reinsertion into a sorted list splits it at the frequency (rule R236). -/
theorem nlInsert_split (f : Nat) (id : Half) (l : List (Nat × Half)) (h : l.Pairwise (fun a b => a.1 ≤ b.1)) :
    ∃ l1 l2, l = l1 ++ l2 ∧ nlInsert f id l = l1 ++ (f, id) :: l2 ∧ (∀ x ∈ l1, x.1 ≤ f) ∧ ∀ x ∈ l2, f < x.1 := by
  induction l with
  | nil => exact ⟨[], [], rfl, rfl, by simp, by simp⟩
  | cons x l ih =>
    obtain ⟨g, j⟩ := x
    obtain ⟨hx, hl⟩ := List.pairwise_cons.1 h
    unfold nlInsert
    split_ifs with hg
    · obtain ⟨l1, l2, e1, e2, h1, h2⟩ := ih hl
      refine ⟨(g, j) :: l1, l2, by rw [e1]; rfl, by rw [e2]; rfl, ?_, h2⟩
      intro x hx
      rcases List.mem_cons.1 hx with rfl | hx
      · exact hg
      · exact h1 x hx
    · refine ⟨[], (g, j) :: l, rfl, rfl, by simp, ?_⟩
      intro x hx'
      rcases List.mem_cons.1 hx' with rfl | hx'
      · simp only; omega
      · have := hx x hx'
        simp only at this
        omega

/-- A list with an item put in its place by frequency is sorted again (rule R236). -/
theorem pairwise_split {f : Nat} {id : Half} {l1 l2 : List (Nat × Half)}
    (h : (l1 ++ l2).Pairwise (fun a b => a.1 ≤ b.1)) (h1 : ∀ x ∈ l1, x.1 ≤ f) (h2 : ∀ x ∈ l2, f < x.1) :
    (l1 ++ (f, id) :: l2).Pairwise (fun a b => a.1 ≤ b.1) := by
  obtain ⟨p1, p2, p3⟩ := List.pairwise_append.1 h
  refine List.pairwise_append.2 ⟨p1, List.pairwise_cons.2 ⟨fun x hx => Nat.le_of_lt (h2 x hx), p2⟩, ?_⟩
  intro x hx y hy
  rcases List.mem_cons.1 hy with rfl | hy
  · exact h1 x hx
  · exact p3 x hx y hy

/-- The merge loop leaves the entries of earlier nodes alone (rule R237). -/
theorem mergeLoop_below (n : Nat) {j : Nat} {s : State} (hm : s.he.nextIdx.toNat = 0x100 + j)
    (hj : j + s.he.nlist.length ≤ 0x1000) (a : Nat) (ha : a < 2 * j) :
    Memory.read (mergeLoop n s).htab a = Memory.read s.htab a := by
  induction n generalizing j s with
  | zero => rfl
  | succ n ih =>
    unfold mergeLoop
    split
    · rename_i fa x fb y rest hl
      rw [hl] at hj
      simp only [List.length_cons] at hj
      have hlen : (hfMerge fa fb x y rest s).he.nlist.length = rest.length + 1 := by
        show (nlInsert _ _ rest).length = _
        rw [(nlInsert_perm _ _ _).length_eq, List.length_cons]
      have hm' : (hfMerge fa fb x y rest s).he.nextIdx.toNat = 0x100 + (j + 1) := by
        show (s.he.nextIdx + 1).toNat = _
        rw [BitVec.toNat_add, hm]
        simp
        omega
      rw [ih hm' (by rw [hlen]; omega) (by omega)]
      show Memory.read (Memory.write (Memory.write s.htab _ x) _ y) a = _
      rw [hm, Memory.read_write_ne _ _ (by omega), Memory.read_write_ne _ _ (by omega)]
    · rfl

/-- The merge loop is the merges of rules R235 to R238. -/
theorem mergeLoop_merged (n : Nat) {j : Nat} {s : State} (hm : s.he.nextIdx = BitVec.ofNat 16 (0x100 + j))
    (hj : j + s.he.nlist.length ≤ 0x1000) (hs : s.he.nlist.Pairwise (fun a b => a.1 ≤ b.1))
    (h1 : 1 ≤ s.he.nlist.length) (hn : s.he.nlist.length ≤ n + 1) :
    Merged (mergeLoop n s).htab j s.he.nlist (rootOf (mergeLoop n s).he.nlist) := by
  induction n generalizing j s with
  | zero =>
    rcases hl : s.he.nlist with _ | ⟨⟨f, id⟩, _ | ⟨y, l⟩⟩
    · simp [hl] at h1
    · rw [mergeLoop, hl]
      exact .root j f id
    · simp [hl] at hn
  | succ n ih =>
    rcases hl : s.he.nlist with _ | ⟨⟨fa, a⟩, _ | ⟨⟨fb, b⟩, rest⟩⟩
    · simp [hl] at h1
    · rw [mergeLoop, hl]
      simp only
      rw [hl]
      exact .root j fa a
    · have e : mergeLoop (n + 1) s = mergeLoop n (hfMerge fa fb a b rest s) := by rw [mergeLoop, hl]
      rw [hl] at hj hs hn
      simp only [List.length_cons] at hj hn
      obtain ⟨l1, l2, e1, e2, hle, hgt⟩ := nlInsert_split (fa + fb) s.he.nextIdx rest (hs.tail.tail)
      subst e1
      have hlen : (hfMerge fa fb a b (l1 ++ l2) s).he.nlist.length = (l1 ++ l2).length + 1 := by
        show (nlInsert _ _ (l1 ++ l2)).length = _
        rw [(nlInsert_perm _ _ _).length_eq, List.length_cons]
      have e : mergeLoop (n + 1) s = mergeLoop n (hfMerge fa fb a b (l1 ++ l2) s) := by rw [mergeLoop, hl]
      have hmn : s.he.nextIdx.toNat = 0x100 + j := by
        rw [hm, BitVec.toNat_ofNat, Nat.mod_eq_of_lt (by omega)]
      have hm' : (hfMerge fa fb a b (l1 ++ l2) s).he.nextIdx = BitVec.ofNat 16 (0x100 + (j + 1)) := by
        show s.he.nextIdx + 1 = _
        rw [hm]
        apply BitVec.eq_of_toNat_eq
        simp
        omega
      have hmn' : (hfMerge fa fb a b (l1 ++ l2) s).he.nextIdx.toNat = 0x100 + (j + 1) := by
        rw [hm', BitVec.toNat_ofNat, Nat.mod_eq_of_lt (by omega)]
      have hnl : (hfMerge fa fb a b (l1 ++ l2) s).he.nlist = l1 ++ (fa + fb, BitVec.ofNat 16 (0x100 + j)) :: l2 := by
        rw [← hm]; exact e2
      have key := ih hm' (by rw [hlen]; omega) (by
        rw [hnl]
        exact pairwise_split hs.tail.tail hle hgt) (by rw [hlen]; omega) (by rw [hlen]; omega)
      have hsl : (hfMerge fa fb a b (l1 ++ l2) s).htab =
          Memory.write (Memory.write s.htab (2 * j) a) (2 * j + 1) b := by
        show Memory.write (Memory.write s.htab (2 * (s.he.nextIdx.toNat - 0x100)) a) _ b = _
        rw [hmn, Nat.add_sub_cancel_left]
      rw [e]
      refine .merge j fa fb a b l1 l2 _ ?_ ?_ hle hgt (by rw [← hnl]; exact key)
      · rw [mergeLoop_below n hmn' (by rw [hlen]; omega) _ (by omega), hsl, Memory.read_write_ne _ _ (by omega),
          Memory.read_write_same]
      · rw [mergeLoop_below n hmn' (by rw [hlen]; omega) _ (by omega), hsl, Memory.read_write_same]

/-- The list that HF.BUILD starts with is the one of rule R234. -/
theorem initialList_sorted (hsrc : List Byte) : InitialList hsrc (initialList (freqTable hsrc)) := by
  have key : ∀ n, n ≤ 256 →
      ((((List.range n).map fun b => (b, hsrc.count (BitVec.ofNat 8 b))).foldl
        (fun l c => if 0 < c.2 then nlInsert c.2 (BitVec.ofNat 16 c.1) l else l) []).Pairwise
          (fun x y => x.1 < y.1 ∨ (x.1 = y.1 ∧ x.2.toNat < y.2.toNat))) ∧
      ∀ x, x ∈ (((List.range n).map fun b => (b, hsrc.count (BitVec.ofNat 8 b))).foldl
        (fun l c => if 0 < c.2 then nlInsert c.2 (BitVec.ofNat 16 c.1) l else l) []) ↔
          ∃ b ∈ hsrc, b.toNat < n ∧ x = (hsrc.count b, b.setWidth 16) := by
    intro n
    induction n with
    | zero => intro _; exact ⟨List.Pairwise.nil, by simp⟩
    | succ n ih =>
      intro hn
      obtain ⟨h1, h2⟩ := ih (by omega)
      rw [List.range_succ, List.map_append, List.foldl_append, List.map_singleton, List.foldl_cons, List.foldl_nil]
      generalize (((List.range n).map fun b => (b, hsrc.count (BitVec.ofNat 8 b))).foldl
        (fun l c => if 0 < c.2 then nlInsert c.2 (BitVec.ofNat 16 c.1) l else l) []) = l at h1 h2 ⊢
      have hid : BitVec.ofNat 16 n = (BitVec.ofNat 8 n).setWidth 16 := by
        apply BitVec.eq_of_toNat_eq; simp; omega
      have hbn : (BitVec.ofNat 8 n).toNat = n := by simp; omega
      have hnt : (BitVec.ofNat 16 n).toNat = n := by simp; omega
      have hlt : ∀ x ∈ l, x.2.toNat < n := by
        intro x hx
        obtain ⟨b, -, hb, rfl⟩ := (h2 x).1 hx
        have := b.isLt
        simp only [BitVec.toNat_setWidth]
        omega
      have split : ∀ b : Byte, b.toNat < n + 1 ↔ b.toNat < n ∨ b = BitVec.ofNat 8 n := by
        intro b
        constructor
        · intro h
          by_cases h3 : b.toNat < n
          · exact .inl h3
          · right; apply BitVec.eq_of_toNat_eq; rw [hbn]; omega
        · rintro (h | rfl)
          · omega
          · omega
      by_cases hc : 0 < hsrc.count (BitVec.ofNat 8 n)
      · rw [if_pos hc]
        obtain ⟨l1, l2, e1, e2, h3, h4⟩ := nlInsert_split (hsrc.count (BitVec.ofNat 8 n)) (BitVec.ofNat 16 n) l
          (h1.imp (by intro a b h; omega))
        refine ⟨?_, fun x => ?_⟩
        · rw [e2]
          rw [e1] at h1 hlt
          obtain ⟨p1, p2, p3⟩ := List.pairwise_append.1 h1
          refine List.pairwise_append.2 ⟨p1, List.pairwise_cons.2 ⟨fun x hx => .inl (h4 x hx), p2⟩, ?_⟩
          intro x hx y hy
          rcases List.mem_cons.1 hy with rfl | hy
          · have a1 := h3 x hx
            have a2 := hlt x (List.mem_append_left _ hx)
            simp only [hnt]
            omega
          · exact p3 x hx y hy
        · rw [(nlInsert_perm _ _ _).mem_iff, List.mem_cons, h2]
          constructor
          · rintro (rfl | ⟨b, hb, hbl, rfl⟩)
            · exact ⟨_, List.count_pos_iff.1 hc, by omega, by rw [hid]⟩
            · exact ⟨b, hb, by omega, rfl⟩
          · rintro ⟨b, hb, hbl, rfl⟩
            rcases (split b).1 hbl with h | rfl
            · exact .inr ⟨b, hb, h, rfl⟩
            · exact .inl (by rw [hid])
      · rw [if_neg hc]
        refine ⟨h1, fun x => ?_⟩
        rw [h2]
        constructor
        · rintro ⟨b, hb, hbl, rfl⟩; exact ⟨b, hb, by omega, rfl⟩
        · rintro ⟨b, hb, hbl, rfl⟩
          rcases (split b).1 hbl with h | rfl
          · exact ⟨b, hb, h, rfl⟩
          · exact absurd (List.count_pos_iff.2 hb) hc
  obtain ⟨h1, h2⟩ := key 256 (Nat.le_refl _)
  refine ⟨h1, fun x => (h2 x).trans ?_⟩
  constructor
  · rintro ⟨b, hb, -, rfl⟩; exact ⟨b, hb, rfl⟩
  · rintro ⟨b, hb, rfl⟩; exact ⟨b, hb, b.isLt, rfl⟩

/-- The present byte values are as many as the source has different bytes (rule R231). -/
theorem symbols_dedup (hsrc : List Byte) : (symbols hsrc).length = hsrc.dedup.length := by
  have h : (symbols hsrc).Perm (hsrc.dedup.map (BitVec.setWidth 16)) := by
    refine (List.perm_ext_iff_of_nodup ?_ ?_).2 ?_
    · have := symbols_nodup hsrc 0 (by omega); simpa [nodes] using this
    · refine List.Nodup.map ?_ hsrc.nodup_dedup
      intro a b h
      have := congrArg BitVec.toNat h
      apply BitVec.eq_of_toNat_eq
      have ha := a.isLt
      have hb := b.isLt
      simp at this
      omega
    · intro v
      constructor
      · intro hv
        have := symbols_lt hsrc v hv
        have e : v = (v.setWidth 8).setWidth 16 := by
          apply BitVec.eq_of_toNat_eq
          simp
          omega
        rw [e] at hv
        exact List.mem_map.2 ⟨_, List.mem_dedup.2 ((mem_symbols _ _).1 hv), e.symm⟩
      · intro hv
        obtain ⟨b, hb, rfl⟩ := List.mem_map.1 hv
        exact (mem_symbols _ _).2 (List.mem_dedup.1 hb)
  rw [h.length_eq, List.length_map]

end Sys2Proof.Machine
end

