-- ==== Sys2Proof/Tests/Slice0.lean ====
section
/-! SUPPORT. Tests: the smoke tests of WellFormed, the encodings written out from the spec, single steps, and a
witness for the hypotheses of every statement. Expected results come from `30_encoding.md`, the rules named, and the
worked examples of `95_test_vectors.md`. -/

namespace Sys2Proof.Tests

open Sys2Proof Sys2Proof.Machine Sys2Proof.Safety

/-! ### Helpers -/

/-- `bs` in IN, IN_LEN written and sampled. -/
def withIn (bs : List Byte) (s : State) : State :=
  { s with
    inMem := Memory.writeAll [] 0 bs
    cr := { s.cr with inLenReg := bs.length }
    seq := { s.seq with inLen := bs.length } }

/-- A running command at a phase. -/
def running (p : Phase) (s : State) : State := runningAt p s

/-- `dsize`. -/
def withDsize (n : Word) (s : State) : State := { s with cr := { s.cr with hdrDsize := n } }

/-- `doff`. -/
def withDoff (n : Word) (s : State) : State := { s with cr := { s.cr with hdrDoff := n } }

/-- Bytes already produced, each emitted in turn (rule R179). -/
def produced : List Byte → State → State
  | [], s => s
  | b :: bs, s => produced bs (emit b s)

/-- A running COMPRESS at the selection of its data path, `bs` the source. -/
def encoding (alg : Half) (bs : List Byte) : State :=
  { withIn bs (runningAt .encSelect State.reset) with
    seq := { phase := .encSelect, smpOp := true, smpAlg := alg, inLen := bs.length, hfEn := false }
    le := { LzEncoder.reset with srcLen := bs.length } }

/-- The outcome is a next state with a property. -/
def nextSat (o : Host.Outcome State Fault Refusal) (p : State → Bool) : Bool :=
  match o with
  | .next t => p t
  | .fault _ => false
  | .refused _ => false

/-- Elements 0, 1, ... of a memory. -/
def readN {α : Type} (m : Memory α) (n : Nat) : List (Option α) := (List.range n).map (Memory.read m)

theorem holdsAt_written (bs : List Byte) : HoldsAt (Memory.writeAll [] 0 bs) 0 bs := by
  intro k hk
  exact Memory.read_writeAll_inside bs [] 0 k hk

/-! ### WellFormed: each check refuses an ill-formed term -/

theorem test_refB_zero_length_refused : (Instr.refB 0 5).wellFormed = false := by decide
theorem test_refE_escape_refused : (Instr.refE 5 0xFF).wellFormed = false := by decide
theorem test_htNode_leaf_value_refused : (Instr.htNode 0xFF).wellFormed = false := by decide
theorem test_boundaries_wellFormed :
    (Instr.refB 1 0).wellFormed = true ∧ (Instr.refE 0 0xFE).wellFormed = true ∧
      (Instr.htNode 0x100).wellFormed = true := by decide

/-! ### Decode: one word per constructor, written out from its encoding (rules R91, R94, R98 to R103, R112) -/

/-- CTRL: start = 1, op = 0; bits [15:2] and [31:16] ignored. -/
theorem test_decode_decompress :
    decode .ctrlWrite [0x01, 0x00, 0x00, 0x00] = .ok .decompress ∧
      decode .ctrlWrite [0xFD, 0xFF, 0x07, 0x00] = .ok .decompress := by decide
theorem test_decode_compress : decode .ctrlWrite [0x03, 0x00, 0x34, 0x12] = .ok (.compress 0x1234) := by decide
theorem test_decode_encRaw : decode .encSelect [0x03, 0x00, 0x00, 0x00] = .ok .encRaw := by decide
theorem test_decode_encHfirw : decode .encSelect [0x03, 0x00, 0x02, 0x00] = .ok .encHfirw := by decide
theorem test_decode_encLz : decode .encSelect [0x03, 0x00, 0x03, 0x00] = .ok .encLz := by decide
theorem test_decode_encHfi : decode .encSelect [0x03, 0x00, 0x04, 0x00] = .ok .encHfi := by decide
theorem test_decode_decRaw : decode .hdrAlg [0x00, 0x00] = .ok .decRaw := by decide
theorem test_decode_decHfirw : decode .hdrAlg [0x02, 0x00] = .ok .decHfirw := by decide
theorem test_decode_decLz : decode .hdrAlg [0x03, 0x00] = .ok .decLz := by decide
theorem test_decode_decHfi : decode .hdrAlg [0x04, 0x00] = .ok .decHfi := by decide
/-- `c0 pV`: flag byte 0000_0000. -/
theorem test_decode_lit : decode .lzToken [0x00, 0x41] = .ok (.lit 0x41) := by decide
/-- `c1 c0 cL cL pO` with L = 01: flag byte 1001_0000. -/
theorem test_decode_refA : decode .lzToken [0x90, 0x81] = .ok (.refA 1 0x81) := by decide
/-- `c1 c1 pLLLOOOOO pO` with L = 101, O = 1_0001_0000_0010: flag byte 1100_0000, hi = 1011_0001, lo = 0000_0010. -/
theorem test_decode_refB : decode .lzToken [0xC0, 0xB1, 0x02] = .ok (.refB 5 0x1102) := by decide
/-- `c1 c1 p000OOOOO pO c0 cN cN cN cN` with N = 1001: flag byte 1101_0010. -/
theorem test_decode_refC : decode .lzToken [0xD2, 0x11, 0x02] = .ok (.refC 0x1102 9) := by decide
/-- `c1 c1 p000OOOOO pO c1 p11111111`: flag byte 1110_0000. -/
theorem test_decode_runD : decode .lzToken [0xE0, 0x11, 0x02, 0xFF] = .ok (.runD 0x1102) := by decide
/-- `c1 c1 p000OOOOO pO c1 pT` with T = FE. -/
theorem test_decode_refE : decode .lzToken [0xE0, 0x1F, 0xFF, 0xFE] = .ok (.refE 0x1FFF 0xFE) := by decide
theorem test_decode_htLeaf : decode .htWord [0xFF, 0x00] = .ok (.htLeaf 0xFF) := by decide
theorem test_decode_htNode :
    decode .htWord [0x00, 0x01] = .ok (.htNode 0x100) ∧ decode .htWord [0xFF, 0x7F] = .ok (.htNode 0x7FFF) := by
  decide
theorem test_decode_htInvalid : decode .htWord [0x00, 0x80] = .ok (.htInvalid 0) := by decide

/-- Rejections by name: no `start` bit, the id 1 (rule R134), a cut token. -/
theorem test_decode_rejects :
    decode .ctrlWrite [0x02, 0x00, 0x03, 0x00] = .error .notStarted ∧
      decode .hdrAlg [0x01, 0x00] = .error (.unsupportedAlgorithm 1) ∧
      decode .encSelect [0x03, 0x00, 0x01, 0x00] = .error (.unsupportedAlgorithm 1) ∧
      decode .lzToken [0xC0, 0x20] = .error .tooShort ∧ decode .htWord [0x00] = .error .tooShort := by decide

/-- Section 4 of `30_encoding.md`: the ninth control bit opens a new flag byte, behind the payload of the first
eight. -/
theorem test_stream_framing :
    lzStream (List.replicate 9 (.lit 0x30)) =
      [0x00, 0x30, 0x30, 0x30, 0x30, 0x30, 0x30, 0x30, 0x30, 0x00, 0x30] := by decide

/-- The opcode table's own numbers. -/
theorem test_table_words :
    decodeTableWord 32 0x00000001 = some .decompress ∧ decodeTableWord 32 0x50000000 = some (.refC 0 0) ∧
      decodeTableWord 16 0x0002 = some .decHfirw ∧ decodeTableWord 16 0x8000 = some (.htInvalid 0) := by decide

/-! ### Single steps -/

/-- Rule R132: an input shorter than four bytes is no JKR blob. -/
theorem test_decompress_short :
    nextSat (exec .decompress (withIn [1, 2, 3] State.reset))
      (fun t => decide (t.cr.status = .noMatch ∧ t.cr.outLenReg = 0)) = true := by decide

/-- Rule R131 with a header whose magic is 01 02 03 04, version 5, algorithm 3, data_offset 16, size 7. -/
theorem test_header_fields :
    (match hdrParse 0x04030201 (withIn [1, 2, 3, 4, 5, 0, 3, 0, 16, 0, 0, 0, 7, 0, 0, 0] State.reset) with
      | .ok t => decide (t.cr.hdrVersion = 5 ∧ t.cr.hdrAlg = 3 ∧ t.doff = 16 ∧ t.dsize = 7)
      | .error _ => false) = true := by decide

/-- Rule R291: id 1 is no algorithm. -/
theorem test_compress_bad_alg :
    nextSat (exec (.compress 1) (withIn [1] State.reset))
      (fun t => decide (t.cr.status = .fault ∧ t.cr.faultCode = 3 ∧ t.cr.faultInfo = 1)) = true := by decide

/-- Rule R262: the command starts and keeps the length. -/
theorem test_compress_starts :
    nextSat (exec (.compress 3) (withIn [1, 2] State.reset))
      (fun t => decide (t.cr.status = .busy ∧ t.seq.phase = .encSelect ∧ t.le.srcLen = 2)) = true := by decide

/-- Rule R263: 16 header bytes, then the source. -/
theorem test_encRaw :
    nextSat (exec .encRaw (encoding 0 [0x61, 0x62]))
      (fun t => decide (t.cr.outLenReg = 18 ∧ Memory.read t.out 16 = some 0x61 ∧ Memory.read t.out 17 = some 0x62 ∧
        t.cr.hdrDsize = 2)) = true := by decide

/-- Three zero bytes are a literal and no match of two (rule R193): flag byte, three literals. -/
theorem test_encLz_three_literals :
    nextSat (exec .encLz (encoding 3 [0, 0, 0]))
      (fun t => decide (t.cr.outLenReg = 20 ∧ (readN t.out 20).drop 16 = [some 0, some 0, some 0, some 0])) =
      true := by decide +kernel

/-- Four zero bytes are a literal and REF.A with length 3 at distance 1 (rules R195, R197): control bits 0 1 0 0 0. -/
theorem test_encLz_reference :
    nextSat (exec .encLz (encoding 3 [0, 0, 0, 0]))
      (fun t => decide (t.cr.outLenReg = 19 ∧ (readN t.out 19).drop 16 = [some 0x40, some 0, some 0])) = true := by
  decide +kernel

/-- One present byte value: it is the root, there are no entries and no bits (rules R233, R240). -/
theorem test_encHfirw_single :
    nextSat (exec .encHfirw (encoding 2 [0x41, 0x41]))
      (fun t => decide (t.cr.outLenReg = 18 ∧ Memory.read t.out 16 = some 0x41 ∧ Memory.read t.out 17 = some 0 ∧
        t.hf.htLen = 0x41)) = true := by decide +kernel

/-- The example of rule R238 with ties, `abcd`: the root and the table. -/
theorem test_encHfirw_ties :
    nextSat (exec .encHfirw (encoding 2 [0x61, 0x62, 0x63, 0x64]))
      (fun t => decide (t.hf.htLen = 0x102 ∧ readN t.htab 6 =
        [some 0x61, some 0x62, some 0x63, some 0x64, some 0x100, some 0x101])) = true := by decide +kernel

/-- No source: the LZ77 stream is empty, so is the tree, and the blob is header and `table_length` (rule R232). -/
theorem test_encHfi_empty :
    nextSat (exec .encHfi (encoding 4 []))
      (fun t => decide (t.cr.outLenReg = 18 ∧ t.hf.htLen = 0 ∧ t.cr.hdrDoff = 18)) = true := by decide +kernel

/-- Rule R258. -/
theorem test_decRaw :
    nextSat (exec .decRaw (withDoff 1 (withDsize 2 (withIn [9, 7, 8] (running .decSelect State.reset)))))
      (fun t => decide (t.cr.status = .done ∧ t.cr.outLenReg = 2 ∧ readN t.out 2 = [some 7, some 8])) = true := by
  decide

/-- Rule R258: the data must be there before the first byte is copied. -/
theorem test_decRaw_truncated :
    nextSat (exec .decRaw (withDoff 1 (withDsize 3 (withIn [9, 7, 8] (running .decSelect State.reset)))))
      (fun t => decide (t.cr.faultCode = 2 ∧ t.cr.faultInfo = 3 ∧ t.lz.outLen = 0)) = true := by decide

/-- Rule R259. -/
theorem test_decLz :
    nextSat (exec .decLz (withDoff 16 (running .decSelect State.reset)))
      (fun t => decide (t.lz.ip = 16 ∧ t.seq.hfEn = false ∧ t.seq.phase = .lzLoop)) = true := by decide

/-- A blob with the table 0x101, 0x63 0x62 0x100 0x61 (rule R215): four entries, the bitstream at 26. -/
def tableBlob : List Byte :=
  List.replicate 16 0 ++ [0x01, 0x01, 0x63, 0x00, 0x62, 0x00, 0x00, 0x01, 0x61, 0x00, 0xF5, 0x00]

theorem test_decHfirw :
    nextSat (exec .decHfirw (withDoff 26 (withIn tableBlob (running .decSelect State.reset))))
      (fun t => decide (t.hf.htLen = 0x101 ∧ t.hf.htCnt = 4 ∧ t.hf.hp = 26 ∧
        readN t.htab 4 = [some 0x63, some 0x62, some 0x100, some 0x61] ∧ t.seq.phase = .hfirwLoop)) = true := by
  decide

theorem test_decHfi :
    nextSat (exec .decHfi (withDoff 26 (withIn tableBlob (running .decSelect State.reset))))
      (fun t => decide (t.hf.htCnt = 4 ∧ t.seq.hfEn = true ∧ t.seq.phase = .lzLoop)) = true := by decide

/-- A state with `a b` produced and room for more. -/
def afterAb (dsize : Word) : State := produced [0x61, 0x62] (withDsize dsize (running .lzLoop State.reset))

theorem test_lit :
    nextSat (exec (.lit 0x7A) (afterAb 3))
      (fun t => decide (readN t.out 3 = [some 0x61, some 0x62, some 0x7A] ∧ t.lz.outLen = 3)) = true := by decide

/-- `dist = 2`, `len = 3`: the copy repeats its own output (rule R184). -/
theorem test_refA_overlap :
    nextSat (exec (.refA 0 1) (afterAb 5))
      (fun t => decide (readN t.out 5 = [some 0x61, some 0x62, some 0x61, some 0x62, some 0x61])) = true := by decide

/-- Rule R287: the distance is reported. -/
theorem test_refA_badref :
    nextSat (exec (.refA 0 2) (afterAb 9))
      (fun t => decide (t.cr.faultCode = 4 ∧ t.cr.faultInfo = 3 ∧ t.lz.outLen = 2)) = true := by decide

/-- `len = hi[7:5] + 2` (rule R105). -/
theorem test_refB :
    nextSat (exec (.refB 1 0) (afterAb 5))
      (fun t => decide (t.lz.outLen = 5 ∧ readN t.out 5 = [some 0x61, some 0x62, some 0x62, some 0x62, some 0x62])) =
      true := by decide

/-- Rule R288: the length is reported and nothing is written. -/
theorem test_refB_overrun :
    nextSat (exec (.refB 7 0) (afterAb 10))
      (fun t => decide (t.cr.faultCode = 5 ∧ t.cr.faultInfo = 9 ∧ t.lz.outLen = 2)) = true := by decide

/-- `len = N + 10` (rule R105). -/
theorem test_refC :
    nextSat (exec (.refC 1 0) (afterAb 12))
      (fun t => decide (t.lz.outLen = 12 ∧ Memory.read t.out 11 = some 0x62)) = true := by decide

/-- `len = T + 0x1A` (rule R105). -/
theorem test_refE :
    nextSat (exec (.refE 0 0) (afterAb 28))
      (fun t => decide (t.lz.outLen = 28 ∧ Memory.read t.out 27 = some 0x62)) = true := by decide

/-- `run = O + 0x1B` bytes out of the byte source (rules R105, R171). -/
theorem test_runD :
    nextSat (exec (.runD 0) (withDsize 27 (withIn ((List.range 27).map (BitVec.ofNat 8)) (running .lzLoop State.reset))))
      (fun t => decide (t.lz.outLen = 27 ∧ t.lz.ip = 27 ∧ Memory.read t.out 26 = some 26)) = true := by decide

/-- Rule R171: the overrun comes before the first data byte. -/
theorem test_runD_overrun :
    nextSat (exec (.runD 0) (withDsize 26 (running .lzLoop State.reset)))
      (fun t => decide (t.cr.faultCode = 5 ∧ t.cr.faultInfo = 27 ∧ t.lz.ip = 0)) = true := by decide

/-- A table of two entries and a bitstream bit. -/
def atNode (e0 e1 : Half) (cnt : Nat) (cur : Byte) (rem : BitVec 3) : State :=
  { running .hfirwWord State.reset with
    htab := [(0, e0), (1, e1)]
    hf := { HfDecoder.reset with cur := cur, rem := rem, node := 0x100, htLen := 0x100, htCnt := cnt } }

theorem test_htLeaf :
    nextSat (exec (.htLeaf 0x61) (withDsize 1 (running .hfirwWord State.reset)))
      (fun t => decide (Memory.read t.out 0 = some 0x61 ∧ Memory.read t.win 0 = some 0x61 ∧
        t.seq.phase = .hfirwLoop)) = true := by decide

/-- Bit 1 takes the odd entry (rule R95). -/
theorem test_htNode :
    nextSat (exec (.htNode 0x100) (atNode 0x61 0x62 2 0x01 1))
      (fun t => decide (t.hf.node = 0x62 ∧ t.hf.rem = 0 ∧ t.seq.phase = .hfirwWord)) = true := by decide

/-- Rule R289: the index is tested against the loaded count. -/
theorem test_htNode_index :
    nextSat (exec (.htNode 0x100) (atNode 0x61 0x62 1 0x01 1))
      (fun t => decide (t.cr.faultCode = 6 ∧ t.cr.faultInfo = 1)) = true := by decide

/-- Rule R290: the word is reported zero-extended. -/
theorem test_htInvalid :
    nextSat (exec (.htInvalid 0x7FFE) (atNode 0 0 2 0 0))
      (fun t => decide (t.cr.faultCode = 7 ∧ t.cr.faultInfo = 0xFFFE)) = true := by decide

/-- Rules R22, R255: the host's CTRL write runs the command, `start` reads 0. -/
theorem test_step_ctrl :
    nextSat (step { State.reset with host := [.writeCtrl 0xABCD0001] })
      (fun t => decide (t.cr.status = .noMatch ∧ t.cr.ctrl = 0xABCD0000 ∧ t.host = [])) = true := by decide

/-- Rule R331: no result is defined for the host's read of OUT while BUSY, nor beyond OUT_LEN. -/
theorem test_host_reads :
    hostReadOut 0 (running .lzLoop State.reset) = .error .hostAccessWhileBusy ∧
      hostReadOut 0 State.reset = .error .hostReadOutOfRange ∧ hostReadReg 2 State.reset = .ok 0 := by decide

/-- The host's placement runs the instruction it was given. -/
theorem test_withFetchWord :
    nextSat (step (State.reset.withFetchWord 16 0x0041)) (fun t => decide (t.out = [(0, 0x41)])) = true ∧
      nextSat (step (State.reset.withFetchWord 32 0x00030003)) (fun t => decide (t.cr.outLenReg = 16)) = true := by
  decide

/-! ### Witnesses: for each statement with hypotheses, a state and operands that meet them together -/

/-- DecodeEncodeAgree, at the boundaries of the encodings' side conditions. -/
theorem witness_DecodeEncodeAgree :
    (Instr.refB 1 0x1FFF).wellFormed = true ∧ (Instr.refE 0 0xFE).wellFormed = true ∧
      (Instr.htNode 0x100).wellFormed = true ∧ (Instr.compress 0xFFFF).wellFormed = true := by decide

theorem witness_DecodedIsWellFormed : decode .lzToken [0xC0, 0x20, 0x00] = .ok (.refB 1 0) := by decide

/-- TableWordKindByValue, at the ends of its three ranges. -/
theorem witness_TableWordKindByValue :
    (0 : Half).toInt = 0 ∧ (0xFF : Half).toInt < 0x100 ∧ 0x100 ≤ (0x100 : Half).toInt ∧
      0x100 ≤ (0x7FFF : Half).toInt ∧ (0x8000 : Half).toInt < 0 ∧ (0xFFFF : Half).toInt < 0 := by decide

/-- TokenStreamReadsBack: RUN.D without its data, and the shortest RUN.D with its data and a token behind it. -/
theorem witness_TokenStreamReadsBack :
    (∀ t ∈ [Instr.lit 1, .refA 3 0, .runD 0, .refE 0 0xFE], isToken t = true ∧ t.wellFormed = true) ∧
      ∀ t ∈ [(Instr.lit 1, []), (.runD 0, List.replicate 27 (7 : Byte)), (.refA 3 0, [])],
        isToken t.1 = true ∧ t.1.wellFormed = true ∧ t.2.length = dataLength t.1 := by decide

theorem witness_WriterAppendsTheStream :
    State.reset.le.wAcc = 0 ∧ State.reset.le.wCnt = 0 ∧ State.reset.le.waiting = [] ∧
      (∀ v, ([.control true, .payload 1] : List Item).head? ≠ some (.payload v)) := by
  refine ⟨rfl, rfl, rfl, ?_⟩
  intro v
  simp

theorem witness_FetchReadsTheStream :
    (withIn [0x00, 0x41] State.reset).seq.hfEn = false ∧
      HoldsAt (withIn [0x00, 0x41] State.reset).inMem 0 [0x00, 0x41] ∧
      (withIn [0x00, 0x41] State.reset).seq.inLen = 0 + 2 ∧
      decodeToken ⟨[0x00, 0x41], 0, 0⟩ = .ok (.lit 0x41, ⟨[], 0x00, 7⟩) :=
  ⟨rfl, holdsAt_written _, rfl, by decide⟩

/-- StepRunsTheDecodedInstruction: its eight contexts, the end of a loop with `dsize = 0`. -/
theorem witness_StepRunsTheDecodedInstruction :
    (({ State.reset with host := [.writeCtrl 1] } : State).host = .writeCtrl 1 :: [] ∧
      decodeCtrl 1 = .ok .decompress) ∧
    ((running .decSelect State.reset).host = [] ∧
      decodeHdrAlg (running .decSelect State.reset).cr.hdrAlg = .ok .decRaw) ∧
    ((encoding 3 []).host = [] ∧ (encoding 3 []).seq.phase = .encSelect ∧
      decodeEncSelect (encWord (encoding 3 [])) = .ok .encLz) ∧
    (∃ t, fetchToken (withDsize 1 (withIn [0x00, 0x41] (running .lzLoop State.reset))) = .ok (.lit 0x41, t)) ∧
    ((running .hfirwLoop (withDsize 1 State.reset)).lz.outLen ≠
        (running .hfirwLoop (withDsize 1 State.reset)).dsize ∧
      decodeHtWord (running .hfirwLoop (withDsize 1 State.reset)).hf.htLen = .htLeaf 0) ∧
    ((atNode 1 2 2 0 0).seq.phase = .hfirwWord ∧ decodeHtWord (atNode 1 2 2 0 0).hf.node = .htNode 0x100) ∧
    ((running .lzLoop State.reset).host = [] ∧ (running .lzLoop State.reset).lz.outLen =
      (running .lzLoop State.reset).dsize) ∧
    (({ running .lzLoop State.reset with host := [.waitDone] } : State).busy = true) := by
  refine ⟨⟨rfl, by decide⟩, ⟨rfl, by decide⟩, ⟨rfl, rfl, by decide⟩, ⟨_, rfl⟩, ⟨by decide, by decide⟩,
    ⟨rfl, by decide⟩, ⟨rfl, by decide⟩, by decide⟩

/-- FetchFaultIsTaken: an empty IN. -/
theorem witness_FetchFaultIsTaken :
    (withDsize 1 (running .lzLoop State.reset)).host = [] ∧
      (withDsize 1 (running .lzLoop State.reset)).lz.outLen ≠ (withDsize 1 (running .lzLoop State.reset)).dsize ∧
      fetchToken (withDsize 1 (running .lzLoop State.reset)) =
        .error (.raise .eTrunc 0 (withDsize 1 (running .lzLoop State.reset))) :=
  ⟨rfl, by decide, rfl⟩

/-- DirectByteSource: `ip` at `in_len`, and one below it. -/
theorem witness_DirectByteSource :
    State.reset.seq.inLen ≤ State.reset.lz.ip ∧
      (withIn [5] State.reset).lz.ip < (withIn [5] State.reset).seq.inLen ∧
      Memory.read (withIn [5] State.reset).inMem (withIn [5] State.reset).lz.ip = some 5 := by decide

theorem witness_HuffmanBitReader :
    (atNode 0 0 2 1 1).hf.rem ≠ 0 ∧
      ((withIn [5] State.reset).hf.rem = 0 ∧ (withIn [5] State.reset).hf.hp < (withIn [5] State.reset).seq.inLen ∧
        Memory.read (withIn [5] State.reset).inMem (withIn [5] State.reset).hf.hp = some 5) ∧
      (State.reset.hf.rem = 0 ∧ State.reset.seq.inLen ≤ State.reset.hf.hp) := by decide

theorem witness_LazyFlagFetch :
    ({ State.reset with lz := { LzDecoder.reset with rem := 1 } } : State).lz.rem ≠ 0 ∧
      (∃ t, rdByte (withIn [5] State.reset) = .ok (5, t)) ∧
      rdByte State.reset = .error (.raise .eTrunc 0 State.reset) :=
  ⟨by decide, ⟨_, rfl⟩, rfl⟩

theorem witness_HuffmanWriterPacks : State.reset.he.hAcc = 0 ∧ State.reset.he.hCnt = 0 := by decide

/-- Rules R67, R152 to R154, log 25: the ninth byte of a group waits behind a full PFIFO and goes out with its group. -/
theorem test_pfifo_ninth :
    let s := lzwItems .out (Item.control true :: (List.range 9).map fun k => .payload (BitVec.ofNat 8 k)) State.reset
    s.le.pfifo = [0, 1, 2, 3, 4, 5, 6, 7] ∧ s.le.pfOver = [8] ∧
      Memory.read (lzwFlush .out s).out 9 = some 8 := by decide

/-- Log 25, from rules R152 to R154, R195, R196 and R198 alone: the tokens of the source 1 to 7 twice, then 8 to 14. The
REF.B of length 7 at stored offset 6 begins with the eighth bit of the first group; its second bit opens the next, which
then takes two reference bytes and seven literals. -/
theorem test_pfifo_nine_from_tokens :
    let literals (a : Nat) := (List.range 7).map fun k => Instr.lit (BitVec.ofNat 8 (a + k))
    let s := lzwItems .out ((literals 1 ++ [Instr.refB 5 6] ++ literals 8).flatMap Instr.items) State.reset
    selectToken 6 7 = some (Instr.refB 5 6) ∧ s.le.wCnt = 8 ∧ s.le.waiting = [0xA0, 6, 8, 9, 10, 11, 12, 13, 14] := by
  decide

theorem witness_PfifoStaysWithinEightBytes :
    (∀ t ∈ [Instr.refB 1 0, .lit 0], isToken t = true ∧ t.wellFormed = true) ∧ (∀ o, Instr.lit 0 ≠ .runD o) ∧
      State.reset.le.wCnt = 0 ∧ State.reset.le.waiting = [] := by
  refine ⟨by decide, ?_, rfl, rfl⟩
  intro o h
  cases h

/-- A blob of a built header and more bytes, loaded. -/
theorem builtHeader_loaded (alg : Half) (size nent : Nat) (rest : List Byte)
    (h : builtDoff alg nent ≤ 16 + rest.length) :
    ∃ u : State, HoldsAt u.inMem 0 (builtHeader alg size nent ++ rest) ∧ u.seq.inLen = 16 + rest.length ∧
      builtDoff alg nent ≤ u.seq.inLen := by
  have hl : (withIn (builtHeader alg size nent ++ rest) State.reset).seq.inLen = 16 + rest.length := by
    simp [withIn, builtHeader, headerBytes, le32Bytes, le16Bytes]
    omega
  exact ⟨_, holdsAt_written _, hl, hl ▸ h⟩

/-- BuiltHeaderParses: the largest size, the most entries an encoder stores, and no entry at all. -/
theorem witness_BuiltHeaderParses :
    legalAlg 2 = true ∧
      (∃ (rest : List Byte) (u : State), HoldsAt u.inMem 0 (builtHeader 2 Config.sizeMax 1020 ++ rest) ∧
        u.seq.inLen = 16 + rest.length ∧ builtDoff 2 1020 ≤ u.seq.inLen) ∧
      ∃ u : State, HoldsAt u.inMem 0 (builtHeader 0 0 0 ++ []) ∧ u.seq.inLen = 16 + ([] : List Byte).length ∧
        builtDoff 0 0 ≤ u.seq.inLen :=
  ⟨by decide, ⟨List.replicate (builtDoff 2 1020) 0, builtHeader_loaded 2 _ 1020 _ (by simp)⟩,
    builtHeader_loaded 0 0 0 [] (by decide)⟩

/-- A blob of a header and more bytes, loaded. -/
theorem loaded_withIn (bs : List Byte) : Loaded (withIn bs State.reset) bs := ⟨rfl, holdsAt_written bs⟩

/-- DecompressAccepts: `data_offset` at its lowest value, with and without a Huffman block. -/
theorem witness_DecompressAccepts :
    (∃ s : State, s.busy = false ∧ Loaded s (headerBytes Config.magic 0 0 16 1 ++ []) ∧ legalAlg 0 = true ∧
      16 ≤ (16 : Word).toNat ∧ (16 : Word).toNat ≤ 16 + ([] : List Byte).length) ∧
    (∃ s : State, s.busy = false ∧ Loaded s (headerBytes Config.magic 0 4 18 1 ++ [0, 0]) ∧
      huffmanAlg 4 = true ∧ 18 ≤ (18 : Word).toNat ∧ (18 : Word).toNat ≤ 16 + ([0, 0] : List Byte).length) :=
  ⟨⟨_, rfl, loaded_withIn _, by decide, by decide, by decide⟩,
    ⟨_, rfl, loaded_withIn _, by decide, by decide, by decide⟩⟩

/-- DecompressNoMatch: fewer than four bytes. -/
theorem witness_DecompressNoMatch :
    ∃ s : State, s.busy = false ∧ Loaded s [1, 2, 3] ∧ ([1, 2, 3] : List Byte).take 4 ≠ le32Bytes Config.magic := by
  refine ⟨_, rfl, loaded_withIn _, ?_⟩
  intro h
  simpa [le32Bytes] using congrArg List.length h

/-- DecompressRejectsInOrder: each clause at its boundary. -/
theorem witness_DecompressRejectsInOrder :
    (∃ s : State, s.busy = false ∧ Loaded s (le32Bytes Config.magic ++ List.replicate 11 0) ∧
      (List.replicate 11 (0 : Byte)).length < 12) ∧
    (∃ s : State, s.busy = false ∧ Loaded s (headerBytes Config.magic 0 1 0 0 ++ []) ∧ legalAlg 1 = false) ∧
    (∃ s : State, s.busy = false ∧ Loaded s (headerBytes Config.magic 0 2 16 0 ++ [0]) ∧ huffmanAlg 2 = true ∧
      ([0] : List Byte).length < 2) ∧
    (∃ s : State, s.busy = false ∧ Loaded s (headerBytes Config.magic 0 3 15 0 ++ []) ∧ legalAlg 3 = true ∧
      huffmanAlg 3 = false ∧ (15 : Word).toNat < 16) ∧
    (∃ s : State, s.busy = false ∧ Loaded s (headerBytes Config.magic 0 2 17 0 ++ [0, 0]) ∧ legalAlg 2 = true ∧
      huffmanAlg 2 = true ∧ (17 : Word).toNat < 18) ∧
    (∃ s : State, s.busy = false ∧ Loaded s (headerBytes Config.magic 0 0 17 0 ++ []) ∧ legalAlg 0 = true ∧
      16 + ([] : List Byte).length < (17 : Word).toNat) :=
  ⟨⟨_, rfl, loaded_withIn _, by decide⟩, ⟨_, rfl, loaded_withIn _, by decide⟩,
    ⟨_, rfl, loaded_withIn _, by decide, by decide⟩, ⟨_, rfl, loaded_withIn _, by decide, by decide, by decide⟩,
    ⟨_, rfl, loaded_withIn _, by decide, by decide, by decide⟩, ⟨_, rfl, loaded_withIn _, by decide, by decide⟩⟩

/-- What an earlier command may have left: an output byte, header fields, and NOMATCH. -/
def pastState (b : Byte) : State :=
  endNoMatch (emit b (latchHeader (b.setWidth 16) (b.setWidth 16) (b.setWidth 32) (b.setWidth 32)
    (withIn (headerBytes Config.magic 0 0 16 0 ++ []) State.reset)))

theorem witness_HostWritesWhileBusy :
    (running .lzLoop State.reset).busy = true ∧
      ({ running .lzLoop State.reset with host := [.writeCtrl 1] } : State).host = .writeCtrl 1 :: [] ∧
      (1 : Word).getLsbD 0 = true ∧ (2 : Word).getLsbD 0 = false ∧
      ({ running .lzLoop State.reset with host := [.writeIn 0 0] } : State).host = .writeIn 0 0 :: [] ∧
      ({ running .lzLoop State.reset with host := [.writeInLen 0] } : State).host = .writeInLen 0 :: [] := by decide

/-- CommandForgetsThePast: two states that differ in OUT, in the cursors, in the last outcome and in every header
register, IN holding a whole header; the second of them again beside one with its own header registers. -/
theorem witness_CommandForgetsThePast :
    (pastState 1).busy = false ∧ (pastState 2).busy = false ∧ (pastState 1).cr.ctrl = (pastState 2).cr.ctrl ∧
      (pastState 1).cr.inLenReg = (pastState 2).cr.inLenReg ∧ (pastState 1).inMem = (pastState 2).inMem ∧
      (pastState 1).host = (pastState 2).host ∧ (pastState 1).freeCtr = (pastState 2).freeCtr ∧
      Loaded (pastState 1) (headerBytes Config.magic 0 0 16 0 ++ []) ∧
      (pastState 1).cr.hdrAlg ≠ (pastState 2).cr.hdrAlg ∧ (pastState 1).out ≠ (pastState 2).out ∧
      HeaderLatched (pastState 2).cr.hdrVersion (pastState 2).cr.hdrAlg (pastState 2).cr.hdrDoff
        (pastState 2).cr.hdrDsize (emit 3 (pastState 2)) :=
  ⟨rfl, rfl, rfl, rfl, rfl, rfl, rfl, loaded_withIn _, by decide, by decide, rfl, rfl, rfl, rfl⟩

/-- DecRawCopies: the blob ends exactly at `doff + dsize`. -/
theorem witness_DecRawCopies :
    (withDoff 1 (withDsize 2 (withIn [9, 7, 8] State.reset))).lz.outLen = 0 ∧
      (withDoff 1 (withDsize 2 (withIn [9, 7, 8] State.reset))).lz.wp = 0 ∧
      (withDoff 1 (withDsize 2 (withIn [9, 7, 8] State.reset))).doff +
        (withDoff 1 (withDsize 2 (withIn [9, 7, 8] State.reset))).dsize ≤
          (withDoff 1 (withDsize 2 (withIn [9, 7, 8] State.reset))).seq.inLen ∧
      WrittenFrom (withDoff 1 (withDsize 2 (withIn [9, 7, 8] State.reset))).inMem 1 2 := by
  refine ⟨rfl, rfl, by decide, ?_⟩
  unfold WrittenFrom
  decide

/-- DataPathFaults: one byte short, and the least negative and the most negative `table_length`. -/
theorem witness_DataPathFaults :
    (withDoff 1 (withDsize 3 (withIn [9, 7, 8] State.reset))).seq.inLen <
        (withDoff 1 (withDsize 3 (withIn [9, 7, 8] State.reset))).doff +
          (withDoff 1 (withDsize 3 (withIn [9, 7, 8] State.reset))).dsize ∧
      (∃ s : State, HoldsAt s.inMem 0 (List.replicate 16 0 ++ [0xFF, 0xFF]) ∧
        s.seq.inLen = (List.replicate 16 (0 : Byte) ++ [0xFF, 0xFF]).length ∧
        (le16 ((List.replicate 16 (0 : Byte) ++ [0xFF, 0xFF]).getD 16 0)
          ((List.replicate 16 (0 : Byte) ++ [0xFF, 0xFF]).getD 17 0)).msb = true) ∧
      (le16 0x00 0x80).msb = true :=
  ⟨by decide, ⟨withIn _ State.reset, holdsAt_written _, rfl, by decide⟩, by decide⟩

/-- TableLoadCompletes: no entry at all, and four. -/
theorem witness_TableLoadCompletes :
    (∃ s : State, HoldsAt s.inMem 0 (List.replicate 18 0) ∧ s.seq.inLen = (List.replicate 18 (0 : Byte)).length ∧
      s.doff = 18 ∧ (le16 ((List.replicate 18 (0 : Byte)).getD 16 0)
        ((List.replicate 18 (0 : Byte)).getD 17 0)).msb = false) ∧
    (∃ s : State, HoldsAt s.inMem 0 tableBlob ∧ s.seq.inLen = tableBlob.length ∧ s.doff = 26 ∧
      s.doff ≤ tableBlob.length ∧ (le16 (tableBlob.getD 16 0) (tableBlob.getD 17 0)).msb = false) :=
  ⟨⟨withDoff 18 (withIn _ State.reset), holdsAt_written _, rfl, by decide, by decide⟩,
    ⟨withDoff 26 (withIn tableBlob State.reset), holdsAt_written _, rfl, by decide, by decide, by decide⟩⟩

/-- The window of a state with two bytes produced. -/
theorem windowHolds_afterAb (n : Word) : WindowHolds (afterAb n) := by
  refine ⟨rfl, ?_, ?_⟩
  · intro k hk
    change k < 2 at hk
    interval_cases k <;> rfl
  · intro k h1 h2 _
    change k ≤ 2 at h2
    interval_cases k <;> rfl

/-- ReferencesCopy: the largest distance that is reachable, the longest copy that fits, for every form. -/
theorem witness_ReferencesCopy :
    WindowHolds (afterAb 5) ∧ refOperands (.refA 0 1) = some (1, 3) ∧
      (1 : BitVec 13).toNat + 1 ≤ (afterAb 5).lz.outLen ∧
      (afterAb 5).lz.outLen + 3 ≤ (afterAb 5).dsize ∧ refOperands (.refB 1 1) = some (1, 3) ∧
      refOperands (.refC 1 0) = some (1, 10) ∧ refOperands (.refE 1 0) = some (1, 26) ∧
      (afterAb 28).lz.outLen + 26 ≤ (afterAb 28).dsize :=
  ⟨windowHolds_afterAb 5, by decide⟩

/-- ReferenceFaults: one byte too far, and one byte too long. -/
theorem witness_ReferenceFaults :
    refOperands (.refA 0 2) = some (2, 3) ∧ (afterAb 9).lz.outLen < (2 : BitVec 13).toNat + 1 ∧
      (1 : BitVec 13).toNat + 1 ≤ (afterAb 4).lz.outLen ∧ (afterAb 4).dsize < (afterAb 4).lz.outLen + 3 := by decide

/-- A state whose IN holds exactly the data of the shortest RUN.D. -/
def atRun (dsize : Word) : State :=
  withDsize dsize (withIn ((List.range 27).map (BitVec.ofNat 8)) (running .lzLoop State.reset))

theorem witness_RunCopiesTheSource :
    27 = (0 : BitVec 13).toNat + 0x1B ∧ (∃ bs s', rdBytes 27 (atRun 27) = .ok (bs, s')) ∧
      (atRun 27).lz.outLen + 27 ≤ (atRun 27).dsize :=
  ⟨rfl, ⟨_, _, rfl⟩, by decide⟩

/-- RunFaults: one byte of room missing; no data byte. -/
theorem witness_RunFaults :
    (atRun 26).dsize < (atRun 26).lz.outLen + 27 ∧
      (withDsize 27 State.reset).lz.outLen + 27 ≤ (withDsize 27 State.reset).dsize ∧
      rdBytes 27 (withDsize 27 State.reset) = .error (.raise .eTrunc 0 (withDsize 27 State.reset)) :=
  ⟨by decide, by decide, rfl⟩

theorem witness_NodeStepsToItsChild :
    (∃ s', hfRdBit (atNode 0x61 0x62 2 1 1) = .ok (true, s')) ∧
      1 = (0x100 : BitVec 15).toNat * 2 - 0x200 + true.toNat ∧ 1 < (atNode 0x61 0x62 2 1 1).hf.htCnt ∧
      Memory.read (atNode 0x61 0x62 2 1 1).htab 1 = some 0x62 ∧
      (0x62 : Half).msb = false :=
  ⟨⟨_, rfl⟩, by decide⟩

/-- NodeFaults: no bit left; the index at the count; a negative entry. -/
theorem witness_NodeFaults :
    ((atNode 0 0 2 0 0).hf.rem = 0 ∧ (atNode 0 0 2 0 0).seq.inLen ≤ (atNode 0 0 2 0 0).hf.hp) ∧
      (∃ s', hfRdBit (atNode 0 0 1 1 1) = .ok (true, s')) ∧
      1 = (0x100 : BitVec 15).toNat * 2 - 0x200 + true.toNat ∧ (atNode 0 0 1 1 1).hf.htCnt ≤ 1 ∧
      (∃ s', hfRdBit (atNode 0x8000 0 2 0 1) = .ok (false, s')) ∧
      0 = (0x100 : BitVec 15).toNat * 2 - 0x200 + false.toNat ∧ 0 < (atNode 0x8000 0 2 0 1).hf.htCnt ∧
      Memory.read (atNode 0x8000 0 2 0 1).htab 0 = some 0x8000 ∧
      (0x8000 : Half).msb = true :=
  ⟨by decide, ⟨_, rfl⟩, by decide, by decide, ⟨_, rfl⟩, by decide⟩

/-- A walk of one bit 1 from the root 0x100 stays in a table of two entries. -/
theorem walkInTable_atNode (e : Half) : WalkInTable (atNode 0x61 e 2 1 1) [true] := by
  intro k v b hv hb
  cases k with
  | zero => cases hv; cases hb; show 0x100 * 2 - 0x200 + 1 < 2; decide
  | succ k => simp at hb

/-- DescentFollowsTheTable: the Huffman source selected; a leaf at the last entry of the table; a descent that stands at
its second node when the bits end; one at the root whose index is the entry count; a negative last entry. -/
theorem witness_DescentFollowsTheTable :
    (setHfEn true State.reset).seq.hfEn = true ∧
    (∃ u, rdBits [true].length (atNode 0x61 0x62 2 1 1) = .ok ([true], u)) ∧
    WalkInTable (atNode 0x61 0x62 2 1 1) [true] ∧
    walkTable (atNode 0x61 0x62 2 1 1).htab [true] (atNode 0x61 0x62 2 1 1).hf.htLen =
      some ((0x62 : Byte).setWidth 16) ∧
    (∃ u, DescentAt (atNode 0x61 0x100 2 1 1) [true] 0x100 u ∧ u.hf.rem = 0 ∧ u.seq.inLen ≤ u.hf.hp) ∧
    (∃ u w, DescentAt (atNode 0x61 0x62 1 1 1) [] 0x100 u ∧ hfRdBit u = .ok (true, w) ∧
      (atNode 0x61 0x62 1 1 1).hf.htCnt ≤ (0x100 : BitVec 15).toNat * 2 - 0x200 + true.toNat) ∧
    (∃ u w, DescentAt (atNode 0x61 0x8000 2 1 1) [] 0x100 u ∧ hfRdBit u = .ok (true, w) ∧
      (0x100 : BitVec 15).toNat * 2 - 0x200 + true.toNat < (atNode 0x61 0x8000 2 1 1).hf.htCnt ∧
      Memory.read (atNode 0x61 0x8000 2 1 1).htab 1 = some 0x8000 ∧ (0x8000 : Half).msb = true) ∧
    (∃ t, hfRdByte (atNode 0x61 0x62 2 1 1) = .ok (0x62, t)) ∧ State.reset.hf.htLen.toNat < 0x100 := by
  have empty : ∀ s, WalkInTable s [] := fun s k v b _ hb => by simp at hb
  exact ⟨rfl, ⟨_, rfl⟩, walkInTable_atNode _, by decide,
    ⟨_, ⟨walkInTable_atNode _, _, rfl, by decide, by decide, rfl⟩, by decide, by decide⟩,
    ⟨_, _, ⟨empty _, _, rfl, by decide, by decide, rfl⟩, rfl, by decide⟩,
    ⟨_, _, ⟨empty _, _, rfl, by decide, by decide, rfl⟩, rfl, by decide, by decide, by decide⟩, ⟨_, rfl⟩, by decide⟩

/-- CompressAccepts: the longest input. -/
theorem witness_CompressAccepts :
    ({ State.reset with cr := { CtrlRegs.reset with inLenReg := Config.sizeMax } } : State).busy = false ∧
      legalAlg 4 = true ∧
      ({ State.reset with cr := { CtrlRegs.reset with inLenReg := Config.sizeMax } } : State).cr.inLenReg ≤
        Config.sizeMax := by decide

/-- CompressRejectsInOrder: an id between the legal ones; one byte too many. -/
theorem witness_CompressRejectsInOrder :
    State.reset.busy = false ∧ legalAlg 1 = false ∧ legalAlg 0 = true ∧
      Config.sizeMax <
        ({ State.reset with cr := { CtrlRegs.reset with inLenReg := Config.sizeMax + 1 } } : State).cr.inLenReg := by
  decide

/-- EncRawWritesTheBlob, EncLzWritesTokensOfTheSource, EncHfirwWritesTheBlob and EncHfiWritesTheBlob. -/
theorem witness_encoders :
    (encoding 3 [1, 2]).le.srcLen = ([1, 2] : List Byte).length ∧
      ([1, 2] : List Byte).length ≤ (encoding 3 [1, 2]).seq.inLen ∧
      ([1, 2] : List Byte).length ≤ Config.sizeMax ∧ HoldsAt (encoding 3 [1, 2]).inMem 0 [1, 2] ∧
      (encoding 3 [1, 2]).le.wAcc = 0 ∧ (encoding 3 [1, 2]).le.wCnt = 0 ∧ (encoding 3 [1, 2]).le.waiting = [] ∧
      Memory.wf (encoding 3 [1, 2]).htab = true :=
  ⟨rfl, by decide, by decide, holdsAt_written _, rfl, rfl, rfl, rfl⟩

/-- SearchFindsTheLongest: a match of one byte at distance 1 that ends with the source. -/
theorem witness_SearchFindsTheLongest :
    1 < ([7, 7] : List Byte).length ∧ 1 ≤ min 1 Config.winSize ∧ Matches [7, 7] 1 1 1 ∧
      (lzSearch [7, 7] 1 0 0).bestLen ≠ 0 := by
  refine ⟨by decide, by decide, ?_, by decide⟩
  intro i hi
  interval_cases i
  decide

/-- SelectTakesTheNarrowestCase: the ends of its range, and one beyond each. -/
theorem witness_SelectTakesTheNarrowestCase :
    (3 ≤ (281 : Nat) ∧ 281 % 280 = 1) ∧ (8191 ≤ 8191 ∧ 3 ≤ 3 ∧ 280 ≤ 280) ∧
      (8191 < 8192 ∧ 2 < 3 ∧ 280 < 281) := by decide

theorem witness_MergedNodeGoesAfterEquals :
    ([(1, 0x61), (2, 0x62), (2, 0x63)] : List (Nat × Half)).Pairwise (fun a b => a.1 ≤ b.1) := by decide

theorem witness_TreeCodesReachTheirLeaves :
    (0x61 : Byte) ∈ ([0x61, 0x62] : List Byte) ∧ Memory.wf State.reset.htab = true := by decide

/-- RootIsTheLastNode: one and two present byte values. -/
theorem witness_RootIsTheLastNode :
    ([0x61, 0x61] : List Byte).dedup = [0x61] ∧ 2 ≤ ([0x61, 0x62] : List Byte).dedup.length := by decide

/-- A DECOMPRESS of algorithm 3 in its token loop, the first byte produced. -/
def inLoop : State :=
  emit 0x41 (setPhase .lzLoop
    { withIn (List.replicate 18 0) State.reset with
      cr := { CtrlRegs.reset with
        inLenReg := 18
        status := .busy
        hdrAlg := 3
        hdrDoff := 16
        hdrDsize := 2 } })

theorem inv_inLoop : Inv inLoop := by
  refine ⟨⟨by decide, by decide, by decide, by decide, by decide, reset_registerFiles⟩,
    by unfold RegistersLegal WriterLegal; decide, ?_, ?_⟩
  · unfold PhaseLegal
    decide
  · refine ⟨fun _ => ⟨by decide, rfl, ?_, ?_⟩, fun h => absurd h (by decide), ?_, fun h => absurd h (by decide)⟩
    · intro k hk
      change k < 1 at hk
      interval_cases k
      rfl
    · intro k h1 h2 _
      change k ≤ 1 at h2
      interval_cases k
      rfl
    · intro _ k hk
      exact absurd hk (Nat.not_lt_zero k)

/-- StepKeepsInvariant, DecoderNeverStuck and EveryDecompressEnds. -/
theorem witness_decoding :
    Inv inLoop ∧ InCovered inLoop ∧ inLoop.host = [] ∧ Phase.decoding inLoop.seq.phase = true ∧
      ∃ t, step inLoop = .next t := by
  refine ⟨inv_inLoop, ?_, rfl, rfl, ⟨_, rfl⟩⟩
  unfold InCovered WrittenFrom
  decide

theorem witness_OnlyDecompressEndsNoMatch :
    (∃ t, exec .decompress State.reset = .next t ∧ t.cr.status = .noMatch) ∧ State.reset.cr.status ≠ .noMatch :=
  ⟨⟨_, rfl, rfl⟩, by decide⟩

theorem witness_NoInstructionWritesIn : ∃ t, exec (.lit 1) State.reset = .next t := ⟨_, rfl⟩

theorem witness_TableIsRom :
    (Instr.lit 1).format = .lzToken ∧ (Instr.htLeaf 1).format = .htWord ∧
      (∃ t, exec (.htLeaf 1) State.reset = .next t) ∧
      ∃ t, fetchToken (withIn [0x00, 0x41] State.reset) = .ok (.lit 0x41, t) :=
  ⟨rfl, rfl, ⟨_, rfl⟩, ⟨_, rfl⟩⟩

/-- CursorsAreSeparate: a descent, a fetch from IN, and a fetch through the Huffman decoder. -/
theorem witness_CursorsAreSeparate :
    (∃ t, hfRdByte State.reset = .ok (0, t)) ∧
      (State.reset.seq.hfEn = false ∧ ∃ t, fetchToken (withIn [0x00, 0x41] State.reset) = .ok (.lit 0x41, t)) ∧
      ((setHfEn true State.reset).seq.hfEn = true ∧ ∃ t, fetchToken (setHfEn true State.reset) = .ok (.lit 0, t)) :=
  ⟨⟨_, rfl⟩, ⟨rfl, _, rfl⟩, ⟨rfl, _, rfl⟩⟩

/-- OnlyAStartLeavesIdle: nothing pending, a start, and a hardware reset after a command. -/
theorem witness_OnlyAStartLeavesIdle :
    PhaseLegal State.reset ∧ State.reset.cr.status ≠ .busy ∧ step State.reset = .next State.reset ∧
      (∃ t, step { State.reset with host := [.writeCtrl 1] } = .next t ∧ t.cr.status ≠ State.reset.cr.status) ∧
      ∃ t, step { endNoMatch State.reset with host := [.reset] } = .next t ∧ t.cr.status = .idle := by
  refine ⟨by unfold PhaseLegal; decide, by decide, rfl, ⟨_, rfl, by decide⟩, ⟨_, rfl, rfl⟩⟩

/-- HostAccesses: a BUSY core, a core that is not, a byte of OUT at OUT_LEN, and each action. -/
theorem witness_HostAccesses :
    (running .lzLoop State.reset).cr.status = .busy ∧ State.reset.cr.status ≠ .busy ∧ State.reset.cr.outLenReg ≤ 0 ∧
      (0 < (endDone 1 (emit 7 State.reset)).cr.outLenReg ∧
        Memory.read (endDone 1 (emit 7 State.reset)).out 0 = some 7) ∧
      ({ State.reset with host := [.writeIn 0 1] } : State).host = .writeIn 0 1 :: [] ∧
      ({ State.reset with host := [.writeInLen 1] } : State).host = .writeInLen 1 :: [] ∧
      (({ State.reset with host := [.writeCtrl 2] } : State).host = .writeCtrl 2 :: [] ∧
        (2 : Word).getLsbD 0 = false) ∧
      ({ State.reset with host := [.waitDone] } : State).host = .waitDone :: [] ∧
      ({ running .lzLoop State.reset with host := [.reset] } : State).host = .reset :: [] := by
  decide

/-- RawRoundTrip, HfirwRoundTrip, LzRoundTrip and HfiRoundTrip: a source and a state that starts the command on it. -/
theorem witness_RoundTrips :
    ([1, 2] : List Byte).length ≤ Config.sizeMax ∧
      ∃ s : State, StartsWith s [1, 2] (ctrlCompress 3) :=
  ⟨by decide, { withIn [1, 2] State.reset with host := [.writeCtrl (ctrlCompress 3), .waitDone] },
    loaded_withIn [1, 2], rfl, rfl⟩

end Sys2Proof.Tests
end

