-- ==== Sys2Proof/Proofs/BitIO.lean ====
section
/-! PROOFS. The direct byte source and the Huffman bit reader (rules R145, R147, R150). -/

namespace Sys2Proof.Machine

/-- A read of IN at or beyond `in_len` raises E_TRUNC with the index, nothing changed (rules R78, R347). -/
theorem inRead_of_inLen_le {a : Nat} {s : State} (h : s.seq.inLen ≤ a) :
    inRead a s = .error (.raise .eTrunc a s) :=
  inRead_error.2 (.inl ⟨h, rfl⟩)

/-- HF.RDBIT takes the next bit of its cursor while one is left (rule R145). -/
theorem hfRdBit_of_rem_ne_zero {s : State} (h : s.hf.rem ≠ 0) :
    hfRdBit s =
      .ok (s.hf.cur.getLsbD (s.hf.rem.toNat - 1), { s with hf := { s.hf with rem := s.hf.rem - 1 } }) :=
  rdBitWith_ok.2 (.inl ⟨h, rfl, rfl⟩)

/-- With no bit left HF.RDBIT fetches the byte at `hp`, delivers its bit 7 and keeps the other seven (rule R147). -/
theorem hfRdBit_of_fetch {s : State} {b : Byte} (hrem : s.hf.rem = 0) (hlt : s.hf.hp < s.seq.inLen)
    (hread : Memory.read s.inMem s.hf.hp = some b) :
    hfRdBit s = .ok (b.getLsbD 7, { s with hf := { s.hf with hp := s.hf.hp + 1, cur := b, rem := 7 } }) := by
  have hfetch : hfFetch s = .ok (b, { s with hf := { s.hf with hp := s.hf.hp + 1 } }) :=
    hfFetch_ok.2 ⟨hlt, hread, rfl⟩
  exact rdBitWith_ok.2 (.inr ⟨hrem, b, _, hfetch, rfl, rfl⟩)

end Sys2Proof.Machine

namespace Sys2Proof.Safety

open Sys2Proof.Machine

/-- Settles O10: at the end of IN the read raises E_TRUNC, below it the read answers and `ip` moves. -/
theorem directByteSource : Obligations.DirectByteSource := by
  intro s b
  refine ⟨fun hend => ?atEnd, fun hlt hread => ?below⟩
  case atEnd => exact inRdByte_error.2 (inRead_of_inLen_le hend)
  case below => exact inRdByte_ok.2 ⟨hlt, hread, rfl⟩

/-- Settles O11: a bit left in the cursor, a fetch below `in_len`, and a fetch at the end of IN. -/
theorem huffmanBitReader : Obligations.HuffmanBitReader := by
  intro s b
  refine ⟨hfRdBit_of_rem_ne_zero, hfRdBit_of_fetch, fun hrem hend => ?atEnd⟩
  case atEnd => exact hfRdBit_error.2 ⟨hrem, inRead_of_inLen_le hend⟩

end Sys2Proof.Safety
end

