-- ==== Sys2Proof/Proofs/Search.lean ====
section
/-! PROOFS. LZ.SEARCH: the best match after each candidate distance (rules R191, R192). -/

namespace Sys2Proof.Machine

open Sys2Proof.Safety

/-- One iteration of the outer loop of LZ.SEARCH, at candidate distance `d` (rule R191). -/
def tryDist (src : List Byte) (p d : Nat) (r : SearchResult) : SearchResult :=
  let n := matchLen src p d (src.length - p) 0
  let r := if r.bestLen < n then { r with bestLen := n, bestDist := d } else r
  { r with candDist := d, candLen := n }

theorem searchLoop_succ (src : List Byte) (p k d : Nat) (r : SearchResult) :
    searchLoop src p (k + 1) d r = searchLoop src p k (d + 1) (tryDist src p d r) := rfl

/-- A longer candidate becomes the best match. -/
theorem tryDist_of_lt {src : List Byte} {p d : Nat} {r : SearchResult}
    (h : r.bestLen < matchLen src p d (src.length - p) 0) :
    (tryDist src p d r).bestLen = matchLen src p d (src.length - p) 0 ∧ (tryDist src p d r).bestDist = d := by
  simp [tryDist, h]

/-- A candidate that is not longer, be it as long, leaves the best match alone (rule R192). -/
theorem tryDist_of_le {src : List Byte} {p d : Nat} {r : SearchResult}
    (h : matchLen src p d (src.length - p) 0 ≤ r.bestLen) :
    (tryDist src p d r).bestLen = r.bestLen ∧ (tryDist src p d r).bestDist = r.bestDist := by
  simp [tryDist, Nat.not_lt.2 h]

/-- `r` holds the best match over the distances from 1 up to but without `b`: the invariant of the outer loop. -/
structure BestBelow (src : List Byte) (p b : Nat) (r : SearchResult) : Prop where
  /-- No match at these distances is longer. -/
  longest : ∀ d n, 1 ≤ d → d < b → Matches src p d n → n ≤ r.bestLen
  /-- The best distance is one of them. -/
  inRange : r.bestLen ≠ 0 → 1 ≤ r.bestDist ∧ r.bestDist < b
  /-- The best match is a match. -/
  found : r.bestLen ≠ 0 → Matches src p r.bestDist r.bestLen
  /-- At every smaller distance all matches are shorter. -/
  smallest : r.bestLen ≠ 0 → ∀ d n, 1 ≤ d → d < r.bestDist → Matches src p d n → n < r.bestLen

/-- Before the first candidate there is no best match. -/
theorem bestBelow_one (src : List Byte) (p : Nat) (r : SearchResult) (h : r.bestLen = 0) :
    BestBelow src p 1 r where
  longest _ _ h1 hlt := absurd hlt (Nat.not_lt.2 h1)
  inRange hne := absurd h hne
  found hne := absurd h hne
  smallest hne := absurd h hne

/-- The candidate at distance `b` extends the invariant to `b`: a longer match is longer than all matches at smaller
distances, and one that is not longer changes nothing. -/
theorem tryDist_bestBelow {src : List Byte} {p b : Nat} {r : SearchResult} (h1 : 1 ≤ b) (hbp : b ≤ p)
    (hp : p < src.length) (h : BestBelow src p b r) : BestBelow src p (b + 1) (tryDist src p b r) := by
  obtain ⟨hmatch, hmax⟩ :=
    matchLen_longest src p b (src.length - p) 0 h1 hbp hp (Nat.zero_add _) (fun i hi => absurd hi (Nat.not_lt_zero i))
  rcases Nat.lt_or_ge r.bestLen (matchLen src p b (src.length - p) 0) with hlt | hle
  case inl =>
    obtain ⟨hlen, hdist⟩ := tryDist_of_lt hlt
    have hshorter : ∀ d n, 1 ≤ d → d < b → Matches src p d n → n < matchLen src p b (src.length - p) 0 :=
      fun d n hd hdb hm => (h.longest d n hd hdb hm).trans_lt hlt
    constructor <;> rw [hlen]
    case longest =>
      intro d n hd hdb hm
      rcases Nat.lt_succ_iff_lt_or_eq.1 hdb with hlow | rfl
      · exact (hshorter d n hd hlow hm).le
      · exact hmax n hm
    all_goals rw [hdist]
    case inRange => exact fun _ => ⟨h1, Nat.lt_succ_self b⟩
    case found => exact fun _ => hmatch
    case smallest => exact fun _ => hshorter
  case inr =>
    obtain ⟨hlen, hdist⟩ := tryDist_of_le hle
    constructor <;> rw [hlen]
    case longest =>
      intro d n hd hdb hm
      rcases Nat.lt_succ_iff_lt_or_eq.1 hdb with hlow | rfl
      · exact h.longest d n hd hlow hm
      · exact (hmax n hm).trans hle
    all_goals rw [hdist]
    case inRange => exact fun hne => ⟨(h.inRange hne).1, (h.inRange hne).2.trans (Nat.lt_succ_self b)⟩
    case found => exact h.found
    case smallest => exact h.smallest

/-- `k` further candidates, all inside the source, extend the invariant by `k`. -/
theorem searchLoop_bestBelow {src : List Byte} {p : Nat} (hp : p < src.length) (k b : Nat) (r : SearchResult)
    (h1 : 1 ≤ b) (hk : b + k ≤ p + 1) (h : BestBelow src p b r) :
    BestBelow src p (b + k) (searchLoop src p k b r) := by
  induction k generalizing b r with
  | zero => exact h
  | succ k ih =>
    rw [searchLoop_succ, ← Nat.add_assoc, Nat.add_right_comm]
    exact ih (b + 1) (tryDist src p b r) (by omega) (by omega) (tryDist_bestBelow h1 (by omega) hp h)

/-- LZ.SEARCH holds the best match over the whole window (rule R191). -/
theorem lzSearch_bestBelow {src : List Byte} {p : Nat} (cd cl : Nat) (hp : p < src.length) :
    BestBelow src p (1 + min p Config.winSize) (lzSearch src p cd cl) :=
  searchLoop_bestBelow hp (min p Config.winSize) 1 _ (Nat.le_refl 1) (by omega) (bestBelow_one src p _ rfl)

end Sys2Proof.Machine

namespace Sys2Proof.Safety

open Sys2Proof.Machine

/-- Settles O41, by the invariant of the outer loop: only a strictly longer match replaces the best. -/
theorem searchFindsTheLongest : Obligations.SearchFindsTheLongest := by
  intro src p cd cl hp
  have hbest := lzSearch_bestBelow cd cl hp
  refine ⟨fun d n h1 hd hm => hbest.longest d n h1 (by omega) hm, fun hne => ?_⟩
  obtain ⟨h1, hlt⟩ := hbest.inRange hne
  exact ⟨h1, by omega, hbest.found hne, fun d hd hdb hm => lt_irrefl _ (hbest.smallest hne d _ hd hdb hm)⟩

end Sys2Proof.Safety
end

