-- ==== Sys2Proof/Proofs/EncRaw.lean ====
section
/-! PROOFS. ENC.RAW: the source bytes, the built header, and the blob of the two (rules R136, R263, R269). -/

namespace Sys2Proof.Machine

open Sys2Proof.Safety

/-- A sequence stands where it has been written. -/
theorem holdsAt_writeAll {α : Type} (m : Memory α) (a : Nat) (vs : List α) : HoldsAt (Memory.writeAll m a vs) a vs :=
  Memory.read_writeAll_inside vs m a

/-- The source of a COMPRESS is what IN holds up to `src_len`, if `in_len` covers it. -/
theorem srcBytes_of_holdsAt {s : State} {src : List Byte} (hlen : s.le.srcLen = src.length)
    (hin : src.length ≤ s.seq.inLen) (hsrc : HoldsAt s.inMem 0 src) : srcBytes s = .ok src := by
  rw [srcBytes, hlen]
  exact inReadMany_ok.2 ⟨rfl, fun k hk => ⟨by omega, hsrc k hk⟩⟩

/-- A built header is `HDR_LEN` bytes long (rule R91). -/
@[simp] theorem builtHeader_length (alg : Half) (size nent : Nat) : (builtHeader alg size nent).length = 16 := rfl

/-- Data appended to OUT right after a built header: the two stand there in one row. -/
theorem appendAll_hdrBuild (alg : Half) (size nent : Nat) (data : List Byte) (s : State) :
    appendAll .out data (setDp 16 (hdrBuild alg size nent s)) =
      { hdrBuild alg size nent s with
        out := Memory.writeAll s.out 0 (builtHeader alg size nent ++ data)
        le := { s.le with dp := 16 + data.length } } := by
  rw [appendAll_out, Memory.writeAll_append, builtHeader_length]
  rfl

/-- Where ENC.RAW on the source `src` ends: DONE, with header and source in OUT (rules R263, R269). -/
def encRawEnd (src : List Byte) (s : State) : State :=
  endDone (16 + src.length)
    { hdrBuild 0 src.length 0 s with
      out := Memory.writeAll s.out 0 (builtHeader 0 src.length 0 ++ src)
      le := { s.le with dp := 16 + src.length } }

@[simp] theorem encRawEnd_out (src : List Byte) (s : State) :
    (encRawEnd src s).out = Memory.writeAll s.out 0 (builtHeader 0 src.length 0 ++ src) := by
  rw [encRawEnd, endDone_out]

/-- ENC.RAW on a source it can read ends in `encRawEnd`. -/
theorem exec_encRaw {s : State} {src : List Byte} (hlen : s.le.srcLen = src.length) (hsrc : srcBytes s = .ok src) :
    exec .encRaw s = .next (encRawEnd src s) := by
  have hexec : exec .encRaw s = execEncRaw s := rfl
  rw [hexec, execEncRaw, hsrc, ok_bind, outcomeOf_ok, hlen, appendAll_hdrBuild]
  rfl

end Sys2Proof.Machine

namespace Sys2Proof.Safety

open Sys2Proof.Machine

/-- Settles O37: the source is readable, and OUT takes the header and the source in one row. -/
theorem encRawWritesTheBlob : Obligations.EncRawWritesTheBlob := by
  intro s src hlen hin _ hsrc
  refine ⟨encRawEnd src s, exec_encRaw hlen (srcBytes_of_holdsAt hlen hin hsrc), rfl, ?blob, ?beyond,
    rfl, rfl, rfl, rfl, rfl, rfl, rfl, rfl, rfl, rfl, rfl, rfl⟩ <;> rw [encRawEnd_out]
  case blob => exact holdsAt_writeAll _ _ _
  case beyond =>
    intro a ha
    refine Memory.read_writeAll_outside _ _ _ _ (.inr ?_)
    rw [List.length_append, builtHeader_length]
    omega

end Sys2Proof.Safety
end

