-- ==== Sys2Proof/Proofs/ReferenceFaults.lean ====
section
/-! PROOFS. The two faults of COPY: a reference beyond the output, and one past `dsize` (rules R178, R287, R288). -/

namespace Sys2Proof.Machine

open Sys2Proof.Safety

/-! ### Fault entry (rule R283) -/

/-- The FAULT_CODE the core stores is the one rule R281 numbers. -/
theorem faultNumber_eq_code (f : CoreFault) : faultNumber f = f.code := by cases f <;> rfl

/-- Fault entry leaves the core faulted, with the code and the information of the fault. -/
theorem faulted_takeFault (f : CoreFault) (info : Nat) (u : State) : Faulted f info (takeFault f info u) :=
  ⟨takeFault_cr_status u f info, (takeFault_cr_faultCode u f info).trans (faultNumber_eq_code f).symm,
    takeFault_cr_faultInfo u f info, takeFault_cr_outLenReg u f info, takeFault_seq_phase u f info⟩

/-- A fault raised in a state that differs from `s` inside the decoder only keeps the fault frame of `s`. -/
theorem faultFrame_takeFault {s u : State} (f : CoreFault) (info : Nat) (hsame : SameOutsideDecoder s u)
    (hseq : u.seq = s.seq) (hhtab : u.htab = s.htab) : FaultFrame s (takeFault f info u) := by
  obtain ⟨hcr, hle, hhe, hin, hmid, hhost, hfree⟩ := hsame
  refine ⟨?cr, ?seq, hhtab, hle, hhe, hin, hmid, hhost, hfree⟩
  case cr => rw [← hcr]; rfl
  case seq => rw [← hseq]; rfl

/-! ### COPY's operands and its two checks (rules R168 to R172, R178) -/

/-- Every reference token is a COPY of its offset and its length (rules R168 to R170, R172). -/
theorem exec_reference {i : Instr} {off : BitVec 13} {len : Nat} (h : refOperands i = some (off, len)) (s : State) :
    exec i s = outcomeOf (copy off len s) := by
  cases i <;> cases h
  case refA => rfl
  case refB => rfl
  case refC => rfl
  case refE => rfl

/-- COPY's operands in the token temporaries, before its checks (rule R178). -/
def latchCopy (off : BitVec 13) (len : Nat) (s : State) : State :=
  { s with tmp := { s.tmp with off := off, len := BitVec.ofNat 9 len } }

/-- A distance beyond the bytes produced is E_BADREF, before the length is looked at (rules R178, R294). -/
theorem copy_of_outLen_lt {off : BitVec 13} {len : Nat} {s : State} (h : s.lz.outLen < distOf off) :
    copy off len s = .error (.raise .eBadref (distOf off) (latchCopy off len s)) := if_pos h

/-- A reachable reference that passes `dsize` is E_OVERRUN (rules R178, R288). -/
theorem copy_of_dsize_lt {off : BitVec 13} {len : Nat} {s : State} (hreach : distOf off ≤ s.lz.outLen)
    (h : s.dsize < s.lz.outLen + len) :
    copy off len s = .error (.raise .eOverrun len (latchCopy off len s)) :=
  (if_neg (Nat.not_lt.2 hreach)).trans (if_pos h)

/-- A reference whose COPY raises a fault at its checks ends in that fault, no cursor moved and no byte appended
(rules R178, R283). -/
theorem exec_reference_raise {i : Instr} {off : BitVec 13} {len : Nat} {s : State} {f : CoreFault} {info : Nat}
    (hop : refOperands i = some (off, len)) (hcopy : copy off len s = .error (.raise f info (latchCopy off len s))) :
    ∃ t, exec i s = .next t ∧ Faulted f info t ∧ t.lz = s.lz ∧ t.hf = s.hf ∧ FaultFrame s t := by
  have hexec : exec i s = .next (takeFault f info (latchCopy off len s)) := by
    rw [exec_reference hop, hcopy, outcomeOf_raise]
  have hsame : SameOutsideDecoder s (latchCopy off len s) := ⟨rfl, rfl, rfl, rfl, rfl, rfl, rfl⟩
  exact ⟨_, hexec, faulted_takeFault _ _ _, takeFault_lz _ _ _, takeFault_hf _ _ _,
    faultFrame_takeFault f info hsame rfl rfl⟩

end Sys2Proof.Machine

namespace Sys2Proof.Safety

open Sys2Proof.Machine

/-- Settles O27: COPY makes both checks before its first byte, the distance first. -/
theorem referenceFaults : Obligations.ReferenceFaults := by
  intro s i off len hop
  refine ⟨fun hfar => ?badref, fun hreach hlong => ?overrun⟩
  case badref => exact exec_reference_raise hop (copy_of_outLen_lt hfar)
  case overrun => exact exec_reference_raise hop (copy_of_dsize_lt hreach hlong)

end Sys2Proof.Safety
end

