-- ==== Sys2Proof/Proofs/Encoding.lean ====
section
/-! PROOFS. Encoder and decoder (`30_encoding.md`): CTRL words, algorithm ids, table words, tokens and token streams. -/

namespace Sys2Proof

open Sys2Proof.Machine Sys2Proof.Safety

/-! ### CTRL words and algorithm ids (rules R22, R92, R112) -/

/-- A CTRL word with `start = 1` and the reserved bits 0. -/
def ctrlWord (op : Bool) (alg : Half) : Word := alg ++ (0 : BitVec 14) ++ BitVec.ofBool op ++ (1 : BitVec 1)

/-- A field above another one. -/
theorem append_toNat {v w : Nat} (x : BitVec v) (y : BitVec w) : (x ++ y).toNat = x.toNat * 2 ^ w + y.toNat := by
  rw [BitVec.toNat_append, Nat.shiftLeft_eq, Nat.mul_comm, ← Nat.two_pow_add_eq_or_of_lt y.isLt]

theorem ctrlWord_toNat (op : Bool) (alg : Half) : (ctrlWord op alg).toNat = 65536 * alg.toNat + 2 * op.toNat + 1 := by
  rw [ctrlWord, append_toNat, append_toNat, append_toNat, BitVec.toNat_ofBool]
  simp
  omega

theorem ctrlWord_start (op : Bool) (alg : Half) : (ctrlWord op alg).getLsbD 0 = true := by
  rw [← BitVec.testBit_toNat, ctrlWord_toNat, Nat.testBit_zero]
  exact decide_eq_true (by omega)

theorem ctrlWord_op (op : Bool) (alg : Half) : (ctrlWord op alg).getLsbD 1 = op := by
  rw [← BitVec.testBit_toNat, ctrlWord_toNat, Nat.testBit_succ, Nat.testBit_zero]
  cases op
  · exact decide_eq_false (by simp; omega)
  · exact decide_eq_true (by simp; omega)

@[simp] theorem ctrlWord_alg (op : Bool) (alg : Half) : (ctrlWord op alg).extractLsb' 16 16 = alg := by
  have halg := alg.isLt
  have hop : op.toNat ≤ 1 := Bool.toNat_le op
  apply BitVec.eq_of_toNat_eq
  rw [BitVec.extractLsb'_toNat, ctrlWord_toNat, Nat.shiftRight_eq_div_pow]
  omega

/-- The bytes of a CTRL word read back as that word (rule R68, log 22). -/
theorem word32_ctrlBytes (op : Bool) (alg : Half) : word32 (ctrlBytes op alg) = .ok (ctrlWord op alg) :=
  word32_le32Bytes _

@[simp] theorem decodeCtrl_compress (alg : Half) : decodeCtrl (ctrlWord true alg) = .ok (.compress alg) := by
  rw [decodeCtrl, ctrlWord_start, ctrlWord_op, ctrlWord_alg]
  rfl

@[simp] theorem decodeCtrl_decompress (alg : Half) : decodeCtrl (ctrlWord false alg) = .ok .decompress := by
  rw [decodeCtrl, ctrlWord_start, ctrlWord_op]
  rfl

@[simp] theorem decodeEncSelect_ctrlWord (alg : Half) : decodeEncSelect (ctrlWord true alg) = decodeEncAlg alg := by
  rw [decodeEncSelect, ctrlWord_start, ctrlWord_op, ctrlWord_alg]
  rfl

/-- An accepted encoder id selects one of the four ENC.* rows. -/
theorem decodeEncAlg_ok {id : Half} {i : Instr} (h : decodeEncAlg id = .ok i) :
    i = .encRaw ∨ i = .encHfirw ∨ i = .encLz ∨ i = .encHfi := by
  unfold decodeEncAlg at h
  split_ifs at h <;> cases h <;> simp

/-- An accepted header id selects one of the four DEC.* rows. -/
theorem decodeHdrAlg_ok {id : Half} {i : Instr} (h : decodeHdrAlg id = .ok i) :
    i = .decRaw ∨ i = .decHfirw ∨ i = .decLz ∨ i = .decHfi := by
  unfold decodeHdrAlg at h
  split_ifs at h <;> cases h <;> simp

/-- A CTRL word that starts a command starts one of the two. -/
theorem decodeCtrl_ok {w : Word} {i : Instr} (h : decodeCtrl w = .ok i) :
    w.getLsbD 0 = true ∧ (i = .decompress ∨ ∃ alg, i = .compress alg) := by
  unfold decodeCtrl at h
  split_ifs at h with h0 h1 <;> cases h
  · exact ⟨by simpa using h0, .inl rfl⟩
  · exact ⟨by simpa using h0, .inr ⟨_, rfl⟩⟩

/-- A CTRL word without `start` starts nothing. -/
theorem decodeCtrl_of_not_start {w : Word} (h : w.getLsbD 0 = false) : decodeCtrl w = .error .notStarted :=
  if_pos h

/-- A CTRL word with `start` starts a command. -/
theorem decodeCtrl_of_start {w : Word} (h : w.getLsbD 0 = true) : ∃ i, decodeCtrl w = .ok i := by
  unfold decodeCtrl
  rw [if_neg (by simp [h])]
  split_ifs
  · exact ⟨_, rfl⟩
  · exact ⟨_, rfl⟩

/-- The selection of a COMPRESS accepts what its algorithm id selects. -/
theorem decodeEncSelect_ok {w : Word} {i : Instr} (h : decodeEncSelect w = .ok i) :
    decodeEncAlg (w.extractLsb' 16 16) = .ok i := by
  unfold decodeEncSelect at h
  split_ifs at h
  exact h

/-! ### Table words (rule R94) -/

@[simp] theorem decodeHtWord_leaf (b : Byte) : decodeHtWord (b.setWidth 16) = .htLeaf b := by
  have hb := b.isLt
  have hv : (b.setWidth 16).toNat = b.toNat := by
    rw [BitVec.toNat_setWidth]
    omega
  unfold decodeHtWord
  rw [BitVec.msb_eq_decide, hv, if_neg (by simp; omega), if_pos (by rw [Config.htLeafLimit]; omega)]
  congr 1
  apply BitVec.eq_of_toNat_eq
  simp
  omega

theorem decodeHtWord_node {n : BitVec 15} (h : 0x100 ≤ n.toNat) : decodeHtWord (n.setWidth 16) = .htNode n := by
  have hn := n.isLt
  have hv : (n.setWidth 16).toNat = n.toNat := by
    rw [BitVec.toNat_setWidth]
    omega
  unfold decodeHtWord
  rw [BitVec.msb_eq_decide, hv, if_neg (by simp; omega), if_neg (by rw [Config.htLeafLimit]; omega)]
  congr 1
  apply BitVec.eq_of_toNat_eq
  simp
  omega

theorem htInvalidWord_toNat (x : BitVec 15) : (htInvalidWord x).toNat = 0x8000 + x.toNat := by
  have hx := x.isLt
  rw [htInvalidWord, BitVec.toNat_append, Nat.shiftLeft_eq, Nat.mul_comm, ← Nat.two_pow_add_eq_or_of_lt hx]
  rfl

@[simp] theorem htInvalidWord_msb (x : BitVec 15) : (htInvalidWord x).msb = true := by
  rw [BitVec.msb_eq_decide, htInvalidWord_toNat]
  simp

@[simp] theorem decodeHtWord_htInvalidWord (x : BitVec 15) : decodeHtWord (htInvalidWord x) = .htInvalid x := by
  have hx := x.isLt
  unfold decodeHtWord
  rw [if_pos (htInvalidWord_msb x)]
  congr 1
  apply BitVec.eq_of_toNat_eq
  simp only [BitVec.extractLsb'_toNat, htInvalidWord_toNat, Nat.shiftRight_zero]
  omega

/-- Every table word is a leaf's, a node's or a negative one. -/
theorem htWord_cases (v : Half) : (∃ b : Byte, v = b.setWidth 16) ∨
    (∃ n : BitVec 15, 0x100 ≤ n.toNat ∧ v = n.setWidth 16) ∨ ∃ x : BitVec 15, v = htInvalidWord x := by
  have hv := v.isLt
  by_cases hleaf : v.toNat < 0x100
  · exact .inl ⟨v.setWidth 8, BitVec.eq_of_toNat_eq (by simp; omega)⟩
  by_cases hnode : v.toNat < 0x8000
  · exact .inr (.inl ⟨v.setWidth 15, by simp; omega, BitVec.eq_of_toNat_eq (by simp; omega)⟩)
  · refine .inr (.inr ⟨v.setWidth 15, BitVec.eq_of_toNat_eq ?_⟩)
    rw [htInvalidWord_toNat, BitVec.toNat_setWidth]
    omega

/-- A table word decodes to the instruction that stands for it, and to no other. -/
theorem decodeHtWord_wellFormed (v : Half) : (decodeHtWord v).wellFormed = true ∧ (decodeHtWord v).format = .htWord := by
  obtain ⟨b, rfl⟩ | ⟨n, hn, rfl⟩ | ⟨x, rfl⟩ := htWord_cases v
  · rw [decodeHtWord_leaf]
    exact ⟨rfl, rfl⟩
  · rw [decodeHtWord_node hn]
    exact ⟨decide_eq_true hn, rfl⟩
  · rw [decodeHtWord_htInvalidWord]
    exact ⟨rfl, rfl⟩

/-! ### Tokens and their streams (rules R96, R97, R156, R166) -/

/-- The token reader answers well-formed tokens only: a REF.B has a length field, the escape byte is RUN.D's. -/
theorem readToken_wellFormed {σ ε : Type} {src : TokenSource σ ε} {s t : σ} {i : Instr}
    (h : readToken src s = .ok (i, t)) : i.wellFormed = true := by
  unfold readToken at h
  obtain ⟨⟨b0, s0⟩, -, h⟩ := bind_ok.1 h
  dsimp only at h
  split_ifs at h
  · obtain ⟨⟨v, s1⟩, -, h⟩ := bind_ok.1 h
    cases h; rfl
  obtain ⟨⟨b1, s1⟩, -, h⟩ := bind_ok.1 h
  dsimp only at h
  split_ifs at h
  · obtain ⟨⟨l, s2⟩, -, h⟩ := bind_ok.1 h
    obtain ⟨⟨o, s3⟩, -, h⟩ := bind_ok.1 h
    cases h; rfl
  obtain ⟨⟨hi, s2⟩, -, h⟩ := bind_ok.1 h
  obtain ⟨⟨lo, s3⟩, -, h⟩ := bind_ok.1 h
  dsimp only at h
  split_ifs at h with hl
  · cases h
    simpa [Instr.wellFormed] using hl
  obtain ⟨⟨b2, s4⟩, -, h⟩ := bind_ok.1 h
  dsimp only at h
  split_ifs at h
  · obtain ⟨⟨n, s5⟩, -, h⟩ := bind_ok.1 h
    cases h; rfl
  obtain ⟨⟨e, s5⟩, -, h⟩ := bind_ok.1 h
  dsimp only at h
  split_ifs at h with he <;> cases h
  · rfl
  · simpa [Instr.wellFormed] using he

theorem isToken_iff {t : Instr} : isToken t = true ↔ t.format = .lzToken := by
  simp [isToken]

/-- A token's items begin with a control bit. -/
theorem items_eq_control_cons {t : Instr} (ht : t.format = .lzToken) : ∃ b rest, t.items = .control b :: rest := by
  cases t with
  | lit _ | refA _ _ | refB _ _ | refC _ _ | runD _ | refE _ _ => exact ⟨_, _, rfl⟩
  | decompress | compress _ | encRaw | encHfirw | encLz | encHfi | decRaw | decHfirw | decLz | decHfi | htLeaf _
  | htNode _ | htInvalid _ => cases ht

/-- So do the items of a row of pieces that each begin with a token. -/
theorem flatMap_head_control {α : Type} (f : α → List Item) (l : List α)
    (h : ∀ x ∈ l, ∃ b rest, f x = .control b :: rest) (v : Byte) : (l.flatMap f).head? ≠ some (.payload v) := by
  cases l with
  | nil => simp
  | cons x l =>
    obtain ⟨b, rest, hx⟩ := h x (by simp)
    simp [hx]

/-- Tokens that lie ahead of a cursor are read back one after another. -/
theorem ahead_decodeTokens (ts : List Instr) {p : StreamPos} (hts : ∀ t ∈ ts, isToken t = true ∧ t.wellFormed = true)
    (h : Ahead p (ts.flatMap Instr.items)) : ∃ q, decodeTokens ts.length p = .ok (ts, q) ∧ q.bytes = [] := by
  induction ts generalizing p with
  | nil => exact ⟨p, rfl, ahead_nil h⟩
  | cons t ts ih =>
    obtain ⟨htok, hwf⟩ := hts t (by simp)
    rw [List.flatMap_cons] at h
    obtain ⟨q, hq, h⟩ := ahead_token (isToken_iff.1 htok) hwf h
    obtain ⟨r, hr, hend⟩ := ih (fun x hx => hts x (by simp [hx])) h
    refine ⟨r, ?_, hend⟩
    rw [List.length_cons, decodeTokens, hq, ok_bind]
    dsimp only
    rw [hr]
    rfl

/-- So are tokens with their data bytes. -/
theorem ahead_decodeWithData (ts : List (Instr × List Byte)) {p : StreamPos}
    (hts : ∀ t ∈ ts, isToken t.1 = true ∧ t.1.wellFormed = true ∧ t.2.length = dataLength t.1)
    (h : Ahead p (ts.flatMap itemsWithData)) : ∃ q, decodeWithData ts.length p = .ok (ts, q) ∧ q.bytes = [] := by
  induction ts generalizing p with
  | nil => exact ⟨p, rfl, ahead_nil h⟩
  | cons x ts ih =>
    obtain ⟨t, bs⟩ := x
    obtain ⟨htok, hwf, hlen⟩ := hts (t, bs) (by simp)
    rw [List.flatMap_cons, itemsWithData, List.append_assoc] at h
    obtain ⟨q, hq, h⟩ := ahead_token (isToken_iff.1 htok) hwf h
    obtain ⟨r, hr, h⟩ := ahead_readPayload bs h
    obtain ⟨u, hu, hend⟩ := ih (fun x hx => hts x (by simp [hx])) h
    refine ⟨u, ?_, hend⟩
    rw [List.length_cons, decodeWithData, hq, ok_bind]
    dsimp only
    rw [← hlen, hr, ok_bind]
    dsimp only
    rw [hu]
    rfl

/-- A token is read back from its own stream. -/
theorem decode_lzStream_singleton {t : Instr} (ht : t.format = .lzToken) (hw : t.wellFormed = true) :
    decode .lzToken (lzStream [t]) = .ok t := by
  have hahead : Ahead (StreamPos.start (lzStream [t])) ([t].flatMap Instr.items) :=
    ahead_start _ (flatMap_head_control _ _ fun x hx => items_eq_control_cons (by rw [List.mem_singleton.1 hx, ht]))
  rw [List.flatMap_singleton, ← List.append_nil t.items] at hahead
  obtain ⟨q, hq, -⟩ := ahead_token ht hw hahead
  rw [decode, hq]
  rfl

end Sys2Proof

namespace Sys2Proof.Safety

open Sys2Proof.Machine

/-- Settles O1, format by format. -/
theorem decodeEncodeAgree : Obligations.DecodeEncodeAgree := by
  intro i hw
  cases i with
  | decompress | compress alg =>
    simp only [Instr.format, encode, decode, word32_ctrlBytes, ok_bind, decodeCtrl_compress, decodeCtrl_decompress]
  | encRaw | encHfirw | encLz | encHfi =>
    simp only [Instr.format, encode, decode, word32_ctrlBytes, ok_bind, decodeEncSelect_ctrlWord]
    rfl
  | decRaw | decHfirw | decLz | decHfi =>
    simp only [Instr.format, encode, decode, word16_le16Bytes, ok_bind]
    rfl
  | lit _ | refA _ _ | refB _ _ | refC _ _ | runD _ | refE _ _ => exact decode_lzStream_singleton rfl hw
  | htLeaf b =>
    simp only [Instr.format, encode, decode, word16_le16Bytes, Except.map, decodeHtWord_leaf]
  | htNode n =>
    simp only [Instr.format, encode, decode, word16_le16Bytes, Except.map, decodeHtWord_node (of_decide_eq_true hw)]
  | htInvalid x =>
    exact (congrArg (Except.map decodeHtWord) (word16_le16Bytes _)).trans
      (congrArg Except.ok (decodeHtWord_htInvalidWord x))

/-- Settles O2, format by format. -/
theorem decodedIsWellFormed : Obligations.DecodedIsWellFormed := by
  intro f bytes i h
  cases f with
  | ctrlWrite =>
    obtain ⟨w, -, h⟩ := bind_ok.1 h
    obtain ⟨-, rfl | ⟨alg, rfl⟩⟩ := decodeCtrl_ok h
    · exact ⟨rfl, rfl⟩
    · exact ⟨rfl, rfl⟩
  | encSelect =>
    obtain ⟨w, -, h⟩ := bind_ok.1 h
    obtain rfl | rfl | rfl | rfl := decodeEncAlg_ok (decodeEncSelect_ok h) <;> exact ⟨rfl, rfl⟩
  | hdrAlg =>
    obtain ⟨w, -, h⟩ := bind_ok.1 h
    obtain rfl | rfl | rfl | rfl := decodeHdrAlg_ok h <;> exact ⟨rfl, rfl⟩
  | lzToken =>
    rw [decode] at h
    rcases hd : decodeToken (StreamPos.start bytes) with e | ⟨j, p⟩ <;> rw [hd] at h <;> cases h
    exact ⟨readToken_wellFormed hd, readToken_format hd⟩
  | htWord =>
    rw [decode] at h
    rcases hw : word16 bytes with e | w <;> rw [hw] at h <;> cases h
    exact decodeHtWord_wellFormed w

/-- Settles O3: every word is decoded as it stands. -/
theorem specWordsDecode : Obligations.SpecWordsDecode := by
  unfold Obligations.SpecWordsDecode
  decide

/-- Settles O4, by the kind of the word. -/
theorem tableWordKindByValue : Obligations.TableWordKindByValue := by
  intro v
  obtain ⟨b, rfl⟩ | ⟨n, hn, rfl⟩ | ⟨x, rfl⟩ := htWord_cases v
  case inl =>
    have hb := b.isLt
    have hv : (b.setWidth 16).toInt = b.toNat := by
      rw [BitVec.toInt_eq_toNat_of_lt (by rw [BitVec.toNat_setWidth]; omega), BitVec.toNat_setWidth]
      omega
    refine ⟨fun _ => ⟨b, decodeHtWord_leaf b, hv.symm⟩, fun h => ?_, fun h => ?_⟩ <;> omega
  case inr.inl =>
    have hlt := n.isLt
    have hv : (n.setWidth 16).toInt = n.toNat := by
      rw [BitVec.toInt_eq_toNat_of_lt (by rw [BitVec.toNat_setWidth]; omega), BitVec.toNat_setWidth]
      omega
    refine ⟨fun h => ?_, fun _ => ⟨n, decodeHtWord_node hn, hv.symm⟩, fun h => ?_⟩ <;> omega
  case inr.inr =>
    have hv : (htInvalidWord x).toInt < 0 := BitVec.toInt_neg_of_msb_true (htInvalidWord_msb x)
    refine ⟨fun h => ?_, fun h => ?_, fun _ => ⟨x, decodeHtWord_htInvalidWord x, rfl⟩⟩ <;> omega

/-- Settles O5, by induction on the tokens: the cursor always stands in front of the items that are left. -/
theorem tokenStreamReadsBack : Obligations.TokenStreamReadsBack := by
  refine ⟨fun ts hts => ?withoutData, fun ts hts => ?withData⟩
  case withoutData =>
    refine ahead_decodeTokens ts hts (ahead_start _ (flatMap_head_control _ _ fun t ht => ?_))
    exact items_eq_control_cons (isToken_iff.1 (hts t ht).1)
  case withData =>
    refine ahead_decodeWithData ts hts (ahead_start _ (flatMap_head_control _ _ fun t ht => ?_))
    obtain ⟨b, rest, hitems⟩ := items_eq_control_cons (isToken_iff.1 (hts t ht).1)
    exact ⟨b, _, by rw [itemsWithData, hitems]; rfl⟩

end Sys2Proof.Safety
end

