-- ==== Sys2Proof/Proofs/Steps.lean ====
section
/-! PROOFS. One step: which instruction runs, what the host's actions and reads do, and what reset leaves (rules R22,
R165, R221, R255, R305, R320, R331, R338). -/

namespace Sys2Proof.Machine

open Sys2Proof.Safety

/-! ### Whose step it is (log 2) -/

theorem step_of_host_nil {s : State} (h : s.host = []) : step s = seqStep s := by
  rw [step, machineStep, h]

theorem step_of_host_cons {s : State} {op : HostOp} {rest : List HostOp} (h : s.host = op :: rest) :
    step s = hostStep op { s with host := rest } := by
  rw [step, machineStep, h]

theorem busy_iff {s : State} : s.busy = true ↔ s.cr.status = .busy := by
  simp [State.busy]

theorem busy_eq_false_iff {s : State} : s.busy = false ↔ s.cr.status ≠ .busy := by
  simp [State.busy]

/-! ### The host's actions -/

theorem whenIdle_of_busy {s : State} (t : State) (h : s.busy = true) : whenIdle s t = .refused .hostAccessWhileBusy :=
  if_pos h

theorem whenIdle_of_not_busy {s : State} (t : State) (h : s.busy = false) : whenIdle s t = .next t :=
  if_neg (by simp [h])

/-- A CTRL write with `start = 1` runs the command of its fields (rule R255). -/
theorem hostWriteCtrl_start {w : Word} {i : Instr} (s : State) (h : decodeCtrl w = .ok i) :
    hostWriteCtrl w s = exec i (if s.busy then s else writeCtrlReg w s) := by
  rw [hostWriteCtrl, h]

/-- A CTRL write with `start = 0` stores its fields (rule R22). -/
theorem hostWriteCtrl_noStart {w : Word} (s : State) (h : w.getLsbD 0 = false) :
    hostWriteCtrl w s = whenIdle s (writeCtrlReg w s) := by
  rw [hostWriteCtrl, decodeCtrl_of_not_start h]

/-- While BUSY a command changes nothing (rule R255). -/
theorem exec_command_of_busy {s : State} {w : Word} {i : Instr} (hi : decodeCtrl w = .ok i) (h : s.busy = true) :
    exec i s = .next s := by
  obtain ⟨-, rfl | ⟨alg, rfl⟩⟩ := decodeCtrl_ok hi
  · exact if_pos h
  · exact if_pos h

/-- A host that waits for a BUSY core lets the sequencer step (rule R338). -/
theorem step_of_waiting {s : State} {rest : List HostOp} (h : s.host = .waitDone :: rest) (hb : s.busy = true) :
    step s = seqStep s := by
  rw [step_of_host_cons h]
  refine (if_pos hb).trans ?_
  rw [← h]

/-- A host that waits for a core that is not BUSY goes on (rule R338). -/
theorem step_of_waited {s : State} {rest : List HostOp} (h : s.host = .waitDone :: rest) (hb : s.busy = false) :
    step s = .next { s with host := rest } := by
  rw [step_of_host_cons h]
  exact if_neg fun hbusy : s.busy = true => by simp [hb] at hbusy

/-- The stored bits of CTRL: `op` and `alg` (rule R22). -/
theorem writeCtrlReg_getLsbD (w : Word) (s : State) (k : Nat) :
    (writeCtrlReg w s).cr.ctrl.getLsbD k = (w.getLsbD k && (decide (k = 1) || decide (16 ≤ k))) := by
  have hmask : ∀ k, k < 32 → ctrlMask.getLsbD k = (decide (k = 1) || decide (16 ≤ k)) := by decide
  rw [writeCtrlReg_cr_ctrl, BitVec.getLsbD_and]
  by_cases hk : k < 32
  · rw [hmask k hk]
  · rw [BitVec.getLsbD_of_ge w k (by omega), Bool.false_and, Bool.false_and]

/-! ### The sequencer's step, by phase -/

theorem seqStep_idle {s : State} (h : s.seq.phase = .idle) : seqStep s = .next s := by
  rw [seqStep, h]

theorem seqStep_decSelect {s : State} {i : Instr} (h : s.seq.phase = .decSelect)
    (hi : decodeHdrAlg s.cr.hdrAlg = .ok i) : seqStep s = exec i s := by
  simp only [seqStep, h, hi]

theorem seqStep_encSelect {s : State} {i : Instr} (h : s.seq.phase = .encSelect)
    (hi : decodeEncSelect (encWord s) = .ok i) : seqStep s = exec i s := by
  simp only [seqStep, h, hi]

/-- The loops end the command where `out_len = dsize` (rules R165, R221). -/
theorem seqStep_loopEnd {s : State} (h : s.seq.phase = .lzLoop ∨ s.seq.phase = .hfirwLoop)
    (hend : s.lz.outLen = s.dsize) : seqStep s = .next (endDone s.lz.outLen s) := by
  rcases h with h | h
  · simp only [seqStep, h, if_pos hend]
  · simp only [seqStep, h, if_pos hend]

theorem seqStep_lzLoop {s : State} (h : s.seq.phase = .lzLoop) (hgo : s.lz.outLen ≠ s.dsize) :
    seqStep s = runFetched (fetchToken s) := by
  simp only [seqStep, h, if_neg hgo]

theorem seqStep_hfirwLoop {s : State} (h : s.seq.phase = .hfirwLoop) (hgo : s.lz.outLen ≠ s.dsize) :
    seqStep s = exec (decodeHtWord s.hf.htLen) (setNode s.hf.htLen s) := by
  simp only [seqStep, h, if_neg hgo]

theorem seqStep_hfirwWord {s : State} (h : s.seq.phase = .hfirwWord) :
    seqStep s = exec (decodeHtWord s.hf.node) s := by
  simp only [seqStep, h]

/-- Where STATUS is not BUSY nothing is left to execute (rules R23, R305). -/
theorem phase_idle_of_not_busy {s : State} (hp : PhaseLegal s) (h : s.cr.status ≠ .busy) : s.seq.phase = .idle := by
  by_contra hne
  exact h (hp.1.2 hne)

end Sys2Proof.Machine

namespace Sys2Proof.Safety

open Sys2Proof.Machine

/-- Settles O8, context by context. -/
theorem stepRunsTheDecodedInstruction : Obligations.StepRunsTheDecodedInstruction := by
  intro s i
  refine ⟨?ctrl, ?dec, ?enc, ?token, ?root, ?word, ?loopEnd, fun rest => step_of_waiting⟩
  case ctrl =>
    intro w rest hhost hi
    rw [step_of_host_cons hhost]
    exact hostWriteCtrl_start _ hi
  case dec =>
    intro hhost hphase hi
    rw [step_of_host_nil hhost, seqStep_decSelect hphase hi]
  case enc =>
    intro hhost hphase hi
    rw [step_of_host_nil hhost, seqStep_encSelect hphase hi]
  case token =>
    intro t hhost hphase hgo hfetch
    rw [step_of_host_nil hhost, seqStep_lzLoop hphase hgo, hfetch]
    rfl
  case root =>
    intro hhost hphase hgo hi
    rw [step_of_host_nil hhost, seqStep_hfirwLoop hphase hgo, hi]
  case word =>
    intro hhost hphase hi
    rw [step_of_host_nil hhost, seqStep_hfirwWord hphase, hi]
  case loopEnd =>
    intro hhost hphase hend
    rw [step_of_host_nil hhost, seqStep_loopEnd hphase hend, hend]
    rfl

/-- Settles O9: the fetch stops, and the step answers the fault entry of rule R283. -/
theorem fetchFaultIsTaken : Obligations.FetchFaultIsTaken := by
  intro s t f info hhost hphase hgo hfetch
  rw [step_of_host_nil hhost, seqStep_lzLoop hphase hgo, hfetch, faultNumber_eq_code]
  rfl

/-- Settles O19, action by action. -/
theorem hostWritesWhileBusy : Obligations.HostWritesWhileBusy := by
  intro s rest hbusy
  refine ⟨fun w hhost hstart => ?start, fun w hhost hstart => ?noStart, fun a b hhost => ?writeIn,
    fun n hhost => ?writeInLen⟩ <;> rw [step_of_host_cons hhost]
  case start =>
    obtain ⟨i, hi⟩ := decodeCtrl_of_start hstart
    have hbusy' : ({ s with host := rest } : State).busy = true := hbusy
    exact (hostWriteCtrl_start _ hi).trans (by rw [if_pos hbusy', exec_command_of_busy hi hbusy'])
  case noStart => exact (hostWriteCtrl_noStart _ hstart).trans (whenIdle_of_busy _ hbusy)
  case writeIn => exact whenIdle_of_busy _ hbusy
  case writeInLen => exact whenIdle_of_busy _ hbusy

/-- Settles O46: nothing has been written, no command has run. -/
theorem resetSatisfiesInvariant : Obligations.ResetSatisfiesInvariant := by
  refine ⟨⟨rfl, rfl, rfl, rfl, rfl, reset_registerFiles⟩, ?_, ?_, ?_⟩
  · unfold RegistersLegal WriterLegal
    decide
  · unfold PhaseLegal
    decide
  · exact ⟨fun h => absurd h (by decide), fun h => absurd h (by decide), fun h => absurd h (by decide),
      fun h => absurd h (by decide)⟩

/-- Settles O47: the column "after reset" of rule R35, and a step of a core without a host. -/
theorem resetRegisters : Obligations.ResetRegisters := by
  have hstep : step State.reset = .next State.reset := (step_of_host_nil rfl).trans (seqStep_idle rfl)
  exact ⟨rfl, rfl, rfl, rfl, rfl, rfl, rfl, rfl, rfl, rfl, rfl, rfl, rfl, rfl, rfl, rfl, rfl, rfl, hstep⟩

/-- Settles O55: between commands the sequencer rests, and only a start or a reset among the host's actions touches
STATUS. -/
theorem onlyAStartLeavesIdle : Obligations.OnlyAStartLeavesIdle := by
  intro s t hlegal hstatus hstep
  have hbusy : s.busy = false := busy_eq_false_iff.2 hstatus
  rcases hhost : s.host with _ | ⟨op, rest⟩
  case nil =>
    rw [step_of_host_nil hhost, seqStep_idle (phase_idle_of_not_busy hlegal hstatus)] at hstep
    cases hstep
    exact ⟨fun _ => rfl, fun h => absurd rfl h⟩
  case cons =>
    refine ⟨nofun, fun hchanged => ?_⟩
    have hidle : ∀ u, whenIdle { s with host := rest } u = .next u := fun u => whenIdle_of_not_busy u hbusy
    rw [step_of_host_cons hhost] at hstep
    cases op with
    | reset => exact .inl ⟨rest, rfl⟩
    | writeIn a b =>
      rw [hostStep, hidle] at hstep
      cases hstep
      exact absurd rfl hchanged
    | writeInLen n =>
      rw [hostStep, hidle] at hstep
      cases hstep
      exact absurd rfl hchanged
    | writeCtrl w =>
      cases hstart : w.getLsbD 0 with
      | true => exact .inr ⟨w, rest, rfl, hstart⟩
      | false =>
        rw [hostStep, hostWriteCtrl_noStart _ hstart, hidle] at hstep
        cases hstep
        exact absurd rfl hchanged
    | waitDone =>
      rw [← step_of_host_cons hhost, step_of_waited hhost hbusy] at hstep
      cases hstep
      exact absurd rfl hchanged

/-- Settles O60: the reads, register by register, and the actions, one by one. -/
theorem hostAccesses : Obligations.HostAccesses := by
  intro s rest
  refine ⟨⟨rfl, rfl, ?status, rfl, rfl, rfl, rfl, rfl, rfl, ?noRegister⟩, fun hb => ?busyReads, fun hb => ?reads,
    fun hb => ?actions, fun hhost => ?reset⟩
  case status =>
    rw [hostReadReg]
    cases s.cr.status <;> rfl
  case noRegister =>
    intro n hn
    match n, hn with
    | n + 10, _ => rfl
  case busyReads =>
    have hbusy := busy_iff.2 hb
    exact ⟨if_pos hbusy, fun a => if_pos hbusy⟩
  case reads =>
    have hbusy : ¬ s.busy = true := fun h => hb (busy_iff.1 h)
    refine ⟨if_neg hbusy, fun a b ha hread => ?_, fun a ha => ?_⟩ <;> rw [hostReadOut, if_neg hbusy]
    · rw [if_neg (by omega), hread]
    · rw [if_pos ha]
  case actions =>
    have hidle : ∀ u, whenIdle { s with host := rest } u = .next u :=
      fun u => whenIdle_of_not_busy u (busy_eq_false_iff.2 hb)
    refine ⟨fun a b hhost => ?_, fun n hhost => ?_, fun w hhost hstart => ?_, fun hhost => ?_⟩
    · rw [step_of_host_cons hhost, hostStep, hidle]
      exact ⟨_, rfl, Memory.read_write_same _ _ _, fun c hc => Memory.read_write_ne _ _ hc, rfl⟩
    · rw [step_of_host_cons hhost, hostStep, hidle]
    · rw [step_of_host_cons hhost, hostStep, hostWriteCtrl_noStart _ hstart, hidle]
      exact ⟨_, rfl, writeCtrlReg_getLsbD w _, rfl⟩
    · exact step_of_waited hhost (busy_eq_false_iff.2 hb)
  case reset => rw [step_of_host_cons hhost, hostStep]

end Sys2Proof.Safety
end

