-- ==== Sys2Proof/Proofs/TokenFetch.lean ====
section
/-! PROOFS. The token fetch: LZ.RDBIT, and LZ.TOKEN on two sources that deliver the same items (rules R145, R146, R149,
R150, R166). -/

namespace Sys2Proof.Machine

open Sys2Proof.Safety

/-- Where RDBYTE raises a fault the LZ77 decoder's registers are what they were. -/
theorem rdByte_raise_lz {s t : State} {f : CoreFault} {info : Nat} (h : rdByte s = .error (.raise f info t)) :
    t.lz = s.lz := by
  by_cases hsrc : s.seq.hfEn = true
  · rw [rdByte, if_pos hsrc] at h
    rw [((hfRdByte_endsIn s).raise h).1]
  · rw [rdByte, if_neg hsrc, inRdByte_error] at h
    rcases inRead_error.1 h with ⟨-, h⟩ | ⟨-, -, h⟩ <;> cases h
    rfl

/-! ### Two sources of the same items -/

/-- Whatever the first source delivers at a state the second delivers at a related one, and the states behind are
related. -/
structure SameItems {σ τ ε δ : Type} (src : TokenSource σ ε) (src' : TokenSource τ δ) (R : σ → τ → Prop) : Prop where
  bit : ∀ {s t b s1}, R s t → src.rdBit s = .ok (b, s1) → ∃ t1, src'.rdBit t = .ok (b, t1) ∧ R s1 t1
  byte : ∀ {s t v s1}, R s t → src.rdByte s = .ok (v, s1) → ∃ t1, src'.rdByte t = .ok (v, t1) ∧ R s1 t1
  hi : ∀ {s t} v, R s t → R (src.latchHi v s) (src'.latchHi v t)
  lo : ∀ {s t} v w, R s t → R (src.latchLo v w s) (src'.latchLo v w t)
  tmp : ∀ {s t} v, R s t → R (src.latchTmp v s) (src'.latchTmp v t)

/-- A row of bits is the same from both. -/
theorem SameItems.bits {σ τ ε δ : Type} {src : TokenSource σ ε} {src' : TokenSource τ δ} {R : σ → τ → Prop}
    (h : SameItems src src' R) {w : Nat} (k : Nat) (acc v : BitVec w) {s s1 : σ} {t : τ} (hR : R s t)
    (hs : rdBitsWith src.rdBit k acc s = .ok (v, s1)) : ∃ t1, rdBitsWith src'.rdBit k acc t = .ok (v, t1) ∧ R s1 t1 := by
  induction k generalizing acc s t with
  | zero => cases hs; exact ⟨t, rfl, hR⟩
  | succ k ih =>
    obtain ⟨⟨b, s2⟩, hb, hs⟩ := bind_ok.1 hs
    obtain ⟨t2, hb', hR⟩ := h.bit hR hb
    obtain ⟨t1, ht, hR⟩ := ih _ hR hs
    exact ⟨t1, by rw [rdBitsWith, hb', ok_bind]; exact ht, hR⟩

/-- A token is the same from both (rule R166). -/
theorem SameItems.token {σ τ ε δ : Type} {src : TokenSource σ ε} {src' : TokenSource τ δ} {R : σ → τ → Prop}
    (h : SameItems src src' R) {s s1 : σ} {t : τ} {i : Instr} (hR : R s t) (hs : readToken src s = .ok (i, s1)) :
    ∃ t1, readToken src' t = .ok (i, t1) ∧ R s1 t1 := by
  unfold readToken at hs ⊢
  obtain ⟨⟨b0, s2⟩, h0, hs⟩ := bind_ok.1 hs
  obtain ⟨t2, h0, hR⟩ := h.bit hR h0
  rw [h0, ok_bind]
  dsimp only at hs ⊢
  split_ifs at hs ⊢
  · obtain ⟨⟨v, s3⟩, h1, hs⟩ := bind_ok.1 hs
    obtain ⟨t3, h1, hR⟩ := h.byte hR h1
    cases hs
    exact ⟨t3, by rw [h1, ok_bind]; rfl, hR⟩
  obtain ⟨⟨b1, s3⟩, h1, hs⟩ := bind_ok.1 hs
  obtain ⟨t3, h1, hR⟩ := h.bit hR h1
  rw [h1, ok_bind]
  dsimp only at hs ⊢
  split_ifs at hs ⊢
  · obtain ⟨⟨l, s4⟩, h2, hs⟩ := bind_ok.1 hs
    obtain ⟨⟨o, s5⟩, h3, hs⟩ := bind_ok.1 hs
    obtain ⟨t4, h2, hR⟩ := h.bits 2 0 l hR h2
    obtain ⟨t5, h3, hR⟩ := h.byte hR h3
    cases hs
    exact ⟨t5, by rw [h2, ok_bind]; dsimp only; rw [h3, ok_bind]; rfl, hR⟩
  obtain ⟨⟨hi, s4⟩, h2, hs⟩ := bind_ok.1 hs
  obtain ⟨t4, h2, hR⟩ := h.byte hR h2
  obtain ⟨⟨lo, s5⟩, h3, hs⟩ := bind_ok.1 hs
  obtain ⟨t5, h3, hR⟩ := h.byte (h.hi hi hR) h3
  rw [h2, ok_bind]
  dsimp only
  rw [h3, ok_bind]
  dsimp only at hs ⊢
  have hR := h.lo hi lo hR
  split_ifs at hs ⊢
  · cases hs
    exact ⟨_, rfl, hR⟩
  obtain ⟨⟨b2, s6⟩, h4, hs⟩ := bind_ok.1 hs
  obtain ⟨t6, h4, hR⟩ := h.bit hR h4
  rw [h4, ok_bind]
  dsimp only at hs ⊢
  split_ifs at hs ⊢
  · obtain ⟨⟨n, s7⟩, h5, hs⟩ := bind_ok.1 hs
    obtain ⟨t7, h5, hR⟩ := h.bits 4 0 n hR h5
    cases hs
    exact ⟨t7, by rw [h5, ok_bind]; rfl, hR⟩
  obtain ⟨⟨e, s7⟩, h5, hs⟩ := bind_ok.1 hs
  obtain ⟨t7, h5, hR⟩ := h.byte hR h5
  rw [h5, ok_bind]
  dsimp only at hs ⊢
  split_ifs at hs ⊢ <;> cases hs <;> exact ⟨_, rfl, h.tmp e hR⟩

/-! ### Plain bytes and the machine -/

/-- A relation between positions of a plain stream and states of the machine through which the machine's byte source
delivers the bytes of the stream, and which sees of the state no more than the source and the bit cursor. -/
structure ServesStream (R : StreamPos → State → Prop) : Prop where
  /-- The source delivers the next byte. -/
  byte : ∀ {p s v q}, R p s → p.rdByte = .ok (v, q) → ∃ t, rdByte s = .ok (v, t) ∧ R q t
  /-- The bit cursors are the same. -/
  cursor : ∀ {p s}, R p s → s.lz.cur = p.cur ∧ s.lz.rem = p.rem
  /-- They are moved together. -/
  move : ∀ {p s} c r, R p s → R { p with cur := c, rem := r } { s with lz := { s.lz with cur := c, rem := r } }
  /-- The token temporaries are not looked at. -/
  temps : ∀ {p s} tt, R p s → R p { s with tmp := tt }

/-- With such a source the machine meets the items that the plain decoder meets. -/
theorem ServesStream.sameItems {R : StreamPos → State → Prop} (h : ServesStream R) :
    SameItems streamSource machineSource R where
  bit := by
    intro p s b q hR hp
    obtain ⟨hcur, hrem⟩ := h.cursor hR
    have hp : StreamPos.rdBit p = .ok (b, q) := hp
    show ∃ t, lzRdBit s = .ok (b, t) ∧ R q t
    rcases rdBitWith_ok.1 hp with ⟨hne, rfl, rfl⟩ | ⟨hz, c, p1, hbyte, rfl, rfl⟩
    · refine ⟨_, rdBitWith_ok.2 (.inl ⟨by dsimp only; rw [hrem]; exact hne, ?_, rfl⟩), ?_⟩
      · dsimp only
        rw [hcur, hrem]
      · dsimp only
        rw [hcur, hrem]
        exact h.move _ _ hR
    · obtain ⟨t, ht, hR⟩ := h.byte hR hbyte
      exact ⟨_, rdBitWith_ok.2 (.inr ⟨by dsimp only; rw [hrem]; exact hz, c, t, ht, rfl, rfl⟩), h.move _ _ hR⟩
  byte := h.byte
  hi _ hR := h.temps _ hR
  lo _ _ hR := h.temps _ hR
  tmp _ hR := h.temps _ hR

/-- With such a source the machine fetches the token that the plain decoder reads. -/
theorem ServesStream.fetchToken {R : StreamPos → State → Prop} (h : ServesStream R) {p q : StreamPos} {s : State}
    {i : Instr} (hR : R p s) (hp : decodeToken p = .ok (i, q)) :
    ∃ t, Machine.fetchToken s = .ok (i, t) ∧ R q t := h.sameItems.token hR hp

/-- The direct byte source stands in IN in front of the rest of `bytes`, which began at `base` and end with IN. -/
structure DirectAt (base : Nat) (bytes : List Byte) (p : StreamPos) (s : State) : Prop where
  direct : s.seq.hfEn = false
  holds : HoldsAt s.inMem base bytes
  inLen : s.seq.inLen = base + bytes.length
  first : base ≤ s.lz.ip
  last : s.lz.ip ≤ base + bytes.length
  rest : p.bytes = bytes.drop (s.lz.ip - base)
  cur : s.lz.cur = p.cur
  rem : s.lz.rem = p.rem

/-- IN serves a plain stream (rule R150). -/
theorem servesStream_direct (base : Nat) (bytes : List Byte) : ServesStream (DirectAt base bytes) where
  byte := by
    intro p s v q hR hp
    obtain ⟨hdir, hholds, hlen, hfirst, -, hrest, hcur, hrem⟩ := hR
    unfold StreamPos.rdByte at hp
    split at hp
    · cases hp
    · rename_i b bs hbytes
      cases hp
      rw [hbytes] at hrest
      have hlt : s.lz.ip - base < bytes.length := by
        by_contra hge
        rw [List.drop_of_length_le (by omega)] at hrest
        cases hrest
      rw [List.drop_eq_getElem_cons hlt] at hrest
      obtain ⟨hv, hbs⟩ := List.cons.inj hrest
      refine ⟨{ s with lz := { s.lz with ip := s.lz.ip + 1 } }, ?_, hdir, hholds, hlen, ?_, ?_, ?_, hcur, hrem⟩
      · rw [Machine.rdByte, if_neg (by simp [hdir])]
        refine inRdByte_ok.2 ⟨by omega, ?_, rfl⟩
        have := hholds (s.lz.ip - base) hlt
        rw [show base + (s.lz.ip - base) = s.lz.ip by omega, List.getElem?_eq_getElem hlt, ← hv] at this
        exact this
      · show base ≤ s.lz.ip + 1
        omega
      · show s.lz.ip + 1 ≤ base + bytes.length
        omega
      · show bs = bytes.drop (s.lz.ip + 1 - base)
        rw [hbs]
        congr 1
        omega
  cursor hR := ⟨hR.cur, hR.rem⟩
  move _ _ hR := { hR with cur := rfl, rem := rfl }
  temps _ hR := { hR with }

end Sys2Proof.Machine

namespace Sys2Proof.Safety

open Sys2Proof.Machine

/-- Settles O12: the three ways of RDBIT. -/
theorem lazyFlagFetch : Obligations.LazyFlagFetch := by
  intro s
  refine ⟨fun hrem => ?bitLeft, fun b t hrem hbyte => ?fetched, fun f info t hrem hbyte => ⟨?raised, ?kept⟩⟩
  case bitLeft => exact rdBitWith_ok.2 (.inl ⟨hrem, rfl, rfl⟩)
  case fetched => exact rdBitWith_ok.2 (.inr ⟨hrem, b, t, hbyte, rfl, rfl⟩)
  case raised => exact rdBitWith_error.2 ⟨hrem, hbyte⟩
  case kept => exact rdByte_raise_lz hbyte

/-- Settles O7: IN serves the bytes as a plain stream, and the fetch changes nothing but its cursors. -/
theorem fetchReadsTheStream : Obligations.FetchReadsTheStream := by
  intro s bytes i p hdir hholds hlen hp
  have hstart : DirectAt s.lz.ip bytes ⟨bytes, s.lz.cur, s.lz.rem⟩ s :=
    ⟨hdir, hholds, hlen, Nat.le_refl _, Nat.le_add_right _ _, by simp, rfl, rfl⟩
  obtain ⟨t, ht, hR⟩ := (servesStream_direct s.lz.ip bytes).fetchToken hstart hp
  obtain ⟨hframe, -, -, hhf, -⟩ := (fetchToken_endsIn s).ok ht
  have hfirst := hR.first
  have hlast := hR.last
  have hrest := hR.rest
  have hback : bytes.length - p.bytes.length = t.lz.ip - s.lz.ip := by
    rw [hrest, List.length_drop]
    omega
  refine ⟨t, ht, hframe.trans ?_, by rw [hback]; exact hrest⟩
  dsimp only at hhf
  simp only [hhf hdir, hR.cur, hR.rem, hback, Nat.add_sub_of_le hfirst]

end Sys2Proof.Safety
end

