-- ==== Sys2Proof/Proofs/TableWords.lean ====
section
/-! PROOFS. Table words and the descent through the table (rules R215 to R224). -/

namespace Sys2Proof.Machine

open Sys2Proof.Safety

/-! ### HT.NODE -/

theorem exec_htNode (n : BitVec 15) (s : State) :
    exec (.htNode n) s = outcomeOf (htStep n s >>= fun t => .ok (setPhase .hfirwWord t)) := rfl

/-- HT.NODE whose iteration raises a fault ends in that fault (rule R283). -/
theorem exec_htNode_raise {n : BitVec 15} {s u : State} {f : CoreFault} {info : Nat}
    (h : htStep n s = .error (.raise f info u)) :
    ∃ t, exec (.htNode n) s = .next t ∧ Faulted f info t ∧ t.hf = u.hf ∧ t.lz = s.lz ∧ FaultFrame s t := by
  obtain ⟨hframe, -, -⟩ := (htStep_endsIn n s).raise h
  have hsame : SameOutsideDecoder s u := by
    rw [hframe]
    exact ⟨rfl, rfl, rfl, rfl, rfl, rfl, rfl⟩
  refine ⟨_, by rw [exec_htNode, h, error_bind, outcomeOf_raise], faulted_takeFault f info u, rfl, ?lz,
    faultFrame_takeFault f info hsame ?seq ?htab⟩
  case lz => rw [takeFault_lz, hframe]
  case seq => rw [hframe]
  case htab => rw [hframe]

/-! ### The descent as a walk (rule R216) -/

theorem setNode_setNode (v w : Half) (s : State) : setNode w (setNode v s) = setNode w s := rfl

theorem walkTable_node {htab : Memory Half} {n : BitVec 15} (hn : 0x100 ≤ n.toNat) (b : Bool) (bits : List Bool) :
    walkTable htab (b :: bits) (n.setWidth 16) =
      (Memory.read htab (htIndex n.toNat b)).bind (walkTable htab bits) := by
  rw [walkTable, decodeHtWord_node hn]

/-- A descent that can read the bits of a walk goes on where the walk ends, with the bits that are left as its bound. -/
theorem hfRdByte_walk {s w : State} {bits : List Bool} {x : Half} (hr : rdBits bits.length s = .ok (bits, w))
    (hin : WalkInTable s bits) (hw : walkTable s.htab bits s.hf.htLen = some x) (hx : x.msb = false) :
    hfRdByte s = hfDescend (hfBitsLeft w + 1) (setNode x w) := by
  obtain ⟨-, hleft⟩ := rdBits_frame hr
  rw [hfRdByte, ← hleft, show hfBitsLeft w + bits.length + 1 = bits.length + (hfBitsLeft w + 1) by omega]
  exact hfDescend_walk _ hr hw hx hin

/-- A descent at a leaf delivers its byte. -/
theorem hfDescend_leaf (k : Nat) (b : Byte) (s : State) :
    hfDescend (k + 1) (setNode (b.setWidth 16) s) = .ok (b, setNode (b.setWidth 16) s) := by
  have hd : decodeHtWord (setNode (b.setWidth 16) s).hf.node = .htLeaf b := decodeHtWord_leaf b
  rw [hfDescend, hd]

/-- A descent at a node takes HT.NODE's iteration. -/
theorem hfDescend_node (k : Nat) {n : BitVec 15} (hn : 0x100 ≤ n.toNat) (s : State) :
    hfDescend (k + 1) (setNode (n.setWidth 16) s) = htStep n (setNode (n.setWidth 16) s) >>= hfDescend k := by
  have hd : decodeHtWord (setNode (n.setWidth 16) s).hf.node = .htNode n := decodeHtWord_node hn
  rw [hfDescend, hd]

theorem node_msb (n : BitVec 15) : (n.setWidth 16).msb = false := by
  have hn := n.isLt
  rw [BitVec.msb_eq_decide, BitVec.toNat_setWidth]
  exact decide_eq_false (by simp; omega)

theorem leaf_msb (b : Byte) : (b.setWidth 16).msb = false := by
  have hb := b.isLt
  rw [BitVec.msb_eq_decide, BitVec.toNat_setWidth]
  exact decide_eq_false (by simp; omega)

/-- A descent that ends has followed the bits it read from its table value to a leaf. -/
theorem hfDescend_sound {k : Nat} {v : Half} {s t : State} {b : Byte} (h : hfDescend k (setNode v s) = .ok (b, t)) :
    ∃ bits u, rdBits bits.length s = .ok (bits, u) ∧ walkTable s.htab bits v = some (b.setWidth 16) ∧
      (∀ k y c, walkTable s.htab (bits.take k) v = some y → bits[k]? = some c → htIndex y.toNat c < s.hf.htCnt) ∧
      t = setNode (b.setWidth 16) u := by
  induction k generalizing v s with
  | zero => cases h
  | succ k ih =>
    obtain ⟨c, rfl⟩ | ⟨n, hn, rfl⟩ | ⟨x, rfl⟩ := htWord_cases v
    case inl =>
      rw [hfDescend_leaf] at h
      cases h
      exact ⟨[], s, rfl, rfl, fun k y c _ hc => by simp at hc, rfl⟩
    case inr.inl =>
      rw [hfDescend_node k hn] at h
      obtain ⟨u, hstep, h⟩ := bind_ok.1 h
      obtain ⟨c, w, v, hbit, hidx, hread, -, rfl⟩ := htStep_ok.1 hstep
      obtain ⟨y, hbit', rfl⟩ := hfRdBit_setNode hbit
      have hframe := hfRdBit_frame hbit'
      have htab : y.htab = s.htab := by rw [hframe]
      have hcnt : y.hf.htCnt = s.hf.htCnt := by rw [hframe]
      rw [setNode_setNode] at h
      obtain ⟨bits, z, hbits, hwalk, hin, rfl⟩ := ih h
      rw [htab] at hwalk hin
      rw [hcnt] at hin
      have hnode : (n.setWidth 16).toNat = n.toNat := by
        have := n.isLt
        rw [BitVec.toNat_setWidth]
        omega
      refine ⟨c :: bits, z, rdBits_cons.2 ⟨y, hbit', hbits⟩, ?_, fun j x d hx hd => ?_, rfl⟩
      · rw [walkTable_node hn, show Memory.read s.htab _ = _ from hread]
        exact hwalk
      · cases j with
        | zero =>
          cases hx
          cases hd
          rw [hnode]
          exact hidx
        | succ j =>
          rw [List.take_succ_cons, walkTable_node hn, show Memory.read s.htab _ = _ from hread] at hx
          exact hin j x d hx (by simpa using hd)
    case inr.inr =>
      have hd : decodeHtWord (setNode (htInvalidWord x) s).hf.node = .htInvalid x := decodeHtWord_htInvalidWord x
      rw [hfDescend, hd] at h
      cases h

end Sys2Proof.Machine

namespace Sys2Proof.Safety

open Sys2Proof.Machine

/-- Settles O30. -/
theorem leafEmits : Obligations.LeafEmits := by
  intro s b
  exact ⟨_, rfl, rfl, Memory.read_write_same _ _ _, Memory.read_write_same _ _ _,
    fun a ha => Memory.read_write_ne _ _ ha, fun a ha => Memory.read_write_ne _ _ ha, rfl, rfl, rfl, rfl,
    rfl, rfl, rfl, rfl, rfl, rfl, rfl⟩

/-- Settles O31: the iteration runs to its end, and HF.RDBIT moved the cursor only. -/
theorem nodeStepsToItsChild : Obligations.NodeStepsToItsChild := by
  intro s s' n b idx v hbit hidx hlt hread hmsb
  have hidx : idx = htIndex n.toNat b := hidx
  rw [hidx] at hlt hread
  have hstep : htStep n s = .ok (setNode v s') := htStep_ok.2 ⟨b, s', v, hbit, hlt, hread, hmsb, rfl⟩
  have hframe := hfRdBit_frame hbit
  rw [exec_htNode, hstep, ok_bind, outcomeOf_ok, hframe]
  rfl

/-- Settles O32, fault by fault. -/
theorem nodeFaults : Obligations.NodeFaults := by
  intro s n
  refine ⟨fun hrem hend => ?trunc, fun b s' idx hbit hidx hcnt => ?index, fun b s' idx v hbit hidx hlt hread hmsb => ?entry⟩
  case trunc =>
    exact exec_htNode_raise (htStep_error.2 (.inl (hfRdBit_error.2 ⟨hrem, inRead_of_inLen_le hend⟩)))
  case index =>
    have hidx : idx = htIndex n.toNat b := hidx
    rw [hidx] at hcnt ⊢
    exact exec_htNode_raise (htStep_error.2 (.inr ⟨b, s', hbit, .inl ⟨hcnt, rfl⟩⟩))
  case entry =>
    have hidx : idx = htIndex n.toNat b := hidx
    rw [hidx] at hlt hread
    exact exec_htNode_raise (htStep_error.2 (.inr ⟨b, s', hbit, .inr (.inr ⟨hlt, v, hread, hmsb, rfl⟩)⟩))

/-- Settles O33. -/
theorem invalidWordFaults : Obligations.InvalidWordFaults := by
  intro s x
  rw [← htInvalidWord_toNat]
  rfl

/-- Settles O34: the descent is a walk through the table along the bits it reads. -/
theorem descentFollowsTheTable : Obligations.DescentFollowsTheTable := by
  intro s
  refine ⟨?bound, fun hsrc => if_pos hsrc, ?deliver, ?stop, ?sound, ?root⟩
  case bound => exact hfDescend_bound (Nat.lt_succ_self _)
  case deliver =>
    intro b bits u hr hin hw
    rw [hfRdByte_walk hr hin hw (leaf_msb b), hfDescend_leaf]
    rfl
  case stop =>
    rintro bits n u ⟨hin, w, hr, hn, hw, rfl⟩
    obtain ⟨hframe, -⟩ := rdBits_frame hr
    have htab : w.htab = s.htab := by rw [hframe]
    have hcnt : w.hf.htCnt = s.hf.htCnt := by rw [hframe]
    have hraise : ∀ f info v, htStep n (setNode (n.setWidth 16) w) = .error (.raise f info v) →
        hfRdByte s = .error (.raise f info v) := by
      intro f info v h
      rw [hfRdByte_walk hr hin hw (node_msb n), hfDescend_node _ hn, h, error_bind]
    refine ⟨fun hrem hend => ?_, fun b v idx hbit hidx => ⟨fun hge => ?_, fun x hlt hread hmsb => ?_⟩⟩
    · exact hraise _ _ _ (htStep_error.2 (.inl (hfRdBit_error.2 ⟨hrem, inRead_of_inLen_le hend⟩)))
    · have hidx : idx = htIndex n.toNat b := hidx
      rw [hidx] at hge ⊢
      exact hraise _ _ _ (htStep_error.2 (.inr ⟨b, v, hbit, .inl ⟨hcnt.le.trans hge, rfl⟩⟩))
    · have hidx : idx = htIndex n.toNat b := hidx
      rw [hidx, ← hcnt] at hlt
      rw [hidx, ← htab] at hread
      exact hraise _ _ _ (htStep_error.2 (.inr ⟨b, v, hbit, .inr (.inr ⟨hlt, x, hread, hmsb, rfl⟩)⟩))
  case sound =>
    intro b t h
    obtain ⟨bits, u, hbits, hwalk, hin, rfl⟩ := hfDescend_sound h
    obtain ⟨hframe, hleft⟩ := rdBits_frame hbits
    obtain ⟨ht, hlen, hcnt⟩ := (hfRdByte_endsIn s).ok h
    exact ⟨bits, u, hbits, hin, hwalk, rfl, hleft, ht, hlen, hcnt⟩
  case root =>
    intro hlt
    obtain ⟨b, hb⟩ | ⟨n, hn, hv⟩ | ⟨x, hv⟩ := htWord_cases s.hf.htLen
    · refine ⟨b, ?_, ?_⟩
      · have := b.isLt
        rw [hb, BitVec.toNat_setWidth]
        omega
      · rw [hfRdByte, hb, hfDescend_leaf]
        rfl
    · have := n.isLt
      rw [hv, BitVec.toNat_setWidth] at hlt
      omega
    · rw [hv, htInvalidWord_toNat] at hlt
      omega

end Sys2Proof.Safety
end

