-- ==== Sys2Proof/Proofs/Tokens.lean ====
section
/-! PROOFS. The tokens and the data paths of DECOMPRESS (rules R167 to R172, R178 to R184, R215, R257 to R261). -/

namespace Sys2Proof.Machine

open Sys2Proof.Safety

/-! ### Rows of EMITs -/

theorem emitAll_out (bs : List Byte) (s : State) : (emitAll bs s).out = Memory.writeAll s.out s.lz.outLen bs := by
  rw [emitAll_eq]

theorem emitAll_lz (bs : List Byte) (s : State) :
    (emitAll bs s).lz =
      { s.lz with wp := s.lz.wp + BitVec.ofNat 13 bs.length, outLen := s.lz.outLen + bs.length } := by
  rw [emitAll_eq]

@[simp] theorem emitAll_cr (bs : List Byte) (s : State) : (emitAll bs s).cr = s.cr := by rw [emitAll_eq]
@[simp] theorem emitAll_seq (bs : List Byte) (s : State) : (emitAll bs s).seq = s.seq := by rw [emitAll_eq]
@[simp] theorem emitAll_temps (bs : List Byte) (s : State) : (emitAll bs s).tmp = s.tmp := by rw [emitAll_eq]
@[simp] theorem emitAll_hf (bs : List Byte) (s : State) : (emitAll bs s).hf = s.hf := by rw [emitAll_eq]
@[simp] theorem emitAll_le (bs : List Byte) (s : State) : (emitAll bs s).le = s.le := by rw [emitAll_eq]
@[simp] theorem emitAll_he (bs : List Byte) (s : State) : (emitAll bs s).he = s.he := by rw [emitAll_eq]
@[simp] theorem emitAll_inMem (bs : List Byte) (s : State) : (emitAll bs s).inMem = s.inMem := by rw [emitAll_eq]
@[simp] theorem emitAll_mid (bs : List Byte) (s : State) : (emitAll bs s).mid = s.mid := by rw [emitAll_eq]
@[simp] theorem emitAll_htab (bs : List Byte) (s : State) : (emitAll bs s).htab = s.htab := by rw [emitAll_eq]
@[simp] theorem emitAll_host (bs : List Byte) (s : State) : (emitAll bs s).host = s.host := by rw [emitAll_eq]
@[simp] theorem emitAll_freeCtr (bs : List Byte) (s : State) : (emitAll bs s).freeCtr = s.freeCtr := by
  rw [emitAll_eq]

/-- A row of EMITs is inside the decoder. -/
theorem sameOutsideDecoder_emitAll (bs : List Byte) (s : State) : SameOutsideDecoder s (emitAll bs s) :=
  ⟨emitAll_cr bs s, emitAll_le bs s, emitAll_he bs s, emitAll_inMem bs s, emitAll_mid bs s, emitAll_host bs s,
    emitAll_freeCtr bs s⟩

/-- The token temporaries of a state. -/
def setTemps (tt : TokenTemps) (s : State) : State := { s with tmp := tt }

theorem emitAll_setTemps (bs : List Byte) (s : State) (tt : TokenTemps) :
    emitAll bs (setTemps tt s) = setTemps tt (emitAll bs s) := emitAll_tmp bs s tt

theorem windowHolds_setTemps (tt : TokenTemps) (s : State) : WindowHolds (setTemps tt s) ↔ WindowHolds s :=
  windowHolds_congr rfl rfl rfl rfl

theorem withCnt_of_pos {n : Nat} (h : 0 < n) (s : State) : withCnt n s = setTemps { s.tmp with cnt := 0 } s :=
  if_neg (by omega)

/-- A window that holds has its write pointer where `out_len` says. -/
theorem windowHolds_wp {s : State} (h : WindowHolds s) (k : Nat) :
    (s.lz.wp.toNat + k) % Config.winSize = (s.lz.outLen + k) % Config.winSize := by
  obtain ⟨hwp, -, -⟩ := h
  rw [hwp, Nat.mod_add_mod]

/-- Before the first byte the window holds. -/
theorem windowHolds_zero {s : State} (hlen : s.lz.outLen = 0) (hwp : s.lz.wp = 0) : WindowHolds s := by
  refine ⟨by rw [hlen, hwp]; rfl, fun k hk => ?_, fun k h1 hk => ?_⟩ <;> omega

/-! ### COPY and RUN.D -/

/-- A reference copies at least two bytes (rule R105). -/
theorem refOperands_pos {i : Instr} {off : BitVec 13} {len : Nat} (h : refOperands i = some (off, len)) : 2 ≤ len := by
  cases i <;> cases h <;> omega

/-- COPY of a reference that passes both checks is a row of EMITs (rules R178, R184). -/
theorem copy_ok {off : BitVec 13} {len : Nat} {s : State} (hw : WindowHolds s) (hpos : 0 < len)
    (hreach : distOf off ≤ s.lz.outLen) (hfit : s.lz.outLen + len ≤ s.dsize) :
    ∃ bs : List Byte, bs.length = len ∧
      copy off len s =
        .ok (setTemps { s.tmp with off := off, len := BitVec.ofNat 9 len, cnt := 0 } (emitAll bs s)) ∧
      ∀ k, k < len → bs[k]? = Memory.read (emitAll bs s).out (s.lz.outLen + k - distOf off) := by
  let tt : TokenTemps := { s.tmp with off := off, len := BitVec.ofNat 9 len, cnt := BitVec.ofNat 14 len }
  obtain ⟨bs, hlen, hcopy, hbytes⟩ := copyLoop_ok (s := setTemps tt s) off len ((windowHolds_setTemps tt s).2 hw) hreach
  refine ⟨bs, hlen, ?_, fun k hk => ?_⟩
  · have hchecks : copy off len s = copyLoop off len (setTemps tt s) :=
      (if_neg (Nat.not_lt.2 hreach)).trans (if_neg (Nat.not_lt.2 hfit))
    rw [hchecks, hcopy, withCnt_of_pos hpos, emitAll_setTemps]
    rfl
  · rw [hbytes k hk, emitAll_setTemps]
    rfl

theorem exec_runD {o : BitVec 13} {s : State} (h : s.lz.outLen + runOf o ≤ s.dsize) :
    exec (.runD o) s = outcomeOf (runLoop (runOf o)
      (setTemps { s.tmp with run := BitVec.ofNat 14 (runOf o), cnt := BitVec.ofNat 14 (runOf o) } s)) :=
  if_neg (Nat.not_lt.2 h)

theorem exec_runD_overrun {o : BitVec 13} {s : State} (h : s.dsize < s.lz.outLen + runOf o) :
    exec (.runD o) s = .next (takeFault .eOverrun (runOf o)
      (setTemps { s.tmp with run := BitVec.ofNat 14 (runOf o) } s)) := if_pos h

/-- The token temporaries are unseen by the byte sources. -/
theorem unseen_setTemps (tt : TokenTemps) : Unseen (setTemps tt) :=
  ⟨fun _ => rfl, fun _ => rfl, fun _ => rfl, fun _ => rfl, fun _ => rfl, fun _ _ => rfl, fun _ _ => rfl⟩

/-- Reading changes nothing but the byte source's own cursors (rule R149). -/
theorem rdBytes_endsIn (n : Nat) (s : State) : EndsIn Prod.snd (fun t => FetchFrame s t ∧ t.lz.cur = s.lz.cur ∧
    t.lz.rem = s.lz.rem ∧ t.tmp = s.tmp) (rdBytes n s) := by
  induction n generalizing s with
  | zero => exact ⟨FetchFrame.refl s, rfl, rfl, rfl⟩
  | succ n ih =>
    refine (rdByte_endsIn s).bind fun ⟨b, t⟩ _ ⟨hframe, hcur, hrem, htmp⟩ => ?_
    refine EndsIn.bind (st := Prod.snd) ((ih t).mono fun u ⟨hframe', hcur', hrem', htmp'⟩ => ?_)
      fun ⟨bs, u⟩ _ hu => hu
    exact ⟨hframe.trans hframe', hcur'.trans hcur, hrem'.trans hrem, htmp'.trans htmp⟩

theorem SameOutsideDecoder.trans {s t u : State} (h : SameOutsideDecoder s t) (h' : SameOutsideDecoder t u) :
    SameOutsideDecoder s u := by
  obtain ⟨h1, h2, h3, h4, h5, h6, h7⟩ := h
  obtain ⟨h1', h2', h3', h4', h5', h6', h7'⟩ := h'
  exact ⟨h1'.trans h1, h2'.trans h2, h3'.trans h3, h4'.trans h4, h5'.trans h5, h6'.trans h6, h7'.trans h7⟩

/-! ### The data paths -/

/-- The values of a written range. -/
theorem exists_bytes_of_writtenFrom {α : Type} {m : Memory α} {a n : Nat} (h : WrittenFrom m a n) :
    ∃ bs : List α, bs.length = n ∧ ∀ k, k < n → Memory.read m (a + k) = bs[k]? := by
  induction n with
  | zero => exact ⟨[], rfl, fun k hk => absurd hk (Nat.not_lt_zero k)⟩
  | succ n ih =>
    obtain ⟨bs, hlen, hbs⟩ := ih fun k hk => h k (Nat.lt_succ_of_lt hk)
    obtain ⟨b, hb⟩ := Option.isSome_iff_exists.1 (h n (Nat.lt_succ_self n))
    refine ⟨bs ++ [b], by simp [hlen], fun k hk => ?_⟩
    rcases Nat.lt_succ_iff_lt_or_eq.1 hk with hlt | rfl
    · rw [List.getElem?_append_left (hlen ▸ hlt), hbs k hlt]
    · rw [hb, ← hlen, List.getElem?_concat_length]

/-- DEC.RAW of data that is there is a row of EMITs and the command's end (rule R258). -/
theorem exec_decRaw {s : State} {bs : List Byte} (hfit : s.doff + s.dsize ≤ s.seq.inLen) (hbs : bs.length = s.dsize)
    (hheld : ∀ k, k < s.dsize → Memory.read s.inMem (s.doff + k) = bs[k]?) :
    exec .decRaw s = .next (endDone (s.lz.outLen + s.dsize)
      (setIp (s.doff + s.dsize) (emitAll bs (setIp s.doff (setHfEn false s))))) := by
  let s1 := setIp s.doff (setHfEn false s)
  have hgo : exec .decRaw s = outcomeOf (rawLoop s1.dsize s1 >>= fun t => .ok (endDone t.lz.outLen t)) :=
    congrArg outcomeOf (if_neg (Nat.not_lt.2 hfit))
  have hloop : rawLoop s1.dsize s1 = .ok (setIp (s.doff + s.dsize) (emitAll bs s1)) :=
    rawLoop_ok.2 ⟨bs, hbs, fun k hk => ⟨(Nat.add_lt_add_left hk s.doff).trans_le hfit, hheld k hk⟩, rfl⟩
  have hend : (setIp (s.doff + s.dsize) (emitAll bs s1)).lz.outLen = s.lz.outLen + s.dsize := by
    show (emitAll bs s1).lz.outLen = _
    rw [emitAll_lz, hbs]
    rfl
  rw [hgo, hloop, ok_bind, outcomeOf_ok, hend]

theorem exec_decHfirw (s : State) :
    exec .decHfirw s = outcomeOf (htLoad (setHfEn true s) >>= fun t => .ok (setPhase .hfirwLoop t)) := rfl

theorem exec_decHfi (s : State) :
    exec .decHfi s = outcomeOf (htLoad (setHfEn true s) >>= fun t => .ok (setPhase .lzLoop t)) := rfl

/-- A negative `table_length` stops HT.LOAD (rules R215, R220). -/
theorem htLoad_negative {s : State} {t : Half} (h : inRead16 16 s = .ok t) (hmsb : t.msb = true) :
    htLoad s = .error (.raise .eHtEntry t.toNat { s with hf := { s.hf with htLen := t } }) := by
  rw [htLoad, h, ok_bind]
  exact if_pos hmsb

/-- The entries that lie in a blob from offset 18 on (rules R68, R93). -/
def blobEntries (bs : List Byte) (n : Nat) : List Half :=
  (List.range n).map fun k => le16 (bs.getD (18 + 2 * k) 0) (bs.getD (18 + 2 * k + 1) 0)

@[simp] theorem blobEntries_length (bs : List Byte) (n : Nat) : (blobEntries bs n).length = n := by
  simp [blobEntries]

theorem blobEntries_getElem? (bs : List Byte) {n k : Nat} (h : k < n) :
    (blobEntries bs n)[k]? = some (le16 (bs.getD (18 + 2 * k) 0) (bs.getD (18 + 2 * k + 1) 0)) := by
  rw [blobEntries, List.getElem?_map, List.getElem?_range h]
  rfl

/-- The state after a table load. -/
def loadTable (root : Half) (entries : List Half) (s : State) : State :=
  { s with
    htab := Memory.writeAll s.htab 0 entries
    hf := { s.hf with htLen := root, htCnt := entries.length, hp := s.doff, cur := 0, rem := 0 } }

/-- HT.LOAD of a blob that IN holds (rule R215). -/
theorem htLoad_holds {s : State} {bs : List Byte} (hheld : HoldsAt s.inMem 0 bs) (hlen : s.seq.inLen = bs.length)
    (hdoff : 18 ≤ s.doff) (hin : s.doff ≤ bs.length) (hmsb : (le16 (bs.getD 16 0) (bs.getD 17 0)).msb = false) :
    htLoad s =
      .ok (loadTable (le16 (bs.getD 16 0) (bs.getD 17 0)) (blobEntries bs (htCount s.doff)) s) := by
  have hcount : htCount s.doff ≤ (s.doff - 18) / 2 := Nat.min_le_left _ _
  have hroot : inRead16 16 s = .ok (le16 (bs.getD 16 0) (bs.getD 17 0)) :=
    inRead16_holds hheld (by omega) (by omega)
  refine htLoad_ok.2 ⟨_, blobEntries bs (htCount s.doff), hroot, hmsb, by simp, fun k w hk => ?_, ?_⟩
  · have hlt : k < htCount s.doff := by simpa using (List.getElem?_eq_some_iff.1 hk).1
    rw [blobEntries_getElem? bs hlt] at hk
    cases hk
    exact inRead16_holds hheld (by omega) (by omega)
  · rw [loadTable, blobEntries_length]

end Sys2Proof.Machine

namespace Sys2Proof.Safety

open Sys2Proof.Machine

/-- Settles O25. -/
theorem litEmits : Obligations.LitEmits := by
  intro s v
  exact ⟨_, rfl, rfl, Memory.read_write_same _ _ _, Memory.read_write_same _ _ _,
    fun a ha => Memory.read_write_ne _ _ ha, fun a ha => Memory.read_write_ne _ _ ha, rfl, rfl, rfl, rfl,
    rfl, rfl, rfl, rfl, rfl, rfl, rfl⟩

/-- Settles O26: both checks pass, and COPY's loop is a row of EMITs of the bytes `dist` back. -/
theorem referencesCopy : Obligations.ReferencesCopy := by
  intro s i off len hop hw hreach hfit
  have hpos : 0 < len := by
    have := refOperands_pos hop
    omega
  obtain ⟨bs, hlen, hcopy, hbytes⟩ := copy_ok hw hpos hreach hfit
  have hexec := exec_reference hop s
  rw [hcopy, outcomeOf_ok] at hexec
  have hlz := emitAll_lz bs s
  rw [hlen] at hlz
  refine ⟨_, hexec, congrArg LzDecoder.outLen hlz, ?window, fun k hk => ?copied, fun a ha => ?outOutside,
    fun a ha => ?winOutside, (congrArg LzDecoder.ip hlz :), (congrArg LzDecoder.cur hlz :),
    (congrArg LzDecoder.rem hlz :), rfl,
    emitAll_seq bs s, emitAll_hf bs s, emitAll_htab bs s, sameOutsideDecoder_emitAll bs s⟩
  case window => exact (windowHolds_setTemps _ _).2 (windowHolds_emitAll bs hw)
  case copied =>
    refine Eq.trans ?_ (hbytes k hk)
    show Memory.read (emitAll bs s).out _ = _
    rw [emitAll_out]
    exact Memory.read_writeAll_inside _ _ _ _ (hlen ▸ hk)
  case outOutside =>
    show Memory.read (emitAll bs s).out a = _
    rw [emitAll_out]
    exact Memory.read_writeAll_outside _ _ _ _ (hlen ▸ ha)
  case winOutside =>
    refine emitAll_win_outside bs s a fun k hk => ?_
    rw [windowHolds_wp hw]
    exact ha k (hlen ▸ hk)

/-- Settles O28: RUN.D's loop is its reads followed by a row of EMITs of what was read. -/
theorem runCopiesTheSource : Obligations.RunCopiesTheSource := by
  intro s s' o n bs hn hread hfit
  have hn : n = runOf o := hn
  have hpos : 0 < n := by rw [hn, runOf, Config.dRunBase]; omega
  let tt : TokenTemps := { s.tmp with run := BitVec.ofNat 14 n, cnt := BitVec.ofNat 14 n }
  have hunseen := (unseen_setTemps tt).rdBytes n s
  rw [hread] at hunseen
  obtain ⟨hlen, hrun⟩ := (runLoop_eq n _).1 _ _ hunseen
  rw [withCnt_of_pos hpos, emitAll_setTemps] at hrun
  have hexec := exec_runD (hn ▸ hfit)
  rw [← hn, hrun, outcomeOf_ok] at hexec
  obtain ⟨⟨hframe, -, -, -, -⟩, hcur, hrem, -⟩ := (rdBytes_endsIn n s).ok hread
  dsimp only at hframe hcur hrem
  have hout : s'.out = s.out := by rw [hframe]
  have hwin : s'.win = s.win := by rw [hframe]
  have houtLen : s'.lz.outLen = s.lz.outLen := by rw [hframe]
  have hwp : s'.lz.wp = s.lz.wp := by rw [hframe]
  have hseq : s'.seq = s.seq := by rw [hframe]
  have hhtab : s'.htab = s.htab := by rw [hframe]
  have hsame : SameOutsideDecoder s s' := by
    rw [hframe]
    exact ⟨rfl, rfl, rfl, rfl, rfl, rfl, rfl⟩
  have hwindow : WindowHolds s' ↔ WindowHolds s := windowHolds_congr hwp houtLen hout hwin
  have hlz := emitAll_lz bs s'
  rw [hlen, hwp, houtLen] at hlz
  refine ⟨_, hexec, hlen, hlz, fun k hk => ?out, fun a ha => ?outOutside, fun a ha => ?winOutside, fun hw => ?window,
    (congrArg LzDecoder.cur hlz).trans hcur, (congrArg LzDecoder.rem hlz).trans hrem, emitAll_hf bs s', rfl,
    (emitAll_seq bs s').trans hseq, (emitAll_htab bs s').trans hhtab, ?same⟩
  case out =>
    show Memory.read (emitAll bs s').out _ = _
    rw [emitAll_out, houtLen]
    exact Memory.read_writeAll_inside _ _ _ _ hk
  case outOutside =>
    show Memory.read (emitAll bs s').out a = _
    rw [emitAll_out, houtLen, hout]
    exact Memory.read_writeAll_outside _ _ _ _ (hlen ▸ ha)
  case winOutside =>
    refine (emitAll_win_outside bs s' a fun k hk => ?_).trans (by rw [hwin])
    rw [hwp]
    exact ha k (hlen ▸ hk)
  case window => exact (windowHolds_setTemps _ _).2 (windowHolds_emitAll bs (hwindow.2 hw))
  case same => exact SameOutsideDecoder.trans hsame (sameOutsideDecoder_emitAll bs s')

/-- Settles O29: the test comes first, then the loop ends in the fault of its reads. -/
theorem runFaults : Obligations.RunFaults := by
  intro s o n hn
  have hn : n = runOf o := hn
  refine ⟨fun hlong => ?overrun, fun f info u hfit hread => ?missing⟩
  case overrun =>
    refine ⟨_, exec_runD_overrun (hn ▸ hlong), ?_, rfl, rfl, ?_⟩
    · rw [hn]
      exact faulted_takeFault _ _ _
    · exact faultFrame_takeFault _ _ ⟨rfl, rfl, rfl, rfl, rfl, rfl, rfl⟩ rfl rfl
  case missing =>
    let tt : TokenTemps := { s.tmp with run := BitVec.ofNat 14 n, cnt := BitVec.ofNat 14 n }
    have hunseen := (unseen_setTemps tt).rdBytes n s
    rw [hread] at hunseen
    obtain ⟨g, hg, hrun⟩ := (runLoop_eq n _).2 _ hunseen
    have hexec := exec_runD (hn ▸ hfit)
    rw [← hn, hrun] at hexec
    obtain ⟨hframe, -, -⟩ := (runLoop_endsIn n _).raise hrun
    have hcur : (g (setTemps tt u)).lz.cur = s.lz.cur := by rw [hframe]; rfl
    have hrem : (g (setTemps tt u)).lz.rem = s.lz.rem := by rw [hframe]; rfl
    have hseq : (g (setTemps tt u)).seq = s.seq := by rw [hframe]; rfl
    have hhtab : (g (setTemps tt u)).htab = s.htab := by rw [hframe]; rfl
    have hsame : SameOutsideDecoder s (g (setTemps tt u)) := by
      rw [hframe]
      exact ⟨rfl, rfl, rfl, rfl, rfl, rfl, rfl⟩
    exact ⟨_, hexec, faulted_takeFault _ _ _, hg.ip _, hcur, hrem, hg.hf _, faultFrame_takeFault _ _ hsame hseq hhtab⟩

/-- Settles O21: the data is there, so the loop is a row of EMITs of `IN[doff ..]`. -/
theorem decRawCopies : Obligations.DecRawCopies := by
  intro s hlen hwp hfit hwritten
  obtain ⟨bs, hbs, hheld⟩ := exists_bytes_of_writtenFrom hwritten
  let s1 := setIp s.doff (setHfEn false s)
  have hexec : exec .decRaw s = .next (endDone s.dsize (setIp (s.doff + s.dsize) (emitAll bs s1))) := by
    have := exec_decRaw hfit hbs hheld
    rwa [hlen, Nat.zero_add] at this
  have hs1 : s1.lz.outLen = 0 := hlen
  have hout : (emitAll bs s1).out = Memory.writeAll s.out 0 bs := by rw [emitAll_out, hs1]; rfl
  have hlz := emitAll_lz bs s1
  rw [hbs, hs1, Nat.zero_add] at hlz
  refine ⟨_, hexec, ?cr, fun k hk => ?out, fun a ha => ?outOutside, ?window, fun a ha => ?winOutside, ?seq, ?lz,
    emitAll_hf bs s1, emitAll_htab bs s1, emitAll_le bs s1, emitAll_he bs s1, emitAll_temps bs s1, emitAll_inMem bs s1,
    emitAll_mid bs s1, emitAll_host bs s1, emitAll_freeCtr bs s1⟩
  case cr =>
    rw [endDone, setIp, emitAll_cr]
    rfl
  case out =>
    refine Eq.trans ?_ (hheld k hk).symm
    show Memory.read (emitAll bs s1).out k = _
    have := Memory.read_writeAll_inside bs s.out 0 k (hbs ▸ hk)
    rwa [Nat.zero_add, ← hout] at this
  case outOutside =>
    show Memory.read (emitAll bs s1).out a = _
    rw [hout]
    exact Memory.read_writeAll_outside _ _ _ _ (.inr (by omega))
  case window => exact (windowHolds_congr rfl rfl rfl rfl).2 (windowHolds_emitAll bs (windowHolds_zero hs1 hwp))
  case winOutside =>
    refine emitAll_win_outside bs s1 a fun k hk => ?_
    have hzero : s1.lz.wp.toNat = 0 := congrArg BitVec.toNat hwp
    rw [hzero, Nat.zero_add]
    have := Nat.mod_le k Config.winSize
    have := Nat.mod_lt k (show 0 < Config.winSize by decide)
    omega
  case seq =>
    rw [endDone, setIp, emitAll_seq]
    rfl
  case lz =>
    rw [endDone, setIp, hlz]
    rfl

/-- Settles O23. -/
theorem decLzPositionsTheSource : Obligations.DecLzPositionsTheSource := fun _ => rfl

/-- Settles O22: DEC.RAW's length test, and HT.LOAD's sign test. -/
theorem dataPathFaults : Obligations.DataPathFaults := by
  intro s
  refine ⟨fun hshort => ?short, fun bs i hi hheld hlen hlong hmsb => ?negative⟩
  case short =>
    show execDecRaw s = _
    exact congrArg outcomeOf (if_pos hshort)
  case negative =>
    have hread : inRead16 16 (setHfEn true s) = .ok (le16 (bs.getD 16 0) (bs.getD 17 0)) := by
      have hlen : (setHfEn true s).seq.inLen = bs.length := hlen
      exact inRead16_holds (s := setHfEn true s) hheld (by omega) (by omega)
    have hload := htLoad_negative hread hmsb
    have hexec : ∃ p, exec i s = outcomeOf (htLoad (setHfEn true s) >>= fun t => .ok (setPhase p t)) := by
      rcases hi with rfl | rfl
      · exact ⟨_, exec_decHfirw s⟩
      · exact ⟨_, exec_decHfi s⟩
    obtain ⟨p, hexec⟩ := hexec
    rw [hload, error_bind] at hexec
    exact ⟨_, hexec, faulted_takeFault _ _ _, rfl, rfl⟩

/-- Settles O24: the table length is not negative, and the entries lie between offset 18 and `data_offset`. -/
theorem tableLoadCompletes : Obligations.TableLoadCompletes := by
  intro s bs i p hi hheld hlen hdoff hin hmsb
  have hload := htLoad_holds (s := setHfEn true s) hheld hlen hdoff hin hmsb
  have hexec : exec i s = outcomeOf (htLoad (setHfEn true s) >>= fun t => .ok (setPhase p t)) := by
    rcases hi with ⟨rfl, rfl⟩ | ⟨rfl, rfl⟩
    · exact exec_decHfirw s
    · exact exec_decHfi s
  rw [hload, ok_bind, outcomeOf_ok] at hexec
  have hcount : (blobEntries bs (htCount s.doff)).length = htCount s.doff := blobEntries_length _ _
  refine ⟨_, hexec, ?hf, fun k hk => ?inside, fun k hk => ?outside, rfl, rfl, rfl, rfl, rfl, rfl, rfl, rfl, rfl, rfl, rfl,
    rfl⟩
  case hf =>
    show (loadTable _ (blobEntries bs (htCount s.doff)) (setHfEn true s)).hf = _
    rw [loadTable, hcount]
    rfl
  case inside =>
    have hk : k < (blobEntries bs (htCount s.doff)).length := hk
    have := Memory.read_writeAll_inside (blobEntries bs (htCount s.doff)) s.htab 0 k hk
    rw [Nat.zero_add, blobEntries_getElem? bs (hcount ▸ hk)] at this
    exact this
  case outside => exact Memory.read_writeAll_outside _ s.htab 0 k (.inr ((Nat.zero_add _).trans_le hk))

end Sys2Proof.Safety
end

