-- ==== Sys2Proof/Proofs/Programs.lean ====
section
/-! PROOFS. What every instruction keeps, however its pseudocode ends (rules R33, R61, R223, R224, R282, R345). -/

namespace Sys2Proof.Machine

open Sys2Proof.Safety

/-! ### The pseudocode of an instruction -/

/-- The pseudocode that `exec` runs for an instruction. -/
def program : Instr → State → Except Stop State
  | .decompress, s => if s.busy then .ok s else
      hdrParse Config.magic (cmdStart false s.ctrlAlg s) >>= fun t => .ok (setPhase .decSelect t)
  | .compress alg, s => if s.busy then .ok s else
      compressChecks (cmdStart true alg s) >>= fun t => .ok (setPhase .encSelect t)
  | .encRaw, s => srcBytes s >>= fun src =>
      .ok (endCompress (appendAll .out src (setDp 16 (hdrBuild 0 s.le.srcLen 0 s))))
  | .encLz, s => srcBytes s >>= fun src =>
      lzEncode .out src (setDp 16 (hdrBuild 3 s.le.srcLen 0 s)) >>= fun t => .ok (endCompress t)
  | .encHfirw, s => srcBytes s >>= fun src => hfEncode src s >>= fun t =>
      .ok (endCompress (hdrBuild 2 t.le.srcLen (htNent t.hf.htLen) t))
  | .encHfi, s => srcBytes s >>= fun src => lzEncode .mid src (setDp 0 s) >>= fun t =>
      midBytes t 0 t.le.dp >>= fun hsrc => hfEncode hsrc t >>= fun u =>
        .ok (endCompress (hdrBuild 4 u.le.srcLen (htNent u.hf.htLen) u))
  | .decRaw, s =>
      if s.seq.inLen < s.doff + s.dsize then
        .error (.raise .eTrunc s.seq.inLen (setIp s.doff (setHfEn false s)))
      else rawLoop s.dsize (setIp s.doff (setHfEn false s)) >>= fun t => .ok (endDone t.lz.outLen t)
  | .decLz, s => .ok (setPhase .lzLoop (setIp s.doff (setHfEn false s)))
  | .decHfirw, s => htLoad (setHfEn true s) >>= fun t => .ok (setPhase .hfirwLoop t)
  | .decHfi, s => htLoad (setHfEn true s) >>= fun t => .ok (setPhase .lzLoop t)
  | .lit v, s => .ok (emit v s)
  | .refA l o, s => copy (offRefA o) (lenRefA l) s
  | .refB l o, s => copy o (lenRefB l) s
  | .refC o n, s => copy o (lenRefC n) s
  | .refE o t, s => copy o (lenRefE t) s
  | .runD o, s =>
      if s.dsize < s.lz.outLen + runOf o then
        .error (.raise .eOverrun (runOf o) (setTemps { s.tmp with run := BitVec.ofNat 14 (runOf o) } s))
      else runLoop (runOf o) (setTemps { s.tmp with run := BitVec.ofNat 14 (runOf o), cnt := BitVec.ofNat 14 (runOf o) } s)
  | .htLeaf b, s => .ok (setPhase .hfirwLoop (emit b (setNode (b.setWidth 16) s)))
  | .htNode n, s => htStep n s >>= fun t => .ok (setPhase .hfirwWord t)
  | .htInvalid x, s => .error (.raise .eHtEntry (htInvalidWord x).toNat s)

/-- `exec` is its pseudocode. -/
theorem exec_eq_program (i : Instr) (s : State) : exec i s = outcomeOf (program i s) := by
  cases i with
  | decompress =>
    show (if s.busy then _ else _) = outcomeOf (if s.busy then _ else _)
    split_ifs <;> rfl
  | compress alg =>
    show (if s.busy then _ else _) = outcomeOf (if s.busy then _ else _)
    split_ifs <;> rfl
  | runD o =>
    show (if s.dsize < s.lz.outLen + runOf o then _ else _) = outcomeOf (if s.dsize < s.lz.outLen + runOf o then _ else _)
    split_ifs <;> rfl
  | _ => rfl

/-- What holds where the pseudocode of an instruction ends holds where the step ends, but for what the end of the command
itself writes. -/
theorem exec_next_of_endsIn {P : State → Prop} {i : Instr} {s t : State} (h : EndsIn id P (program i s))
    (hexec : exec i s = .next t) :
    P t ∨ (∃ f info u, P u ∧ t = takeFault f info u) ∨ ∃ u, P u ∧ t = endNoMatch u := by
  rw [exec_eq_program] at hexec
  rcases outcomeOf_next.1 hexec with hx | ⟨f, info, u, hx, rfl⟩ | ⟨u, hx, rfl⟩ <;> rw [hx] at h
  · exact .inl h
  · exact .inr (.inl ⟨f, info, u, h, rfl⟩)
  · exact .inr (.inr ⟨u, h, rfl⟩)

/-- Two facts about where pseudocode ends. -/
theorem EndsIn.and {α : Type} {st : α → State} {P Q : State → Prop} {x : Except Stop α} (h : EndsIn st P x)
    (h' : EndsIn st Q x) : EndsIn st (fun s => P s ∧ Q s) x := by
  rcases x with e | a
  · cases e with
    | raise _ _ u => exact ⟨h, h'⟩
    | noMatch u => exact ⟨h, h'⟩
    | fault _ => trivial
    | refuse _ => trivial
  · exact ⟨h, h'⟩

/-! ### Decoder loops -/

/-- What a loop of a decoder leaves alone; a tidy state stays tidy. -/
def DecFrame (s t : State) : Prop := LoopFrame s t ∧ (Tidy s → Tidy t)

theorem DecFrame.refl (s : State) : DecFrame s s := ⟨LoopFrame.refl s, id⟩

theorem DecFrame.trans {s t u : State} (h : DecFrame s t) (h' : DecFrame t u) : DecFrame s u :=
  ⟨h.1.trans h'.1, fun hs => h'.2 (h.2 hs)⟩

theorem tidy_emit (b : Byte) {s : State} (h : Tidy s) : Tidy (emit b s) := by
  obtain ⟨h1, h2, h3, h4⟩ := h
  exact ⟨h1, Memory.wf_write _ _ _ h2, Memory.wf_write _ _ _ h3, h4⟩

theorem decFrame_emit (b : Byte) (s : State) : DecFrame s (emit b s) := ⟨⟨rfl, rfl, rfl⟩, tidy_emit b⟩

theorem decFrame_setTemps (tt : TokenTemps) (s : State) : DecFrame s (setTemps tt s) := ⟨⟨rfl, rfl, rfl⟩, id⟩

theorem decFrame_setIp (n : Nat) (s : State) : DecFrame s (setIp n s) := ⟨⟨rfl, rfl, rfl⟩, id⟩

/-- A fetch keeps a tidy state tidy. -/
theorem FetchFrame.tidy {s t : State} (h : FetchFrame s t) (hs : Tidy s) : Tidy t := by
  rw [h.1]
  exact hs

theorem rdByte_decFrame (s : State) : EndsIn Prod.snd (DecFrame s) (rdByte s) := by
  exact (rdByte_loopFrame s).and ((rdByte_fetchFrame s).mono fun t ht => ht.tidy)

/-- RUN.D's loop, however it ends. -/
theorem runLoop_decFrame (n : Nat) (s : State) : EndsIn id (DecFrame s) (runLoop n s) := by
  induction n generalizing s with
  | zero => exact DecFrame.refl s
  | succ n ih =>
    refine (rdByte_decFrame s).bind fun ⟨b, t⟩ _ ht => ?_
    exact (ih _).mono fun u hu => (ht.trans ((decFrame_emit b t).trans (decFrame_setTemps _ _))).trans hu

/-- COPY's loop, however it ends. -/
theorem copyLoop_decFrame (off : BitVec 13) (n : Nat) (s : State) : EndsIn id (DecFrame s) (copyLoop off n s) := by
  induction n generalizing s with
  | zero => exact DecFrame.refl s
  | succ n ih =>
    refine EndsIn.bind (st := fun _ => s) (endsIn_readOrStop _ _ _ fun _ _ => DecFrame.refl s) fun b _ _ => ?_
    exact (ih _).mono fun u hu => ((decFrame_emit b s).trans (decFrame_setTemps _ _)).trans hu

/-- COPY, however it ends. -/
theorem copy_decFrame (off : BitVec 13) (len : Nat) (s : State) : EndsIn id (DecFrame s) (copy off len s) := by
  unfold copy
  dsimp only
  split_ifs
  · exact decFrame_setTemps _ s
  · exact decFrame_setTemps _ s
  · exact (copyLoop_decFrame off len _).mono fun u hu => (decFrame_setTemps _ s).trans hu

/-- DEC.RAW's loop, however it ends. -/
theorem rawLoop_decFrame (n : Nat) (s : State) : EndsIn id (DecFrame s) (rawLoop n s) := by
  induction n generalizing s with
  | zero => exact DecFrame.refl s
  | succ n ih =>
    have hread : EndsIn Prod.snd (DecFrame s) (inRdByte s) :=
      EndsIn.bind (st := fun _ => s) (endsIn_inRead (DecFrame.refl s)) fun b _ _ => decFrame_setIp _ s
    exact hread.bind fun ⟨b, t⟩ _ ht => (ih _).mono fun u hu => (ht.trans (decFrame_emit b t)).trans hu

/-! ### Table load -/

/-- Only HTAB and the Huffman decoder's registers differ; a tidy state stays tidy, and HTAB's size legal (rule R64). -/
def LoadFrame (s t : State) : Prop :=
  t = { s with htab := t.htab, hf := t.hf } ∧ (Tidy s → Tidy t) ∧
    (s.hf.htCnt ≤ Config.htMaxEntries → t.hf.htCnt ≤ Config.htMaxEntries)

theorem LoadFrame.refl (s : State) : LoadFrame s s := ⟨rfl, id, id⟩

theorem LoadFrame.trans {s t u : State} (h : LoadFrame s t) (h' : LoadFrame t u) : LoadFrame s u := by
  obtain ⟨hfr, htidy, hcnt⟩ := h
  obtain ⟨hfr', htidy', hcnt'⟩ := h'
  exact ⟨by rw [hfr', hfr], fun h => htidy' (htidy h), fun h => hcnt' (hcnt h)⟩

theorem loadFrame_hf (h : HfDecoder) (s : State) (hc : h.htCnt = s.hf.htCnt ∨ h.htCnt ≤ Config.htMaxEntries) :
    LoadFrame s { s with hf := h } := ⟨rfl, id, fun hs => hc.elim (fun e => e.trans_le hs) id⟩

theorem htLoadEntries_loadFrame (n i : Nat) (s : State) : EndsIn id (LoadFrame s) (htLoadEntries n i s) := by
  induction n generalizing i s with
  | zero => exact LoadFrame.refl s
  | succ n ih =>
    refine EndsIn.bind (st := fun _ => s) (inRead16_endsIn _ (LoadFrame.refl s)) fun v _ _ => ?_
    have hstore : LoadFrame s { s with htab := Memory.write s.htab i v } :=
      ⟨rfl, fun ⟨h1, h2, h3, h4, h5, h6⟩ => ⟨h1, h2, h3, h4, Memory.wf_write _ _ _ h5, h6⟩, id⟩
    exact (ih _ _).mono fun u hu => hstore.trans hu

/-- HT.LOAD, however it ends. -/
theorem htLoad_loadFrame (s : State) : EndsIn id (LoadFrame s) (htLoad s) := by
  refine EndsIn.bind (st := fun _ => s) (inRead16_endsIn _ (LoadFrame.refl s)) fun v _ _ => ?_
  dsimp only
  split_ifs
  · exact loadFrame_hf _ s (.inl rfl)
  · refine EndsIn.bind (st := id) (P := LoadFrame s) ((htLoadEntries_loadFrame _ _ _).mono fun u hu => ?_) fun u _ hu => ?_
    · exact LoadFrame.trans (loadFrame_hf _ s (.inr (Nat.min_le_right _ _))) hu
    · exact LoadFrame.trans hu (loadFrame_hf _ u (.inl rfl))

/-! ### Every instruction -/

/-- What no instruction changes (rules R33, R61), and what none spoils: canonical memories, the bit writers' counts,
CTRL's unstored bits, HTAB's size. -/
structure ExecFrame (s t : State) : Prop where
  inMem : t.inMem = s.inMem
  inLenReg : t.cr.inLenReg = s.cr.inLenReg
  ctrl : t.cr.ctrl = s.cr.ctrl
  host : t.host = s.host
  tidy : Tidy s → Tidy t
  htCnt : s.hf.htCnt ≤ Config.htMaxEntries → t.hf.htCnt ≤ Config.htMaxEntries

theorem ExecFrame.refl (s : State) : ExecFrame s s := ⟨rfl, rfl, rfl, rfl, id, id⟩

theorem ExecFrame.trans {s t u : State} (h : ExecFrame s t) (h' : ExecFrame t u) : ExecFrame s u :=
  ⟨h'.inMem.trans h.inMem, h'.inLenReg.trans h.inLenReg, h'.ctrl.trans h.ctrl, h'.host.trans h.host,
    fun hs => h'.tidy (h.tidy hs), fun hs => h'.htCnt (h.htCnt hs)⟩

theorem DecFrame.execFrame {s t : State} (h : DecFrame s t) : ExecFrame s t := by
  obtain ⟨⟨hframe, -, hcnt⟩, htidy⟩ := h
  refine ⟨?_, ?_, ?_, ?_, htidy, fun hs => hcnt.trans_le hs⟩ <;> rw [hframe]

theorem LoadFrame.execFrame {s t : State} (h : LoadFrame s t) : ExecFrame s t := by
  obtain ⟨hframe, htidy, hcnt⟩ := h
  refine ⟨?_, ?_, ?_, ?_, htidy, hcnt⟩ <;> rw [hframe]

theorem HfFrame.execFrame {s t : State} (h : HfFrame s t) : ExecFrame s t := by
  obtain ⟨hframe, -, hcnt⟩ := h
  refine ⟨?_, ?_, ?_, ?_, fun hs => ?_, fun hs => hcnt.trans_le hs⟩ <;> rw [hframe]
  exact hs

theorem FetchFrame.execFrame {s t : State} (h : FetchFrame s t) : ExecFrame s t := by
  refine ⟨?_, ?_, ?_, ?_, h.tidy, fun hs => h.2.2.1.trans_le hs⟩ <;> rw [h.1]

theorem EncFrame.execFrame {s t : State} (h : EncFrame s t) : ExecFrame s t := by
  obtain ⟨hframe, htidy⟩ := h
  refine ⟨?_, ?_, ?_, ?_, htidy, fun hs => ?_⟩ <;> rw [hframe]
  exact hs

theorem execFrame_setPhase (p : Phase) (s : State) : ExecFrame s (setPhase p s) := ⟨rfl, rfl, rfl, rfl, id, id⟩

theorem execFrame_setHfEn (v : Bool) (s : State) : ExecFrame s (setHfEn v s) := ⟨rfl, rfl, rfl, rfl, id, id⟩

theorem execFrame_setNode (v : Half) (s : State) : ExecFrame s (setNode v s) := ⟨rfl, rfl, rfl, rfl, id, id⟩

theorem execFrame_endDone (n : Nat) (s : State) : ExecFrame s (endDone n s) := ⟨rfl, rfl, rfl, rfl, id, id⟩

theorem execFrame_endNoMatch (s : State) : ExecFrame s (endNoMatch s) := ⟨rfl, rfl, rfl, rfl, id, id⟩

theorem execFrame_takeFault (f : CoreFault) (info : Nat) (s : State) : ExecFrame s (takeFault f info s) :=
  ⟨rfl, rfl, rfl, rfl, fun ⟨h1, _, _, h4⟩ => ⟨h1, rfl, rfl, h4⟩, id⟩

theorem execFrame_latchHeader (ver alg : Half) (doff dsize : Word) (s : State) :
    ExecFrame s (latchHeader ver alg doff dsize s) := ⟨rfl, rfl, rfl, rfl, id, id⟩

theorem execFrame_hdrBuild (alg : Half) (size nent : Nat) (s : State) : ExecFrame s (hdrBuild alg size nent s) :=
  (execFrame_latchHeader _ _ _ _ s).trans (encFrame_outWriteAll 0 _ _).execFrame

theorem cmdStart_freq (op : Bool) (alg : Half) (s : State) : (cmdStart op alg s).he.freq = regFile fun _ => 0 := by
  rw [cmdStart_he, ← zeroFreq]

theorem cmdStart_code (op : Bool) (alg : Half) (s : State) :
    (cmdStart op alg s).he.code = regFile fun b => (Config.freeCode (s.freeCtr + 8 + b)).take 255 := by
  rw [cmdStart_he, freeCodes]

theorem execFrame_cmdStart (op : Bool) (alg : Half) (s : State) : ExecFrame s (cmdStart op alg s) := by
  refine ⟨rfl, rfl, rfl, rfl, fun ⟨h1, _⟩ => ⟨h1, rfl, rfl, rfl, rfl, ?freq, ?code,
    ⟨Nat.zero_le _, Nat.zero_le _, fun h => absurd rfl h⟩, Nat.zero_le _⟩, fun _ => Nat.zero_le _⟩
  case freq =>
    rw [cmdStart_freq]
    exact regFile_registerFile _
  case code =>
    rw [cmdStart_code]
    exact regFile_registerFile _

/-- A row of reads of IN changes nothing, however it ends. -/
theorem inReadMany_endsIn {P : State → Prop} {s : State} (h : P s) (n a : Nat) :
    EndsIn (fun _ => s) P (inReadMany s a n) := by
  induction n generalizing a with
  | zero => exact h
  | succ n ih => exact (endsIn_inRead h).bind fun b _ _ => (ih (a + 1)).bind fun bs _ _ => h

/-- Nor does a row of reads of MID. -/
theorem midBytes_endsIn {P : State → Prop} {s : State} (h : P s) (n a : Nat) :
    EndsIn (fun _ => s) P (midBytes s a n) := by
  induction n generalizing a with
  | zero => exact h
  | succ n ih =>
    exact EndsIn.bind (st := fun _ => s) (endsIn_readOrStop _ _ _ fun _ _ => h) fun b _ _ =>
      (ih (a + 1)).bind fun bs _ _ => h

/-- The checks of COMPRESS change nothing but `src_len`, however they end. -/
theorem compressChecks_endsIn (s : State) : EndsIn id (ExecFrame s) (compressChecks s) := by
  unfold compressChecks
  split_ifs
  · exact ExecFrame.refl s
  · exact ExecFrame.refl s
  · exact ⟨rfl, rfl, rfl, rfl, id, id⟩

/-- The commands keep the frame. -/
theorem decompress_execFrame (s : State) : EndsIn id (ExecFrame s) (program .decompress s) := by
  rw [program]
  split_ifs
  · exact ExecFrame.refl s
  · refine (hdrParse_endsIn _ (execFrame_cmdStart _ _ s) fun ver alg doff dsize => ?_).bind
      fun u _ hu => ExecFrame.trans hu (execFrame_setPhase _ u)
    exact (execFrame_cmdStart _ _ s).trans (execFrame_latchHeader ver alg doff dsize _)

theorem compress_execFrame (alg : Half) (s : State) : EndsIn id (ExecFrame s) (program (.compress alg) s) := by
  rw [program]
  split_ifs
  · exact ExecFrame.refl s
  · exact ((compressChecks_endsIn _).mono fun u hu => (execFrame_cmdStart _ _ s).trans hu).bind
      fun u _ hu => ExecFrame.trans hu (execFrame_setPhase _ u)

/-- The Huffman pass and the header of a COMPRESS keep the frame. -/
theorem hfEncode_execFrame {s t : State} (ht : ExecFrame s t) (alg : Half) (hsrc : List Byte) :
    EndsIn id (ExecFrame s) (hfEncode hsrc t >>= fun u =>
      .ok (endCompress (hdrBuild alg u.le.srcLen (htNent u.hf.htLen) u))) :=
  EndsIn.bind (st := id) (P := ExecFrame s) ((hfEncode_endsIn hsrc t).mono fun _ hu => ht.trans hu.execFrame)
    fun u _ hu => (ExecFrame.trans hu (execFrame_hdrBuild _ _ _ u)).trans (execFrame_endDone _ _)

/-- The LZ77 pass keeps the frame. -/
theorem lzEncode_execFrame {s t : State} (ht : ExecFrame s t) (d : Dst) (src : List Byte) :
    EndsIn id (ExecFrame s) (lzEncode d src t) :=
  (lzEncode_endsIn d src t).mono fun _ hu => ht.trans hu.execFrame

theorem srcBytes_execFrame (s : State) : EndsIn (fun _ => s) (ExecFrame s) (srcBytes s) :=
  inReadMany_endsIn (ExecFrame.refl s) _ _

/-- The data paths of COMPRESS keep the frame. -/
theorem encRaw_execFrame (s : State) : EndsIn id (ExecFrame s) (program .encRaw s) :=
  (srcBytes_execFrame s).bind fun src _ _ =>
    ((execFrame_hdrBuild 0 s.le.srcLen 0 s).trans (encFrame_setDp 16 _).execFrame).trans
      ((encFrame_appendAll .out src _).execFrame.trans (execFrame_endDone _ _))

theorem encLz_execFrame (s : State) : EndsIn id (ExecFrame s) (program .encLz s) := by
  have hstart : ExecFrame s (setDp 16 (hdrBuild 3 s.le.srcLen 0 s)) :=
    (execFrame_hdrBuild _ _ _ s).trans (encFrame_setDp 16 _).execFrame
  exact (srcBytes_execFrame s).bind fun src _ _ => (lzEncode_execFrame hstart .out src).bind
    fun u _ hu => ExecFrame.trans hu (execFrame_endDone _ _)

theorem encHfirw_execFrame (s : State) : EndsIn id (ExecFrame s) (program .encHfirw s) :=
  (srcBytes_execFrame s).bind fun src _ _ => hfEncode_execFrame (ExecFrame.refl s) 2 src

theorem encHfi_execFrame (s : State) : EndsIn id (ExecFrame s) (program .encHfi s) := by
  refine (srcBytes_execFrame s).bind fun src _ _ =>
    (lzEncode_execFrame (encFrame_setDp 0 s).execFrame .mid src).bind fun u _ (hu : ExecFrame s u) => ?_
  have hmid : EndsIn (fun _ => u) (ExecFrame s) (midBytes u 0 u.le.dp) := midBytes_endsIn hu _ _
  exact hmid.bind fun hsrc _ _ => hfEncode_execFrame hu 4 hsrc

/-- The data paths of DECOMPRESS keep the frame. -/
theorem decRaw_execFrame (s : State) : EndsIn id (ExecFrame s) (program .decRaw s) := by
  have hstart : ExecFrame s (setIp s.doff (setHfEn false s)) :=
    (execFrame_setHfEn false s).trans (decFrame_setIp _ _).execFrame
  rw [program]
  split_ifs
  · exact hstart
  · exact EndsIn.bind (st := id) (P := ExecFrame s) ((rawLoop_decFrame _ _).mono fun u hu => hstart.trans hu.execFrame)
      fun u _ hu => ExecFrame.trans hu (execFrame_endDone _ u)

theorem htLoad_execFrame (p : Phase) (s : State) :
    EndsIn id (ExecFrame s) (htLoad (setHfEn true s) >>= fun t => .ok (setPhase p t)) :=
  EndsIn.bind (st := id) (P := ExecFrame s)
    ((htLoad_loadFrame _).mono fun _ hu => (execFrame_setHfEn true s).trans hu.execFrame)
    fun u _ hu => ExecFrame.trans hu (execFrame_setPhase p u)

/-- The tokens keep the frame. -/
theorem copy_execFrame (off : BitVec 13) (len : Nat) (s : State) : EndsIn id (ExecFrame s) (copy off len s) :=
  (copy_decFrame off len s).mono fun _ h => h.execFrame

theorem runD_execFrame (o : BitVec 13) (s : State) : EndsIn id (ExecFrame s) (program (.runD o) s) := by
  rw [program]
  split_ifs
  · exact (decFrame_setTemps _ s).execFrame
  · exact (runLoop_decFrame _ _).mono fun u hu => ((decFrame_setTemps _ s).trans hu).execFrame

/-- Every instruction keeps the frame, however its pseudocode ends. -/
theorem program_execFrame (i : Instr) (s : State) : EndsIn id (ExecFrame s) (program i s) := by
  cases i with
  | decompress => exact decompress_execFrame s
  | compress alg => exact compress_execFrame alg s
  | encRaw => exact encRaw_execFrame s
  | encLz => exact encLz_execFrame s
  | encHfirw => exact encHfirw_execFrame s
  | encHfi => exact encHfi_execFrame s
  | decRaw => exact decRaw_execFrame s
  | decLz =>
    exact ((execFrame_setHfEn false s).trans (decFrame_setIp _ _).execFrame).trans (execFrame_setPhase _ _)
  | decHfirw => exact htLoad_execFrame .hfirwLoop s
  | decHfi => exact htLoad_execFrame .lzLoop s
  | lit v => exact (decFrame_emit v s).execFrame
  | refA l o => exact copy_execFrame _ _ s
  | refB l o => exact copy_execFrame _ _ s
  | refC o n => exact copy_execFrame _ _ s
  | refE o t => exact copy_execFrame _ _ s
  | runD o => exact runD_execFrame o s
  | htLeaf b =>
    exact (execFrame_setNode _ s).trans ((decFrame_emit b _).execFrame.trans (execFrame_setPhase _ _))
  | htNode n =>
    exact ((htStep_endsIn n s).mono fun u hu => hu.execFrame).bind
      fun u _ hu => ExecFrame.trans hu (execFrame_setPhase _ u)
  | htInvalid x => exact ExecFrame.refl s

/-- Every instruction keeps the frame. -/
theorem exec_execFrame {i : Instr} {s t : State} (h : exec i s = .next t) : ExecFrame s t := by
  rcases exec_next_of_endsIn (program_execFrame i s) h with ht | ⟨f, info, u, hu, rfl⟩ | ⟨u, hu, rfl⟩
  · exact ht
  · exact hu.trans (execFrame_takeFault f info u)
  · exact hu.trans (execFrame_endNoMatch u)

/-! ### The loaded table is a ROM (rule R223) -/

/-- HTAB and its registers are the same. -/
def SameTable (s t : State) : Prop := t.htab = s.htab ∧ t.hf.htLen = s.hf.htLen ∧ t.hf.htCnt = s.hf.htCnt

theorem LoopFrame.sameTable {s t : State} (h : LoopFrame s t) : SameTable s t := by
  obtain ⟨hframe, hlen, hcnt⟩ := h
  exact ⟨by rw [hframe], hlen, hcnt⟩

theorem FetchFrame.sameTable {s t : State} (h : FetchFrame s t) : SameTable s t := by
  obtain ⟨hframe, hlen, hcnt, -, -⟩ := h
  exact ⟨by rw [hframe], hlen, hcnt⟩

theorem HfFrame.sameTable {s t : State} (h : HfFrame s t) : SameTable s t := by
  obtain ⟨hframe, hlen, hcnt⟩ := h
  exact ⟨by rw [hframe], hlen, hcnt⟩

/-- Neither a token nor a table word writes the table, however it ends. -/
theorem program_sameTable {i : Instr} (h : i.format = .lzToken ∨ i.format = .htWord) (s : State) :
    EndsIn id (SameTable s) (program i s) := by
  have copied : ∀ off len, EndsIn id (SameTable s) (copy off len s) :=
    fun off len => (copy_decFrame off len s).mono fun _ h => h.1.sameTable
  cases i with
  | lit v => exact ⟨rfl, rfl, rfl⟩
  | refA l o => exact copied _ _
  | refB l o => exact copied _ _
  | refC o n => exact copied _ _
  | refE o t => exact copied _ _
  | runD o =>
    rw [program]
    split_ifs
    · exact ⟨rfl, rfl, rfl⟩
    · exact (runLoop_endsIn _ _).mono fun u hu => hu.sameTable
  | htLeaf b => exact ⟨rfl, rfl, rfl⟩
  | htNode n => exact ((htStep_endsIn n s).mono fun u hu => hu.sameTable).bind fun u _ hu => hu
  | htInvalid x => exact ⟨rfl, rfl, rfl⟩
  | decompress | compress _ | encRaw | encHfirw | encLz | encHfi | decRaw | decHfirw | decLz | decHfi =>
    rcases h with h | h <;> cases h

end Sys2Proof.Machine

namespace Sys2Proof.Safety

open Sys2Proof.Machine

/-- Settles O52: the frame that every instruction keeps. -/
theorem noInstructionWritesIn : Obligations.NoInstructionWritesIn := by
  intro i s t h
  have hframe := exec_execFrame h
  exact ⟨hframe.inMem, hframe.inLenReg, hframe.ctrl, hframe.host⟩

/-- Settles O53: the loops and the fetch keep the table, and so do the ends of a command. -/
theorem tableIsRom : Obligations.TableIsRom := by
  intro s t
  refine ⟨fun i hi h => ?_, fun i h => ((fetchToken_endsIn s).ok h).sameTable⟩
  rcases exec_next_of_endsIn (program_sameTable hi s) h with ht | ⟨f, info, u, hu, rfl⟩ | ⟨u, hu, rfl⟩
  · exact ht
  · exact hu
  · exact hu

/-- Settles O54: what the descent and the fetch leave alone. -/
theorem cursorsAreSeparate : Obligations.CursorsAreSeparate := by
  intro s t
  refine ⟨fun b h => ?descent, fun i hsrc h => ?direct, fun i hsrc h => ?huffman⟩
  case descent =>
    obtain ⟨hframe, -, -⟩ := (hfRdByte_endsIn s).ok h
    rw [show t = _ from hframe]
  case direct =>
    obtain ⟨-, -, -, hhf, -⟩ := (fetchToken_endsIn s).ok h
    exact hhf hsrc
  case huffman =>
    obtain ⟨-, -, -, -, hip⟩ := (fetchToken_endsIn s).ok h
    exact hip hsrc

end Sys2Proof.Safety
end

