-- ==== Sys2Proof/Proofs/NoMatch.lean ====
section
/-! PROOFS. Which instruction can end with NOMATCH (rules R131, R132, R282): only HDR.PARSE says so. -/

namespace Sys2Proof.Machine

open Sys2Proof.Safety

/-- Pseudocode that stops early does so in a way that `A` allows. -/
def StopsIn {α : Type} (A : Stop → Prop) (x : Except Stop α) : Prop := ∀ e, x = .error e → A e

theorem StopsIn.of_ok {α : Type} {A : Stop → Prop} (a : α) : StopsIn A (Except.ok a) := by
  intro e he
  cases he

theorem StopsIn.of_error {α : Type} {A : Stop → Prop} {e : Stop} (h : A e) : StopsIn A (Except.error e : Except Stop α) := by
  intro e' he
  cases he
  exact h

theorem StopsIn.bind {α β : Type} {A : Stop → Prop} {x : Except Stop α} {f : α → Except Stop β} (h : StopsIn A x)
    (hf : ∀ a, x = .ok a → StopsIn A (f a)) : StopsIn A (x >>= f) := by
  intro e he
  rcases bind_error.1 he with hx | ⟨a, hx, hfa⟩
  · exact h e hx
  · exact hf a hx e hfa

/-- A stop that does not end the command with NOMATCH. -/
def NotNoMatch (e : Stop) : Prop := ∀ u, e ≠ .noMatch u

theorem notNoMatch_raise (f : CoreFault) (info : Nat) (u : State) : NotNoMatch (.raise f info u) := fun _ h => by
  cases h

theorem notNoMatch_fault (f : Fault) : NotNoMatch (.fault f) := fun _ h => by cases h

theorem notNoMatch_refuse (r : Refusal) : NotNoMatch (.refuse r) := fun _ h => by cases h

theorem readOrStop_noMatchFree {α : Type} (sp : Space) (m : Memory α) (a : Nat) :
    StopsIn NotNoMatch (readOrStop sp m a) := by
  intro e he
  obtain ⟨-, rfl⟩ := readOrStop_error.1 he
  exact notNoMatch_fault _

theorem inRead_noMatchFree (a : Nat) (s : State) : StopsIn NotNoMatch (inRead a s) := by
  intro e he
  rcases inRead_error.1 he with ⟨-, rfl⟩ | ⟨-, -, rfl⟩
  · exact notNoMatch_raise _ _ _
  · exact notNoMatch_fault _

theorem inRead16_noMatchFree (a : Nat) (s : State) : StopsIn NotNoMatch (inRead16 a s) :=
  (inRead_noMatchFree a s).bind fun _ _ => (inRead_noMatchFree (a + 1) s).bind fun _ _ => .of_ok _

theorem inReadMany_noMatchFree (s : State) (n a : Nat) : StopsIn NotNoMatch (inReadMany s a n) := by
  induction n generalizing a with
  | zero => exact .of_ok _
  | succ n ih => exact (inRead_noMatchFree a s).bind fun _ _ => (ih (a + 1)).bind fun _ _ => .of_ok _

theorem midBytes_noMatchFree (s : State) (n a : Nat) : StopsIn NotNoMatch (midBytes s a n) := by
  induction n generalizing a with
  | zero => exact .of_ok _
  | succ n ih => exact (readOrStop_noMatchFree _ _ _).bind fun _ _ => (ih (a + 1)).bind fun _ _ => .of_ok _

/-! ### The decoders -/

theorem htStep_noMatchFree (n : BitVec 15) (s : State) : StopsIn NotNoMatch (htStep n s) := by
  intro e he
  rcases htStep_error.1 he with he | ⟨b, u, -, ⟨-, rfl⟩ | ⟨-, -, rfl⟩ | ⟨-, v, -, -, rfl⟩⟩
  · exact inRead_noMatchFree _ _ e (hfRdBit_error.1 he).2
  · exact notNoMatch_raise _ _ _
  · exact notNoMatch_fault _
  · exact notNoMatch_raise _ _ _

theorem hfDescend_noMatchFree (k : Nat) (s : State) : StopsIn NotNoMatch (hfDescend k s) := by
  induction k generalizing s with
  | zero => exact .of_error (notNoMatch_fault _)
  | succ k ih =>
    unfold hfDescend
    split
    · exact .of_ok _
    · exact (htStep_noMatchFree _ s).bind fun t _ => ih t
    · exact .of_error (notNoMatch_raise _ _ _)

theorem rdByte_noMatchFree (s : State) : StopsIn NotNoMatch (rdByte s) := by
  unfold rdByte
  split_ifs
  · exact hfDescend_noMatchFree _ _
  · exact fun e he => inRead_noMatchFree _ _ e (inRdByte_error.1 he)

theorem rawLoop_noMatchFree (n : Nat) (s : State) : StopsIn NotNoMatch (rawLoop n s) := by
  induction n generalizing s with
  | zero => exact .of_ok _
  | succ n ih =>
    have hread : StopsIn NotNoMatch (inRdByte s) := fun e he => inRead_noMatchFree _ _ e (inRdByte_error.1 he)
    exact hread.bind fun _ _ => ih _

theorem runLoop_noMatchFree (n : Nat) (s : State) : StopsIn NotNoMatch (runLoop n s) := by
  induction n generalizing s with
  | zero => exact .of_ok _
  | succ n ih => exact (rdByte_noMatchFree s).bind fun _ _ => ih _

theorem copyLoop_noMatchFree (off : BitVec 13) (n : Nat) (s : State) : StopsIn NotNoMatch (copyLoop off n s) := by
  induction n generalizing s with
  | zero => exact .of_ok _
  | succ n ih => exact (readOrStop_noMatchFree _ _ _).bind fun _ _ => ih _

theorem copy_noMatchFree (off : BitVec 13) (len : Nat) (s : State) : StopsIn NotNoMatch (copy off len s) := by
  unfold copy
  dsimp only
  split_ifs
  · exact .of_error (notNoMatch_raise _ _ _)
  · exact .of_error (notNoMatch_raise _ _ _)
  · exact copyLoop_noMatchFree _ _ _

theorem htLoadEntries_noMatchFree (n i : Nat) (s : State) : StopsIn NotNoMatch (htLoadEntries n i s) := by
  induction n generalizing i s with
  | zero => exact .of_ok _
  | succ n ih => exact (inRead16_noMatchFree _ _).bind fun _ _ => ih _ _

theorem htLoad_noMatchFree (s : State) : StopsIn NotNoMatch (htLoad s) := by
  refine (inRead16_noMatchFree _ _).bind fun t _ => ?_
  dsimp only
  split_ifs
  · exact .of_error (notNoMatch_raise _ _ _)
  · exact (htLoadEntries_noMatchFree _ _ _).bind fun _ _ => .of_ok _

/-! ### The encoders -/

theorem lzSelect_noMatchFree (d : Dst) (off len : Nat) (s : State) : StopsIn NotNoMatch (lzSelect d off len s) := by
  unfold lzSelect
  split
  · exact .of_ok _
  · exact .of_error (notNoMatch_refuse _)

theorem chunkLoop_noMatchFree (d : Dst) (off k rem : Nat) (s : State) :
    StopsIn NotNoMatch (chunkLoop d off k rem s) := by
  induction k generalizing rem s with
  | zero => exact .of_ok _
  | succ k ih =>
    unfold chunkLoop
    split_ifs
    · exact .of_ok _
    · exact (lzSelect_noMatchFree _ _ _ _).bind fun _ _ => ih _ _

theorem lzEncodeIter_noMatchFree (d : Dst) (src : List Byte) (v : Byte) (s : State) :
    StopsIn NotNoMatch (lzEncodeIter d src v s) := by
  unfold lzEncodeIter
  dsimp only
  split_ifs
  · exact .of_ok _
  · exact (chunkLoop_noMatchFree _ _ _ _ _).bind fun _ _ => .of_ok _

theorem lzEncodeLoop_noMatchFree (d : Dst) (src : List Byte) (k : Nat) (s : State) :
    StopsIn NotNoMatch (lzEncodeLoop d src k s) := by
  induction k generalizing s with
  | zero => exact .of_ok _
  | succ k ih =>
    unfold lzEncodeLoop
    split
    · exact .of_ok _
    · exact (lzEncodeIter_noMatchFree _ _ _ _).bind fun _ _ => ih _

theorem lzEncode_noMatchFree (d : Dst) (src : List Byte) (s : State) : StopsIn NotNoMatch (lzEncode d src s) :=
  (lzEncodeLoop_noMatchFree d src _ _).bind fun _ _ => .of_ok _

theorem hfStoreEntries_noMatchFree (root n i : Nat) (s : State) :
    StopsIn NotNoMatch (hfStoreEntries root n i s) := by
  induction n generalizing i s with
  | zero => exact .of_ok _
  | succ n ih =>
    rcases hfStoreEntries_succ root n i s with ⟨-, h⟩ | ⟨-, h⟩ <;> rw [h]
    · exact (readOrStop_noMatchFree _ _ _).bind fun _ _ => ih _ _
    · exact ih _ _

theorem codesLoop_noMatchFree (bs : List Nat) (s : State) : StopsIn NotNoMatch (codesLoop bs s) := by
  induction bs generalizing s with
  | nil => exact .of_ok _
  | cons b bs ih =>
    unfold codesLoop
    split
    · exact .of_error (notNoMatch_fault _)
    · exact ih _

theorem packLoop_noMatchFree (vs : List Byte) (s : State) : StopsIn NotNoMatch (packLoop vs s) := by
  induction vs generalizing s with
  | nil => exact .of_ok _
  | cons v vs ih => exact (readOrStop_noMatchFree _ _ _).bind fun _ _ => ih _

theorem hfEncode_noMatchFree (hsrc : List Byte) (s : State) : StopsIn NotNoMatch (hfEncode hsrc s) :=
  (hfStoreEntries_noMatchFree _ _ _ _).bind fun _ _ => (codesLoop_noMatchFree _ _).bind fun _ _ =>
    (packLoop_noMatchFree _ _).bind fun _ _ => .of_ok _

/-! ### Every instruction but DECOMPRESS -/

theorem compressChecks_noMatchFree (s : State) : StopsIn NotNoMatch (compressChecks s) := by
  unfold compressChecks
  split_ifs
  · exact .of_error (notNoMatch_raise _ _ _)
  · exact .of_error (notNoMatch_raise _ _ _)
  · exact .of_ok _

/-- The pseudocode of an instruction other than DECOMPRESS never ends the command with NOMATCH. -/
theorem program_noMatchFree {i : Instr} (hi : i ≠ .decompress) (s : State) : StopsIn NotNoMatch (program i s) := by
  have source : StopsIn NotNoMatch (srcBytes s) := inReadMany_noMatchFree s _ _
  cases i with
  | decompress => exact absurd rfl hi
  | compress alg =>
    rw [program]
    split_ifs
    · exact .of_ok _
    · exact (compressChecks_noMatchFree _).bind fun _ _ => .of_ok _
  | encRaw => exact source.bind fun _ _ => .of_ok _
  | encLz => exact source.bind fun _ _ => (lzEncode_noMatchFree _ _ _).bind fun _ _ => .of_ok _
  | encHfirw => exact source.bind fun _ _ => (hfEncode_noMatchFree _ _).bind fun _ _ => .of_ok _
  | encHfi =>
    exact source.bind fun _ _ => (lzEncode_noMatchFree _ _ _).bind fun t _ => (midBytes_noMatchFree t _ _).bind
      fun _ _ => (hfEncode_noMatchFree _ _).bind fun _ _ => .of_ok _
  | decRaw =>
    rw [program]
    split_ifs
    · exact .of_error (notNoMatch_raise _ _ _)
    · exact (rawLoop_noMatchFree _ _).bind fun _ _ => .of_ok _
  | decLz => exact .of_ok _
  | decHfirw => exact (htLoad_noMatchFree _).bind fun _ _ => .of_ok _
  | decHfi => exact (htLoad_noMatchFree _).bind fun _ _ => .of_ok _
  | lit v => exact .of_ok _
  | refA l o => exact copy_noMatchFree _ _ s
  | refB l o => exact copy_noMatchFree _ _ s
  | refC o n => exact copy_noMatchFree _ _ s
  | refE o t => exact copy_noMatchFree _ _ s
  | runD o =>
    rw [program]
    split_ifs
    · exact .of_error (notNoMatch_raise _ _ _)
    · exact runLoop_noMatchFree _ _
  | htLeaf b => exact .of_ok _
  | htNode n => exact (htStep_noMatchFree n s).bind fun _ _ => .of_ok _
  | htInvalid x => exact .of_error (notNoMatch_raise _ _ _)

/-- Where the pseudocode of an instruction runs to its end, STATUS is what it was, BUSY or DONE. -/
theorem program_ok_status {i : Instr} {s t : State} (h : program i s = .ok t) :
    t.cr.status = s.cr.status ∨ t.cr.status = .busy ∨ t.cr.status = .done := by
  have loaded : ∀ {p}, (htLoad (setHfEn true s) >>= fun u => .ok (setPhase p u)) = .ok t →
      t.cr.status = s.cr.status := by
    intro p h
    obtain ⟨u, hu, h⟩ := bind_ok.1 h
    cases h
    have hframe := ((htLoad_loadFrame _).ok hu).1
    rw [setPhase_cr, show u = _ from hframe]
    rfl
  have copied : ∀ {off len}, copy off len s = .ok t → t.cr.status = s.cr.status := by
    intro off len h
    have hframe := ((copy_decFrame off len s).ok h).1.1
    rw [show t = _ from hframe]
  cases i with
  | decompress =>
    rw [program] at h
    split_ifs at h
    · cases h
      exact .inl rfl
    · obtain ⟨u, hu, h⟩ := bind_ok.1 h
      cases h
      obtain ⟨-, -, ver, alg, doff, dsize, -, -, -, -, rfl, -⟩ := hdrParse_ok.1 hu
      exact .inr (.inl rfl)
  | compress alg =>
    rw [program] at h
    split_ifs at h
    · cases h
      exact .inl rfl
    · obtain ⟨u, hu, h⟩ := bind_ok.1 h
      cases h
      unfold compressChecks at hu
      split_ifs at hu
      cases hu
      exact .inr (.inl rfl)
  | encRaw =>
    obtain ⟨src, -, h⟩ := bind_ok.1 h
    cases h
    exact .inr (.inr rfl)
  | encLz =>
    obtain ⟨src, -, h⟩ := bind_ok.1 h
    obtain ⟨u, -, h⟩ := bind_ok.1 h
    cases h
    exact .inr (.inr rfl)
  | encHfirw =>
    obtain ⟨src, -, h⟩ := bind_ok.1 h
    obtain ⟨u, -, h⟩ := bind_ok.1 h
    cases h
    exact .inr (.inr rfl)
  | encHfi =>
    obtain ⟨src, -, h⟩ := bind_ok.1 h
    obtain ⟨u, -, h⟩ := bind_ok.1 h
    obtain ⟨hsrc, -, h⟩ := bind_ok.1 h
    obtain ⟨w, -, h⟩ := bind_ok.1 h
    cases h
    exact .inr (.inr rfl)
  | decRaw =>
    rw [program] at h
    split_ifs at h
    obtain ⟨u, -, h⟩ := bind_ok.1 h
    cases h
    exact .inr (.inr rfl)
  | decLz =>
    cases h
    exact .inl rfl
  | decHfirw => exact .inl (loaded h)
  | decHfi => exact .inl (loaded h)
  | lit v =>
    cases h
    exact .inl rfl
  | refA l o => exact .inl (copied h)
  | refB l o => exact .inl (copied h)
  | refC o n => exact .inl (copied h)
  | refE o e => exact .inl (copied h)
  | runD o =>
    rw [program] at h
    split_ifs at h
    have hframe := ((runLoop_endsIn _ _).ok h).1
    rw [show t = _ from hframe]
    exact .inl rfl
  | htLeaf b =>
    cases h
    exact .inl rfl
  | htNode n =>
    obtain ⟨u, hu, h⟩ := bind_ok.1 h
    cases h
    have hframe := ((htStep_endsIn n s).ok hu).1
    rw [setPhase_cr, show u = _ from hframe]
    exact .inl rfl
  | htInvalid x => cases h

end Sys2Proof.Machine

namespace Sys2Proof.Safety

open Sys2Proof.Machine

/-- Settles O51: no other pseudocode says NOMATCH, and no other end of a step writes it into STATUS. -/
theorem onlyDecompressEndsNoMatch : Obligations.OnlyDecompressEndsNoMatch := by
  intro i s t hexec hend hstart
  by_contra hi
  rw [exec_eq_program] at hexec
  rcases outcomeOf_next.1 hexec with hx | ⟨f, info, u, -, rfl⟩ | ⟨u, hx, -⟩
  · rcases program_ok_status hx with h | h | h <;> rw [h] at hend
    · exact hstart hend
    · cases hend
    · cases hend
  · cases hend
  · exact program_noMatchFree hi s _ hx u rfl

end Sys2Proof.Safety
end

