-- ==== Sys2Proof/Proofs/Commands.lean ====
section
/-! PROOFS. The header codec and the start of the two commands (rules R35, R131 to R136, R255, R256, R262, R294). -/

namespace Sys2Proof.Machine

open Sys2Proof.Safety

/-! ### What HDR.PARSE reads (rules R91, R131) -/

@[simp] theorem headerBytes_length (m : Word) (ver alg : Half) (doff dsize : Word) :
    (headerBytes m ver alg doff dsize).length = 16 := rfl

/-- Bytes that reach beyond a read, and a header in front of them. -/
theorem inRead32_magic {u : State} {m : Word} {rest : List Byte} (h : HoldsAt u.inMem 0 (le32Bytes m ++ rest))
    (hlen : u.seq.inLen = 4 + rest.length) : inRead32 0 u = .ok m := by
  have hbytes : (le32Bytes m ++ rest).length = 4 + rest.length := by
    rw [List.length_append]
    rfl
  have hread := inRead32_holds (a := 0) h (by omega) (by omega)
  exact hread.trans (congrArg Except.ok (le32_le32Bytes m))

/-- HDR.PARSE of a whole header that begins with the magic tests the latched fields (rule R131). -/
theorem hdrParse_header {u : State} {m : Word} {ver alg : Half} {doff dsize : Word} {rest : List Byte}
    (h : HoldsAt u.inMem 0 (headerBytes m ver alg doff dsize ++ rest)) (hlen : u.seq.inLen = 16 + rest.length) :
    hdrParse m u = hdrChecks (latchHeader ver alg doff dsize u) := by
  have hbytes : (headerBytes m ver alg doff dsize ++ rest).length = 16 + rest.length := by
    rw [List.length_append, headerBytes_length]
  have hmagic : inRead32 0 u = .ok m :=
    (inRead32_holds (a := 0) h (by omega) (by omega)).trans (congrArg Except.ok (le32_le32Bytes m))
  have hver : inRead16 4 u = .ok ver :=
    (inRead16_holds (a := 4) h (by omega) (by omega)).trans (congrArg Except.ok (le16_le16Bytes ver))
  have halg : inRead16 6 u = .ok alg :=
    (inRead16_holds (a := 6) h (by omega) (by omega)).trans (congrArg Except.ok (le16_le16Bytes alg))
  have hdoff : inRead32 8 u = .ok doff :=
    (inRead32_holds (a := 8) h (by omega) (by omega)).trans (congrArg Except.ok (le32_le32Bytes doff))
  have hdsize : inRead32 12 u = .ok dsize :=
    (inRead32_holds (a := 12) h (by omega) (by omega)).trans (congrArg Except.ok (le32_le32Bytes dsize))
  rw [hdrParse, if_neg (by omega), hmagic, ok_bind, if_neg (by simp), if_neg (by rw [Config.hdrLen]; omega), hver, ok_bind,
    halg, ok_bind, hdoff, ok_bind, hdsize, ok_bind]

/-- HDR.PARSE of bytes that begin with the magic and end within the header (rules R131, R285). -/
theorem hdrParse_cut {u : State} {m : Word} {rest : List Byte} (h : HoldsAt u.inMem 0 (le32Bytes m ++ rest))
    (hlen : u.seq.inLen = 4 + rest.length) (hcut : rest.length < 12) :
    hdrParse m u = .error (.raise .eTrunc u.seq.inLen u) := by
  rw [hdrParse, if_neg (by omega), inRead32_magic h hlen, ok_bind, if_neg (by simp),
    if_pos (by rw [Config.hdrLen]; omega)]

/-- HDR.PARSE of bytes that do not begin with the magic (rule R132). -/
theorem hdrParse_noMagic {u : State} {m : Word} {bs : List Byte} (h : HoldsAt u.inMem 0 bs)
    (hlen : u.seq.inLen = bs.length) (hno : bs.take 4 ≠ le32Bytes m) : hdrParse m u = .error (.noMatch u) := by
  by_cases hshort : u.seq.inLen < 4
  · rw [hdrParse, if_pos hshort]
  · match bs with
    | b0 :: b1 :: b2 :: b3 :: rest =>
      have hread : inRead32 0 u = .ok (le32 b0 b1 b2 b3) := inRead32_holds (a := 0) h (by omega) (by simp)
      have hne : le32 b0 b1 b2 b3 ≠ m := fun he => hno (by rw [← he, le32Bytes_le32]; rfl)
      rw [hdrParse, if_neg hshort, hread, ok_bind, if_pos hne]
    | [] | [_] | [_, _] | [_, _, _] => exact absurd hlen (by simp; omega)

/-! ### The tests of HDR.PARSE (rules R131, R134, R135, R294) -/

theorem hdrChecks_of_illegal {s : State} (h : legalAlg s.cr.hdrAlg = false) :
    hdrChecks s = .error (.raise .eAlg s.cr.hdrAlg.toNat s) := if_pos h

theorem legalAlg_of_huffmanAlg {id : Half} (h : huffmanAlg id = true) : legalAlg id = true := by
  simp only [huffmanAlg, legalAlg, Bool.or_eq_true] at h ⊢
  tauto

theorem hdrChecks_of_short {s : State} (h : huffmanAlg s.cr.hdrAlg = true) (hshort : s.seq.inLen < 18) :
    hdrChecks s = .error (.raise .eTrunc s.seq.inLen s) := by
  rw [hdrChecks, if_neg (by rw [legalAlg_of_huffmanAlg h]; simp), if_pos ⟨h, hshort⟩]

theorem hdrChecks_of_range {s : State} (h : legalAlg s.cr.hdrAlg = true)
    (hlong : huffmanAlg s.cr.hdrAlg = true → 18 ≤ s.seq.inLen)
    (hrange : s.doff < 16 ∨ (huffmanAlg s.cr.hdrAlg = true ∧ s.doff < 18) ∨ s.seq.inLen < s.doff) :
    hdrChecks s = .error (.raise .eHdr s.doff s) := by
  rw [hdrChecks, if_neg (by simp [h])]
  cases hhuff : huffmanAlg s.cr.hdrAlg with
  | false =>
    rw [if_neg (by simp), if_pos ⟨rfl, by simp [hhuff] at hrange; exact hrange⟩]
  | true =>
    have := hlong hhuff
    rw [if_neg (by omega), if_neg (by simp), if_pos ⟨rfl, by omega⟩]

/-! ### HDR.BUILD (rule R136) -/

/-- A length that fits the size field. -/
theorem size_toNat {size : Nat} (h : size ≤ Config.sizeMax) : (BitVec.ofNat 32 size).toNat = size := by
  rw [BitVec.toNat_ofNat, Nat.mod_eq_of_lt]
  exact Nat.lt_succ_of_le h

/-- `data_offset` is large enough for the algorithm and small enough for its field. -/
theorem builtDoff_bounds {alg : Half} {nent : Nat} (h : nent ≤ 1020) :
    16 ≤ builtDoff alg nent ∧ builtDoff alg nent ≤ 2058 ∧ (huffmanAlg alg = true → 18 ≤ builtDoff alg nent) := by
  unfold builtDoff
  split_ifs with hhuff
  · exact ⟨by omega, by omega, fun _ => by omega⟩
  · exact ⟨by omega, by omega, fun h' => absurd h' hhuff⟩

theorem builtDoff_toNat {alg : Half} {nent : Nat} (h : nent ≤ 1020) :
    (BitVec.ofNat 32 (builtDoff alg nent)).toNat = builtDoff alg nent := by
  obtain ⟨-, hle, -⟩ := builtDoff_bounds (alg := alg) h
  rw [BitVec.toNat_ofNat, Nat.mod_eq_of_lt (by omega)]

@[simp] theorem hdrBuild_out (alg : Half) (size nent : Nat) (s : State) :
    (hdrBuild alg size nent s).out = Memory.writeAll s.out 0 (builtHeader alg size nent) := rfl

/-- HDR.PARSE of a built header latches the fields it was built of (rules R131, R136). -/
theorem hdrParse_built {u : State} {alg : Half} {size nent : Nat} {rest : List Byte} (hlegal : legalAlg alg = true)
    (hnent : nent ≤ 1020) (hheld : HoldsAt u.inMem 0 (builtHeader alg size nent ++ rest))
    (hlen : u.seq.inLen = 16 + rest.length) (hdoff : builtDoff alg nent ≤ u.seq.inLen) :
    hdrParse Config.magic u = .ok (latchHeader Config.version alg (BitVec.ofNat 32 (builtDoff alg nent))
      (BitVec.ofNat 32 size) u) := by
  obtain ⟨hge, -, hhuff⟩ := builtDoff_bounds (alg := alg) hnent
  have htoNat := builtDoff_toNat (alg := alg) hnent
  rw [hdrParse_header hheld hlen]
  refine hdrChecks_ok.2 ⟨rfl, hlegal, ?_, ?_, fun h => ?_⟩
  · exact hge.trans htoNat.ge
  · exact htoNat.le.trans hdoff
  · exact (hhuff h).trans htoNat.ge

/-! ### The commands of a core that is not BUSY (rules R255, R256, R262) -/

theorem exec_decompress {s : State} (h : s.busy = false) : exec .decompress s =
    outcomeOf (hdrParse Config.magic (cmdStart false s.ctrlAlg s) >>= fun t => .ok (setPhase .decSelect t)) :=
  if_neg (by simp [h])

theorem exec_compress {s : State} (alg : Half) (h : s.busy = false) : exec (.compress alg) s =
    outcomeOf (compressChecks (cmdStart true alg s) >>= fun t => .ok (setPhase .encSelect t)) :=
  if_neg (by simp [h])

/-- DECOMPRESS whose HDR.PARSE raises a fault ends in it. -/
theorem exec_decompress_raise {s u : State} {f : CoreFault} {info : Nat} (h : s.busy = false)
    (hparse : hdrParse Config.magic (cmdStart false s.ctrlAlg s) = .error (.raise f info u)) :
    exec .decompress s = .next (takeFault f info u) := by
  rw [exec_decompress h, hparse, error_bind, outcomeOf_raise]

/-- A command start sets every counter of FREQ to 0 (rule R35). -/
theorem cmdStart_freq_read (op : Bool) (alg : Half) (s : State) {b : Nat} (hb : b < 256) :
    Memory.read (cmdStart op alg s).he.freq b = some 0 := by
  have hfreq : (cmdStart op alg s).he.freq = regFile fun _ => 0 := rfl
  rw [hfreq, regFile_read, if_pos hb]

/-! ### Two machines at the start of the same command (rules R34, R321) -/

/-- Two stops in states that differ only as `SameButHeader` says. -/
inductive SameStop : Stop → Stop → Prop
  | raise (f : CoreFault) (info : Nat) {s u : State} (h : SameButHeader s u) :
      SameStop (.raise f info s) (.raise f info u)
  | noMatch {s u : State} (h : SameButHeader s u) : SameStop (.noMatch s) (.noMatch u)
  | fault (f : Fault) : SameStop (.fault f) (.fault f)
  | refuse (r : Refusal) : SameStop (.refuse r) (.refuse r)

/-- Two runs of the same pseudocode end alike. -/
inductive SameEnd {α : Type} (R : α → α → Prop) : Except Stop α → Except Stop α → Prop
  | ok {a b : α} (h : R a b) : SameEnd R (.ok a) (.ok b)
  | error {e e' : Stop} (h : SameStop e e') : SameEnd R (.error e) (.error e')

theorem SameEnd.bind {α β : Type} {R : α → α → Prop} {R' : β → β → Prop} {x y : Except Stop α}
    {f g : α → Except Stop β} (h : SameEnd R x y) (hf : ∀ a b, R a b → SameEnd R' (f a) (g b)) :
    SameEnd R' (x >>= f) (y >>= g) := by
  cases h with
  | ok h => exact hf _ _ h
  | error h => exact .error h

theorem inMem_of_sameButHeader {s u : State} (h : SameButHeader s u) : u.inMem = s.inMem := by rw [h]

theorem seq_of_sameButHeader {s u : State} (h : SameButHeader s u) : u.seq = s.seq := by rw [h]

theorem inRead_same (a : Nat) {s u : State} (h : SameButHeader s u) : SameEnd Eq (inRead a s) (inRead a u) := by
  unfold inRead
  rw [seq_of_sameButHeader h, inMem_of_sameButHeader h]
  split_ifs
  · exact .error (.raise _ _ h)
  · unfold readOrStop
    cases Memory.read s.inMem a with
    | none => exact .error (.fault _)
    | some b => exact .ok rfl

theorem inRead16_same (a : Nat) {s u : State} (h : SameButHeader s u) : SameEnd Eq (inRead16 a s) (inRead16 a u) :=
  (inRead_same a h).bind fun b0 _ e0 => (inRead_same (a + 1) h).bind fun b1 _ e1 => .ok (by rw [e0, e1])

theorem inRead32_same (a : Nat) {s u : State} (h : SameButHeader s u) : SameEnd Eq (inRead32 a s) (inRead32 a u) :=
  (inRead_same a h).bind fun b0 _ e0 => (inRead_same (a + 1) h).bind fun b1 _ e1 =>
    (inRead_same (a + 2) h).bind fun b2 _ e2 => (inRead_same (a + 3) h).bind fun b3 _ e3 =>
      .ok (by rw [e0, e1, e2, e3])

theorem setPhase_same (p : Phase) {s u : State} (h : SameButHeader s u) :
    SameButHeader (setPhase p s) (setPhase p u) := by
  unfold SameButHeader at h
  rw [h]
  rfl

theorem takeFault_same (f : CoreFault) (info : Nat) {s u : State} (h : SameButHeader s u) :
    SameButHeader (takeFault f info s) (takeFault f info u) := by
  unfold SameButHeader at h
  rw [h]
  rfl

theorem endNoMatch_same {s u : State} (h : SameButHeader s u) : SameButHeader (endNoMatch s) (endNoMatch u) := by
  unfold SameButHeader at h
  rw [h]
  rfl

/-- `src_len` at the length of the input, as COMPRESS leaves it (rule R262). -/
def setSrcLen (n : Nat) (s : State) : State := { s with le := { s.le with srcLen := n } }

theorem setSrcLen_same (n : Nat) {s u : State} (h : SameButHeader s u) :
    SameButHeader (setSrcLen n s) (setSrcLen n u) := by
  unfold SameButHeader at h
  rw [h]
  rfl

theorem latchHeader_same (ver alg : Half) (doff dsize : Word) {s u : State} (h : SameButHeader s u) :
    SameButHeader (latchHeader ver alg doff dsize s) (latchHeader ver alg doff dsize u) :=
  congrArg (latchHeader ver alg doff dsize) h

theorem hdrChecks_same {s u : State} (h : SameButHeader s u) (halg : u.cr.hdrAlg = s.cr.hdrAlg)
    (hdoff : u.doff = s.doff) : SameEnd SameButHeader (hdrChecks s) (hdrChecks u) := by
  unfold hdrChecks
  rw [halg, hdoff, seq_of_sameButHeader h]
  split_ifs
  · exact .error (.raise _ _ h)
  · exact .error (.raise _ _ h)
  · exact .error (.raise _ _ h)
  · exact .error (.raise _ _ h)
  · exact .ok h

theorem hdrParse_same (m : Word) {s u : State} (h : SameButHeader s u) :
    SameEnd SameButHeader (hdrParse m s) (hdrParse m u) := by
  unfold hdrParse
  rw [seq_of_sameButHeader h]
  by_cases h4 : s.seq.inLen < 4
  · rw [if_pos h4, if_pos h4]
    exact .error (.noMatch h)
  · rw [if_neg h4, if_neg h4]
    refine (inRead32_same 0 h).bind fun mm _ e => ?_
    subst e
    split_ifs
    · exact .error (.noMatch h)
    · exact .error (.raise _ _ h)
    · refine (inRead16_same 4 h).bind fun ver _ e => ?_
      subst e
      refine (inRead16_same 6 h).bind fun alg _ e => ?_
      subst e
      refine (inRead32_same 8 h).bind fun doff _ e => ?_
      subst e
      refine (inRead32_same 12 h).bind fun dsize _ e => ?_
      subst e
      exact hdrChecks_same (latchHeader_same _ _ _ _ h) rfl rfl

theorem compressChecks_eq (s : State) : compressChecks s =
    if legalAlg s.seq.smpAlg = false then .error (.raise .eAlg s.seq.smpAlg.toNat s)
    else if Config.sizeMax < s.seq.inLen then .error (.raise .eSize s.seq.inLen s)
    else .ok (setSrcLen s.seq.inLen s) := rfl

theorem compressChecks_same {s u : State} (h : SameButHeader s u) :
    SameEnd SameButHeader (compressChecks s) (compressChecks u) := by
  rw [compressChecks_eq, compressChecks_eq, seq_of_sameButHeader h]
  split_ifs
  · exact .error (.raise _ _ h)
  · exact .error (.raise _ _ h)
  · exact .ok (setSrcLen_same s.seq.inLen h)

/-- Two command starts on the same input differ only as `SameButHeader` says. -/
theorem cmdStart_same (op : Bool) (alg : Half) {s u : State} (hctrl : s.cr.ctrl = u.cr.ctrl)
    (hlen : s.cr.inLenReg = u.cr.inLenReg) (hin : s.inMem = u.inMem) (hhost : s.host = u.host) :
    SameButHeader (cmdStart op alg s) (cmdStart op alg u) := by
  unfold SameButHeader cmdStart
  simp only [hctrl, hlen, hin, hhost]

/-- With the same counter of free values they differ in CR6 to CR9 only. -/
theorem latchHeader_cmdStart_congr (op : Bool) (alg : Half) {s u : State} (hctrl : s.cr.ctrl = u.cr.ctrl)
    (hlen : s.cr.inLenReg = u.cr.inLenReg) (hin : s.inMem = u.inMem) (hhost : s.host = u.host)
    (hfree : s.freeCtr = u.freeCtr) (ver hdrAlg : Half) (doff dsize : Word) :
    latchHeader ver hdrAlg doff dsize (cmdStart op alg s) = latchHeader ver hdrAlg doff dsize (cmdStart op alg u) := by
  unfold latchHeader cmdStart
  simp only [hctrl, hlen, hin, hhost, hfree]

/-- What the outcome of one machine says about that of the other. -/
def SameOutcome (o o' : Host.Outcome State Fault Refusal) : Prop :=
  (∀ t, o = .next t → ∃ v, o' = .next v ∧ SameButHeader t v) ∧ (∀ f, o = .fault f → o' = .fault f) ∧
    ∀ r, o = .refused r → o' = .refused r

theorem sameOutcome_next {t v : State} (h : SameButHeader t v) : SameOutcome (.next t) (.next v) := by
  refine ⟨fun t' ht => ?_, fun _ hf => (by cases hf), fun _ hr => (by cases hr)⟩
  obtain rfl := Host.Outcome.next.inj ht
  exact ⟨v, rfl, h⟩

theorem sameOutcome_fault (f : Fault) : SameOutcome (.fault f) (.fault f) :=
  ⟨fun _ h => (by cases h), fun _ h => h, fun _ h => (by cases h)⟩

theorem sameOutcome_refused (r : Refusal) : SameOutcome (.refused r) (.refused r) :=
  ⟨fun _ h => (by cases h), fun _ h => (by cases h), fun _ h => h⟩

/-- Runs that end alike have the same outcome. -/
theorem SameEnd.outcome {x y : Except Stop State} (h : SameEnd SameButHeader x y) :
    SameOutcome (outcomeOf x) (outcomeOf y) := by
  cases h with
  | ok h => exact sameOutcome_next h
  | error h =>
    cases h with
    | raise f info h => exact sameOutcome_next (takeFault_same f info h)
    | noMatch h => exact sameOutcome_next (endNoMatch_same h)
    | fault f => exact sameOutcome_fault f
    | refuse r => exact sameOutcome_refused r

end Sys2Proof.Machine

namespace Sys2Proof.Safety

open Sys2Proof.Machine

/-- Settles O15: the header bytes go to OUT in one row, and they read back as the fields they were made of. -/
theorem builtHeaderParses : Obligations.BuiltHeaderParses := by
  intro alg size nent s u rest hlegal hsize hnent hheld hlen hdoff
  refine ⟨?holds, fun a ha => ?outside, size_toNat hsize, builtDoff_toNat hnent, ?parses⟩
  case holds =>
    rw [hdrBuild_out]
    exact holdsAt_writeAll _ _ _
  case outside =>
    rw [hdrBuild_out]
    refine Memory.read_writeAll_outside _ _ _ _ (.inr ?_)
    rw [builtHeader_length]
    omega
  case parses => exact hdrParse_built hlegal hnent hheld hlen hdoff

/-- Settles O16: the header is there and passes every test. -/
theorem decompressAccepts : Obligations.DecompressAccepts := by
  intro s ver alg doff dsize rest hbusy hloaded hlegal hge hle hhuff
  obtain ⟨hlen, hheld⟩ := hloaded
  rw [List.length_append, headerBytes_length] at hlen
  have hparse : hdrParse Config.magic (cmdStart false s.ctrlAlg s) =
      .ok (latchHeader ver alg doff dsize (cmdStart false s.ctrlAlg s)) := by
    rw [hdrParse_header (u := cmdStart false s.ctrlAlg s) hheld hlen]
    exact hdrChecks_ok.2 ⟨rfl, hlegal, hge, hle.trans hlen.ge, hhuff⟩
  have hexec := exec_decompress hbusy
  rw [hparse, ok_bind, outcomeOf_ok] at hexec
  have hstarted : StartedFrom false s.ctrlAlg s
      (setPhase .decSelect (latchHeader ver alg doff dsize (cmdStart false s.ctrlAlg s))) :=
    ⟨rfl, rfl, rfl, rfl, rfl, fun b => cmdStart_freq_read false s.ctrlAlg s, rfl, rfl, rfl, rfl, rfl, rfl, rfl, rfl,
      rfl, rfl⟩
  exact ⟨_, hexec, rfl, hstarted, ⟨rfl, rfl, rfl, rfl⟩, rfl, rfl⟩

/-- Settles O17. -/
theorem decompressNoMatch : Obligations.DecompressNoMatch := by
  intro s bs hbusy hloaded hno
  obtain ⟨hlen, hheld⟩ := hloaded
  have hexec := exec_decompress hbusy
  rw [hdrParse_noMagic (u := cmdStart false s.ctrlAlg s) hheld hlen hno, error_bind, outcomeOf_noMatch] at hexec
  exact ⟨_, hexec, rfl, rfl, rfl, rfl, rfl, rfl⟩

/-- Settles O18, test by test. -/
theorem decompressRejectsInOrder : Obligations.DecompressRejectsInOrder := by
  intro s hbusy
  refine ⟨fun tail hloaded hcut => ?cut, fun ver alg doff dsize rest hloaded => ?header⟩
  case cut =>
    obtain ⟨hlen, hheld⟩ := hloaded
    rw [List.length_append] at hlen
    have hparse := hdrParse_cut (u := cmdStart false s.ctrlAlg s) hheld hlen hcut
    rw [cmdStart_seq_inLen, hlen] at hparse
    exact ⟨_, exec_decompress_raise hbusy hparse, faulted_takeFault _ _ _⟩
  case header =>
    obtain ⟨hlen, hheld⟩ := hloaded
    rw [List.length_append, headerBytes_length] at hlen
    have hparse := hdrParse_header (u := cmdStart false s.ctrlAlg s) hheld hlen
    refine ⟨fun halg => ?illegal, fun hhuff hshort => ?short, fun hlegal hlong hrange => ?range⟩
    case illegal =>
      rw [hdrChecks_of_illegal halg] at hparse
      exact ⟨_, exec_decompress_raise hbusy hparse, faulted_takeFault _ _ _, rfl, rfl, rfl, rfl⟩
    case short =>
      rw [hdrChecks_of_short hhuff (hlen.trans_lt (by omega))] at hparse
      have hinfo : (latchHeader ver alg doff dsize (cmdStart false s.ctrlAlg s)).seq.inLen = 16 + rest.length := hlen
      rw [hinfo] at hparse
      exact ⟨_, exec_decompress_raise hbusy hparse, faulted_takeFault _ _ _, rfl, rfl, rfl, rfl⟩
    case range =>
      have hlong' : huffmanAlg alg = true → 18 ≤ s.cr.inLenReg := fun h => by
        have := hlong h
        omega
      rw [← hlen] at hrange
      rw [hdrChecks_of_range (s := latchHeader ver alg doff dsize (cmdStart false s.ctrlAlg s)) hlegal hlong' hrange]
        at hparse
      exact ⟨_, exec_decompress_raise hbusy hparse, faulted_takeFault _ _ _, rfl, rfl, rfl, rfl⟩

/-- Settles O20: the command start reads the input only, and what follows reads only what the start left. -/
theorem commandForgetsThePast : Obligations.CommandForgetsThePast := by
  intro s u alg hs hu hctrl hlen hin hhost
  have halg : s.ctrlAlg = u.ctrlAlg := congrArg (fun w : Word => w.extractLsb' 16 16) hctrl
  refine ⟨fun i hi => ?alike, fun ver hdrAlg doff dsize rest hloaded hfree => ?header⟩
  case alike =>
    have hsame : SameOutcome (exec i s) (exec i u) := by
      rcases hi with rfl | rfl
      · rw [exec_decompress hs, exec_decompress hu, halg]
        exact ((hdrParse_same _ (cmdStart_same _ _ hctrl hlen hin hhost)).bind fun t v h =>
          .ok (setPhase_same .decSelect h)).outcome
      · rw [exec_compress alg hs, exec_compress alg hu]
        exact ((compressChecks_same (cmdStart_same _ _ hctrl hlen hin hhost)).bind fun t v h =>
          .ok (setPhase_same .encSelect h)).outcome
    obtain ⟨hnext, hfault, hrefused⟩ := hsame
    refine ⟨hnext, hfault, hrefused, fun hfree ⟨h6, h7, h8, h9⟩ => ?_⟩
    have hstart : ∀ op a, cmdStart op a s = cmdStart op a u := by
      intro op a
      have h := latchHeader_cmdStart_congr op a hctrl hlen hin hhost hfree u.cr.hdrVersion u.cr.hdrAlg u.cr.hdrDoff
        u.cr.hdrDsize
      nth_rewrite 1 [h6, h7, h8, h9] at h
      exact h
    rcases hi with rfl | rfl
    · rw [exec_decompress hs, exec_decompress hu, halg, hstart]
    · rw [exec_compress alg hs, exec_compress alg hu, hstart]
  case header =>
    obtain ⟨hlens, hhelds⟩ := hloaded
    rw [List.length_append, headerBytes_length] at hlens
    rw [exec_decompress hs, exec_decompress hu, halg,
      hdrParse_header (u := cmdStart false u.ctrlAlg s) hhelds hlens,
      hdrParse_header (u := cmdStart false u.ctrlAlg u) (hin ▸ hhelds) (hlen.symm.trans hlens),
      latchHeader_cmdStart_congr _ _ hctrl hlen hin hhost hfree]

/-- Settles O35: both checks pass. -/
theorem compressAccepts : Obligations.CompressAccepts := by
  intro s alg hbusy hlegal hsize
  have hchecks : compressChecks (cmdStart true alg s) = .ok { cmdStart true alg s with
      le := { (cmdStart true alg s).le with srcLen := s.cr.inLenReg } } :=
    (if_neg (by rw [cmdStart_seq_smpAlg, hlegal]; simp)).trans (if_neg (Nat.not_lt.2 hsize))
  have hexec := exec_compress alg hbusy
  rw [hchecks, ok_bind, outcomeOf_ok] at hexec
  exact ⟨_, hexec, rfl, ⟨rfl, rfl, rfl, rfl, rfl, fun b => cmdStart_freq_read true alg s, rfl, rfl, rfl, rfl, rfl, rfl,
    rfl, rfl, rfl, rfl⟩, ⟨rfl, rfl, rfl, rfl⟩, rfl, rfl⟩

/-- Settles O36, check by check. -/
theorem compressRejectsInOrder : Obligations.CompressRejectsInOrder := by
  intro s alg hbusy
  refine ⟨fun hillegal => ?illegal, fun hlegal hsize => ?size⟩
  case illegal =>
    have hchecks : compressChecks (cmdStart true alg s) = .error (.raise .eAlg alg.toNat (cmdStart true alg s)) :=
      if_pos hillegal
    have hexec := exec_compress alg hbusy
    rw [hchecks, error_bind, outcomeOf_raise] at hexec
    exact ⟨_, hexec, faulted_takeFault _ _ _⟩
  case size =>
    have hchecks : compressChecks (cmdStart true alg s) =
        .error (.raise .eSize s.cr.inLenReg (cmdStart true alg s)) :=
      (if_neg (by rw [cmdStart_seq_smpAlg, hlegal]; simp)).trans (if_pos hsize)
    have hexec := exec_compress alg hbusy
    rw [hchecks, error_bind, outcomeOf_raise] at hexec
    exact ⟨_, hexec, faulted_takeFault _ _ _⟩

end Sys2Proof.Safety
end

