-- ==== Sys2Proof/Proofs/Tree.lean ====
section
/-! PROOFS. LZ.CHUNK and LZ.SELECT (rules R194, R195); the tree that HF.BUILD makes and the codes of its leaves (rules
R231 to R246). -/

namespace Sys2Proof.Machine

open Sys2Proof.Safety

/-! ### LZ.SELECT (rules R195, R202) -/

/-- A field of `w` bits holds a number that fits. -/
theorem ofNat_toNat_of_lt {w n : Nat} (h : n < 2 ^ w) : (BitVec.ofNat w n).toNat = n := by
  rw [BitVec.toNat_ofNat, Nat.mod_eq_of_lt h]

theorem offRefA_ofNat {off : Nat} (h : off ≤ 255) : (BitVec.ofNat 8 off).setWidth 13 = BitVec.ofNat 13 off := by
  apply BitVec.eq_of_toNat_eq
  rw [BitVec.toNat_setWidth, ofNat_toNat_of_lt (by omega), BitVec.toNat_ofNat]

/-- LZ.SELECT's choice for a stored offset and a length in range is the narrowest case (rule R195). -/
theorem selectToken_narrowest {off len : Nat} (hoff : off ≤ 8191) (hmin : 3 ≤ len) (hmax : len ≤ 280) :
    ∃ t, selectToken off len = some t ∧ NarrowestCase off len t := by
  have hrange : ¬ (Config.winSize ≤ off ∨ len < Config.lenMin ∨ Config.lenMax < len) := by
    simp only [Config.winSize, Config.lenMin, Config.lenMax]
    omega
  unfold selectToken NarrowestCase
  rw [if_neg hrange]
  by_cases ha : len ≤ 6 ∧ off ≤ 255
  · have hl : (BitVec.ofNat 2 (len - Config.aLenBase)).toNat + 3 = len := by
      rw [ofNat_toNat_of_lt] <;> simp only [Config.aLenBase] <;> omega
    rw [if_pos ha]
    refine ⟨_, rfl, rfl, ?_, ?_⟩
    · rw [refOperands, offRefA_ofNat ha.2, hl]
    · exact (if_pos ha).symm ▸ ⟨_, _, rfl⟩
  · rw [if_neg ha]
    simp only [if_neg ha]
    by_cases hb : len ≤ 9
    · have hl : (BitVec.ofNat 3 (len - Config.bLenBase)).toNat + 2 = len := by
        rw [ofNat_toNat_of_lt] <;> simp only [Config.bLenBase] <;> omega
      simp only [if_pos hb]
      refine ⟨_, rfl, ?_, by rw [refOperands, hl], _, _, rfl⟩
      have hne : BitVec.ofNat 3 (len - Config.bLenBase) ≠ 0 := fun h => by
        rw [h] at hl
        simp at hl
        omega
      simpa [Instr.wellFormed] using hne
    · simp only [if_neg hb]
      by_cases hc : len ≤ 25
      · have hl : (BitVec.ofNat 4 (len - Config.cLenBase)).toNat + 10 = len := by
          rw [ofNat_toNat_of_lt] <;> simp only [Config.cLenBase] <;> omega
        simp only [if_pos hc]
        exact ⟨_, rfl, rfl, by rw [refOperands, hl], _, _, rfl⟩
      · have hl : (BitVec.ofNat 8 (len - Config.eLenBase)).toNat + 0x1A = len := by
          rw [ofNat_toNat_of_lt] <;> simp only [Config.eLenBase] <;> omega
        simp only [if_neg hc]
        refine ⟨_, rfl, ?_, by rw [refOperands, hl], _, _, rfl⟩
        have hne : BitVec.ofNat 8 (len - Config.eLenBase) ≠ Config.dEscape := fun h => by
          rw [h, Config.dEscape] at hl
          simp at hl
          omega
        simpa [Instr.wellFormed] using hne

theorem selectToken_of_outside {off len : Nat} (h : 8191 < off ∨ len < 3 ∨ 280 < len) : selectToken off len = none := by
  refine if_pos ?_
  simp only [Config.winSize, Config.lenMin, Config.lenMax]
  omega

/-! ### Where a canonical memory holds a value first -/

/-- A canonical memory holds nothing below its lowest index. -/
theorem read_of_le_head {α : Type} {a : Nat} {w : α} {m : Memory α} (h : Memory.wf ((a, w) :: m) = true) :
    ∀ b, b ≤ a → Memory.read m b = none := by
  induction m generalizing a w with
  | nil => exact fun _ _ => rfl
  | cons c rest ih =>
    obtain ⟨i, x⟩ := c
    obtain ⟨hlt, hwf⟩ := (Memory.wf_cons a w ((i, x) :: rest)).1 h
    have hai : a < i := hlt (i, x) rfl
    intro b hb
    rw [Memory.read, if_neg (by omega)]
    exact ih hwf b (by omega)

/-- The search of rule R241 finds the lowest index that holds the value. -/
theorem find?_of_first {m : Memory Half} (hwf : Memory.wf m = true) {i : Nat} {v : Half} (hread : Memory.read m i = some v)
    (hfirst : ∀ j, j < i → Memory.read m j ≠ some v) : m.find? (fun e => e.2 == v) = some (i, v) := by
  induction m with
  | nil => cases hread
  | cons c rest ih =>
    obtain ⟨a, w⟩ := c
    obtain ⟨-, hrest⟩ := (Memory.wf_cons a w rest).1 hwf
    have hhead : Memory.read ((a, w) :: rest) a = some w := if_pos rfl
    by_cases hw : w = v
    · subst hw
      have hia : ¬ a < i := fun h => hfirst a h hhead
      have hai : ¬ i < a := fun h => by
        rw [Memory.read, if_neg (by omega), read_of_le_head hwf i (by omega)] at hread
        cases hread
      obtain rfl : i = a := by omega
      rw [List.find?_cons_of_pos (by simp)]
    · have hia : i ≠ a := fun h => hw (by rw [h, hhead] at hread; exact Option.some.inj hread)
      rw [List.find?_cons_of_neg (by simpa using hw)]
      rw [Memory.read, if_neg hia] at hread
      refine ih hrest hread fun j hj hjv => hfirst j hj ?_
      by_cases hja : j = a
      · rw [hja, read_of_le_head hwf a (Nat.le_refl a)] at hjv
        cases hjv
      · rw [Memory.read, if_neg hja]
        exact hjv

/-! ### Codes (rules R241, R245) -/

/-- A walk along two rows of bits is a walk along the first and one along the second. -/
theorem walkTable_append (htab : Memory Half) (as bs : List Bool) (v : Half) :
    walkTable htab (as ++ bs) v = (walkTable htab as v).bind (walkTable htab bs) := by
  induction as generalizing v with
  | nil => rfl
  | cons a as ih =>
    rw [List.cons_append, walkTable, walkTable]
    cases decodeHtWord v with
    | htNode n =>
      simp only
      cases Memory.read htab (htIndex n.toNat a) with
      | none => rfl
      | some x => exact ih x
    | _ => rfl

/-- The node with number `j` (rule R237). -/
def nodeAt (j : Nat) : Half := BitVec.ofNat 16 (0x100 + j)

theorem nodeAt_toNat {j : Nat} (h : j ≤ 0x100) : (nodeAt j).toNat = 0x100 + j := by
  rw [nodeAt, ofNat_toNat_of_lt (by omega)]

theorem nodeAt_mem_nodes {i j : Nat} (h : i < j) : nodeAt i ∈ nodes j :=
  List.mem_map_of_mem (f := nodeAt) (List.mem_range.2 h)

theorem decodeHtWord_nodeAt {j : Nat} (h : j ≤ 0x100) :
    ∃ n : BitVec 15, decodeHtWord (nodeAt j) = .htNode n ∧ n.toNat = 0x100 + j := by
  have hn : (BitVec.ofNat 15 (0x100 + j)).toNat = 0x100 + j := ofNat_toNat_of_lt (by omega)
  have hv : nodeAt j = (BitVec.ofNat 15 (0x100 + j)).setWidth 16 := by
    apply BitVec.eq_of_toNat_eq
    rw [nodeAt_toNat h, BitVec.toNat_setWidth, hn, Nat.mod_eq_of_lt (by omega)]
  exact ⟨_, by rw [hv, decodeHtWord_node (by omega)], hn⟩

/-- One step from a node takes the entry that the bit names (rules R95, R216). -/
theorem walkTable_nodeAt {j : Nat} (h : j ≤ 0x100) (htab : Memory Half) (b : Bool) (bits : List Bool) :
    walkTable htab (b :: bits) (nodeAt j) = (Memory.read htab (2 * j + b.toNat)).bind (walkTable htab bits) := by
  obtain ⟨n, hn, hnat⟩ := decodeHtWord_nodeAt h
  have hidx : htIndex n.toNat b = 2 * j + b.toNat := by
    rw [htIndex, hnat, Config.htIndexBias]
    omega
  rw [walkTable, hn]
  simp only
  rw [hidx]

/-- `path(v)` with `n` iterations exists, leads from the root to `v`, and is at most `d` bits long. -/
def Reached (htab : Memory Half) (root : Half) (n d : Nat) (v : Half) : Prop :=
  ∃ bits, treePath htab root n v = some bits ∧ walkTable htab bits root = some v ∧ bits.length ≤ d

theorem reached_root (htab : Memory Half) (root : Half) (n d : Nat) : Reached htab root n d root := by
  refine ⟨[], ?_, rfl, Nat.zero_le d⟩
  cases n <;> exact if_pos rfl

/-- A child is reached from where its parent is, with one bit more. -/
theorem Reached.child {htab : Memory Half} {root v : Half} {n d i : Nat} (hne : v ≠ root)
    (hfind : htab.find? (fun e => e.2 == v) = some (i, v)) (hread : Memory.read htab i = some v) (hi : i / 2 ≤ 0x100)
    (h : Reached htab root n d (nodeAt (i / 2))) : Reached htab root (n + 1) (d + 1) v := by
  obtain ⟨bits, hpath, hwalk, hlen⟩ := h
  refine ⟨bits ++ [i % 2 == 1], ?_, ?_, by simp [hlen]⟩
  · have hparent : BitVec.ofNat 16 (0x100 + i / 2) = nodeAt (i / 2) := rfl
    rw [treePath, if_neg hne, hfind]
    simp only
    rw [hparent, hpath]
    rfl
  · have hbit : 2 * (i / 2) + (i % 2 == 1).toNat = i := by
      rcases Nat.mod_two_eq_zero_or_one i with h | h <;> rw [h] <;> simp <;> omega
    rw [walkTable_append, hwalk, Option.bind_some, walkTable_nodeAt hi, hbit, hread]
    rfl

/-- The table that HF.BUILD leaves: the entries `es` of a tree with `j` nodes stand from index 0, root and entries
hold every value once, and every child is below its parent (rules R234 to R237). -/
structure TreeTable (htab : Memory Half) (root : Half) (j : Nat) (es : List Half) (syms : List Half) : Prop where
  canonical : Memory.wf htab = true
  small : j ≤ 255
  length : es.length = 2 * j
  entries : ∀ i, i < es.length → Memory.read htab i = es[i]?
  all : (root :: es).Perm (syms ++ nodes j)
  nodup : (root :: es).Nodup
  below : ∀ i v, es[i]? = some v → v.toNat < 0x100 + i / 2

/-- Where a value of the tree other than the root stands, is found, and is read. -/
theorem TreeTable.found {htab : Memory Half} {root v : Half} {j : Nat} {es syms : List Half}
    (h : TreeTable htab root j es syms) (hv : v ∈ syms ++ nodes j) (hne : v ≠ root) :
    ∃ i, i / 2 < j ∧ es[i]? = some v ∧ Memory.read htab i = some v ∧
      htab.find? (fun e => e.2 == v) = some (i, v) := by
  obtain ⟨i, hi⟩ := List.mem_iff_getElem?.1 ((List.mem_cons.1 (h.all.mem_iff.2 hv)).resolve_left hne)
  obtain ⟨hlt, -⟩ := List.getElem?_eq_some_iff.1 hi
  have hread : Memory.read htab i = some v := (h.entries i hlt).trans hi
  have hlen := h.length
  refine ⟨i, by omega, hi, hread, find?_of_first h.canonical hread fun k hk hkv => ?_⟩
  rw [h.entries k (by omega)] at hkv
  have heq := (List.getElem?_inj (by omega) (List.nodup_cons.1 h.nodup).2).1 (hkv.trans hi.symm)
  omega

/-- Every node of the tree is reached: a node that is not the root has a parent with a greater number (rule R241). -/
theorem TreeTable.reached_node {htab : Memory Half} {root : Half} {j : Nat} {es syms : List Half}
    (h : TreeTable htab root j es syms) (n m : Nat) (hm : m < j) (hn : j - 1 - m ≤ n) :
    Reached htab root n (j - 1 - m) (nodeAt m) := by
  have hsmall := h.small
  induction n generalizing m with
  | zero =>
    by_cases hroot : nodeAt m = root
    · rw [← hroot]
      exact reached_root htab (nodeAt m) _ _
    · obtain ⟨i, hi, hes, -, -⟩ := h.found (List.mem_append_right _ (nodeAt_mem_nodes hm)) hroot
      have hbelow := h.below i _ hes
      rw [nodeAt_toNat (by omega)] at hbelow
      omega
  | succ n ih =>
    by_cases hroot : nodeAt m = root
    · rw [← hroot]
      exact reached_root htab (nodeAt m) _ _
    · obtain ⟨i, hi, hes, hread, hfind⟩ := h.found (List.mem_append_right _ (nodeAt_mem_nodes hm)) hroot
      have hbelow := h.below i _ hes
      rw [nodeAt_toNat (by omega)] at hbelow
      obtain ⟨bits, hpath, hwalk, hlen⟩ := (ih (i / 2) hi (by omega)).child hroot hfind hread (by omega)
      exact ⟨bits, hpath, hwalk, by omega⟩

/-- Every symbol of the tree is reached, by at most as many bits as the tree has nodes (rules R241, R245). -/
theorem TreeTable.reached_symbol {htab : Memory Half} {root v : Half} {j : Nat} {es syms : List Half}
    (h : TreeTable htab root j es syms) (hv : v ∈ syms) : Reached htab root 256 255 v := by
  have hsmall := h.small
  by_cases hroot : v = root
  · rw [hroot]
    exact reached_root htab root _ _
  · obtain ⟨i, hi, -, hread, hfind⟩ := h.found (List.mem_append_left _ hv) hroot
    obtain ⟨bits, hpath, hwalk, hlen⟩ :=
      (h.reached_node 255 (i / 2) hi (by omega)).child hroot hfind hread (by omega)
    exact ⟨bits, hpath, hwalk, by omega⟩

/-- HF.BUILD of a source that is not empty leaves such a table (rules R231 to R238). -/
theorem hfBuild_treeTable {hsrc : List Byte} {s : State} (hne : hsrc ≠ []) (hwf : Memory.wf s.htab = true) :
    ∃ es, (hfBuild hsrc s).htab = Memory.writeAll s.htab 0 es ∧
      TreeTable (hfBuild hsrc s).htab (hfBuild hsrc s).hf.htLen ((symbols hsrc).length - 1) es (symbols hsrc) := by
  obtain ⟨b, hb⟩ := List.exists_mem_of_ne_nil hsrc hne
  obtain ⟨es, hhtab, hlen, hall, hbelow⟩ := hfBuild_tree hsrc s (List.ne_nil_of_mem ((mem_symbols hsrc b).2 hb))
  have hk := symbols_length hsrc
  refine ⟨es, hhtab, ?_, by omega, hlen, fun i hi => ?_, hall, ?_, hbelow⟩
  · rw [hhtab]
    exact Memory.wf_writeAll _ _ _ hwf
  · have hread := Memory.read_writeAll_inside es s.htab 0 i hi
    rw [Nat.zero_add] at hread
    rw [hhtab, hread]
  · exact hall.nodup_iff.2 (symbols_nodup hsrc _ (by omega))

end Sys2Proof.Machine

namespace Sys2Proof.Safety

open Sys2Proof.Machine

/-- Settles O42: `total` by arithmetic, LZ.SELECT by the table of rule R195. -/
theorem selectTakesTheNarrowestCase : Obligations.SelectTakesTheNarrowestCase := by
  refine ⟨fun n hn => ?total, fun off len => ⟨fun hoff hmin hmax => ?inside, fun hout d s => ?outside⟩⟩
  case total =>
    unfold chunkTotal Config.lenMax
    split_ifs with h <;> refine ⟨by omega, by omega, rfl⟩
  case inside => exact selectToken_narrowest hoff hmin hmax
  case outside => rw [lzSelect, selectToken_of_outside hout]

/-- Settles O43. -/
theorem mergedNodeGoesAfterEquals : Obligations.MergedNodeGoesAfterEquals := by
  intro f id l hsorted
  obtain ⟨l1, l2, hl, hins, hle, hgt⟩ := nlInsert_split f id l hsorted
  refine ⟨l1, l2, hl, hins, hle, hgt, ?_⟩
  rw [hins]
  exact pairwise_split (hl ▸ hsorted) hle hgt

/-- Settles O44: the tree of the merges reaches its symbols. -/
theorem treeCodesReachTheirLeaves : Obligations.TreeCodesReachTheirLeaves := by
  intro hsrc s b hb hwf
  obtain ⟨es, -, htree⟩ := hfBuild_treeTable (List.ne_nil_of_mem hb) hwf
  exact htree.reached_symbol ((mem_symbols hsrc b).2 hb)

/-- Settles O45: the initial list, the merges, and where they stand in HTAB. -/
theorem rootIsTheLastNode : Obligations.RootIsTheLastNode := by
  intro hsrc s
  have hk := symbols_length hsrc
  have hdedup := symbols_dedup hsrc
  have hpresent : hsrc ≠ [] → symbols hsrc ≠ [] := fun hne => by
    obtain ⟨b, hb⟩ := List.exists_mem_of_ne_nil hsrc hne
    exact List.ne_nil_of_mem ((mem_symbols hsrc b).2 hb)
  refine ⟨?empty, fun b hone => ?one, fun htwo => ?more, fun hne => ?merges, fun a ha => ?outside⟩
  case empty =>
    rintro rfl
    exact (hfBuild_nil s).2
  case one =>
    have hb : b ∈ hsrc := List.mem_dedup.1 (by rw [hone]; exact List.mem_singleton_self b)
    obtain ⟨es, -, hlen, hall, -⟩ := hfBuild_tree hsrc s (hpresent (List.ne_nil_of_mem hb))
    rw [hdedup, hone] at hlen
    obtain rfl : es = [] := List.length_eq_zero_iff.1 hlen
    have hmem := hall.mem_iff.2 (List.mem_append_left _ ((mem_symbols hsrc b).2 hb))
    exact (List.mem_singleton.1 hmem).symm
  case more =>
    have hne : hsrc ≠ [] := fun h => by simp [h] at htwo
    obtain ⟨es, -, hlen, hall, hbelow⟩ := hfBuild_tree hsrc s (hpresent hne)
    rw [← hdedup] at htwo ⊢
    have hlast : nodeAt ((symbols hsrc).length - 2) ∈ symbols hsrc ++ nodes ((symbols hsrc).length - 1) :=
      List.mem_append_right _ (nodeAt_mem_nodes (by omega))
    have hnat := nodeAt_toNat (j := (symbols hsrc).length - 2) (by omega)
    rcases List.mem_cons.1 (hall.mem_iff.2 hlast) with hroot | hes
    · rw [← hroot, hnat]
      omega
    · obtain ⟨i, hi⟩ := List.mem_iff_getElem?.1 hes
      have hlow := hbelow i _ hi
      have hlt := (List.getElem?_eq_some_iff.1 hi).1
      omega
  case merges =>
    obtain ⟨fr, l, hl, hhtab, hroot⟩ := hfBuild_eq hsrc s
    have hinit := initialList_sorted hsrc
    rw [← hl] at hinit
    have hlen : l.length = (symbols hsrc).length := by
      rw [← (initialList_ids hsrc).length_eq, ← hl, List.length_map]
    have hpos := List.length_pos_iff.2 (hpresent hne)
    refine ⟨l, hinit, ?_⟩
    rw [hhtab, hroot]
    exact mergeLoop_merged (j := 0) (s := { s with he := { s.he with freq := fr, nlist := l, nextIdx := 0x100 } })
      l.length rfl (by simp only; omega) (hinit.1.imp fun h => h.elim Nat.le_of_lt fun h => h.1.le) (by simp only; omega)
      (by simp only; omega)
  case outside =>
    by_cases hne : hsrc = []
    · rw [hne, (hfBuild_nil s).1]
    · obtain ⟨es, hhtab, hlen, -, -⟩ := hfBuild_tree hsrc s (hpresent hne)
      rw [hhtab]
      exact Memory.read_writeAll_outside _ _ _ _ (.inr (by omega))

end Sys2Proof.Safety
end

