-- ==== Sys2Proof/Proofs/Writers.lean ====
section
/-! PROOFS. The LZ77 stream writer and the plain bit writer (rules R96, R152 to R159), and how many payload bytes an open
group can hold (rule R67). -/

namespace Sys2Proof.Machine

open Sys2Proof.Safety

/-! ### The LZ77 stream writer (rules R152 to R155) -/

/-- `s` with an open flag group: its control bits so far, and the payload bytes that wait. -/
def openGroup (bits : List Bool) (pay : List Byte) (s : State) : State :=
  { s with le := { s.le with
    wAcc := bits.foldl pushBit 0
    wCnt := bits.length
    pfifo := pay.take Config.pfifoSize
    pfOver := pay.drop Config.pfifoSize } }

theorem openGroup_waiting (bits : List Bool) (pay : List Byte) (s : State) :
    (openGroup bits pay s).le.waiting = pay := List.take_append_drop _ _

/-- An empty group is what a command start leaves. -/
theorem openGroup_empty {s : State} (hacc : s.le.wAcc = 0) (hcnt : s.le.wCnt = 0) (hwait : s.le.waiting = []) :
    openGroup [] [] s = s := by
  obtain ⟨hpf, hover⟩ := List.append_eq_nil_iff.1 hwait
  have hle : ∀ e : LzEncoder, e.wAcc = 0 → e.wCnt = 0 → e.pfifo = [] → e.pfOver = [] →
      { e with wAcc := 0, wCnt := 0, pfifo := [], pfOver := [] } = e := by
    rintro ⟨⟩ rfl rfl rfl rfl
    rfl
  unfold openGroup
  simp only [List.foldl_nil, List.length_nil, List.take_nil, List.drop_nil]
  rw [hle s.le hacc hcnt hpf hover]

theorem lzwByte_openGroup (v : Byte) (bits : List Bool) (pay : List Byte) (s : State) :
    lzwByte v (openGroup bits pay s) = openGroup bits (pay ++ [v]) s := by
  rw [lzwByte, openGroup_waiting]
  rfl

/-- LZW.FLUSH appends the flag byte and what waits, and leaves an empty group (rule R154). -/
theorem lzwFlush_openGroup (d : Dst) (bits : List Bool) (pay : List Byte) (s : State) :
    lzwFlush d (openGroup bits pay s) = appendAll d (flagByte bits :: pay) (openGroup [] [] s) := by
  rw [lzwFlush_eq, openGroup_waiting]
  cases d
  · rw [appendAll_out, appendAll_out]
    rfl
  · rw [appendAll_mid, appendAll_mid]
    rfl

/-- Appending leaves the open group alone. -/
theorem appendAll_openGroup (d : Dst) (bs : List Byte) (bits : List Bool) (pay : List Byte) (s : State) :
    appendAll d bs (openGroup bits pay s) = openGroup bits pay (appendAll d bs s) := by
  cases d
  · rw [appendAll_out, appendAll_out]
    rfl
  · rw [appendAll_mid, appendAll_mid]
    rfl

theorem lzwBit_of_lt (d : Dst) (b : Bool) {bits : List Bool} (h : bits.length < 8) (pay : List Byte) (s : State) :
    lzwBit d b (openGroup bits pay s) = openGroup (bits ++ [b]) pay s := by
  have hcnt : (openGroup bits pay s).le.wCnt ≠ 8 := Nat.ne_of_lt h
  simp only [lzwBit, if_neg hcnt]
  simp only [openGroup, List.foldl_append, List.foldl_cons, List.foldl_nil, List.length_append, List.length_cons,
    List.length_nil, Nat.zero_add]

/-- The ninth control bit closes the group and opens the next one (rules R152, R344). -/
theorem lzwBit_of_full (d : Dst) (b : Bool) {bits : List Bool} (h : bits.length = 8) (pay : List Byte) (s : State) :
    lzwBit d b (openGroup bits pay s) = openGroup [b] [] (appendAll d (flagByte bits :: pay) s) := by
  have hcnt : (openGroup bits pay s).le.wCnt = 8 := h
  simp only [lzwBit, if_pos hcnt]
  rw [lzwFlush_openGroup, appendAll_openGroup]
  rfl

/-- The writer with an open group: what it appends is the serialization with that group (rule R96). -/
theorem lzwFinish_lzwItems (d : Dst) (items : List Item) {bits : List Bool} {pay : List Byte} (s : State)
    (hlen : bits.length ≤ 8) (hopen : bits = [] → pay = [] ∧ ∀ v, items.head? ≠ some (.payload v)) :
    lzwFinish d (lzwItems d items (openGroup bits pay s)) =
      appendAll d (frameItems items bits pay) (openGroup [] [] s) := by
  induction items generalizing bits pay s with
  | nil =>
    by_cases hbits : bits = []
    · obtain ⟨rfl, -⟩ := hopen hbits
      subst hbits
      exact if_neg (Nat.lt_irrefl 0)
    · have hpos : 0 < (openGroup bits pay s).le.wCnt := List.length_pos_iff.2 hbits
      rw [lzwItems, lzwFinish, if_pos hpos, frameItems, if_neg hbits, lzwFlush_openGroup]
  | cons i items ih =>
    rw [lzwItems_cons]
    cases i with
    | control b =>
      rw [lzwItem, frameItems]
      by_cases hfull : bits.length = 8
      · rw [lzwBit_of_full d b hfull, ih _ (by simp) (by simp), if_pos hfull, ← List.cons_append, appendAll_append,
          ← appendAll_openGroup]
      · rw [lzwBit_of_lt d b (by omega), ih _ (by simp; omega) (by simp), if_neg hfull]
    | payload v =>
      have hne : bits ≠ [] := fun h => (hopen h).2 v rfl
      rw [lzwItem, lzwByte_openGroup, ih _ hlen (fun h => absurd h hne), frameItems]

/-! ### The plain bit writer (rules R157 to R159) -/

/-- `s` with bits that do not fill a byte yet. -/
def openByte (bits : List Bool) (s : State) : State :=
  { s with he := { s.he with hAcc := bits.foldl pushBit 0, hCnt := bits.length } }

theorem openByte_empty {s : State} (hacc : s.he.hAcc = 0) (hcnt : s.he.hCnt = 0) : openByte [] s = s := by
  have hhe : ∀ e : HfEncoder, e.hAcc = 0 → e.hCnt = 0 → { e with hAcc := 0, hCnt := 0 } = e := by
    rintro ⟨⟩ rfl rfl
    rfl
  unfold openByte
  simp only [List.foldl_nil, List.length_nil]
  rw [hhe s.he hacc hcnt]

theorem hfwBit_of_lt (b : Bool) {bits : List Bool} (h : bits.length < 7) (s : State) :
    hfwBit b (openByte bits s) = openByte (bits ++ [b]) s := by
  have hcnt : (openByte bits s).he.hCnt + 1 ≠ 8 := by
    show bits.length + 1 ≠ 8
    omega
  simp only [hfwBit, if_neg hcnt]
  simp only [openByte, List.foldl_append, List.foldl_cons, List.foldl_nil, List.length_append, List.length_cons,
    List.length_nil, Nat.zero_add]

/-- The eighth bit fills the byte, which goes out (rule R157). -/
theorem hfwBit_of_full (b : Bool) {bits : List Bool} (h : bits.length = 7) (s : State) :
    hfwBit b (openByte bits s) = openByte [] (appendDst .out (flagByte (bits ++ [b])) s) := by
  have hcnt : (openByte bits s).he.hCnt + 1 = 8 := congrArg (· + 1) h
  have hbyte : pushBit (openByte bits s).he.hAcc b = flagByte (bits ++ [b]) := by
    rw [flagByte, List.foldl_append, List.length_append, h]
    exact (BitVec.shiftLeft_zero _).symm
  simp only [hfwBit, if_pos hcnt, hbyte]
  rfl

theorem hfwFinish_hfwCode (bits : List Bool) {acc : List Bool} (s : State) (hacc : acc.length ≤ 7) :
    hfwFinish (hfwCode bits (openByte acc s)) = appendAll .out (packBits bits acc) (openByte [] s) := by
  induction bits generalizing acc s with
  | nil =>
    rw [hfwCode_nil, hfwFinish, packBits]
    by_cases hne : acc = []
    · subst hne
      exact if_neg (Nat.lt_irrefl 0)
    · have hpos : 0 < (openByte acc s).he.hCnt := List.length_pos_iff.2 hne
      rw [if_pos hpos, if_neg hne]
      rfl
  | cons b bits ih =>
    rw [hfwCode, packBits]
    by_cases hfull : acc.length = 7
    · rw [hfwBit_of_full b hfull, ih (acc := []) _ (Nat.zero_le 7), if_pos hfull]
      rfl
    · rw [hfwBit_of_lt b (by omega), ih _ (by simp; omega), if_neg hfull]

end Sys2Proof.Machine

namespace Sys2Proof.Safety

open Sys2Proof.Machine

/-- Settles O6: the writer with the empty group. -/
theorem writerAppendsTheStream : Obligations.WriterAppendsTheStream := by
  intro d items s hacc hcnt hwait hhead
  have h := lzwFinish_lzwItems d items (bits := []) (pay := []) s (Nat.zero_le 8) fun _ => ⟨rfl, hhead⟩
  rwa [openGroup_empty hacc hcnt hwait] at h

/-- Settles O13: the writer with no bit in its accumulator. -/
theorem huffmanWriterPacks : Obligations.HuffmanWriterPacks := by
  intro bits s hacc hcnt
  have h := hfwFinish_hfwCode bits (acc := []) s (Nat.zero_le 7)
  rwa [openByte_empty hacc hcnt] at h

/-- A group that begins with the second control bit of a REF.B: seven literals, the REF.B, and seven literals again. -/
def overfullTokens : List Instr := List.replicate 7 (.lit 0) ++ [.refB 5 6] ++ List.replicate 7 (.lit 0)

/-- Refutes O14: behind the eighth control bit of its second group `overfullTokens` has nine payload bytes waiting. -/
theorem not_pfifoStaysWithinEightBytes : ¬ Obligations.PfifoStaysWithinEightBytes := by
  intro h
  have hlegal : ∀ t ∈ overfullTokens, isToken t = true ∧ t.wellFormed = true ∧ ∀ o, t ≠ .runD o := by
    intro t ht
    simp only [overfullTokens, List.mem_append, List.mem_replicate, List.mem_singleton] at ht
    rcases ht with (⟨-, rfl⟩ | rfl) | ⟨-, rfl⟩ <;> exact ⟨rfl, rfl, nofun⟩
  have hnine : (lzwItems .out ((overfullTokens.flatMap Instr.items).take 100) State.reset).le.waiting.length = 9 := by
    decide
  exact absurd (h overfullTokens 100 State.reset hlegal rfl rfl) (by rw [hnine]; decide)

end Sys2Proof.Safety
end

