-- ==== Sys2Proof/Proofs/Invariant.lean ====
section
/-! PROOFS. The invariant: what every instruction keeps, how a command ends, what a running decoder keeps besides, and the
step by phase and by host action (rules R32, R60 to R67, R180, R181, R223, R255, R268, R269, R282, R283). -/

namespace Sys2Proof.Machine

open Sys2Proof.Safety

/-! ### The ends of a command -/

/-- The part of the invariant that no instruction spoils, however it ends. -/
def Kept (s : State) : Prop := Tidy s ∧ s.cr.ctrl &&& ~~~ctrlMask = 0 ∧ s.hf.htCnt ≤ Config.htMaxEntries

theorem ExecFrame.kept {s t : State} (h : ExecFrame s t) (hs : Kept s) : Kept t := by
  obtain ⟨htidy, hctrl, hcnt⟩ := hs
  exact ⟨h.tidy htidy, h.ctrl.symm ▸ hctrl, h.htCnt hcnt⟩

theorem kept_of_inv {s : State} (h : Inv s) : Kept s := by
  obtain ⟨⟨h1, h2, h3, h4, h5, h6, h7⟩, ⟨hctrl, -, -, -, hwriter, hcnt, hsize⟩, -, -⟩ := h
  exact ⟨⟨h1, h2, h3, h4, h5, h6, h7, hwriter, hcnt⟩, hctrl, hsize⟩

/-- The phases that read HTAB are among those that produce. -/
theorem not_tablePhase {p : Phase} {x : Prop} (hp : Phase.producing p = false) :
    ¬ (p = .hfirwLoop ∨ p = .hfirwWord ∨ (p = .lzLoop ∧ x)) := by
  rintro (rfl | rfl | ⟨rfl, -⟩) <;> cases hp

/-- A state in which nothing executes satisfies the invariant if its result registers go with STATUS. -/
theorem inv_of_idle {s : State} (hkept : Kept s) (hphase : s.seq.phase = .idle) (hbusy : s.cr.status ≠ .busy)
    (hnone : s.cr.status ≠ .fault → s.cr.faultCode = 0 ∧ s.cr.faultInfo = 0)
    (hfault : s.cr.status = .fault → 2 ≤ s.cr.faultCode.toNat ∧ s.cr.faultCode.toNat ≤ 9)
    (hlen : s.cr.status ≠ .done → s.cr.outLenReg = 0)
    (hdone : s.cr.status = .done → s.seq.smpOp = false →
      s.cr.outLenReg = s.dsize ∧ WrittenFrom s.out 0 s.cr.outLenReg) : Inv s := by
  obtain ⟨⟨h1, h2, h3, h4, h5, h6, h7, hwriter, hcnt⟩, hctrl, hsize⟩ := hkept
  refine ⟨⟨h1, h2, h3, h4, h5, h6, h7⟩, ⟨hctrl, hnone, hfault, hlen, hwriter, hcnt, hsize⟩, ?_, ?_⟩
  · unfold PhaseLegal
    rw [hphase]
    exact ⟨⟨fun h => absurd h hbusy, fun h => absurd rfl h⟩, nofun, nofun, nofun⟩
  · unfold DecodeLegal
    rw [hphase]
    exact ⟨nofun, nofun, fun h => absurd h (not_tablePhase rfl), hdone⟩

theorem inv_takeFault {s : State} (f : CoreFault) (info : Nat) (h : Kept s) : Inv (takeFault f info s) := by
  refine inv_of_idle ((execFrame_takeFault f info s).kept h) rfl nofun (fun h => absurd rfl h) (fun _ => ?_)
    (fun _ => rfl) nofun
  rw [takeFault_cr_faultCode]
  cases f <;> decide

theorem inv_endNoMatch {s : State} (h : Kept s) : Inv (endNoMatch s) :=
  inv_of_idle ((execFrame_endNoMatch s).kept h) rfl nofun (fun _ => ⟨rfl, rfl⟩) nofun (fun _ => rfl) nofun

theorem inv_endDone {s : State} {n : Nat} (h : Kept s)
    (hdone : s.seq.smpOp = false → n = s.dsize ∧ WrittenFrom s.out 0 n) : Inv (endDone n s) :=
  inv_of_idle ((execFrame_endDone n s).kept h) rfl nofun (fun _ => ⟨rfl, rfl⟩) nofun (fun h => absurd rfl h)
    fun _ => hdone

/-- An instruction whose pseudocode keeps the invariant where it runs to its end keeps it: faults and NOMATCH do. -/
theorem inv_of_exec {i : Instr} {s t : State} (hkept : Kept s) (h : exec i s = .next t)
    (hok : program i s = .ok t → Inv t) : Inv t := by
  have hframe := program_execFrame i s
  rw [exec_eq_program] at h
  rcases outcomeOf_next.1 h with hx | ⟨f, info, u, hx, rfl⟩ | ⟨u, hx, rfl⟩
  · exact hok hx
  · rw [hx] at hframe
    exact inv_takeFault f info (ExecFrame.kept hframe hkept)
  · rw [hx] at hframe
    exact inv_endNoMatch (ExecFrame.kept hframe hkept)

/-! ### A running command -/

/-- A command is running, and has recorded no result. -/
def Quiet (s : State) : Prop :=
  s.cr.status = .busy ∧ s.cr.faultCode = 0 ∧ s.cr.faultInfo = 0 ∧ s.cr.outLenReg = 0

/-- What HDR.PARSE lets through (rules R131, R134, R135). -/
def HeaderLegal (s : State) : Prop :=
  s.seq.smpOp = false ∧ legalAlg s.cr.hdrAlg = true ∧ 16 ≤ s.doff ∧ s.doff ≤ s.seq.inLen ∧
    (huffmanAlg s.cr.hdrAlg = true → 18 ≤ s.doff)

theorem quiet_of_inv {s : State} (h : Inv s) (hphase : s.seq.phase ≠ .idle) : Quiet s := by
  obtain ⟨-, ⟨-, hnone, -, hlen, -⟩, ⟨hbusy, -⟩, -⟩ := h
  have hstatus := hbusy.2 hphase
  obtain ⟨hcode, hinfo⟩ := hnone (by rw [hstatus]; nofun)
  exact ⟨hstatus, hcode, hinfo, hlen (by rw [hstatus]; nofun)⟩

theorem registersLegal_of_quiet {s : State} (hkept : Kept s) (hquiet : Quiet s) : Canonical s ∧ RegistersLegal s := by
  obtain ⟨⟨h1, h2, h3, h4, h5, h6, h7, hwriter, hcnt⟩, hctrl, hsize⟩ := hkept
  obtain ⟨hstatus, hcode, hinfo, hlen⟩ := hquiet
  exact ⟨⟨h1, h2, h3, h4, h5, h6, h7⟩, hctrl, fun _ => ⟨hcode, hinfo⟩, fun h => (by rw [hstatus] at h; cases h),
    fun _ => hlen, hwriter, hcnt, hsize⟩

theorem inv_decSelect {s : State} (hkept : Kept s) (hquiet : Quiet s) (hheader : HeaderLegal s)
    (hphase : s.seq.phase = .decSelect) (hlen : s.lz.outLen = 0) (hwp : s.lz.wp = 0) : Inv s := by
  obtain ⟨hcanon, hregs⟩ := registersLegal_of_quiet hkept hquiet
  obtain ⟨hstatus, -⟩ := hquiet
  refine ⟨hcanon, hregs, ?_, ?_⟩
  · unfold PhaseLegal
    rw [hphase, hstatus]
    exact ⟨⟨nofun, fun _ => rfl⟩, fun _ => hheader, fun _ => ⟨hlen, hwp⟩, nofun⟩
  · unfold DecodeLegal
    rw [hphase, hstatus]
    exact ⟨nofun, nofun, fun h => absurd h (not_tablePhase rfl), nofun⟩

theorem inv_encSelect {s : State} (hkept : Kept s) (hquiet : Quiet s) (hphase : s.seq.phase = .encSelect)
    (hop : s.seq.smpOp = true) (halg : legalAlg s.seq.smpAlg = true) (hsrc : s.le.srcLen = s.seq.inLen)
    (hsize : s.seq.inLen ≤ Config.sizeMax) : Inv s := by
  obtain ⟨hcanon, hregs⟩ := registersLegal_of_quiet hkept hquiet
  obtain ⟨hstatus, -⟩ := hquiet
  refine ⟨hcanon, hregs, ?_, ?_⟩
  · unfold PhaseLegal
    rw [hphase, hstatus]
    exact ⟨⟨nofun, fun _ => rfl⟩, nofun, nofun, fun _ => ⟨hop, halg, hsrc, hsize⟩⟩
  · unfold DecodeLegal
    rw [hphase, hstatus]
    exact ⟨nofun, nofun, fun h => absurd h (not_tablePhase rfl), nofun⟩

/-- A decoder that produces output, whichever of its loops it is in. -/
structure Producing (s : State) : Prop where
  kept : Kept s
  quiet : Quiet s
  header : HeaderLegal s
  bound : s.lz.outLen ≤ s.dsize
  window : WindowHolds s

/-- The entries of the loaded table hold values. -/
def TableHeld (s : State) : Prop := WrittenFrom s.htab 0 s.hf.htCnt

theorem SameTable.held {s t : State} (h : SameTable s t) (hs : TableHeld s) : TableHeld t := by
  obtain ⟨htab, -, hcnt⟩ := h
  unfold TableHeld
  rw [htab, hcnt]
  exact hs

/-- A producing decoder in one of its phases. -/
theorem Producing.inv {s : State} (h : Producing s) (hphase : Phase.producing s.seq.phase = true)
    (hword : s.seq.phase = .hfirwWord → s.lz.outLen < s.dsize)
    (htable : s.seq.phase = .hfirwLoop ∨ s.seq.phase = .hfirwWord ∨ (s.seq.phase = .lzLoop ∧ s.seq.hfEn = true) →
      TableHeld s) : Inv s := by
  obtain ⟨hkept, hquiet, hheader, hbound, hwindow⟩ := h
  obtain ⟨hcanon, hregs⟩ := registersLegal_of_quiet hkept hquiet
  obtain ⟨hstatus, -⟩ := hquiet
  have hne : ∀ p, Phase.producing p = false → s.seq.phase ≠ p := fun p hp h => by simp [h, hp] at hphase
  refine ⟨hcanon, hregs, ⟨⟨fun _ => hne _ rfl, fun _ => hstatus⟩, fun _ => hheader, fun h => absurd h (hne _ rfl),
    fun h => absurd h (hne _ rfl)⟩, fun _ => ⟨hbound, hwindow⟩, hword, htable, fun h => ?_⟩
  rw [hstatus] at h
  cases h

theorem producing_of_inv {s : State} (h : Inv s) (hphase : Phase.producing s.seq.phase = true) : Producing s := by
  have hdec : Phase.decoding s.seq.phase = true := by
    cases hp : s.seq.phase <;> simp [hp, Phase.producing] at hphase <;> rfl
  have hne : s.seq.phase ≠ .idle := fun hi => by simp [hi, Phase.producing] at hphase
  have hkept := kept_of_inv h
  have hquiet := quiet_of_inv h hne
  obtain ⟨-, -, ⟨-, hheader, -⟩, hprod, -⟩ := h
  obtain ⟨hbound, hwindow⟩ := hprod hphase
  exact ⟨hkept, hquiet, hheader hdec, hbound, hwindow⟩

theorem tableHeld_of_inv {s : State} (h : Inv s) (hphase : s.seq.phase = .hfirwLoop ∨ s.seq.phase = .hfirwWord ∨
    (s.seq.phase = .lzLoop ∧ s.seq.hfEn = true)) : TableHeld s := by
  obtain ⟨-, -, -, -, -, htable, -⟩ := h
  exact htable hphase

/-! ### What the loops produce -/

/-- `n` bytes have been appended, and the window holds if it did. -/
def Emits (n : Nat) (s t : State) : Prop := t.lz.outLen = s.lz.outLen + n ∧ (WindowHolds s → WindowHolds t)

theorem Emits.trans {m n : Nat} {s t u : State} (h : Emits m s t) (h' : Emits n t u) : Emits (n + m) s u := by
  obtain ⟨hlen, hw⟩ := h
  obtain ⟨hlen', hw'⟩ := h'
  exact ⟨by omega, fun hs => hw' (hw hs)⟩

theorem emits_emit (b : Byte) (s : State) : Emits 1 s (emit b s) := ⟨rfl, windowHolds_emit b⟩

theorem emits_setTemps (tt : TokenTemps) (s : State) : Emits 0 s (setTemps tt s) :=
  ⟨rfl, (windowHolds_setTemps tt s).2⟩

theorem FetchFrame.emits {s t : State} (h : FetchFrame s t) : Emits 0 s t := by
  refine ⟨?_, fun hw => (windowHolds_congr ?_ ?_ ?_ ?_).2 hw⟩ <;> rw [h.1]
  rfl

theorem HfFrame.emits {s t : State} (h : HfFrame s t) : Emits 0 s t := by
  refine ⟨?_, fun hw => (windowHolds_congr ?_ ?_ ?_ ?_).2 hw⟩ <;> rw [h.1]
  rfl

theorem copyLoop_emits {off : BitVec 13} {n : Nat} {s t : State} (h : copyLoop off n s = .ok t) : Emits n s t := by
  induction n generalizing s with
  | zero =>
    cases h
    exact ⟨rfl, id⟩
  | succ n ih =>
    obtain ⟨b, -, h⟩ := bind_ok.1 h
    exact ((emits_emit b s).trans (emits_setTemps _ _)).trans (ih h)

theorem runLoop_emits {n : Nat} {s t : State} (h : runLoop n s = .ok t) : Emits n s t := by
  induction n generalizing s with
  | zero =>
    cases h
    exact ⟨rfl, id⟩
  | succ n ih =>
    obtain ⟨⟨b, u⟩, hb, h⟩ := bind_ok.1 h
    have hu : Emits 0 s u := ((rdByte_fetchFrame s).ok hb).emits
    exact (hu.trans ((emits_emit b u).trans (emits_setTemps _ _))).trans (ih h)

theorem rawLoop_emits {n : Nat} {s t : State} (h : rawLoop n s = .ok t) : Emits n s t := by
  induction n generalizing s with
  | zero =>
    cases h
    exact ⟨rfl, id⟩
  | succ n ih =>
    obtain ⟨⟨b, u⟩, hb, h⟩ := bind_ok.1 h
    obtain ⟨-, -, rfl⟩ := inRdByte_ok.1 hb
    have hu : Emits 0 s (setIp (s.lz.ip + 1) s) := ⟨rfl, fun hw => (windowHolds_congr rfl rfl rfl rfl).2 hw⟩
    exact (hu.trans (emits_emit b _)).trans (ih h)

/-- What a token that ran to its end has done: some bytes, not past `dsize`, and nothing outside the decoder. -/
structure Produced (s t : State) : Prop where
  frame : LoopFrame s t
  more : s.lz.outLen < t.lz.outLen
  bound : t.lz.outLen ≤ s.dsize
  window : WindowHolds s → WindowHolds t

theorem copy_produced {off : BitVec 13} {len : Nat} {s t : State} (hpos : 0 < len) (h : copy off len s = .ok t) :
    Produced s t := by
  have hframe := ((copy_decFrame off len s).ok h).1
  unfold copy at h
  dsimp only at h
  split_ifs at h with hfar hlong
  obtain ⟨hlen, hwindow⟩ := copyLoop_emits h
  have hlen : t.lz.outLen = s.lz.outLen + len := hlen
  exact ⟨hframe, by omega, by rw [hlen]; exact Nat.not_lt.1 hlong, fun hw => hwindow ((windowHolds_setTemps _ s).2 hw)⟩

theorem runD_produced {o : BitVec 13} {s t : State} (h : program (.runD o) s = .ok t) : Produced s t := by
  rw [program] at h
  split_ifs at h with hlong
  obtain ⟨hlen, hwindow⟩ := runLoop_emits h
  have hlen : t.lz.outLen = s.lz.outLen + runOf o := hlen
  have hframe : DecFrame s t := (decFrame_setTemps _ s).trans ((runLoop_decFrame _ _).ok h)
  have hpos : 0 < runOf o := by
    rw [runOf, Config.dRunBase]
    omega
  exact ⟨hframe.1, by omega, by rw [hlen]; exact Nat.not_lt.1 hlong, fun hw => hwindow ((windowHolds_setTemps _ s).2 hw)⟩

theorem token_produced {i : Instr} {s t : State} (hi : i.format = .lzToken) (hgo : s.lz.outLen < s.dsize)
    (h : program i s = .ok t) : Produced s t := by
  cases i with
  | lit v =>
    cases h
    exact ⟨⟨rfl, rfl, rfl⟩, Nat.lt_succ_self _, hgo, windowHolds_emit v⟩
  | refA l o => exact copy_produced (by rw [lenRefA, Config.aLenBase]; omega) h
  | refB l o => exact copy_produced (by rw [lenRefB, Config.bLenBase]; omega) h
  | refC o n => exact copy_produced (by rw [lenRefC, Config.cLenBase]; omega) h
  | refE o t => exact copy_produced (by rw [lenRefE, Config.eLenBase]; omega) h
  | runD o => exact runD_produced h
  | decompress | compress _ | encRaw | encHfirw | encLz | encHfi | decRaw | decHfirw | decLz | decHfi | htLeaf _
  | htNode _ | htInvalid _ => cases hi

/-! ### A producing decoder goes on -/

/-- Quiet registers and the header are looked at in CR0 to CR9, `op` and `in_len` only. -/
theorem Producing.of_same {s t : State} (h : Producing s) (hframe : ExecFrame s t) (hcr : t.cr = s.cr)
    (hop : t.seq.smpOp = s.seq.smpOp) (hin : t.seq.inLen = s.seq.inLen) (hbound : t.lz.outLen ≤ s.dsize)
    (hwindow : WindowHolds t) : Producing t := by
  obtain ⟨hkept, hquiet, hheader, -, -⟩ := h
  refine ⟨hframe.kept hkept, ?_, ?_, ?_, hwindow⟩
  · unfold Quiet
    rw [hcr]
    exact hquiet
  · unfold HeaderLegal State.doff
    rw [hcr, hop, hin]
    exact hheader
  · unfold State.dsize
    rw [hcr]
    exact hbound

theorem Producing.fetch {s t : State} (h : Producing s) (hf : FetchFrame s t) : Producing t := by
  obtain ⟨hlen, hwindow⟩ := hf.emits
  have hlen : t.lz.outLen = s.lz.outLen := hlen
  refine h.of_same hf.execFrame ?_ ?_ ?_ (hlen.trans_le h.bound) (hwindow h.window) <;> rw [hf.1]

theorem Producing.produced {s t : State} (h : Producing s) (hframe : ExecFrame s t) (hp : Produced s t) :
    Producing t := by
  obtain ⟨⟨hloop, -, -⟩, -, hbound, hwindow⟩ := hp
  refine h.of_same hframe ?_ ?_ ?_ hbound (hwindow h.window) <;> rw [hloop]

end Sys2Proof.Machine
end

