-- ==== Sys2Proof/Proofs/InvariantStep.lean ====
section
/-! PROOFS. Every step keeps the invariant, phase by phase and host action by host action (rules R22, R165, R221, R255,
R256, R262, R320, R331, R338). -/

namespace Sys2Proof.Machine

open Sys2Proof.Safety

/-! ### The data paths of DECOMPRESS -/

theorem decRaw_inv {s t : State} (hkept : Kept s) (hlen : s.lz.outLen = 0) (hwp : s.lz.wp = 0)
    (h : program .decRaw s = .ok t) : Inv t := by
  have hstart : ExecFrame s (setIp s.doff (setHfEn false s)) :=
    (execFrame_setHfEn false s).trans (decFrame_setIp _ _).execFrame
  rw [program] at h
  split_ifs at h
  obtain ⟨u, hu, h⟩ := bind_ok.1 h
  cases h
  have hframe := (rawLoop_decFrame _ _).ok hu
  obtain ⟨hout, hwindow⟩ := rawLoop_emits hu
  have hout : u.lz.outLen = s.dsize := hout.trans (by show s.lz.outLen + s.dsize = s.dsize; omega)
  obtain ⟨-, hwritten, -⟩ := hwindow (windowHolds_zero hlen hwp)
  have hsame : u.dsize = s.dsize := by
    have hcr : u.cr = s.cr := by rw [show u = _ from hframe.1.1]; rfl
    rw [State.dsize, hcr]
    rfl
  exact inv_endDone (hframe.execFrame.kept (hstart.kept hkept)) fun _ => ⟨hout.trans hsame.symm, hwritten⟩

/-- The state in which a decoder begins to produce: nothing has been produced. -/
theorem producing_start {s t : State} (hkept : Kept t) (hquiet : Quiet s) (hheader : HeaderLegal s) (hcr : t.cr = s.cr)
    (hop : t.seq.smpOp = s.seq.smpOp) (hin : t.seq.inLen = s.seq.inLen) (hlen : t.lz.outLen = 0) (hwp : t.lz.wp = 0) :
    Producing t := by
  refine ⟨hkept, ?_, ?_, by rw [hlen]; exact Nat.zero_le _, windowHolds_zero hlen hwp⟩
  · unfold Quiet
    rw [hcr]
    exact hquiet
  · unfold HeaderLegal State.doff
    rw [hcr, hop, hin]
    exact hheader

/-- HT.LOAD leaves a table whose entries hold values (rule R215). -/
theorem htLoad_held {s t : State} (h : htLoad s = .ok t) : TableHeld t := by
  obtain ⟨v, vs, -, -, hvs, -, rfl⟩ := htLoad_ok.1 h
  intro k hk
  have hk : k < vs.length := hvs ▸ hk
  show (Memory.read (Memory.writeAll s.htab 0 vs) (0 + k)).isSome = true
  rw [Memory.read_writeAll_inside _ _ _ _ hk, List.getElem?_eq_getElem hk]
  rfl

theorem htLoad_producing {s t : State} (hkept : Kept s) (hquiet : Quiet s) (hheader : HeaderLegal s)
    (hlen : s.lz.outLen = 0) (hwp : s.lz.wp = 0) (p : Phase) (h : htLoad (setHfEn true s) = .ok t) :
    Producing (setPhase p t) := by
  have hload := (htLoad_loadFrame _).ok h
  have hframe : ExecFrame s (setPhase p t) :=
    (execFrame_setHfEn true s).trans (hload.execFrame.trans (execFrame_setPhase p t))
  have heq : t = _ := hload.1
  refine producing_start (hframe.kept hkept) hquiet hheader ?_ ?_ ?_ ?_ ?_
  · show t.cr = s.cr
    rw [heq]
    rfl
  · show t.seq.smpOp = s.seq.smpOp
    rw [heq]
    rfl
  · show t.seq.inLen = s.seq.inLen
    rw [heq]
    rfl
  · show t.lz.outLen = 0
    rw [heq]
    exact hlen
  · show t.lz.wp = 0
    rw [heq]
    exact hwp

theorem decPath_inv {s t : State} {i : Instr} (hkept : Kept s) (hquiet : Quiet s) (hheader : HeaderLegal s)
    (hlen : s.lz.outLen = 0) (hwp : s.lz.wp = 0) (hi : i = .decRaw ∨ i = .decHfirw ∨ i = .decLz ∨ i = .decHfi)
    (h : program i s = .ok t) : Inv t := by
  rcases hi with rfl | rfl | rfl | rfl
  · exact decRaw_inv hkept hlen hwp h
  · obtain ⟨u, hu, h⟩ := bind_ok.1 h
    cases h
    exact (htLoad_producing hkept hquiet hheader hlen hwp .hfirwLoop hu).inv rfl nofun fun _ =>
      show TableHeld u from htLoad_held hu
  · cases h
    have hframe : ExecFrame s (setPhase .lzLoop (setIp s.doff (setHfEn false s))) :=
      (execFrame_setHfEn false s).trans ((decFrame_setIp _ _).execFrame.trans (execFrame_setPhase _ _))
    refine (producing_start (hframe.kept hkept) hquiet hheader rfl rfl rfl hlen hwp).inv rfl nofun ?_
    rintro (h | h | ⟨-, h⟩) <;> cases h
  · obtain ⟨u, hu, h⟩ := bind_ok.1 h
    cases h
    exact (htLoad_producing hkept hquiet hheader hlen hwp .lzLoop hu).inv rfl nofun fun _ =>
      show TableHeld u from htLoad_held hu

/-! ### The data paths of COMPRESS -/

theorem EncFrame.seq {s t : State} (h : EncFrame s t) : t.seq = s.seq := by rw [h.1]

/-- A data path of COMPRESS that runs to its end ends the command, the samples being what they were. -/
theorem encPath_ends {s t : State} {i : Instr} (hi : i = .encRaw ∨ i = .encHfirw ∨ i = .encLz ∨ i = .encHfi)
    (h : program i s = .ok t) : ∃ n u, t = endDone n u ∧ u.seq = s.seq := by
  rcases hi with rfl | rfl | rfl | rfl <;> obtain ⟨src, -, h⟩ := bind_ok.1 h
  · cases h
    exact ⟨_, _, rfl, (encFrame_appendAll .out src _).seq⟩
  · obtain ⟨u, hu, h⟩ := bind_ok.1 h
    cases h
    exact ⟨_, _, rfl, ((hfEncode_endsIn src s).ok hu).seq⟩
  · obtain ⟨u, hu, h⟩ := bind_ok.1 h
    cases h
    exact ⟨_, _, rfl, ((lzEncode_endsIn .out src _).ok hu).seq⟩
  · obtain ⟨u, hu, h⟩ := bind_ok.1 h
    obtain ⟨hsrc, -, h⟩ := bind_ok.1 h
    obtain ⟨v, hv, h⟩ := bind_ok.1 h
    cases h
    exact ⟨_, _, rfl, ((hfEncode_endsIn hsrc u).ok hv).seq.trans ((lzEncode_endsIn .mid src _).ok hu).seq⟩

theorem encPath_inv {s t : State} {i : Instr} (hkept : Kept s) (hop : s.seq.smpOp = true)
    (hi : i = .encRaw ∨ i = .encHfirw ∨ i = .encLz ∨ i = .encHfi) (h : program i s = .ok t) : Inv t := by
  have hkept' : Kept t := ((program_execFrame i s).ok h).kept hkept
  obtain ⟨n, u, rfl, hseq⟩ := encPath_ends hi h
  refine inv_endDone hkept' fun hno => ?_
  rw [hseq, hop] at hno
  cases hno

/-! ### Tokens and table words -/

/-- A step of the token loop short of `dsize`. -/
theorem lzLoop_inv {s t : State} (h : Producing s) (hphase : s.seq.phase = .lzLoop) (hgo : s.lz.outLen < s.dsize)
    (htable : s.seq.hfEn = true → TableHeld s) (hstep : runFetched (fetchToken s) = .next t) : Inv t := by
  have hfetch := fetchToken_endsIn s
  rcases hf : fetchToken s with e | ⟨i, u⟩ <;> rw [hf] at hstep hfetch
  · have hstep : outcomeOf (.error e) = .next t := hstep
    rcases outcomeOf_next.1 hstep with h' | ⟨f, info, u, h', rfl⟩ | ⟨u, h', rfl⟩ <;> cases h'
    · exact inv_takeFault f info (FetchFrame.execFrame hfetch |>.kept h.kept)
    · exact inv_endNoMatch (FetchFrame.execFrame hfetch |>.kept h.kept)
  · have hfetch : FetchFrame s u := hfetch
    have hu := h.fetch hfetch
    have hout : u.lz.outLen = s.lz.outLen := hfetch.emits.1
    have hsize : u.dsize = s.dsize := by rw [State.dsize, hfetch.1]; rfl
    have hseq : u.seq = s.seq := by rw [hfetch.1]
    refine inv_of_exec hu.kept hstep fun hok => ?_
    have hframe : ExecFrame u t := (program_execFrame i u).ok hok
    have hp := token_produced (readToken_format hf) (by rw [hout, hsize]; exact hgo) hok
    have hseq' : t.seq = s.seq := by rw [hp.frame.1]; exact hseq
    refine (hu.produced hframe hp).inv (by rw [hseq', hphase]; rfl) (by rw [hseq', hphase]; nofun) fun hx => ?_
    rw [hseq', hphase] at hx
    rcases hx with hx | hx | ⟨-, hx⟩
    · cases hx
    · cases hx
    · exact hp.frame.sameTable.held (hfetch.sameTable.held (htable hx))

/-- A table word of HFIRW.DECODE short of `dsize`. -/
theorem htWord_inv {s t : State} {v : Half} (h : Producing s) (hgo : s.lz.outLen < s.dsize) (htable : TableHeld s)
    (hstep : exec (decodeHtWord v) s = .next t) : Inv t := by
  refine inv_of_exec h.kept hstep fun hok => ?_
  have hframe : ExecFrame s t := (program_execFrame _ s).ok hok
  obtain ⟨b, rfl⟩ | ⟨n, hn, rfl⟩ | ⟨x, rfl⟩ := htWord_cases v
  case inl =>
    rw [decodeHtWord_leaf] at hok
    cases hok
    have hwindow : WindowHolds (setNode (b.setWidth 16) s) := (windowHolds_congr rfl rfl rfl rfl).2 h.window
    exact (h.of_same hframe rfl rfl rfl hgo (windowHolds_emit b hwindow)).inv rfl nofun fun _ => htable
  case inr.inl =>
    rw [decodeHtWord_node hn] at hok
    obtain ⟨u, hu, hok⟩ := bind_ok.1 hok
    cases hok
    have hhf : HfFrame s u := (htStep_endsIn n s).ok hu
    obtain ⟨hlen, hwindow⟩ := hhf.emits
    have hlen : u.lz.outLen = s.lz.outLen := hlen
    have hcr : u.cr = s.cr := by rw [show u = _ from hhf.1]
    have hprod : Producing (setPhase .hfirwWord u) := by
      refine h.of_same hframe hcr ?_ ?_ (hlen.trans_le h.bound) (hwindow h.window)
      · show u.seq.smpOp = s.seq.smpOp
        rw [show u = _ from hhf.1]
      · show u.seq.inLen = s.seq.inLen
        rw [show u = _ from hhf.1]
    refine hprod.inv rfl (fun _ => ?_) fun _ => show TableHeld u from hhf.sameTable.held htable
    show u.lz.outLen < u.cr.hdrDsize.toNat
    rw [hlen, hcr]
    exact hgo
  case inr.inr =>
    rw [decodeHtWord_htInvalidWord] at hok
    cases hok

/-! ### The sequencer's step -/

/-- The loops end with exactly `dsize` bytes in OUT (rule R268). -/
theorem loopEnd_inv {s : State} (h : Producing s) (hend : s.lz.outLen = s.dsize) : Inv (endDone s.lz.outLen s) := by
  obtain ⟨-, hwritten, -⟩ := h.window
  exact inv_endDone h.kept fun _ => ⟨hend, hwritten⟩

theorem seqStep_inv {s t : State} (h : Inv s) (hstep : seqStep s = .next t) : Inv t := by
  have hkept := kept_of_inv h
  cases hphase : s.seq.phase with
  | idle =>
    rw [seqStep_idle hphase] at hstep
    cases hstep
    exact h
  | decSelect =>
    obtain ⟨-, -, ⟨-, hdec, hzero, -⟩, -⟩ := id h
    obtain ⟨hlen, hwp⟩ := hzero hphase
    cases hi : decodeHdrAlg s.cr.hdrAlg with
    | ok i =>
      rw [seqStep_decSelect hphase hi] at hstep
      exact inv_of_exec hkept hstep fun hok => decPath_inv hkept (quiet_of_inv h (by rw [hphase]; nofun))
        (hdec (by rw [hphase]; rfl)) hlen hwp (decodeHdrAlg_ok hi) hok
    | error e =>
      simp only [seqStep, hphase, hi] at hstep
      cases hstep
      exact inv_takeFault _ _ hkept
  | encSelect =>
    obtain ⟨-, -, ⟨-, -, -, henc⟩, -⟩ := id h
    obtain ⟨hop, -⟩ := henc hphase
    cases hi : decodeEncSelect (encWord s) with
    | ok i =>
      rw [seqStep_encSelect hphase hi] at hstep
      exact inv_of_exec hkept hstep fun hok => encPath_inv hkept hop (decodeEncAlg_ok (decodeEncSelect_ok hi)) hok
    | error e =>
      simp only [seqStep, hphase, hi] at hstep
      cases hstep
      exact inv_takeFault _ _ hkept
  | lzLoop =>
    have hprod := producing_of_inv h (by rw [hphase]; rfl)
    by_cases hend : s.lz.outLen = s.dsize
    · rw [seqStep_loopEnd (.inl hphase) hend] at hstep
      cases hstep
      exact loopEnd_inv hprod hend
    · rw [seqStep_lzLoop hphase hend] at hstep
      exact lzLoop_inv hprod hphase (lt_of_le_of_ne hprod.bound hend)
        (fun hen => tableHeld_of_inv h (.inr (.inr ⟨hphase, hen⟩))) hstep
  | hfirwLoop =>
    have hprod := producing_of_inv h (by rw [hphase]; rfl)
    by_cases hend : s.lz.outLen = s.dsize
    · rw [seqStep_loopEnd (.inr hphase) hend] at hstep
      cases hstep
      exact loopEnd_inv hprod hend
    · rw [seqStep_hfirwLoop hphase hend] at hstep
      have hroot : Producing (setNode s.hf.htLen s) := hprod.of_same (execFrame_setNode _ s) rfl rfl rfl hprod.bound
        ((windowHolds_congr rfl rfl rfl rfl).2 hprod.window)
      exact htWord_inv hroot (lt_of_le_of_ne hprod.bound hend) (tableHeld_of_inv h (.inl hphase)) hstep
  | hfirwWord =>
    have hprod := producing_of_inv h (by rw [hphase]; rfl)
    rw [seqStep_hfirwWord hphase] at hstep
    obtain ⟨-, -, -, -, hgo, -⟩ := id h
    exact htWord_inv hprod (hgo hphase) (tableHeld_of_inv h (.inr (.inl hphase))) hstep

/-! ### The host's actions -/

/-- Pending host actions are not looked at. -/
theorem inv_host {s : State} (h : Inv s) (rest : List HostOp) : Inv { s with host := rest } := h

theorem inv_writeCtrlReg {s : State} (w : Word) (h : Inv s) : Inv (writeCtrlReg w s) := by
  obtain ⟨hcanon, ⟨-, hregs⟩, hphase, hdec⟩ := h
  have hmask : w &&& ctrlMask &&& ~~~ctrlMask = 0 := by
    rw [BitVec.and_assoc, BitVec.and_not_self]
    exact BitVec.and_zero
  exact ⟨hcanon, ⟨hmask, hregs⟩, hphase, hdec⟩

/-- A command started on a core that is not BUSY (rules R131, R255, R262). -/
theorem command_inv {s t : State} {i : Instr} (h : Inv s) (hidle : s.busy = false)
    (hi : i = .decompress ∨ ∃ alg, i = .compress alg) (hexec : exec i s = .next t) : Inv t := by
  have hkept := kept_of_inv h
  refine inv_of_exec hkept hexec fun hok => ?_
  have hkept' := ((program_execFrame i s).ok hok).kept hkept
  rcases hi with rfl | ⟨alg, rfl⟩
  · rw [program, if_neg (by simp [hidle])] at hok
    obtain ⟨u, hu, hok⟩ := bind_ok.1 hok
    cases hok
    obtain ⟨-, -, ver, alg, doff, dsize, -, -, -, -, rfl, hlegal, hge, hle, hhuff⟩ := hdrParse_ok.1 hu
    exact inv_decSelect hkept' ⟨rfl, rfl, rfl, rfl⟩ ⟨rfl, hlegal, hge, hle, hhuff⟩ rfl rfl rfl
  · rw [program, if_neg (by simp [hidle])] at hok
    obtain ⟨u, hu, hok⟩ := bind_ok.1 hok
    cases hok
    rw [compressChecks_eq] at hu
    split_ifs at hu with hillegal hsize
    cases hu
    exact inv_encSelect hkept' ⟨rfl, rfl, rfl, rfl⟩ rfl rfl (Bool.eq_true_of_not_eq_false hillegal) rfl (Nat.not_lt.1 hsize)

theorem hostWriteCtrl_inv {s t : State} {w : Word} (h : Inv s) (hstep : hostWriteCtrl w s = .next t) : Inv t := by
  by_cases hstart : w.getLsbD 0 = true
  · obtain ⟨i, hi⟩ := decodeCtrl_of_start hstart
    rw [hostWriteCtrl_start s hi] at hstep
    cases hbusy : s.busy with
    | true =>
      rw [if_pos hbusy, exec_command_of_busy hi hbusy] at hstep
      cases hstep
      exact h
    | false =>
      rw [if_neg (by simp [hbusy])] at hstep
      exact command_inv (inv_writeCtrlReg w h) hbusy (decodeCtrl_ok hi).2 hstep
  · rw [hostWriteCtrl_noStart s (by simpa using hstart), whenIdle] at hstep
    split_ifs at hstep
    cases hstep
    exact inv_writeCtrlReg w h

theorem hostStep_inv {s t : State} {op : HostOp} (h : Inv s) (hstep : hostStep op s = .next t) : Inv t := by
  cases op with
  | writeIn a b =>
    rw [hostStep, whenIdle] at hstep
    split_ifs at hstep
    cases hstep
    obtain ⟨⟨hin, hcanon⟩, hrest⟩ := h
    exact ⟨⟨Memory.wf_write _ _ _ hin, hcanon⟩, hrest⟩
  | writeInLen n =>
    rw [hostStep, whenIdle] at hstep
    split_ifs at hstep
    cases hstep
    exact h
  | writeCtrl w => exact hostWriteCtrl_inv h hstep
  | waitDone =>
    rw [hostStep] at hstep
    split_ifs at hstep
    · exact seqStep_inv (inv_host h _) hstep
    · cases hstep
      exact h
  | reset =>
    cases hstep
    exact resetSatisfiesInvariant

end Sys2Proof.Machine

namespace Sys2Proof.Safety

open Sys2Proof.Machine

/-- Settles O48: the sequencer's step and the host's actions. -/
theorem stepKeepsInvariant : Obligations.StepKeepsInvariant := by
  intro s t h hstep
  cases hhost : s.host with
  | nil =>
    rw [step_of_host_nil hhost] at hstep
    exact seqStep_inv h hstep
  | cons op rest =>
    rw [step_of_host_cons hhost] at hstep
    exact hostStep_inv (inv_host h rest) hstep

end Sys2Proof.Safety
end

