-- ==== Sys2Proof/Proofs/Progress.lean ====
section
/-! PROOFS. A DECOMPRESS is never stuck and ends (rules R181, R183, R222, R280): where it stops early it raises a fault,
and every step of its loops brings it closer to `dsize` or to the end of its bitstream. -/

namespace Sys2Proof.Machine

open Sys2Proof.Safety

/-! ### Stops that are faults of the core -/

/-- A stop that is a fault of the core: the step answers the fault entry. -/
def IsRaise (e : Stop) : Prop := ∃ f info u, e = .raise f info u

theorem isRaise (f : CoreFault) (info : Nat) (u : State) : IsRaise (.raise f info u) := ⟨f, info, u, rfl⟩

/-- An instruction that stops only in faults of the core completes: it runs to its end, or STATUS is FAULT. -/
theorem exec_completes {i : Instr} {s : State} (h : StopsIn IsRaise (program i s)) :
    ∃ t, exec i s = .next t ∧ (t.cr.status ≠ .busy ∨ program i s = .ok t) := by
  rw [exec_eq_program]
  cases hx : program i s with
  | ok t => exact ⟨t, rfl, .inr rfl⟩
  | error e =>
    obtain ⟨f, info, u, rfl⟩ := h e hx
    exact ⟨takeFault f info u, rfl, .inl nofun⟩

/-! ### Sources that are written -/

theorem inRead_raises {s : State} (h : InCovered s) (a : Nat) : StopsIn IsRaise (inRead a s) := by
  intro e he
  rcases inRead_error.1 he with ⟨-, rfl⟩ | ⟨hlt, hnone, -⟩
  · exact isRaise _ _ _
  · have hsome := h a hlt
    rw [Nat.zero_add, hnone] at hsome
    cases hsome

theorem inRead16_raises {s : State} (h : InCovered s) (a : Nat) : StopsIn IsRaise (inRead16 a s) :=
  (inRead_raises h a).bind fun _ _ => (inRead_raises h (a + 1)).bind fun _ _ => .of_ok _

/-- IN is written, and HTAB below `ht_cnt` if the bytes come from the Huffman decoder. -/
def SourceReady (s : State) : Prop := InCovered s ∧ (s.seq.hfEn = true → TableHeld s)

theorem inCovered_congr {s t : State} (hin : t.inMem = s.inMem) (hlen : t.seq.inLen = s.seq.inLen) (h : InCovered s) :
    InCovered t := by
  unfold InCovered
  rw [hin, hlen]
  exact h

theorem FetchFrame.sourceReady {s t : State} (hf : FetchFrame s t) (h : SourceReady s) : SourceReady t := by
  obtain ⟨hin, htable⟩ := h
  have hseq : t.seq = s.seq := by rw [hf.1]
  refine ⟨inCovered_congr hf.execFrame.inMem (by rw [hseq]) hin, fun hen => ?_⟩
  rw [hseq] at hen
  exact hf.sameTable.held (htable hen)

theorem htStep_raises {n : BitVec 15} {s : State} (hin : InCovered s) (htable : TableHeld s) :
    StopsIn IsRaise (htStep n s) := by
  intro e he
  rcases htStep_error.1 he with he | ⟨b, u, -, ⟨-, rfl⟩ | ⟨hlt, hnone, -⟩ | ⟨-, v, -, -, rfl⟩⟩
  · exact inRead_raises hin _ e (hfRdBit_error.1 he).2
  · exact isRaise _ _ _
  · have hsome := htable _ hlt
    rw [Nat.zero_add, hnone] at hsome
    cases hsome
  · exact isRaise _ _ _

theorem HfFrame.inCovered {s t : State} (hf : HfFrame s t) (h : InCovered s) : InCovered t :=
  inCovered_congr hf.execFrame.inMem (by rw [hf.1]) h

theorem hfDescend_raises {s : State} (hin : InCovered s) (htable : TableHeld s) (k : Nat) :
    StopsIn (fun e => IsRaise e ∨ e = .fault .descentBound) (hfDescend k s) := by
  induction k generalizing s with
  | zero => exact .of_error (.inr rfl)
  | succ k ih =>
    unfold hfDescend
    split
    · exact .of_ok _
    · refine StopsIn.bind (fun e he => .inl (htStep_raises hin htable e he)) fun t ht => ?_
      have hf : HfFrame s t := (htStep_endsIn _ s).ok ht
      exact ih (hf.inCovered hin) (hf.sameTable.held htable)
    · exact .of_error (.inl (isRaise _ _ _))

/-- A byte source that is written fails only in faults of the core (rules R222, R280). -/
theorem rdByte_raises {s : State} (h : SourceReady s) : StopsIn IsRaise (rdByte s) := by
  obtain ⟨hin, htable⟩ := h
  unfold rdByte
  split_ifs with hen
  · intro e he
    rcases hfDescend_raises (s := setNode s.hf.htLen s) hin (htable hen) _ e he with hraise | rfl
    · exact hraise
    · exact absurd he (hfDescend_bound (Nat.lt_succ_self _))
  · exact fun e he => inRead_raises hin _ e (inRdByte_error.1 he)

/-! ### The token fetch -/

/-- A source call that leaves the source in `P`, or stops as `A` allows. -/
def Ends {σ ε α : Type} (P : σ → Prop) (A : ε → Prop) : Except ε (α × σ) → Prop
  | .ok (_, t) => P t
  | .error e => A e

theorem Ends.bind {σ ε α β : Type} {P : σ → Prop} {A : ε → Prop} {x : Except ε (α × σ)}
    {f : α × σ → Except ε (β × σ)} (h : Ends P A x) (hf : ∀ a t, P t → Ends P A (f (a, t))) : Ends P A (x >>= f) := by
  rcases x with e | ⟨a, t⟩
  · exact h
  · exact hf a t h

theorem rdBitsWith_ends {σ ε : Type} {P : σ → Prop} {A : ε → Prop} {rdBit : σ → Except ε (Bool × σ)}
    (hbit : ∀ s, P s → Ends P A (rdBit s)) {w : Nat} (k : Nat) (v : BitVec w) (s : σ) (h : P s) :
    Ends P A (rdBitsWith rdBit k v s) := by
  induction k generalizing v s with
  | zero => exact h
  | succ k ih => exact (hbit s h).bind fun b t ht => ih _ t ht

/-- A token read from a source whose calls all keep `P` and stop as `A` allows. -/
theorem readToken_ends {σ ε : Type} {P : σ → Prop} {A : ε → Prop} {src : TokenSource σ ε}
    (hbit : ∀ s, P s → Ends P A (src.rdBit s)) (hbyte : ∀ s, P s → Ends P A (src.rdByte s))
    (hhi : ∀ v s, P s → P (src.latchHi v s)) (hlo : ∀ v w s, P s → P (src.latchLo v w s))
    (htmp : ∀ v s, P s → P (src.latchTmp v s)) (s : σ) (h : P s) : Ends P A (readToken src s) := by
  unfold readToken
  refine (hbit s h).bind fun b0 s0 h0 => ?_
  dsimp only
  split_ifs
  · exact (hbyte s0 h0).bind fun v s1 h1 => h1
  refine (hbit s0 h0).bind fun b1 s1 h1 => ?_
  dsimp only
  split_ifs
  · exact (rdBitsWith_ends hbit 2 0 s1 h1).bind fun l s2 h2 => (hbyte s2 h2).bind fun o s3 h3 => h3
  refine (hbyte s1 h1).bind fun hi s2 h2 => (hbyte _ (hhi hi s2 h2)).bind fun lo s3 h3 => ?_
  dsimp only
  have h3 := hlo hi lo s3 h3
  split_ifs
  · exact h3
  refine (hbit _ h3).bind fun b2 s4 h4 => ?_
  dsimp only
  split_ifs
  · exact (rdBitsWith_ends hbit 4 0 s4 h4).bind fun n s5 h5 => h5
  refine (hbyte s4 h4).bind fun t s5 h5 => ?_
  dsimp only
  split_ifs <;> exact htmp t s5 h5

theorem rdByte_ends (s : State) (h : SourceReady s) : Ends SourceReady IsRaise (rdByte s) := by
  have hstops := rdByte_raises h
  have hframe := rdByte_fetchFrame s
  rcases hx : rdByte s with e | ⟨b, t⟩
  · exact hstops e hx
  · rw [hx] at hframe
    exact FetchFrame.sourceReady hframe h

theorem lzRdBit_ends (s : State) (h : SourceReady s) : Ends SourceReady IsRaise (lzRdBit s) := by
  have hframe := lzRdBit_endsIn s
  rcases hx : lzRdBit s with e | ⟨b, t⟩
  · exact rdByte_raises h e (rdBitWith_error.1 hx).2
  · rw [hx] at hframe
    exact FetchFrame.sourceReady hframe h

/-- The fetch of a token from a written source fails only in faults of the core. -/
theorem fetchToken_ends (s : State) (h : SourceReady s) : Ends SourceReady IsRaise (fetchToken s) :=
  readToken_ends lzRdBit_ends rdByte_ends (fun _ _ h => h) (fun _ _ _ h => h) (fun _ _ h => h) s h

/-! ### Tokens, table words and data paths -/

theorem runLoop_raises {s : State} (h : SourceReady s) (n : Nat) : StopsIn IsRaise (runLoop n s) := by
  induction n generalizing s with
  | zero => exact .of_ok _
  | succ n ih =>
    refine (rdByte_raises h).bind fun ⟨b, t⟩ ht => ?_
    have hready : SourceReady t := ((rdByte_fetchFrame s).ok ht).sourceReady h
    exact ih hready

theorem copy_raises {s : State} (hw : WindowHolds s) (off : BitVec 13) {len : Nat} (hpos : 0 < len) :
    StopsIn IsRaise (copy off len s) := by
  rcases Nat.lt_or_ge s.lz.outLen (distOf off) with hfar | hreach
  · rw [copy_of_outLen_lt hfar]
    exact .of_error (isRaise _ _ _)
  rcases Nat.lt_or_ge s.dsize (s.lz.outLen + len) with hlong | hfit
  · rw [copy_of_dsize_lt hreach hlong]
    exact .of_error (isRaise _ _ _)
  · obtain ⟨bs, -, hcopy, -⟩ := copy_ok hw hpos hreach hfit
    rw [hcopy]
    exact .of_ok _

theorem token_raises {i : Instr} {s : State} (hi : i.format = .lzToken) (hready : SourceReady s) (hw : WindowHolds s) :
    StopsIn IsRaise (program i s) := by
  cases i with
  | lit v => exact .of_ok _
  | refA l o => exact copy_raises hw _ (by rw [lenRefA, Config.aLenBase]; omega)
  | refB l o => exact copy_raises hw _ (by rw [lenRefB, Config.bLenBase]; omega)
  | refC o n => exact copy_raises hw _ (by rw [lenRefC, Config.cLenBase]; omega)
  | refE o t => exact copy_raises hw _ (by rw [lenRefE, Config.eLenBase]; omega)
  | runD o =>
    rw [program]
    split_ifs
    · exact .of_error (isRaise _ _ _)
    · refine runLoop_raises ?_ _
      exact hready
  | decompress | compress _ | encRaw | encHfirw | encLz | encHfi | decRaw | decHfirw | decLz | decHfi | htLeaf _
  | htNode _ | htInvalid _ => cases hi

theorem htWord_raises {s : State} (hin : InCovered s) (htable : TableHeld s) (v : Half) :
    StopsIn IsRaise (program (decodeHtWord v) s) := by
  obtain ⟨b, rfl⟩ | ⟨n, hn, rfl⟩ | ⟨x, rfl⟩ := htWord_cases v
  · rw [decodeHtWord_leaf]
    exact .of_ok _
  · rw [decodeHtWord_node hn]
    exact (htStep_raises hin htable).bind fun _ _ => .of_ok _
  · rw [decodeHtWord_htInvalidWord]
    exact .of_error (isRaise _ _ _)

theorem rawLoop_raises {s : State} (h : InCovered s) (n : Nat) : StopsIn IsRaise (rawLoop n s) := by
  induction n generalizing s with
  | zero => exact .of_ok _
  | succ n ih =>
    have hread : StopsIn IsRaise (inRdByte s) := fun e he => inRead_raises h _ e (inRdByte_error.1 he)
    refine hread.bind fun ⟨b, t⟩ ht => ?_
    obtain ⟨-, -, rfl⟩ := inRdByte_ok.1 ht
    exact ih h

theorem htLoadEntries_raises {s : State} (h : InCovered s) (n i : Nat) : StopsIn IsRaise (htLoadEntries n i s) := by
  induction n generalizing i s with
  | zero => exact .of_ok _
  | succ n ih =>
    refine (inRead16_raises h _).bind fun _ _ => ih ?_ _
    exact h

theorem htLoad_raises {s : State} (h : InCovered s) : StopsIn IsRaise (htLoad s) := by
  refine (inRead16_raises h 16).bind fun t _ => ?_
  dsimp only
  split_ifs
  · exact .of_error (isRaise _ _ _)
  · refine StopsIn.bind (htLoadEntries_raises ?_ _ _) fun _ _ => .of_ok _
    exact h

theorem decPath_raises {s : State} (h : InCovered s) {i : Instr}
    (hi : i = .decRaw ∨ i = .decHfirw ∨ i = .decLz ∨ i = .decHfi) : StopsIn IsRaise (program i s) := by
  rcases hi with rfl | rfl | rfl | rfl
  · rw [program]
    split_ifs
    · exact .of_error (isRaise _ _ _)
    · exact (rawLoop_raises (s := setIp s.doff (setHfEn false s)) h _).bind fun _ _ => .of_ok _
  · exact (htLoad_raises (s := setHfEn true s) h).bind fun _ _ => .of_ok _
  · exact .of_ok _
  · exact (htLoad_raises (s := setHfEn true s) h).bind fun _ _ => .of_ok _

/-! ### Every step of a DECOMPRESS completes and makes progress -/

/-- What is left to do: bytes to `dsize`, and in HFIRW.DECODE bits of the bitstream (rules R183, R222). -/
def workLeft (s : State) : Nat :=
  (s.dsize - s.lz.outLen) + if s.seq.phase = .lzLoop then 0 else hfBitsLeft s

/-- A decoder in one of its loops, with IN written and no host action in front of it. -/
def Looping (s : State) : Prop := s.host = [] ∧ InCovered s ∧ Phase.producing s.seq.phase = true

/-- The command has ended, or the decoder loops with less work left than `bound`. -/
def Advanced (bound : Nat) (t : State) : Prop := t.cr.status ≠ .busy ∨ (Looping t ∧ workLeft t < bound)

theorem lzLoop_advances {s : State} (h : Inv s) (hin : InCovered s) (hhost : s.host = [])
    (hphase : s.seq.phase = .lzLoop) (hgo : s.lz.outLen < s.dsize) :
    ∃ t, runFetched (fetchToken s) = .next t ∧ Advanced (workLeft s) t := by
  have hprod := producing_of_inv h (by rw [hphase]; rfl)
  have hready : SourceReady s := ⟨hin, fun hen => tableHeld_of_inv h (.inr (.inr ⟨hphase, hen⟩))⟩
  have hends := fetchToken_ends s hready
  have hframe := fetchToken_endsIn s
  rcases hf : fetchToken s with e | ⟨i, u⟩ <;> rw [hf] at hends hframe
  · obtain ⟨f, info, u, rfl⟩ := hends
    exact ⟨takeFault f info u, rfl, .inl nofun⟩
  · have hframe : FetchFrame s u := hframe
    have hready : SourceReady u := hends
    have hout : u.lz.outLen = s.lz.outLen := hframe.emits.1
    have hsize : u.dsize = s.dsize := by rw [State.dsize, hframe.1]; rfl
    have hformat := readToken_format hf
    obtain ⟨t, hexec, hend⟩ := exec_completes (token_raises hformat hready (hprod.fetch hframe).window)
    refine ⟨t, hexec, hend.imp_right fun hok => ?_⟩
    obtain ⟨⟨hloop, -, -⟩, hmore, -, -⟩ := token_produced hformat (by rw [hout, hsize]; exact hgo) hok
    have hseq : t.seq = s.seq := by rw [hloop, hframe.1]
    have hdsize : t.dsize = s.dsize := by rw [State.dsize, hloop]; exact hsize
    refine ⟨⟨by rw [hloop, hframe.1]; exact hhost, ?_, by rw [hseq, hphase]; rfl⟩, ?_⟩
    · exact inCovered_congr (by rw [hloop, hframe.1]) (by rw [hseq]) hin
    · rw [workLeft, workLeft, hseq, if_pos hphase, if_pos hphase, hdsize]
      omega

theorem htWord_advances {s : State} (hphase : s.seq.phase ≠ .lzLoop) (hin : InCovered s) (hhost : s.host = [])
    (htable : TableHeld s) (hgo : s.lz.outLen < s.dsize) (v : Half) :
    ∃ t, exec (decodeHtWord v) s = .next t ∧ Advanced (workLeft s) t := by
  obtain ⟨t, hexec, hend⟩ := exec_completes (htWord_raises hin htable v)
  refine ⟨t, hexec, hend.imp_right fun hok => ?_⟩
  obtain ⟨b, rfl⟩ | ⟨n, hn, rfl⟩ | ⟨x, rfl⟩ := htWord_cases v
  case inl =>
    rw [decodeHtWord_leaf] at hok
    cases hok
    refine ⟨⟨hhost, hin, rfl⟩, ?_⟩
    rw [workLeft, workLeft, if_neg hphase, if_neg nofun]
    show s.dsize - (s.lz.outLen + 1) + hfBitsLeft s < _
    omega
  case inr.inl =>
    rw [decodeHtWord_node hn] at hok
    obtain ⟨u, hu, hok⟩ := bind_ok.1 hok
    cases hok
    have hf : HfFrame s u := (htStep_endsIn n s).ok hu
    have hbits := htStep_bitsLeft hu
    have hout : u.lz.outLen = s.lz.outLen := by rw [hf.1]
    have hsize : u.dsize = s.dsize := by rw [State.dsize, hf.1]; rfl
    refine ⟨⟨?_, hf.inCovered hin, rfl⟩, ?_⟩
    · show u.host = []
      rw [hf.1]
      exact hhost
    · rw [workLeft, workLeft, if_neg hphase, if_neg nofun]
      show u.dsize - u.lz.outLen + hfBitsLeft u < _
      rw [hout, hsize]
      omega
  case inr.inr =>
    rw [decodeHtWord_htInvalidWord] at hok
    cases hok

/-- A step of a decoder's loop. -/
theorem seqStep_advances {s : State} (h : Inv s) (hloop : Looping s) :
    ∃ t, seqStep s = .next t ∧ Advanced (workLeft s) t := by
  obtain ⟨hhost, hin, hprod⟩ := hloop
  have hbound := (producing_of_inv h hprod).bound
  have hdone : Advanced (workLeft s) (endDone s.lz.outLen s) := .inl nofun
  cases hphase : s.seq.phase with
  | idle | decSelect | encSelect => simp [hphase, Phase.producing] at hprod
  | lzLoop =>
    by_cases hend : s.lz.outLen = s.dsize
    · exact ⟨_, seqStep_loopEnd (.inl hphase) hend, hdone⟩
    · rw [seqStep_lzLoop hphase hend]
      exact lzLoop_advances h hin hhost hphase (lt_of_le_of_ne hbound hend)
  | hfirwLoop =>
    by_cases hend : s.lz.outLen = s.dsize
    · exact ⟨_, seqStep_loopEnd (.inr hphase) hend, hdone⟩
    · rw [seqStep_hfirwLoop hphase hend]
      have hne : (setNode s.hf.htLen s).seq.phase ≠ .lzLoop := by
        show s.seq.phase ≠ .lzLoop
        rw [hphase]
        nofun
      exact htWord_advances (s := setNode s.hf.htLen s) hne hin hhost (tableHeld_of_inv h (.inl hphase))
        (lt_of_le_of_ne hbound hend) _
  | hfirwWord =>
    rw [seqStep_hfirwWord hphase]
    obtain ⟨-, -, -, -, hgo, -⟩ := id h
    exact htWord_advances (by rw [hphase]; nofun) hin hhost (tableHeld_of_inv h (.inr (.inl hphase))) (hgo hphase) _

/-- The selection of the data path (rule R256). -/
theorem decSelect_advances {s : State} (hin : InCovered s) (hhost : s.host = []) (hphase : s.seq.phase = .decSelect) :
    ∃ t, seqStep s = .next t ∧ (t.cr.status ≠ .busy ∨ Looping t) := by
  cases hi : decodeHdrAlg s.cr.hdrAlg with
  | error e => exact ⟨takeFault .eAlg s.cr.hdrAlg.toNat s, by simp only [seqStep, hphase, hi]; rfl, .inl nofun⟩
  | ok i =>
    rw [seqStep_decSelect hphase hi]
    have hpath := decodeHdrAlg_ok hi
    obtain ⟨t, hexec, hend⟩ := exec_completes (decPath_raises hin hpath)
    have hframe := exec_execFrame hexec
    refine ⟨t, hexec, hend.elim .inl fun hok => ?_⟩
    have loaded : ∀ {u : State} (p : Phase), Phase.producing p = true → htLoad (setHfEn true s) = .ok u →
        t = setPhase p u → t.cr.status ≠ .busy ∨ Looping t := by
      rintro u p hp hu rfl
      have hload : LoadFrame (setHfEn true s) u := (htLoad_loadFrame _).ok hu
      refine .inr ⟨hframe.host.trans hhost, inCovered_congr hframe.inMem ?_ hin, hp⟩
      show u.seq.inLen = s.seq.inLen
      rw [hload.1]
      rfl
    rcases hpath with rfl | rfl | rfl | rfl
    · rw [program] at hok
      split_ifs at hok
      obtain ⟨u, -, hok⟩ := bind_ok.1 hok
      cases hok
      exact .inl nofun
    · obtain ⟨u, hu, hok⟩ := bind_ok.1 hok
      cases hok
      exact loaded .hfirwLoop rfl hu rfl
    · cases hok
      exact .inr ⟨hhost, hin, rfl⟩
    · obtain ⟨u, hu, hok⟩ := bind_ok.1 hok
      cases hok
      exact loaded .lzLoop rfl hu rfl

/-- One more step of a run. -/
theorem run_succ {n : Nat} {s t : State} (h : step s = .next t) : Sys2Proof.core.run (n + 1) s = Sys2Proof.core.run n t := by
  have hcore : Sys2Proof.core.step s = .next t := h
  simp only [Host.Core.run, hcore]

/-- A decoder in one of its loops ends, by the work that is left. -/
theorem looping_ends (n : Nat) {s : State} (h : Inv s) (hloop : Looping s) (hn : workLeft s < n) :
    ∃ k t, Sys2Proof.core.run k s = .next t ∧ t.cr.status ≠ .busy := by
  induction n generalizing s with
  | zero => omega
  | succ n ih =>
    obtain ⟨t, hstep, hadv⟩ := seqStep_advances h hloop
    rw [← step_of_host_nil hloop.1] at hstep
    rcases hadv with hend | ⟨hloop', hless⟩
    · exact ⟨1, t, run_succ hstep, hend⟩
    · obtain ⟨k, u, hrun, hend⟩ := ih (stepKeepsInvariant s t h hstep) hloop' (by omega)
      exact ⟨k + 1, u, (run_succ hstep).trans hrun, hend⟩

/-- The phases of a DECOMPRESS are the selection and those that produce. -/
theorem decoding_cases {p : Phase} (h : Phase.decoding p = true) : p = .decSelect ∨ Phase.producing p = true := by
  cases p <;> simp [Phase.decoding] at h <;> simp [Phase.producing]

end Sys2Proof.Machine

namespace Sys2Proof.Safety

open Sys2Proof.Machine

/-- Settles O49: the selection and the loops complete. -/
theorem decoderNeverStuck : Obligations.DecoderNeverStuck := by
  intro s h hin hhost hdec
  rw [step_of_host_nil hhost]
  rcases decoding_cases hdec with hphase | hprod
  · obtain ⟨t, hstep, -⟩ := decSelect_advances hin hhost hphase
    exact ⟨t, hstep⟩
  · obtain ⟨t, hstep, -⟩ := seqStep_advances h ⟨hhost, hin, hprod⟩
    exact ⟨t, hstep⟩

/-- Settles O50: after the selection every step leaves less work. -/
theorem everyDecompressEnds : Obligations.EveryDecompressEnds := by
  intro s h hin hhost hdec
  rcases decoding_cases hdec with hphase | hprod
  · obtain ⟨t, hstep, hadv⟩ := decSelect_advances hin hhost hphase
    rw [← step_of_host_nil hhost] at hstep
    rcases hadv with hend | hloop
    · exact ⟨1, t, run_succ hstep, hend⟩
    · obtain ⟨k, u, hrun, hend⟩ := looping_ends _ (stepKeepsInvariant s t h hstep) hloop (Nat.lt_succ_self _)
      exact ⟨k + 1, u, (run_succ hstep).trans hrun, hend⟩
  · exact looping_ends _ h ⟨hhost, hin, hprod⟩ (Nat.lt_succ_self _)

end Sys2Proof.Safety
end

