-- ==== Sys2Proof/Proofs/Greedy.lean ====
section
/-! PROOFS. The greedy encoder: the tokens LZ.ENCODE writes, what they stand for, and how long their stream is (rules R190
to R206, R264). -/

namespace Sys2Proof.Machine

open Sys2Proof.Safety

/-! ### The length of a stream (rule R96) -/

/-- How many payload bytes an item sequence has. -/
def payloadCount : List Item → Nat
  | [] => 0
  | .control _ :: rest => payloadCount rest
  | .payload _ :: rest => payloadCount rest + 1

/-- How many bits an item sequence takes in its stream, but for the padding of the last flag byte. -/
def itemBits (items : List Item) : Nat := 8 * payloadCount items + (controlBits items).length

theorem payloadCount_append (as bs : List Item) : payloadCount (as ++ bs) = payloadCount as + payloadCount bs := by
  induction as with
  | nil => simp [payloadCount]
  | cons a as ih =>
    cases a with
    | control b => exact ih
    | payload v => rw [List.cons_append, payloadCount, ih, payloadCount]; omega

theorem controlBits_append (as bs : List Item) : controlBits (as ++ bs) = controlBits as ++ controlBits bs := by
  induction as with
  | nil => rfl
  | cons a as ih =>
    cases a with
    | control b => exact congrArg (b :: ·) ih
    | payload v => exact ih

theorem itemBits_append (as bs : List Item) : itemBits (as ++ bs) = itemBits as + itemBits bs := by
  rw [itemBits, payloadCount_append, controlBits_append, List.length_append, itemBits, itemBits]
  omega

/-- The bytes ahead of a cursor: the payload bytes, and a flag byte for every eight control bits beyond those left. -/
theorem layout_length (items : List Item) (r : Nat) :
    (layout items r).length = payloadCount items + ((controlBits items).length - r + 7) / 8 := by
  induction items generalizing r with
  | nil => simp [layout, payloadCount, controlBits]
  | cons i items ih =>
    cases i with
    | payload v =>
      rw [layout, List.length_cons, ih, payloadCount, controlBits]
      omega
    | control b =>
      cases r with
      | zero =>
        rw [layout, List.length_cons, ih, payloadCount, controlBits, List.length_cons]
        omega
      | succ r =>
        rw [layout, ih, payloadCount, controlBits, List.length_cons]
        omega

theorem lzStream_length {ts : List Instr} (h : ∀ t ∈ ts, isToken t = true) :
    (lzStream ts).length = payloadCount (ts.flatMap Instr.items) +
      ((controlBits (ts.flatMap Instr.items)).length + 7) / 8 := by
  have hhead := flatMap_head_control Instr.items ts fun t ht => items_eq_control_cons (isToken_iff.1 (h t ht))
  rw [lzStream, frameItems_start _ hhead, layout_length, Nat.sub_zero]

/-! ### Reference tokens -/

theorem isToken_of_refOperands {t : Instr} {x : BitVec 13 × Nat} (h : refOperands t = some x) : isToken t = true := by
  cases t <;> cases h <;> rfl

/-- A reference takes at most nine bits of the stream for each byte it stands for (rule R206). -/
theorem itemBits_reference {t : Instr} {off : BitVec 13} {len : Nat} (h : refOperands t = some (off, len))
    (hwf : t.wellFormed = true) : itemBits t.items ≤ 9 * len := by
  have hfield : ∀ {w : Nat} (v : BitVec w), payloadCount (fieldItems v) = 0 ∧ (controlBits (fieldItems v)).length = w := by
    intro w v
    have key : ∀ l : List Nat, payloadCount (l.map fun i => .control (v.getLsbD (w - 1 - i))) = 0 ∧
        (controlBits (l.map fun i => .control (v.getLsbD (w - 1 - i)))).length = l.length := by
      intro l
      induction l with
      | nil => exact ⟨rfl, rfl⟩
      | cons i l ih => exact ⟨ih.1, congrArg (· + 1) ih.2⟩
    obtain ⟨hp, hc⟩ := key (List.range w)
    exact ⟨hp, hc.trans List.length_range⟩
  cases t <;> cases h
  case refA l o =>
    obtain ⟨hp, hc⟩ := hfield l
    simp only [Instr.items, itemBits_append]
    simp only [itemBits, payloadCount, controlBits, hp, hc, List.length_cons, List.length_nil]
    omega
  case refB l =>
    have hl : l.toNat ≠ 0 := fun h0 => by
      have : l = 0 := BitVec.eq_of_toNat_eq h0
      simp [Instr.wellFormed, this] at hwf
    simp only [Instr.items, refWordItems, itemBits_append]
    simp only [itemBits, payloadCount, controlBits, List.length_cons, List.length_nil]
    omega
  case refC n =>
    obtain ⟨hp, hc⟩ := hfield n
    simp only [Instr.items, refWordItems, itemBits_append]
    simp only [itemBits, payloadCount, controlBits, hp, hc, List.length_cons, List.length_nil]
    omega
  case refE t =>
    simp only [Instr.items, refWordItems, itemBits_append]
    simp only [itemBits, payloadCount, controlBits, List.length_cons, List.length_nil]
    omega

theorem expandTokens_reference {t : Instr} {off : BitVec 13} {len : Nat} (h : refOperands t = some (off, len))
    (ts : List Instr) (dest : List Byte) :
    expandTokens (t :: ts) dest = (copyBytes (distOf off) len dest).bind (expandTokens ts) := by
  cases t <;> cases h <;> rfl

/-! ### What the greedy tokens stand for (rules R190 to R195, R204) -/

/-- A copy at a matching distance extends a beginning of the source (rule R184). -/
theorem copyBytes_prefix {src : List Byte} {d p : Nat} (len : Nat) (hd : 1 ≤ d) (hdp : d ≤ p)
    (hm : ∀ i, i < len → p + i < src.length ∧ src[p + i]? = src[p + i - d]?) :
    copyBytes d len (src.take p) = some (src.take (p + len)) := by
  induction len generalizing p with
  | zero => rfl
  | succ n ih =>
    obtain ⟨hlt, heq⟩ := hm 0 (Nat.succ_pos n)
    rw [Nat.add_zero] at hlt heq
    have hlen : (src.take p).length = p := by rw [List.length_take]; omega
    have hbyte : (src.take p)[p - d]? = some src[p] := by
      rw [List.getElem?_take, if_pos (by omega), ← heq, List.getElem?_eq_getElem hlt]
    have hnext : src.take p ++ [src[p]] = src.take (p + 1) := List.take_concat_get' src p hlt
    rw [copyBytes, if_neg (by rw [hlen]; omega), hlen, hbyte]
    simp only
    rw [hnext, ih (by omega) fun i hi => ?_]
    · congr 2
      omega
    · have := hm (i + 1) (by omega)
      rw [← Nat.add_assoc, Nat.add_right_comm] at this
      exact this

/-- The chunks of a match extend a beginning of the source by their total. -/
theorem expandTokens_chunks {src : List Byte} {d : Nat} (hd : 1 ≤ d) (hwin : d ≤ 8192) {ls : List Nat} {cs : List Instr}
    (hc : List.Forall₂ (NarrowestCase (d - 1)) ls cs) {p : Nat} (hdp : d ≤ p)
    (hm : ∀ i, i < ls.sum → p + i < src.length ∧ src[p + i]? = src[p + i - d]?) (ts : List Instr) :
    expandTokens (cs ++ ts) (src.take p) = expandTokens ts (src.take (p + ls.sum)) := by
  induction hc generalizing p with
  | nil => rfl
  | @cons l c ls cs hcase _ ih =>
    obtain ⟨-, hop, -⟩ := hcase
    have hdist : distOf (BitVec.ofNat 13 (d - 1)) = d := by
      rw [distOf, ofNat_toNat_of_lt (by omega)]
      omega
    rw [List.sum_cons] at hm ⊢
    rw [List.cons_append, expandTokens_reference hop, hdist, copyBytes_prefix l hd hdp fun i hi => hm i (by omega),
      Option.bind_some, ih (by omega) fun i hi => ?_, Nat.add_assoc]
    have := hm (l + i) (by omega)
    rwa [← Nat.add_assoc] at this

theorem chunkLengths_sum_le (n : Nat) : (chunkLengths n).sum ≤ n := by
  rw [chunkLengths, List.sum_append, List.sum_replicate, smul_eq_mul]
  split_ifs
  · simp
    omega
  · simp
    omega

/-- What the tokens of the greedy encoder from `p` on are: legal tokens without RUN.D that stand for the rest of the
source and take at most nine bits of the stream for each of its bytes. -/
theorem greedyTokens_sound {src : List Byte} {p : Nat} {ts : List Instr} (h : GreedyTokens src p ts)
    (hp : p ≤ src.length) :
    (∀ t ∈ ts, isToken t = true ∧ t.wellFormed = true ∧ ∀ o, t ≠ .runD o) ∧
      expandTokens ts (src.take p) = some src ∧ itemBits (ts.flatMap Instr.items) ≤ 9 * (src.length - p) := by
  induction h with
  | done p hend =>
    refine ⟨by simp, ?_, Nat.zero_le _⟩
    rw [List.take_of_length_le hend]
    rfl
  | literal p v ts hv _ _ ih =>
    obtain ⟨hlt, hget⟩ := List.getElem?_eq_some_iff.1 hv
    obtain ⟨hts, hexpand, hbits⟩ := ih hlt
    refine ⟨fun t ht => ?_, ?_, ?_⟩
    · rcases List.mem_cons.1 ht with rfl | ht
      · exact ⟨rfl, rfl, nofun⟩
      · exact hts t ht
    · rw [expandTokens, ← hget, List.take_concat_get' src p hlt]
      exact hexpand
    · have hlit : itemBits (Instr.lit v).items = 9 := rfl
      rw [List.flatMap_cons, itemBits_append, hlit]
      omega
  | reference p d n cs ts hm hn hc _ ih =>
    obtain ⟨hd, hwin, hmatch, -⟩ := hm
    have hsum := chunkLengths_sum_le n
    have hend : p + n ≤ src.length := by
      have := (hmatch (n - 1) (by omega)).1
      omega
    obtain ⟨hts, hexpand, hbits⟩ := ih (by omega)
    have hcs : ∀ {ls : List Nat} {cs : List Instr}, List.Forall₂ (NarrowestCase (d - 1)) ls cs →
        (∀ t ∈ cs, isToken t = true ∧ t.wellFormed = true ∧ ∀ o, t ≠ .runD o) ∧
          itemBits (cs.flatMap Instr.items) ≤ 9 * ls.sum := by
      intro ls cs hc
      induction hc with
      | nil => exact ⟨by simp, Nat.zero_le _⟩
      | @cons l c ls cs hcase _ ih =>
        obtain ⟨hwf, hop, -⟩ := hcase
        refine ⟨fun t ht => ?_, ?_⟩
        · rcases List.mem_cons.1 ht with rfl | ht
          · refine ⟨isToken_of_refOperands hop, hwf, ?_⟩
            rintro o rfl
            cases hop
          · exact ih.1 t ht
        · have := itemBits_reference hop hwf
          rw [List.flatMap_cons, itemBits_append, List.sum_cons]
          omega
    obtain ⟨hlegal, hchunk⟩ := hcs hc
    refine ⟨fun t ht => (List.mem_append.1 ht).elim (hlegal t) (hts t), ?_, ?_⟩
    · rw [expandTokens_chunks hd (by omega) hc (by omega) fun i hi => hmatch i (by omega)]
      exact hexpand
    · rw [List.flatMap_append, itemBits_append]
      omega

/-- The stream of the greedy tokens is at most `n + ceil(n/8)` bytes long (rule R206). -/
theorem greedyTokens_length {src : List Byte} {ts : List Instr} (h : GreedyTokens src 0 ts) :
    (lzStream ts).length ≤ src.length + (src.length + 7) / 8 := by
  obtain ⟨hts, -, hbits⟩ := greedyTokens_sound h (Nat.zero_le _)
  rw [lzStream_length fun t ht => (hts t ht).1]
  rw [itemBits] at hbits
  omega

/-! ### LZ.ENCODE writes them -/

@[simp] theorem withoutSearch_setSearch (r : SearchResult) (s : State) :
    withoutSearch (setSearch r s) = withoutSearch s := rfl

@[simp] theorem withoutSearch_setP (v : Nat) (s : State) : withoutSearch (setP v s) = withoutSearch s := rfl

/-- The chunk register. -/
def setChunk (c : Nat) (s : State) : State := { s with le := { s.le with chunk := BitVec.ofNat 9 c } }

@[simp] theorem withoutSearch_setChunk (c : Nat) (s : State) : withoutSearch (setChunk c s) = withoutSearch s := rfl

/-- Two states that differ in the registers of the search only. -/
structure SameButSearch (s t : State) : Prop where
  cr : t.cr = s.cr
  seq : t.seq = s.seq
  lz : t.lz = s.lz
  tmp : t.tmp = s.tmp
  hf : t.hf = s.hf
  he : t.he = s.he
  srcLen : t.le.srcLen = s.le.srcLen
  wAcc : t.le.wAcc = s.le.wAcc
  wCnt : t.le.wCnt = s.le.wCnt
  waiting : t.le.waiting = s.le.waiting
  dp : t.le.dp = s.le.dp
  inMem : t.inMem = s.inMem
  out : t.out = s.out
  win : t.win = s.win
  mid : t.mid = s.mid
  htab : t.htab = s.htab
  host : t.host = s.host
  freeCtr : t.freeCtr = s.freeCtr

theorem sameButSearch_withoutSearch (s : State) : SameButSearch s (withoutSearch s) := by
  constructor <;> rfl

theorem sameButSearch_of_eq {s t : State} (h : withoutSearch t = withoutSearch s) : SameButSearch s t := by
  obtain ⟨h1, h2, h3, h4, h5, h6, h7, h8, h9, h10, h11, h12, h13, h14, h15, h16, h17, h18⟩ :=
    sameButSearch_withoutSearch t
  have hs := sameButSearch_withoutSearch s
  rw [← h] at hs
  exact ⟨h1.symm.trans hs.cr, h2.symm.trans hs.seq, h3.symm.trans hs.lz, h4.symm.trans hs.tmp, h5.symm.trans hs.hf,
    h6.symm.trans hs.he, h7.symm.trans hs.srcLen, h8.symm.trans hs.wAcc, h9.symm.trans hs.wCnt,
    h10.symm.trans hs.waiting, h11.symm.trans hs.dp, h12.symm.trans hs.inMem, h13.symm.trans hs.out,
    h14.symm.trans hs.win, h15.symm.trans hs.mid, h16.symm.trans hs.htab, h17.symm.trans hs.host,
    h18.symm.trans hs.freeCtr⟩

theorem withoutSearch_lzwFinish (d : Dst) (s : State) : withoutSearch (lzwFinish d s) = lzwFinish d (withoutSearch s) := by
  have hcnt : (withoutSearch s).le.wCnt = s.le.wCnt := rfl
  rw [lzwFinish, lzwFinish, hcnt]
  split_ifs
  · exact withoutSearch_lzwFlush d s
  · rfl

/-- One chunk of LZ.CHUNK's loop (rule R194). -/
theorem chunkLoop_succ {off rem : Nat} (d : Dst) (k : Nat) (s : State) (hoff : off ≤ 8191) (hrem : 3 ≤ rem) :
    ∃ t, NarrowestCase off (min rem 280) t ∧ chunkLoop d off (k + 1) rem s =
      chunkLoop d off k (rem - min rem 280) (lzwItems d t.items (setChunk (min rem 280) s)) := by
  obtain ⟨t, hsel, hcase⟩ := selectToken_narrowest hoff (len := min rem 280) (by omega) (by omega)
  refine ⟨t, hcase, ?_⟩
  have hselect : ∀ u, lzSelect d off (min rem 280) u = .ok (serialize d t u) := by
    intro u
    rw [lzSelect, hsel]
  rw [chunkLoop, if_neg (by omega)]
  simp only [Config.lenMax, hselect, ok_bind]
  rfl

/-- LZ.CHUNK's loop on `q` full chunks and a remainder writes a token for each (rules R194, R195). -/
theorem chunkLoop_tokens {off : Nat} (d : Dst) (hoff : off ≤ 8191) (q r : Nat) (hr : r = 0 ∨ 3 ≤ r) (hr' : r < 280)
    (k : Nat) (s : State) (hk : q * 280 + r ≤ k) :
    ∃ cs t, List.Forall₂ (NarrowestCase off) (List.replicate q 280 ++ if r = 0 then [] else [r]) cs ∧
      chunkLoop d off k (q * 280 + r) s = .ok t ∧
      withoutSearch t = lzwItems d (cs.flatMap Instr.items) (withoutSearch s) := by
  induction q generalizing k s with
  | zero =>
    rw [Nat.zero_mul, Nat.zero_add] at hk ⊢
    by_cases h0 : r = 0
    · subst h0
      refine ⟨[], s, by simp, ?_, rfl⟩
      cases k <;> rfl
    · obtain ⟨k, rfl⟩ : ∃ n, k = n + 1 := ⟨k - 1, by omega⟩
      obtain ⟨c, hcase, hloop⟩ := chunkLoop_succ d k s hoff (rem := r) (by omega)
      rw [Nat.min_eq_left hr'.le, Nat.sub_self] at hloop
      rw [Nat.min_eq_left hr'.le] at hcase
      refine ⟨[c], lzwItems d c.items (setChunk r s), by simpa [h0] using hcase, ?_, ?_⟩
      · rw [hloop]
        cases k <;> rfl
      · rw [withoutSearch_lzwItems, withoutSearch_setChunk]
        simp
  | succ q ih =>
    obtain _ | k := k
    · exact absurd hk (by rw [Nat.succ_mul]; omega)
    have hsplit : (q + 1) * 280 + r = 280 + (q * 280 + r) := by
      rw [Nat.succ_mul, Nat.add_comm (q * 280), Nat.add_assoc]
    rw [hsplit] at hk ⊢
    have hk' : q * 280 + r ≤ k := by
      generalize q * 280 + r = m at hk
      omega
    obtain ⟨c, hcase, hloop⟩ := chunkLoop_succ d k s hoff (rem := 280 + (q * 280 + r)) (by omega)
    rw [Nat.min_eq_right (Nat.le_add_right _ _), Nat.add_sub_cancel_left] at hloop
    rw [Nat.min_eq_right (Nat.le_add_right _ _)] at hcase
    obtain ⟨cs, t, hcs, ht, hsearch⟩ := ih k (lzwItems d c.items (setChunk 280 s)) hk'
    refine ⟨c :: cs, t, ?_, hloop.trans ht, ?_⟩
    · rw [List.replicate_succ, List.cons_append]
      exact .cons hcase hcs
    · rw [hsearch, withoutSearch_lzwItems, withoutSearch_setChunk, List.flatMap_cons, lzwItems_append]

/-- LZ.CHUNK on a match of length at least 3 writes its chunks. -/
theorem chunkLoop_match {off n : Nat} (d : Dst) (s : State) (hoff : off ≤ 8191) (hn : 3 ≤ n) :
    (chunkLengths n).sum = chunkTotal n ∧ 1 ≤ chunkTotal n ∧
      ∃ cs t, List.Forall₂ (NarrowestCase off) (chunkLengths n) cs ∧
        chunkLoop d off (chunkTotal n) (chunkTotal n) s = .ok t ∧
        withoutSearch t = lzwItems d (cs.flatMap Instr.items) (withoutSearch s) := by
  obtain ⟨r, hr, hr', hpos, hlengths, htotal⟩ : ∃ r, (r = 0 ∨ 3 ≤ r) ∧ r < 280 ∧ 1 ≤ n / 280 * 280 + r ∧
      (chunkLengths n = List.replicate (n / 280) 280 ++ if r = 0 then [] else [r]) ∧
      chunkTotal n = n / 280 * 280 + r := by
    by_cases hsmall : n % 280 < 3
    · refine ⟨0, .inl rfl, by omega, by omega, by rw [chunkLengths, if_pos hsmall, if_pos rfl], ?_⟩
      rw [chunkTotal, Config.lenMax]
      split_ifs <;> omega
    · refine ⟨n % 280, .inr (by omega), by omega, by omega, by rw [chunkLengths, if_neg hsmall, if_neg (by omega)], ?_⟩
      rw [chunkTotal, Config.lenMax, if_neg (by omega)]
      omega
  have hchunks := chunkLoop_tokens d hoff (n / 280) r hr hr' (n / 280 * 280 + r) s (Nat.le_refl _)
  rw [htotal, hlengths]
  refine ⟨?_, hpos, hchunks⟩
  rw [List.sum_append, List.sum_replicate, smul_eq_mul]
  split_ifs with h0
  · simp [h0]
  · simp

/-- One iteration of LZ.ENCODE: a literal, or the chunks of the longest match (rules R190 to R195). -/
theorem lzEncodeIter_tokens (d : Dst) {src : List Byte} {v : Byte} {s : State} (hv : src[s.le.p]? = some v) :
    ∃ cs t, lzEncodeIter d src v s = .ok t ∧ s.le.p < t.le.p ∧
      withoutSearch t = lzwItems d (cs.flatMap Instr.items) (withoutSearch s) ∧
      ∀ ts, GreedyTokens src t.le.p ts → GreedyTokens src s.le.p (cs ++ ts) := by
  obtain ⟨hlt, -⟩ := List.getElem?_eq_some_iff.1 hv
  have hbest := lzSearch_bestBelow s.le.candDist.toNat s.le.candLen hlt
  unfold lzEncodeIter
  dsimp only
  generalize lzSearch src s.le.p s.le.candDist.toNat s.le.candLen = r at hbest
  have hwin : Config.winSize = 8192 := rfl
  rw [hwin] at hbest
  by_cases hshort : r.bestLen < Config.lenMin
  · rw [if_pos hshort]
    rw [Config.lenMin] at hshort
    refine ⟨[.lit v], _, rfl, Nat.lt_succ_self _, ?_, fun ts hts => .literal _ v ts hv (fun e he hle hm => ?_) hts⟩
    · rw [withoutSearch_setP, serialize, withoutSearch_lzwItems, withoutSearch_setSearch]
      simp
    · have := hbest.longest e 3 he (by omega) hm
      omega
  · rw [if_neg hshort]
    rw [Config.lenMin] at hshort
    obtain ⟨hd, hdlt⟩ := hbest.inRange (by omega)
    obtain ⟨hsum, hpos, cs, t, hcs, ht, hsearch⟩ :=
      chunkLoop_match d (setSearch r s) (off := r.bestDist - 1) (n := r.bestLen) (by omega) (by omega)
    rw [ht, ok_bind]
    refine ⟨cs, _, rfl, Nat.lt_add_of_pos_right hpos, ?_, fun ts hts => ?_⟩
    · rw [withoutSearch_setP, hsearch, withoutSearch_setSearch]
    · have hlongest : LongestMatch src s.le.p r.bestDist r.bestLen := by
        refine ⟨hd, by omega, hbest.found (by omega), fun e he hle => ⟨fun hm => ?_, fun hlow hm => ?_⟩⟩
        · have := hbest.longest e _ he (by omega) hm
          omega
        · exact lt_irrefl _ (hbest.smallest (by omega) e _ he hlow hm)
      refine .reference _ r.bestDist r.bestLen cs ts hlongest (by omega) hcs ?_
      rw [hsum]
      exact hts

/-- LZ.ENCODE's loop, given as many iterations as source bytes are left, writes the greedy tokens of the rest. -/
theorem lzEncodeLoop_tokens (d : Dst) (src : List Byte) (k : Nat) (s : State) (hk : src.length ≤ s.le.p + k) :
    ∃ ts t, lzEncodeLoop d src k s = .ok t ∧ GreedyTokens src s.le.p ts ∧
      withoutSearch t = lzwItems d (ts.flatMap Instr.items) (withoutSearch s) := by
  induction k generalizing s with
  | zero => exact ⟨[], s, rfl, .done _ hk, rfl⟩
  | succ k ih =>
    unfold lzEncodeLoop
    cases hv : src[s.le.p]? with
    | none => exact ⟨[], s, rfl, .done _ (List.getElem?_eq_none_iff.1 hv), rfl⟩
    | some v =>
      obtain ⟨cs, u, hu, hmore, hsearch, hgreedy⟩ := lzEncodeIter_tokens d hv
      obtain ⟨ts, t, ht, hts, hsearch'⟩ := ih u (by omega)
      refine ⟨cs ++ ts, t, ?_, hgreedy ts hts, ?_⟩
      · simp only
        rw [hu, ok_bind, ht]
      · rw [hsearch', hsearch, List.flatMap_append, lzwItems_append]

/-- LZ.ENCODE from an empty group appends the stream of the greedy tokens and leaves the group empty (rules R96, R155,
R190). -/
theorem lzEncode_greedy (d : Dst) (src : List Byte) {s : State} (hacc : s.le.wAcc = 0) (hcnt : s.le.wCnt = 0)
    (hwait : s.le.waiting = []) :
    ∃ ts t, lzEncode d src s = .ok t ∧ GreedyTokens src 0 ts ∧
      SameButSearch (appendAll d (lzStream ts) s) t := by
  obtain ⟨ts, t, ht, hts, hsearch⟩ := lzEncodeLoop_tokens d src src.length (setP 0 s) (Nat.le_add_left _ _)
  have hts : GreedyTokens src 0 ts := hts
  obtain ⟨hlegal, -, -⟩ := greedyTokens_sound hts (Nat.zero_le _)
  have hhead := flatMap_head_control Instr.items ts fun x hx => items_eq_control_cons (isToken_iff.1 (hlegal x hx).1)
  refine ⟨ts, lzwFinish d t, ?_, hts, ?_⟩
  · rw [lzEncode, ht, ok_bind]
  · refine sameButSearch_of_eq ?_
    rw [withoutSearch_lzwFinish, hsearch, withoutSearch_setP, withoutSearch_appendAll]
    exact writerAppendsTheStream d _ (withoutSearch s) hacc hcnt hwait hhead

end Sys2Proof.Machine

namespace Sys2Proof.Safety

open Sys2Proof.Machine

/-- Settles O38: LZ.ENCODE appends the stream of the greedy tokens to the header. -/
theorem encLzWritesTokensOfTheSource : Obligations.EncLzWritesTokensOfTheSource := by
  intro s src hlen hin hsize hsrc hacc hcnt hwait
  obtain ⟨ts, t, ht, hts, hsame⟩ :=
    lzEncode_greedy .out src (s := setDp 16 (hdrBuild 3 src.length 0 s)) hacc hcnt hwait
  rw [appendAll_hdrBuild] at hsame
  obtain ⟨hlegal, hexpand, -⟩ := greedyTokens_sound hts (Nat.zero_le _)
  have hexec : exec .encLz s = .next (endCompress t) := by
    have hprogram : program .encLz s = .ok (endCompress t) := by
      rw [program, srcBytes_of_holdsAt hlen hin hsrc, ok_bind, hlen, ht, ok_bind]
    rw [exec_eq_program, hprogram, outcomeOf_ok]
  have hout : t.out = Memory.writeAll s.out 0 (builtHeader 3 src.length 0 ++ lzStream ts) := by
    rw [hsame.out]
  refine ⟨ts, endCompress t, hexec, ?cr, hts, fun x hx => ⟨(hlegal x hx).1, (hlegal x hx).2.1⟩, hexpand,
    greedyTokens_length hts, ?blob, fun a ha => ?beyond, ?seq, hsame.lz, hsame.hf, hsame.he, hsame.tmp, hsame.srcLen,
    rfl, hsame.wAcc.trans hacc, hsame.wCnt.trans hcnt, hsame.waiting.trans hwait, hsame.inMem, hsame.win, hsame.mid,
    hsame.htab, hsame.host, hsame.freeCtr⟩
  case cr =>
    show { t.cr with status := .done, faultCode := 0, faultInfo := 0, outLenReg := t.le.dp } = _
    rw [hsame.cr, hsame.dp]
    rfl
  case blob =>
    rw [endCompress_out, hout]
    exact holdsAt_writeAll _ _ _
  case beyond =>
    rw [endCompress_out, hout]
    refine Memory.read_writeAll_outside _ _ _ _ (.inr ?_)
    rw [List.length_append, builtHeader_length]
    omega
  case seq =>
    show { t.seq with phase := .idle } = _
    rw [hsame.seq]
    rfl

end Sys2Proof.Safety
end

