-- ==== Sys2Proof/Proofs/HuffmanEncode.lean ====
section
/-! PROOFS. HF.ENCODE: the stored table, the codes, the packed bitstream, and the blob of the three (rules R239 to R246,
R265, R266). -/

namespace Sys2Proof.Machine

open Sys2Proof.Safety

/-! ### What the tree build changes -/

/-- `s` with a table, its root and the registers of the Huffman encoder. -/
def setTree (m : Memory Half) (root : Half) (e : HfEncoder) (s : State) : State :=
  { s with htab := m, he := e, hf := { s.hf with htLen := root } }

/-- The merges write HTAB and the encoder's registers but not FREQ. -/
theorem mergeLoop_changes (k : Nat) (s : State) :
    ∃ m e, e.freq = s.he.freq ∧ mergeLoop k s = { s with htab := m, he := e } := by
  induction k generalizing s with
  | zero => exact ⟨s.htab, s.he, rfl, rfl⟩
  | succ k ih =>
    unfold mergeLoop
    split
    · obtain ⟨m, e, hfreq, heq⟩ := ih (hfMerge _ _ _ _ _ s)
      exact ⟨m, e, hfreq, heq⟩
    · exact ⟨s.htab, s.he, rfl, rfl⟩

/-- HF.COUNT and HF.BUILD write HTAB, its root and the encoder's registers, FREQ among them. -/
theorem hfBuild_changes (hsrc : List Byte) (s : State) :
    ∃ e, e.freq = freqTable hsrc ∧
      hfBuild hsrc s = setTree (hfBuild hsrc s).htab (hfBuild hsrc s).hf.htLen e s := by
  unfold hfBuild
  generalize freqTable hsrc = fr
  dsimp only
  obtain ⟨m, e, hfreq, heq⟩ := mergeLoop_changes (initialList fr).length
    { s with he := { s.he with freq := fr, nlist := initialList fr, nextIdx := 0x100 } }
  rw [heq]
  exact ⟨e, hfreq, rfl⟩

/-- The merges read only HTAB, NLIST and the next node's number. -/
theorem mergeLoop_congr (k : Nat) {s u : State} (hhtab : u.htab = s.htab) (hlist : u.he.nlist = s.he.nlist)
    (hnext : u.he.nextIdx = s.he.nextIdx) :
    (mergeLoop k u).htab = (mergeLoop k s).htab ∧ (mergeLoop k u).he.nlist = (mergeLoop k s).he.nlist := by
  induction k generalizing s u with
  | zero => exact ⟨hhtab, hlist⟩
  | succ k ih =>
    unfold mergeLoop
    rw [hlist]
    split
    · refine ih ?_ ?_ ?_
      · show Memory.write (Memory.write u.htab _ _) _ _ = Memory.write (Memory.write s.htab _ _) _ _
        rw [hhtab, hnext]
      · show nlInsert _ u.he.nextIdx _ = nlInsert _ s.he.nextIdx _
        rw [hnext]
      · show u.he.nextIdx + 1 = s.he.nextIdx + 1
        rw [hnext]
    · exact ⟨hhtab, hlist⟩

/-- Of the state before it the tree that HF.BUILD leaves depends on HTAB alone. -/
theorem hfBuild_congr (hsrc : List Byte) {s u : State} (hhtab : u.htab = s.htab) :
    (hfBuild hsrc u).htab = (hfBuild hsrc s).htab ∧ (hfBuild hsrc u).hf.htLen = (hfBuild hsrc s).hf.htLen := by
  unfold hfBuild
  generalize freqTable hsrc = fr
  dsimp only
  obtain ⟨htree, hlist⟩ := mergeLoop_congr (initialList fr).length
    (s := { s with he := { s.he with freq := fr, nlist := initialList fr, nextIdx := 0x100 } })
    (u := { u with he := { u.he with freq := fr, nlist := initialList fr, nextIdx := 0x100 } }) hhtab rfl rfl
  exact ⟨htree, congrArg rootOf hlist⟩

/-! ### The entries of the tree -/

theorem isTreeEntry_iff (root i : Nat) : isTreeEntry root i = true ↔ i + 510 < 2 * root := decide_eq_true_iff

theorem TreeTable.root_toNat_lt {htab : Memory Half} {root : Half} {j : Nat} {es : List Half} {hsrc : List Byte}
    (h : TreeTable htab root j es (symbols hsrc)) : root.toNat < 0x100 + j := by
  rcases List.mem_append.1 (h.all.mem_iff.1 List.mem_cons_self) with hsym | hnode
  · have := symbols_lt hsrc root hsym
    omega
  · obtain ⟨i, hi, rfl⟩ := List.mem_map.1 hnode
    have hsmall := h.small
    have hlt := List.mem_range.1 hi
    have htoNat : (nodeAt i).toNat = 0x100 + i := nodeAt_toNat (by omega)
    rw [nodeAt] at htoNat
    omega

/-- The entries that rule R239 stores are the ones the merges wrote, so they can be read. -/
theorem hfBuild_entry_written {hsrc : List Byte} {s : State} (hwf : Memory.wf s.htab = true) {i : Nat}
    (hi : isTreeEntry (hfBuild hsrc s).hf.htLen.toNat i = true) :
    ∃ v, Memory.read (hfBuild hsrc s).htab i = some v := by
  rw [isTreeEntry_iff] at hi
  by_cases hne : hsrc = []
  · rw [hne, (hfBuild_nil s).2] at hi
    exact absurd hi (Nat.not_lt_zero _)
  · obtain ⟨es, -, htree⟩ := hfBuild_treeTable hne hwf
    have hroot := htree.root_toNat_lt
    have hlt : i < es.length := by
      rw [htree.length]
      omega
    rw [htree.entries i hlt]
    exact ⟨es[i], List.getElem?_eq_getElem hlt⟩

/-- HF.BUILD writes no entry but the ones that rule R239 stores. -/
theorem hfBuild_other_entries (hsrc : List Byte) (s : State) {a : Nat}
    (ha : isTreeEntry (hfBuild hsrc s).hf.htLen.toNat a = false) :
    Memory.read (hfBuild hsrc s).htab a = Memory.read s.htab a := by
  obtain ⟨-, -, hroot, -, houtside⟩ := rootIsTheLastNode hsrc s
  refine houtside a ?_
  by_contra hlt
  have hbig : 2 ≤ hsrc.dedup.length := by omega
  have htree : isTreeEntry (hfBuild hsrc s).hf.htLen.toNat a = true := by
    rw [isTreeEntry_iff, hroot hbig]
    omega
  rw [htree] at ha
  cases ha

/-! ### The stored table (rules R239, R240) -/

/-- Two rows written one behind the other are one row. -/
theorem outWriteAll_append (a : Nat) (as bs : List Byte) (s : State) :
    outWriteAll a (as ++ bs) s = outWriteAll (a + as.length) bs (outWriteAll a as s) := by
  rw [outWriteAll, Memory.writeAll_append]
  rfl

/-- The table entry `i` as rule R239 stores it. -/
def storedEntry (htab : Memory Half) (root : Half) (i : Nat) : Half :=
  if isTreeEntry root.toNat i then (Memory.read htab i).getD 0 else 0

/-- HF.STORE's loop writes its entries in one row. -/
theorem hfStoreEntries_ok {root : Half} (n i : Nat) {s : State}
    (hread : ∀ k, isTreeEntry root.toNat k = true → ∃ v, Memory.read s.htab k = some v) :
    hfStoreEntries root.toNat n i s =
      .ok (outWriteAll (18 + 2 * i) (((List.range' i n).map (storedEntry s.htab root)).flatMap le16Bytes) s) := by
  induction n generalizing i s with
  | zero => rfl
  | succ n ih =>
    have hnext : hfStoreEntries root.toNat (n + 1) i s = hfStoreEntries root.toNat n (i + 1)
        (outWriteAll (18 + 2 * i) (le16Bytes (storedEntry s.htab root i)) s) := by
      rcases hfStoreEntries_succ root.toNat n i s with ⟨hentry, hstep⟩ | ⟨hentry, hstep⟩
      · obtain ⟨v, hv⟩ := hread i hentry
        rw [hstep, readOrStop_ok.2 hv, ok_bind, storedEntry, if_pos hentry, hv, Option.getD_some]
      · rw [hstep, storedEntry, hentry]
        rfl
    rw [hnext, ih (i + 1) (s := outWriteAll _ _ s) hread, List.range'_succ, List.map_cons, List.flatMap_cons,
      outWriteAll_append]
    rfl

/-- HF.STORE writes the root and the stored entries behind the header. -/
theorem hfStore_ok {s : State}
    (hread : ∀ k, isTreeEntry s.hf.htLen.toNat k = true → ∃ v, Memory.read s.htab k = some v) :
    hfStore s = .ok (outWriteAll 16
      (le16Bytes s.hf.htLen ++ (storedEntries s.htab s.hf.htLen).flatMap le16Bytes) s) := by
  rw [hfStore, hfStoreEntries_ok _ 0 (s := outWriteAll 16 _ s) hread, outWriteAll_append, storedEntries,
    List.range_eq_range']
  rfl

/-! ### Codes and packing (rules R241 to R243) -/

/-- The code of a byte value: the bits from the root to its leaf, where the tree has one. -/
def pathCode (htab : Memory Half) (root : Half) (b : Byte) : List Bool :=
  (treePath htab root 256 (b.setWidth 16)).getD []

theorem mem_presentBytes {hsrc : List Byte} {n : Nat} :
    n ∈ presentBytes (freqTable hsrc) ↔ n < 256 ∧ BitVec.ofNat 8 n ∈ hsrc := by
  simp only [presentBytes, freqTable, regFile, List.mem_map, List.mem_filter, List.mem_range, decide_eq_true_eq,
    Prod.exists, Prod.mk.injEq, exists_and_right, exists_eq_right]
  constructor
  · rintro ⟨c, ⟨m, hm, rfl, rfl⟩, hpos⟩
    exact ⟨hm, List.count_pos_iff.1 hpos⟩
  · rintro ⟨hn, hmem⟩
    exact ⟨_, ⟨n, hn, rfl, rfl⟩, List.count_pos_iff.2 hmem⟩

/-- HF.CODES writes the path of every byte value it is given to CODE and keeps what is there already. -/
theorem codesLoop_ok {g : Nat → List Bool} (ns : List Nat) {s : State}
    (hpath : ∀ n ∈ ns, treePath s.htab s.hf.htLen 256 (BitVec.ofNat 16 n) = some (g n)) :
    ∃ e, codesLoop ns s = .ok { s with he := e } ∧
      ∀ n, n ∈ ns ∨ Memory.read s.he.code n = some (g n) → Memory.read e.code n = some (g n) := by
  induction ns generalizing s with
  | nil => exact ⟨s.he, rfl, fun n hn => hn.resolve_left List.not_mem_nil⟩
  | cons a ns ih =>
    rw [codesLoop, hpath a List.mem_cons_self]
    obtain ⟨e, hloop, hread⟩ := ih (s := { s with he := { s.he with code := Memory.write s.he.code a (g a) } })
      fun n hn => hpath n (List.mem_cons_of_mem _ hn)
    refine ⟨e, hloop, fun n hn => hread n ?_⟩
    show n ∈ ns ∨ Memory.read (Memory.write s.he.code a (g a)) n = some (g n)
    rw [Memory.read_write]
    by_cases hna : n = a
    · exact .inr (by rw [if_pos hna, hna])
    · rw [if_neg hna]
      exact hn.imp_left fun h => (List.mem_cons.1 h).resolve_left hna

theorem hfwCode_code (bits : List Bool) (s : State) : (hfwCode bits s).he.code = s.he.code := by
  induction bits generalizing s with
  | nil => rfl
  | cons b bits ih =>
    rw [hfwCode, ih]
    unfold hfwBit
    dsimp only
    split_ifs <;> rfl

/-- HF.PACK's loop hands the codes of the source to the bit writer. -/
theorem packLoop_ok {code : Byte → List Bool} (vs : List Byte) {s : State}
    (hread : ∀ v ∈ vs, Memory.read s.he.code v.toNat = some (code v)) :
    packLoop vs s = .ok (hfwCode (vs.flatMap code) s) := by
  induction vs generalizing s with
  | nil => rfl
  | cons v vs ih =>
    rw [packLoop, readOrStop_ok.2 (hread v List.mem_cons_self), ok_bind, List.flatMap_cons, hfwCode_append]
    refine ih fun w hw => ?_
    rw [hfwCode_code]
    exact hread w (List.mem_cons_of_mem _ hw)

/-- `s` with the registers of the Huffman encoder, a byte sequence written to OUT behind the header, and `dp` behind
it. -/
def writeBehindHeader (e : HfEncoder) (bs : List Byte) (s : State) : State :=
  { s with he := e, out := Memory.writeAll s.out 16 bs, le := { s.le with dp := 16 + bs.length } }

theorem flatMap_le16Bytes_length (vs : List Half) : (vs.flatMap le16Bytes).length = 2 * vs.length := by
  induction vs with
  | nil => rfl
  | cons v vs ih =>
    rw [List.flatMap_cons, List.length_append, ih, List.length_cons, Nat.mul_succ, Nat.add_comm]
    rfl

theorem storedEntries_length (htab : Memory Half) (root : Half) : (storedEntries htab root).length = htNent root := by
  rw [storedEntries, List.length_map, List.length_range]

/-- The part of a Huffman-bearing blob behind its header. -/
def huffmanBody (htab : Memory Half) (root : Half) (code : Byte → List Bool) (hsrc : List Byte) : List Byte :=
  le16Bytes root ++ (storedEntries htab root).flatMap le16Bytes ++ packBits (hsrc.flatMap code) []

theorem huffmanBlob_eq (alg : Half) (size : Nat) (htab : Memory Half) (root : Half) (code : Byte → List Bool)
    (hsrc : List Byte) :
    huffmanBlob alg size htab root code hsrc =
      builtHeader alg size (htNent root) ++ huffmanBody htab root code hsrc := by
  rw [huffmanBlob, huffmanBody, List.append_assoc, List.append_assoc, List.append_assoc]

theorem huffmanBlob_length (alg : Half) (size : Nat) (htab : Memory Half) (root : Half) (code : Byte → List Bool)
    (hsrc : List Byte) :
    (huffmanBlob alg size htab root code hsrc).length = 16 + (huffmanBody htab root code hsrc).length := by
  rw [huffmanBlob_eq, List.length_append, builtHeader_length]

/-- HF.PACK behind a stored table writes the packed codes there (rules R242, R243). -/
theorem hfPack_ok {code : Byte → List Bool} {hsrc : List Byte} {s : State} {table : List Byte} {e : HfEncoder}
    (hlen : 16 + table.length = 18 + 2 * htNent s.hf.htLen)
    (hread : ∀ v ∈ hsrc, Memory.read e.code v.toNat = some (code v)) :
    ∃ e', hfPack hsrc { outWriteAll 16 table s with he := e } =
      .ok (writeBehindHeader e' (table ++ packBits (hsrc.flatMap code) []) s) := by
  unfold hfPack
  dsimp only
  rw [packLoop_ok hsrc hread, ok_bind]
  have hopen : setDp (18 + 2 * htNent s.hf.htLen) { outWriteAll 16 table s with he := { e with hAcc := 0, hCnt := 0 } } =
      openByte [] (setDp (18 + 2 * htNent s.hf.htLen) { outWriteAll 16 table s with he := e }) := rfl
  refine ⟨{ e with hAcc := 0, hCnt := 0 }, congrArg Except.ok ?_⟩
  refine (congrArg (fun u => hfwFinish (hfwCode (hsrc.flatMap code) u)) hopen).trans ?_
  rw [hfwFinish_hfwCode (acc := []) _ _ (Nat.zero_le 7), appendAll_out, writeBehindHeader, Memory.writeAll_append,
    List.length_append, ← Nat.add_assoc, hlen]
  rfl

/-- HF.ENCODE never stops: it writes the stored table and the packed codes behind the header, each byte value coded by
the path to its leaf (rules R239 to R243). -/
theorem hfEncode_ok (hsrc : List Byte) {s : State} (hwf : Memory.wf s.htab = true) :
    ∃ code e, (∀ b ∈ hsrc, walkTable (hfBuild hsrc s).htab (code b) (hfBuild hsrc s).hf.htLen = some (b.setWidth 16)) ∧
      hfEncode hsrc s = .ok (writeBehindHeader e
        (huffmanBody (hfBuild hsrc s).htab (hfBuild hsrc s).hf.htLen code hsrc)
        (setTree (hfBuild hsrc s).htab (hfBuild hsrc s).hf.htLen e s)) := by
  obtain ⟨e, hfreq, hbuild⟩ := hfBuild_changes hsrc s
  have hentries := fun i => hfBuild_entry_written (hsrc := hsrc) hwf (i := i)
  have hcodes := fun b hb => treeCodesReachTheirLeaves hsrc s b hb hwf
  unfold hfEncode
  generalize hm : (hfBuild hsrc s).htab = m at *
  generalize hr : (hfBuild hsrc s).hf.htLen = root at *
  rw [hbuild, hfStore_ok (s := setTree m root e s) hentries, ok_bind, hfCodes]
  have hpath : ∀ n ∈ presentBytes e.freq, treePath m root 256 (BitVec.ofNat 16 n) =
      some (pathCode m root (BitVec.ofNat 8 n)) := by
    intro n hn
    rw [hfreq] at hn
    obtain ⟨hlt, hmem⟩ := mem_presentBytes.1 hn
    obtain ⟨bits, hbits, -, -⟩ := hcodes _ hmem
    have hwidth : (BitVec.ofNat 8 n).setWidth 16 = BitVec.ofNat 16 n := by
      apply BitVec.eq_of_toNat_eq
      simp
      omega
    rw [pathCode, ← hwidth, hbits, Option.getD_some]
  obtain ⟨e', hloop, hread⟩ := codesLoop_ok (g := fun n => pathCode m root (BitVec.ofNat 8 n)) (presentBytes e.freq)
    (s := outWriteAll 16 (le16Bytes root ++ (storedEntries m root).flatMap le16Bytes) (setTree m root e s)) hpath
  have hpacked : ∀ v ∈ hsrc, Memory.read e'.code v.toNat = some (pathCode m root v) := by
    intro v hv
    have hv' : BitVec.ofNat 8 v.toNat = v := by rw [BitVec.ofNat_toNat, BitVec.setWidth_eq]
    have hpresent : v.toNat ∈ presentBytes e.freq := by
      rw [hfreq]
      exact mem_presentBytes.2 ⟨v.isLt, by rwa [hv']⟩
    rw [hread v.toNat (.inl hpresent), hv']
  obtain ⟨e'', hpack⟩ := hfPack_ok (s := setTree m root e' s) (e := e')
    (table := le16Bytes root ++ (storedEntries m root).flatMap le16Bytes) (by
      rw [List.length_append, flatMap_le16Bytes_length, storedEntries_length, ← Nat.add_assoc]
      rfl) hpacked
  refine ⟨pathCode m root, e'', fun b hb => ?_, ?_⟩
  · obtain ⟨bits, hbits, hwalk, -⟩ := hcodes b hb
    rw [pathCode, hbits]
    exact hwalk
  · exact (congrArg (· >>= hfPack hsrc) hloop).trans hpack

end Sys2Proof.Machine

namespace Sys2Proof.Machine

open Sys2Proof.Safety

/-! ### The blob (rules R244, R265, R266) -/

/-- Where a Huffman-bearing COMPRESS ends: DONE, with the header written in front of the body (rules R244, R269). -/
def encHuffmanEnd (alg : Half) (size : Nat) (e : HfEncoder) (m : Memory Half) (root : Half) (body : List Byte)
    (s : State) : State :=
  endCompress (hdrBuild alg size (htNent root) (writeBehindHeader e body (setTree m root e s)))

/-- What OUT holds then. -/
theorem encHuffmanEnd_out (alg : Half) (size : Nat) (e : HfEncoder) (m : Memory Half) (root : Half) (body : List Byte)
    (s : State) :
    (encHuffmanEnd alg size e m root body s).out =
      Memory.writeAll (Memory.writeAll s.out 16 body) 0 (builtHeader alg size (htNent root)) := by
  rw [encHuffmanEnd, endCompress_out, hdrBuild_out]
  rfl

/-- A row written in front of another stands with it in one row. -/
theorem holdsAt_written_before {α : Type} (m : Memory α) (as bs : List α) :
    HoldsAt (Memory.writeAll (Memory.writeAll m as.length bs) 0 as) 0 (as ++ bs) := by
  intro k hk
  rw [List.length_append] at hk
  by_cases hlt : k < as.length
  · rw [Memory.read_writeAll_inside as _ 0 k hlt, List.getElem?_append_left hlt]
  · obtain ⟨i, rfl⟩ := Nat.exists_eq_add_of_le (Nat.le_of_not_lt hlt)
    rw [Nat.zero_add, Memory.read_writeAll_outside _ _ _ _ (.inr (by omega)),
      Memory.read_writeAll_inside bs m as.length i (by omega), List.getElem?_append_right (Nat.le_add_right _ _),
      Nat.add_sub_cancel_left]

/-- OUT holds the blob, and beyond it what it held. -/
theorem encHuffmanEnd_blob (alg : Half) (size : Nat) (e : HfEncoder) (m : Memory Half) (root : Half)
    (code : Byte → List Bool) (hsrc : List Byte) (s : State) :
    HoldsAt (encHuffmanEnd alg size e m root (huffmanBody m root code hsrc) s).out 0
        (huffmanBlob alg size m root code hsrc) ∧
      ∀ a, (huffmanBlob alg size m root code hsrc).length ≤ a →
        Memory.read (encHuffmanEnd alg size e m root (huffmanBody m root code hsrc) s).out a =
          Memory.read s.out a := by
  have hlen := builtHeader_length alg size (htNent root)
  rw [encHuffmanEnd_out, huffmanBlob_length, huffmanBlob_eq]
  refine ⟨?_, fun a ha => ?_⟩
  · rw [← hlen]
    exact holdsAt_written_before _ _ _
  · rw [Memory.read_writeAll_outside _ _ _ _ (.inr (by omega)), Memory.read_writeAll_outside _ _ _ _ (.inr ha)]

/-- The header registers and the result length then. -/
theorem encHuffmanEnd_cr {alg : Half} (halg : huffmanAlg alg = true) (size : Nat) (e : HfEncoder) (m : Memory Half)
    (root : Half) (code : Byte → List Bool) (hsrc : List Byte) (s : State) :
    (encHuffmanEnd alg size e m root (huffmanBody m root code hsrc) s).cr = { s.cr with
      status := .done
      faultCode := 0
      faultInfo := 0
      outLenReg := (huffmanBlob alg size m root code hsrc).length
      hdrVersion := Config.version
      hdrAlg := alg
      hdrDoff := BitVec.ofNat 32 (18 + 2 * htNent root)
      hdrDsize := BitVec.ofNat 32 size } := by
  have hdoff : builtDoff alg (htNent root) = 18 + 2 * htNent root := if_pos halg
  rw [huffmanBlob_length, ← hdoff]
  rfl

/-- The result is as long as `dp` says. -/
theorem encHuffmanEnd_dp (alg : Half) (size : Nat) (e : HfEncoder) (m : Memory Half) (root : Half) (body : List Byte)
    (s : State) :
    (encHuffmanEnd alg size e m root body s).le =
      { s.le with dp := (encHuffmanEnd alg size e m root body s).cr.outLenReg } := rfl

/-- The first value of a row and the row behind it. -/
theorem holdsAt_cons {α : Type} {m : Memory α} {a : Nat} {v : α} {vs : List α} (h : HoldsAt m a (v :: vs)) :
    Memory.read m a = some v ∧ HoldsAt m (a + 1) vs := by
  refine ⟨h 0 (Nat.zero_lt_succ _), fun k hk => ?_⟩
  have := h (k + 1) (Nat.succ_lt_succ hk)
  rwa [List.getElem?_cons_succ, Nat.add_comm k, ← Nat.add_assoc] at this

/-- MID answers the bytes it holds (rule R266). -/
theorem midBytes_ok {s : State} (bs : List Byte) {a : Nat} (h : HoldsAt s.mid a bs) :
    midBytes s a bs.length = .ok bs := by
  induction bs generalizing a with
  | nil => rfl
  | cons b bs ih =>
    obtain ⟨hhead, htail⟩ := holdsAt_cons h
    rw [List.length_cons, midBytes, readOrStop_ok.2 hhead, ok_bind, ih htail, ok_bind]

end Sys2Proof.Machine

namespace Sys2Proof.Safety

open Sys2Proof.Machine

/-- Settles O39: HF.ENCODE of the source, and the header in front of what it writes. -/
theorem encHfirwWritesTheBlob : Obligations.EncHfirwWritesTheBlob := by
  intro s src hlen hin hsize hsrc hwf
  obtain ⟨code, e, hcode, hencode⟩ := hfEncode_ok src hwf
  have hother := fun a => hfBuild_other_entries src s (a := a)
  generalize hm : (hfBuild src s).htab = m at *
  generalize hr : (hfBuild src s).hf.htLen = root at *
  have hexec : exec .encHfirw s = .next (encHuffmanEnd 2 src.length e m root (huffmanBody m root code src) s) := by
    have hprogram : program .encHfirw s =
        .ok (encHuffmanEnd 2 src.length e m root (huffmanBody m root code src) s) := by
      rw [program, srcBytes_of_holdsAt hlen hin hsrc, ok_bind, hencode, ok_bind, ← hlen]
      rfl
    rw [exec_eq_program, hprogram, outcomeOf_ok]
  obtain ⟨hblob, hbeyond⟩ := encHuffmanEnd_blob 2 src.length e m root code src s
  have hcr := encHuffmanEnd_cr (alg := 2) rfl src.length e m root code src s
  have hlength := congrArg CtrlRegs.outLenReg hcr
  exact ⟨code, _, hexec, hcr, rfl, rfl, hcode, hblob, fun a ha => hbeyond a (by rwa [hlength] at ha), hother, rfl, rfl,
    rfl, rfl, encHuffmanEnd_dp _ _ _ _ _ _ _, rfl, rfl, rfl, rfl, rfl⟩

/-- Settles O40: the greedy stream goes to MID, and HF.ENCODE codes it as O39's source. -/
theorem encHfiWritesTheBlob : Obligations.EncHfiWritesTheBlob := by
  intro s src hlen hin hsize hsrc hwf hacc hcnt hwait
  obtain ⟨ts, u, hu, hts, hsame⟩ := lzEncode_greedy .mid src (s := setDp 0 s) hacc hcnt hwait
  rw [appendAll_mid] at hsame
  obtain ⟨hlegal, hexpand, -⟩ := greedyTokens_sound hts (Nat.zero_le _)
  have hmid : u.mid = Memory.writeAll s.mid 0 (lzStream ts) := by rw [hsame.mid]; rfl
  have hdp : u.le.dp = (lzStream ts).length := by rw [hsame.dp]; exact Nat.zero_add _
  have hsrcLen : u.le.srcLen = s.le.srcLen := by rw [hsame.srcLen]; rfl
  have hcrs : u.cr = s.cr := by rw [hsame.cr]; rfl
  have hheld : HoldsAt u.mid 0 (lzStream ts) := by
    rw [hmid]
    exact holdsAt_writeAll _ _ _
  have hhtab : u.htab = s.htab := by rw [hsame.htab]; rfl
  obtain ⟨htree, hroot⟩ := hfBuild_congr (lzStream ts) hhtab
  obtain ⟨code, e, hcode, hencode⟩ := hfEncode_ok (lzStream ts) (s := u) (by rwa [hhtab])
  have hother := fun a => hfBuild_other_entries (lzStream ts) s (a := a)
  rw [htree, hroot] at hcode hencode
  generalize hm : (hfBuild (lzStream ts) s).htab = m at *
  generalize hr : (hfBuild (lzStream ts) s).hf.htLen = root at *
  have hexec : exec .encHfi s =
      .next (encHuffmanEnd 4 src.length e m root (huffmanBody m root code (lzStream ts)) u) := by
    have hprogram : program .encHfi s =
        .ok (encHuffmanEnd 4 src.length e m root (huffmanBody m root code (lzStream ts)) u) := by
      rw [program, srcBytes_of_holdsAt hlen hin hsrc, ok_bind, hu, ok_bind, hdp, midBytes_ok _ hheld, ok_bind,
        hencode, ok_bind, ← hlen, ← hsrcLen]
      rfl
    rw [exec_eq_program, hprogram, outcomeOf_ok]
  obtain ⟨hblob, hbeyond⟩ := encHuffmanEnd_blob 4 src.length e m root code (lzStream ts) u
  have hcr := encHuffmanEnd_cr (alg := 4) rfl src.length e m root code (lzStream ts) u
  have hlength := congrArg CtrlRegs.outLenReg hcr
  have hout : u.out = s.out := by rw [hsame.out]; rfl
  have hseq : u.seq = s.seq := by rw [hsame.seq]; rfl
  have hlz : u.lz = s.lz := by rw [hsame.lz]; rfl
  have hhf : u.hf = s.hf := by rw [hsame.hf]; rfl
  have htmp : u.tmp = s.tmp := by rw [hsame.tmp]; rfl
  have hinMem : u.inMem = s.inMem := by rw [hsame.inMem]; rfl
  have hwin : u.win = s.win := by rw [hsame.win]; rfl
  have hhost : u.host = s.host := by rw [hsame.host]; rfl
  have hfree : u.freeCtr = s.freeCtr := by rw [hsame.freeCtr]; rfl
  rw [hcrs] at hcr
  rw [hout] at hbeyond
  refine ⟨ts, code, _, hexec, hcr, hts, fun x hx => ⟨(hlegal x hx).1, (hlegal x hx).2.1⟩, hexpand, hm.symm, hr.symm, hheld,
    fun a ha => ?beyond, hcode, hblob, fun a ha => hbeyond a (by rwa [hlength] at ha), hother, ?seq, hlz, ?hf, htmp,
    hsrcLen, rfl, hinMem, hwin, hhost, hfree⟩
  case beyond =>
    show Memory.read u.mid a = _
    rw [hmid, Memory.read_writeAll_outside _ _ _ _ (.inr (by omega))]
  case seq =>
    show { u.seq with phase := .idle } = _
    rw [hseq]
  case hf =>
    show { u.hf with htLen := root } = { s.hf with htLen := root }
    rw [hhf]

end Sys2Proof.Safety
end

