-- ==== Sys2Proof/Proofs/RoundTrip.lean ====
section
/-! PROOFS. The two commands from their CTRL writes to their data paths, and the round trips of RAW and LZ (rules R205,
R255, R256, R262, R267, R338). -/

namespace Sys2Proof.Machine

open Sys2Proof.Safety

/-! ### Runs of a host that waits for the command (rule R338) -/

/-- The core is BUSY and the host waits for it. -/
def Waiting (s : State) : Prop := s.host = [.waitDone] ∧ s.cr.status = .busy

/-- A command ends as it does one step later. -/
theorem endsDoneWith_of_step {s t : State} {bs : List Byte} (hstep : step s = .next t) (h : EndsDoneWith t bs) :
    EndsDoneWith s bs := by
  obtain ⟨n, u, hrun, hend⟩ := h
  exact ⟨n + 1, u, (run_succ hstep).trans hrun, hend⟩

/-- While the host waits it is the sequencer that steps. -/
theorem endsDoneWith_of_seqStep {s t : State} {bs : List Byte} (hwait : Waiting s) (hstep : seqStep s = .next t)
    (h : EndsDoneWith t bs) : EndsDoneWith s bs :=
  endsDoneWith_of_step ((step_of_waiting hwait.1 (busy_iff.2 hwait.2)).trans hstep) h

/-- A command that is DONE ends with what OUT holds. -/
theorem endsDoneWith_of_done {s : State} {bs : List Byte} (hhost : s.host = [.waitDone]) (hdone : s.cr.status = .done)
    (hlen : s.cr.outLenReg = bs.length) (hout : HoldsAt s.out 0 bs) : EndsDoneWith s bs := by
  have hidle : s.busy = false := busy_eq_false_iff.2 (by rw [hdone]; decide)
  exact ⟨1, { s with host := [] }, run_succ (step_of_waited hhost hidle), rfl, hdone, hlen, hout⟩

/-! ### COMPRESS up to its data path (rules R255, R262) -/

/-- What a COMPRESS of `x` has done when its data path begins. -/
structure ReadyToEncode (x : List Byte) (c : State) : Prop where
  waiting : Waiting c
  srcLen : c.le.srcLen = x.length
  inLen : x.length ≤ c.seq.inLen
  source : HoldsAt c.inMem 0 x
  wAcc : c.le.wAcc = 0
  wCnt : c.le.wCnt = 0
  pfifo : c.le.waiting = []
  htab : Memory.wf c.htab = true

/-- A COMPRESS that the host starts goes on with the data path of its algorithm. -/
theorem compress_reaches {alg : Half} {i : Instr} {x : List Byte} {s : State} (hlegal : legalAlg alg = true)
    (hctrl : decodeCtrl (ctrlCompress alg) = .ok (.compress alg)) (hi : decodeEncAlg alg = .ok i)
    (hx : x.length ≤ Config.sizeMax) (hs : StartsWith s x (ctrlCompress alg)) :
    ∃ c, ReadyToEncode x c ∧ ∀ t y, exec i c = .next t → EndsDoneWith t y → EndsDoneWith s y := by
  obtain ⟨⟨hlen, hheld⟩, hidle, hhost⟩ := hs
  let s0 := writeCtrlReg (ctrlCompress alg) { s with host := [.waitDone] }
  let c := setPhase .encSelect (setSrcLen x.length (cmdStart true alg s0))
  have hwait : Waiting c := ⟨rfl, rfl⟩
  have hchecks : compressChecks (cmdStart true alg s0) = .ok (setSrcLen x.length (cmdStart true alg s0)) := by
    rw [compressChecks_eq, if_neg (by rw [cmdStart_seq_smpAlg, hlegal]; simp)]
    have hin : (cmdStart true alg s0).seq.inLen = x.length := hlen
    rw [hin, if_neg (Nat.not_lt.2 hx)]
  have hstart : step s = .next c := by
    have hexec := exec_compress (s := s0) alg hidle
    rw [hchecks, ok_bind, outcomeOf_ok] at hexec
    rw [step_of_host_cons hhost]
    refine (hostWriteCtrl_start _ hctrl).trans ?_
    rw [if_neg (by exact fun h : s.busy = true => by simp [hidle] at h)]
    exact hexec
  have hselect : seqStep c = exec i c :=
    seqStep_encSelect rfl ((decodeEncSelect_ctrlWord alg).trans hi)
  exact ⟨c, ⟨hwait, rfl, hlen.ge, hheld, rfl, rfl, rfl, rfl⟩, fun t y hexec hend =>
    endsDoneWith_of_step hstart (endsDoneWith_of_seqStep hwait (hselect.trans hexec) hend)⟩

/-! ### DECOMPRESS up to its data path (rules R131, R255, R256) -/

/-- What a DECOMPRESS of a blob with a built header has done when its data path begins. -/
structure ReadyToDecode (alg : Half) (size nent : Nat) (rest : List Byte) (c : State) : Prop where
  waiting : Waiting c
  blob : HoldsAt c.inMem 0 (builtHeader alg size nent ++ rest)
  inLen : c.seq.inLen = 16 + rest.length
  doff : c.doff = builtDoff alg nent
  dsize : c.dsize = size
  lz : c.lz = LzDecoder.reset

/-- A DECOMPRESS that the host starts on such a blob goes on with the data path of its algorithm. -/
theorem decompress_reaches {alg : Half} {size nent : Nat} {rest : List Byte} {i : Instr} {u : State}
    (hlegal : legalAlg alg = true) (hi : decodeHdrAlg alg = .ok i) (hsize : size ≤ Config.sizeMax) (hnent : nent ≤ 1020)
    (hdoff : builtDoff alg nent ≤ 16 + rest.length)
    (hu : StartsWith u (builtHeader alg size nent ++ rest) ctrlDecompress) :
    ∃ c, ReadyToDecode alg size nent rest c ∧ ∀ t y, exec i c = .next t → EndsDoneWith t y → EndsDoneWith u y := by
  obtain ⟨⟨hlen, hheld⟩, hidle, hhost⟩ := hu
  rw [List.length_append, builtHeader_length] at hlen
  let u0 := writeCtrlReg ctrlDecompress { u with host := [.waitDone] }
  let v := cmdStart false u0.ctrlAlg u0
  let c := setPhase .decSelect
    (latchHeader Config.version alg (BitVec.ofNat 32 (builtDoff alg nent)) (BitVec.ofNat 32 size) v)
  have hwait : Waiting c := ⟨rfl, rfl⟩
  have hparse := hdrParse_built (u := v) (size := size) hlegal hnent hheld hlen (hdoff.trans hlen.ge)
  have hstart : step u = .next c := by
    have hexec := exec_decompress (s := u0) hidle
    rw [hparse, ok_bind, outcomeOf_ok] at hexec
    rw [step_of_host_cons hhost]
    have hctrl : decodeCtrl ctrlDecompress = .ok .decompress := by decide
    refine (hostWriteCtrl_start _ hctrl).trans ?_
    rw [if_neg (by exact fun h : u.busy = true => by simp [hidle] at h)]
    exact hexec
  have hselect : seqStep c = exec i c := seqStep_decSelect rfl hi
  exact ⟨c, ⟨hwait, hheld, hlen, builtDoff_toNat hnent, size_toNat hsize, rfl⟩, fun t y hexec hend =>
    endsDoneWith_of_step hstart (endsDoneWith_of_seqStep hwait (hselect.trans hexec) hend)⟩

/-- The bytes of a row behind another one. -/
theorem holdsAt_append_right {α : Type} {m : Memory α} {as bs : List α} (h : HoldsAt m 0 (as ++ bs)) :
    HoldsAt m as.length bs := by
  intro k hk
  have := h (as.length + k) (by rw [List.length_append]; omega)
  rwa [Nat.zero_add, List.getElem?_append_right (Nat.le_add_right _ _), Nat.add_sub_cancel_left] at this

end Sys2Proof.Machine

namespace Sys2Proof.Safety

open Sys2Proof.Machine

/-- Settles O56: DEC.RAW copies what ENC.RAW put behind the header. -/
theorem rawRoundTrip : Obligations.RawRoundTrip := by
  intro x hx s hs
  obtain ⟨c, hc, hends⟩ := compress_reaches (i := .encRaw) rfl (by decide) rfl hx hs
  refine ⟨builtHeader 0 x.length 0 ++ x, ?compressed, fun u hu => ?decompressed⟩
  case compressed =>
    obtain ⟨t, hexec, hcr, hout, -, -, -, -, -, -, -, -, -, -, -, hhost, -⟩ :=
      encRawWritesTheBlob c x hc.srcLen hc.inLen hx hc.source
    refine hends t _ hexec (endsDoneWith_of_done (hhost.trans hc.waiting.1) ?_ ?_ hout) <;> rw [hcr]
    rw [List.length_append, builtHeader_length]
  case decompressed =>
    obtain ⟨d, hd, hends⟩ := decompress_reaches (i := .decRaw) rfl rfl hx (by omega) (Nat.le_add_right _ _) hu
    have hdoff : d.doff = 16 := hd.doff
    have hheld : HoldsAt d.inMem 16 x := holdsAt_append_right hd.blob
    have hexec := exec_decRaw (s := d) (bs := x) (by rw [hdoff, hd.dsize, hd.inLen]) hd.dsize.symm fun k hk => by
      rw [hdoff]
      exact hheld k (hd.dsize ▸ hk)
    have hzero : d.lz.outLen = 0 := congrArg LzDecoder.outLen hd.lz
    refine hends _ _ hexec (endsDoneWith_of_done ?_ rfl ?_ ?_)
    · exact (emitAll_host x _).trans hd.waiting.1
    · show d.lz.outLen + d.dsize = x.length
      rw [hzero, hd.dsize, Nat.zero_add]
    · show HoldsAt (emitAll x (setIp d.doff (setHfEn false d))).out 0 x
      rw [emitAll_out]
      have hstart : (setIp d.doff (setHfEn false d)).lz.outLen = 0 := hzero
      rw [hstart]
      exact holdsAt_writeAll _ _ _

end Sys2Proof.Safety
end

