-- ==== Sys2Proof/Proofs/TokenLoop.lean ====
section
/-! PROOFS. The loop of LZ.DECODE on a token stream that a byte source serves, and the round trip of LZ (rules R97, R165,
R178, R184, R205, R267). -/

namespace Sys2Proof.Machine

open Sys2Proof.Safety

/-! ### Rows held in a memory -/

/-- A row written right behind another one. -/
theorem holdsAt_written_behind {α : Type} {m : Memory α} {as : List α} (bs : List α) (h : HoldsAt m 0 as) :
    HoldsAt (Memory.writeAll m as.length bs) 0 (as ++ bs) := by
  intro k hk
  rw [List.length_append] at hk
  by_cases hlt : k < as.length
  · rw [Memory.read_writeAll_outside _ _ _ _ (.inl (by omega)), List.getElem?_append_left hlt]
    exact h k hlt
  · obtain ⟨i, rfl⟩ := Nat.exists_eq_add_of_le (Nat.le_of_not_lt hlt)
    rw [Nat.zero_add, Memory.read_writeAll_inside bs m as.length i (by omega),
      List.getElem?_append_right (Nat.le_add_right _ _), Nat.add_sub_cancel_left]

/-! ### A reference as a copy (rules R105, R184) -/

/-- A copy of bytes that are there appends bytes that stand at the distance before them. -/
theorem copyBytes_some {d : Nat} (n : Nat) {dest out : List Byte} (h : copyBytes d n dest = some out) :
    ∃ bs, out = dest ++ bs ∧ bs.length = n ∧ (0 < n → 1 ≤ d ∧ d ≤ dest.length) ∧
      ∀ k, k < n → bs[k]? = out[dest.length + k - d]? := by
  induction n generalizing dest with
  | zero =>
    cases h
    exact ⟨[], (List.append_nil _).symm, rfl, fun hpos => absurd hpos (Nat.lt_irrefl 0), fun k hk => by omega⟩
  | succ n ih =>
    rw [copyBytes] at h
    split_ifs at h with hreach
    cases hb : dest[dest.length - d]? with
    | none => simp [hb] at h
    | some b =>
      rw [hb] at h
      obtain ⟨bs, rfl, hlen, -, hbytes⟩ := ih h
      refine ⟨b :: bs, by simp, by simp [hlen], fun _ => by omega, fun k hk => ?_⟩
      cases k with
      | zero =>
        rw [List.getElem?_cons_zero, Nat.add_zero, List.append_assoc, List.getElem?_append_left (by omega), hb]
      | succ k =>
        have := hbytes k (by omega)
        rw [List.getElem?_cons_succ, this, List.length_append, List.length_singleton, Nat.add_assoc, Nat.add_comm 1 k]

/-- Two rows that repeat what stands at the same distance before them are the same. -/
theorem repeats_unique {d n : Nat} {dest as bs : List Byte} (hd : 1 ≤ d) (hreach : d ≤ dest.length)
    (hlena : as.length = n) (hlenb : bs.length = n)
    (ha : ∀ k, k < n → as[k]? = (dest ++ as)[dest.length + k - d]?)
    (hb : ∀ k, k < n → bs[k]? = (dest ++ bs)[dest.length + k - d]?) : as = bs := by
  have hsame : ∀ k, k < n → as[k]? = bs[k]? := by
    intro k
    induction k using Nat.strong_induction_on with
    | _ k ih =>
      intro hk
      rw [ha k hk, hb k hk]
      by_cases hlt : dest.length + k - d < dest.length
      · rw [List.getElem?_append_left hlt, List.getElem?_append_left hlt]
      · rw [List.getElem?_append_right (by omega), List.getElem?_append_right (by omega)]
        exact ih _ (by omega) (by omega)
  refine List.ext_getElem? fun k => ?_
  by_cases hk : k < n
  · exact hsame k hk
  · rw [List.getElem?_eq_none (by omega), List.getElem?_eq_none (by omega)]

/-- What tokens stand for begins with what was there before them. -/
theorem expandTokens_length {ts : List Instr} {dest x : List Byte} (h : expandTokens ts dest = some x) :
    dest.length ≤ x.length := by
  induction ts generalizing dest with
  | nil =>
    cases h
    exact Nat.le_refl _
  | cons t ts ih =>
    rw [expandTokens.eq_def] at h
    dsimp only at h
    split at h
    · have := ih h
      rw [List.length_append] at this
      omega
    · split at h
      · obtain ⟨out, hout, h⟩ := Option.bind_eq_some_iff.1 h
        obtain ⟨bs, rfl, -, -, -⟩ := copyBytes_some _ hout
        have := ih h
        rw [List.length_append] at this
        omega
      · cases h

/-! ### One token -/

/-- A running DECOMPRESS of `x` that has produced `pre`. -/
structure Expanding (x pre : List Byte) (s : State) : Prop where
  waiting : Waiting s
  dsize : s.dsize = x.length
  outLen : s.lz.outLen = pre.length
  window : WindowHolds s
  out : HoldsAt s.out 0 pre

/-- Row of EMITs in an expansion. -/
theorem Expanding.emitAll {x pre : List Byte} {s : State} (h : Expanding x pre s) (bs : List Byte) :
    Expanding x (pre ++ bs) (emitAll bs s) where
  waiting := ⟨(emitAll_host bs s).trans h.waiting.1, by rw [emitAll_cr]; exact h.waiting.2⟩
  dsize := by rw [State.dsize, emitAll_cr]; exact h.dsize
  outLen := by rw [emitAll_lz, List.length_append, ← h.outLen]
  window := windowHolds_emitAll bs h.window
  out := by rw [emitAll_out, h.outLen]; exact holdsAt_written_behind bs h.out

theorem Expanding.fetched {x pre : List Byte} {s t : State} (h : Expanding x pre s) (hframe : FetchFrame s t) :
    Expanding x pre t := by
  obtain ⟨hout, hwindow⟩ := hframe.emits
  obtain ⟨heq, -⟩ := hframe
  have hcr : t.cr = s.cr := by rw [heq]
  have hhost : t.host = s.host := by rw [heq]
  have houtMem : t.out = s.out := by rw [heq]
  exact ⟨⟨hhost.trans h.waiting.1, by rw [hcr]; exact h.waiting.2⟩, by rw [State.dsize, hcr]; exact h.dsize,
    hout.trans h.outLen, hwindow h.window, by rw [houtMem]; exact h.out⟩

/-- A token that the rest of the expansion needs is a row of EMITs of the bytes it stands for. -/
theorem exec_token_expands {x pre : List Byte} {s : State} {t : Instr} {ts : List Instr} (h : Expanding x pre s)
    (hx : expandTokens (t :: ts) pre = some x) :
    ∃ bs tt, exec t s = .next (setTemps tt (emitAll bs s)) ∧ bs ≠ [] ∧ expandTokens ts (pre ++ bs) = some x := by
  rw [expandTokens.eq_def] at hx
  dsimp only at hx
  split at hx
  case h_1 v => exact ⟨[v], s.tmp, rfl, List.cons_ne_nil _ _, hx⟩
  case h_2 =>
    split at hx
    case h_2 => cases hx
    case h_1 off len hop =>
      obtain ⟨out, hcopy, hx⟩ := Option.bind_eq_some_iff.1 hx
      have hpos := refOperands_pos hop
      obtain ⟨cs, rfl, hlen, hreach, hcs⟩ := copyBytes_some _ hcopy
      obtain ⟨hd, hreach⟩ := hreach (by omega)
      have hfit := expandTokens_length hx
      rw [List.length_append] at hfit
      obtain ⟨bs, hbslen, hexec, hbs⟩ := copy_ok h.window (off := off) (len := len) (by omega)
        (by rw [h.outLen]; exact hreach) (by rw [h.outLen, h.dsize]; omega)
      have hheld := (h.emitAll bs).out
      have hbs' : ∀ k, k < len → bs[k]? = (pre ++ bs)[pre.length + k - distOf off]? := by
        intro k hk
        rw [hbs k hk, h.outLen, ← hheld _ (by rw [List.length_append]; omega), Nat.zero_add]
      obtain rfl := repeats_unique hd hreach hlen hbslen hcs hbs'
      refine ⟨cs, { s.tmp with off := off, len := BitVec.ofNat 9 len, cnt := 0 }, ?_, fun hnil => ?_, hx⟩
      · rw [exec_reference hop, hexec, outcomeOf_ok]
      · rw [hnil] at hlen
        simp at hlen
        omega

/-! ### The loop (rule R165) -/

/-- A byte source whose stream EMIT does not touch. -/
def UntouchedByEmit (R : StreamPos → State → Prop) : Prop := ∀ p s bs, R p s → R p (emitAll bs s)

/-- LZ.DECODE on a stream of tokens that stand for `x` ends DONE with `x`. -/
theorem lzLoop_ends {R : StreamPos → State → Prop} (hR : ServesStream R) (hemit : UntouchedByEmit R) {x : List Byte}
    (ts : List Instr) {p : StreamPos} {s : State} {pre : List Byte} (hserved : R p s)
    (hahead : Ahead p (ts.flatMap Instr.items)) (hts : ∀ t ∈ ts, isToken t = true ∧ t.wellFormed = true)
    (hx : expandTokens ts pre = some x) (h : Expanding x pre s) (hphase : s.seq.phase = .lzLoop) :
    EndsDoneWith s x := by
  induction ts generalizing p s pre with
  | nil =>
    cases hx
    have hend : s.lz.outLen = s.dsize := h.outLen.trans h.dsize.symm
    exact endsDoneWith_of_seqStep h.waiting (seqStep_loopEnd (.inl hphase) hend)
      (endsDoneWith_of_done h.waiting.1 rfl h.outLen h.out)
  | cons t ts ih =>
    obtain ⟨htoken, hwf⟩ := hts t List.mem_cons_self
    rw [List.flatMap_cons] at hahead
    obtain ⟨q, hdecode, hahead⟩ := ahead_token (isToken_iff.1 htoken) hwf hahead
    obtain ⟨u, hfetch, hserved⟩ := hR.fetchToken hserved hdecode
    have hframe : FetchFrame s u := (fetchToken_endsIn s).ok hfetch
    have hu := h.fetched hframe
    obtain ⟨bs, tt, hexec, hne, hx⟩ := exec_token_expands hu hx
    have hgo : s.lz.outLen ≠ s.dsize := by
      have hlen := expandTokens_length hx
      have hpos := List.length_pos_iff.2 hne
      rw [List.length_append] at hlen
      rw [h.outLen, h.dsize]
      omega
    have hstep : seqStep s = .next (setTemps tt (emitAll bs u)) := by
      rw [seqStep_lzLoop hphase hgo, hfetch]
      exact hexec
    obtain ⟨hwait, hdsize, houtLen, hwindow, hout⟩ := hu.emitAll bs
    refine endsDoneWith_of_seqStep h.waiting hstep (ih (hR.temps tt (hemit _ _ bs hserved)) hahead
      (fun t ht => hts t (List.mem_cons_of_mem _ ht)) hx
      ⟨hwait, hdsize, houtLen, (windowHolds_setTemps tt _).2 hwindow, hout⟩ ?_)
    show (emitAll bs u).seq.phase = _
    have hseq : u.seq = s.seq := by rw [hframe.1]
    rw [emitAll_seq, hseq, hphase]

/-- EMIT does not touch IN or its cursor. -/
theorem untouchedByEmit_direct (base : Nat) (bytes : List Byte) : UntouchedByEmit (DirectAt base bytes) := by
  intro p s bs h
  obtain ⟨hdir, hholds, hlen, hfirst, hlast, hrest, hcur, hrem⟩ := h
  have hlz := emitAll_lz bs s
  have hip : (emitAll bs s).lz.ip = s.lz.ip := (congrArg LzDecoder.ip hlz :)
  exact ⟨by rw [emitAll_seq]; exact hdir, by rw [emitAll_inMem]; exact hholds, by rw [emitAll_seq]; exact hlen,
    by rw [hip]; exact hfirst, by rw [hip]; exact hlast, by rw [hip]; exact hrest,
    (congrArg LzDecoder.cur hlz :).trans hcur, (congrArg LzDecoder.rem hlz :).trans hrem⟩

/-- What a fresh decoder of a token stream has ahead. -/
theorem ahead_lzStream {ts : List Instr} (hts : ∀ t ∈ ts, isToken t = true ∧ t.wellFormed = true) :
    Ahead (StreamPos.start (lzStream ts)) (ts.flatMap Instr.items) :=
  ahead_start _ (flatMap_head_control Instr.items ts fun t ht => items_eq_control_cons (isToken_iff.1 (hts t ht).1))

/-- The data path begins with nothing produced. -/
theorem ReadyToDecode.expanding {alg : Half} {nent : Nat} {rest x : List Byte} {c : State}
    (h : ReadyToDecode alg x.length nent rest c) : Expanding x [] c where
  waiting := h.waiting
  dsize := h.dsize
  outLen := congrArg LzDecoder.outLen h.lz
  window := windowHolds_zero (congrArg LzDecoder.outLen h.lz) (congrArg LzDecoder.wp h.lz)
  out := fun k hk => absurd hk (Nat.not_lt_zero k)

end Sys2Proof.Machine

namespace Sys2Proof.Safety

open Sys2Proof.Machine

/-- Settles O57: LZ.DECODE expands the greedy tokens that ENC.LZ put behind the header. -/
theorem lzRoundTrip : Obligations.LzRoundTrip := by
  intro x hx s hs
  obtain ⟨c, hc, hends⟩ := compress_reaches (i := .encLz) rfl (by decide) rfl hx hs
  obtain ⟨ts, t, hexec, hcr, -, hts, hexpand, -, hout, -, -, -, -, -, -, -, -, -, -, -, -, -, -, -, hhost, -⟩ :=
    encLzWritesTokensOfTheSource c x hc.srcLen hc.inLen hx hc.source hc.wAcc hc.wCnt hc.pfifo
  refine ⟨builtHeader 3 x.length 0 ++ lzStream ts, ?compressed, fun u hu => ?decompressed⟩
  case compressed =>
    refine hends t _ hexec (endsDoneWith_of_done (hhost.trans hc.waiting.1) ?_ ?_ hout) <;> rw [hcr]
    rw [List.length_append, builtHeader_length]
  case decompressed =>
    obtain ⟨d, hd, hends⟩ := decompress_reaches (i := .decLz) rfl rfl hx (by omega) (Nat.le_add_right _ _) hu
    have hdoff : d.doff = 16 := hd.doff
    have hstart : Expanding x [] (setPhase .lzLoop (setIp d.doff (setHfEn false d))) := by
      obtain ⟨hwait, hdsize, houtLen, hwindow, hheld⟩ := hd.expanding
      exact ⟨hwait, hdsize, houtLen, (windowHolds_congr rfl rfl rfl rfl).2 hwindow, hheld⟩
    have hdirect : DirectAt 16 (lzStream ts) (StreamPos.start (lzStream ts))
        (setPhase .lzLoop (setIp d.doff (setHfEn false d))) :=
      ⟨rfl, holdsAt_append_right hd.blob, hd.inLen, hdoff.ge, hdoff.le.trans (Nat.le_add_right _ _),
        (by
          show lzStream ts = (lzStream ts).drop (d.doff - 16)
          rw [hdoff]
          rfl), congrArg LzDecoder.cur hd.lz, congrArg LzDecoder.rem hd.lz⟩
    exact hends _ _ (decLzPositionsTheSource d) (lzLoop_ends (servesStream_direct _ _) (untouchedByEmit_direct _ _) ts
      hdirect (ahead_lzStream hts) hts hexpand hstart rfl)

end Sys2Proof.Safety
end

