-- ==== Sys2Proof/Proofs/Bitstream.lean ====
section
/-! PROOFS. The Huffman bitstream as a row of bits, and the table of a blob as the tree that was stored (rules R94, R95,
R147, R157 to R159, R215, R239, R240, R245). -/

namespace Sys2Proof.Machine

open Sys2Proof.Safety

/-! ### Bits of bytes -/

/-- The low `n` bits of a byte, the highest first. -/
def lowBits (n : Nat) (b : Byte) : List Bool := (List.range n).map fun i => b.getLsbD (n - 1 - i)

theorem lowBits_succ (n : Nat) (b : Byte) : lowBits (n + 1) b = b.getLsbD n :: lowBits n b := by
  rw [lowBits, List.range_succ_eq_map, List.map_cons, List.map_map, lowBits]
  congr 1
  refine List.map_congr_left fun i hi => ?_
  have := List.mem_range.1 hi
  show b.getLsbD (n + 1 - 1 - (i + 1)) = _
  congr 1
  omega

/-- The bits of a packed byte are the bits packed and zeros (rules R157, R159). -/
theorem lowBits_flagByte {bits : List Bool} (h : bits.length ≤ 8) :
    lowBits 8 (flagByte bits) = bits ++ List.replicate (8 - bits.length) false := by
  refine List.ext_getElem? fun k => ?_
  by_cases hk : k < 8
  · rw [lowBits, List.getElem?_map, List.getElem?_range hk]
    show some ((flagByte bits).getLsbD (7 - k)) = _
    rw [flagByte_getLsbD bits h k hk, List.getD_eq_getElem?_getD]
    by_cases hlt : k < bits.length
    · rw [List.getElem?_append_left hlt, List.getElem?_eq_getElem hlt]
      rfl
    · rw [List.getElem?_append_right (by omega), List.getElem?_eq_none (by omega), List.getElem?_replicate,
        if_pos (by omega)]
      rfl
  · rw [List.getElem?_eq_none (by rw [lowBits]; simp; omega), List.getElem?_eq_none (by simp; omega)]

/-- The packed bytes of a row of bits hold that row, and padding behind it (rules R157 to R159). -/
theorem packBits_lowBits (bits : List Bool) {acc : List Bool} (hacc : acc.length ≤ 7) :
    ∃ pad, (packBits bits acc).flatMap (lowBits 8) = acc ++ bits ++ pad := by
  induction bits generalizing acc with
  | nil =>
    rw [packBits]
    split_ifs with hnil
    · exact ⟨[], by rw [hnil]; rfl⟩
    · exact ⟨List.replicate (8 - acc.length) false, by
        rw [List.flatMap_singleton, lowBits_flagByte (by omega), List.append_nil]⟩
  | cons b bits ih =>
    rw [packBits]
    split_ifs with hfull
    · obtain ⟨pad, hpad⟩ := ih (acc := []) (Nat.zero_le 7)
      refine ⟨pad, ?_⟩
      have hlen : (acc ++ [b]).length = 8 := by rw [List.length_append, hfull]; rfl
      rw [List.flatMap_cons, hpad, lowBits_flagByte hlen.le, hlen]
      simp
    · obtain ⟨pad, hpad⟩ := ih (acc := acc ++ [b]) (by rw [List.length_append, List.length_singleton]; omega)
      exact ⟨pad, by rw [hpad, List.append_assoc acc]; rfl⟩

/-! ### The bits ahead of the Huffman cursor (rules R145, R147) -/

/-- The next bits of the bitstream are `bits`: the unread bits of the open byte, and the bytes from `hp` to the end of
IN. -/
def BitsAhead (bits : List Bool) (s : State) : Prop :=
  ∃ bs pad, HoldsAt s.inMem s.hf.hp bs ∧ s.seq.inLen = s.hf.hp + bs.length ∧
    lowBits s.hf.rem.toNat s.hf.cur ++ bs.flatMap (lowBits 8) = bits ++ pad

/-- HF.RDBIT delivers the first of them. -/
theorem hfRdBit_ahead {b : Bool} {bits : List Bool} {s : State} (h : BitsAhead (b :: bits) s) :
    ∃ t, hfRdBit s = .ok (b, t) ∧ BitsAhead bits t := by
  obtain ⟨bs, pad, hheld, hlen, hbits⟩ := h
  by_cases hrem : s.hf.rem = 0
  · rw [hrem] at hbits
    cases bs with
    | nil => cases hbits
    | cons c bs =>
      obtain ⟨hc, hrest⟩ := holdsAt_cons hheld
      have hc7 : c.getLsbD 7 = b ∧ lowBits 7 c ++ bs.flatMap (lowBits 8) = bits ++ pad := by
        rw [List.flatMap_cons, lowBits_succ] at hbits
        exact List.cons.inj hbits
      rw [List.length_cons] at hlen
      refine ⟨{ s with hf := { s.hf with hp := s.hf.hp + 1, cur := c, rem := 7 } },
        (hfRdBit_of_fetch hrem (by omega) hc).trans (by rw [hc7.1]), bs, pad, hrest, ?_, hc7.2⟩
      show s.seq.inLen = s.hf.hp + 1 + bs.length
      omega
  · have hpos : s.hf.rem.toNat ≠ 0 := fun h => hrem (BitVec.eq_of_toNat_eq h)
    obtain ⟨r, hr⟩ := Nat.exists_eq_succ_of_ne_zero hpos
    have hsub : (s.hf.rem - 1).toNat = r := by
      have := s.hf.rem.isLt
      rw [BitVec.toNat_sub]
      simp
      omega
    rw [hr, lowBits_succ] at hbits
    obtain ⟨hb, hbits⟩ := List.cons.inj hbits
    refine ⟨{ s with hf := { s.hf with rem := s.hf.rem - 1 } },
      (hfRdBit_of_rem_ne_zero hrem).trans (by rw [hr, Nat.succ_sub_one, hb]), bs, pad, hheld, hlen, ?_⟩
    show lowBits (s.hf.rem - 1).toNat s.hf.cur ++ _ = _
    rw [hsub]
    exact hbits

/-- A row of reads delivers the bits ahead. -/
theorem rdBits_ahead (bits : List Bool) {rest : List Bool} {s : State} (h : BitsAhead (bits ++ rest) s) :
    ∃ t, rdBits bits.length s = .ok (bits, t) ∧ BitsAhead rest t := by
  induction bits generalizing s with
  | nil => exact ⟨s, rfl, h⟩
  | cons b bits ih =>
    obtain ⟨u, hu, h⟩ := hfRdBit_ahead h
    obtain ⟨t, ht, h⟩ := ih h
    exact ⟨t, rdBits_cons.2 ⟨u, hu, ht⟩, h⟩

/-- A cursor that stands in front of packed bits with an empty byte has them ahead. -/
theorem bitsAhead_packBits {bits : List Bool} {s : State} (hrem : s.hf.rem = 0)
    (hheld : HoldsAt s.inMem s.hf.hp (packBits bits []))
    (hlen : s.seq.inLen = s.hf.hp + (packBits bits []).length) : BitsAhead bits s := by
  obtain ⟨pad, hpad⟩ := packBits_lowBits bits (acc := []) (Nat.zero_le 7)
  refine ⟨_, pad, hheld, hlen, ?_⟩
  rw [hrem, hpad]
  rfl

/-! ### A stored tree (rules R94, R95, R239, R240) -/

/-- Every index on the walk along `bits` from `v` is below `n`. -/
def WalkBelow (htab : Memory Half) (n : Nat) (bits : List Bool) (v : Half) : Prop :=
  ∀ k y b, walkTable htab (bits.take k) v = some y → bits[k]? = some b → htIndex y.toNat b < n

/-- A step of a walk below a bound. -/
theorem walkBelow_cons {htab : Memory Half} {n : Nat} {b : Bool} {bits : List Bool} {v w : Half}
    (hfirst : htIndex v.toNat b < n) (hstep : ∀ bs, walkTable htab (b :: bs) v = walkTable htab bs w)
    (hrest : WalkBelow htab n bits w) : WalkBelow htab n (b :: bits) v := by
  intro k y c hy hc
  cases k with
  | zero =>
    cases hy
    cases hc
    exact hfirst
  | succ k =>
    rw [List.take_succ_cons, hstep] at hy
    exact hrest k y c hy hc

/-- A table that agrees with the tree on its entries has the tree's walks, and they stay inside those entries. -/
theorem TreeTable.walk_agrees {htab T : Memory Half} {root : Half} {j : Nat} {es : List Half} {hsrc : List Byte}
    (h : TreeTable htab root j es (symbols hsrc)) (hT : ∀ i, i < 2 * j → Memory.read T i = Memory.read htab i)
    (bits : List Bool) {v x : Half} (hv : v ∈ root :: es) (hw : walkTable htab bits v = some x) :
    walkTable T bits v = some x ∧ WalkBelow T (2 * j) bits v := by
  induction bits generalizing v with
  | nil => exact ⟨hw, fun k y b _ hb => by simp at hb⟩
  | cons b bits ih =>
    rcases List.mem_append.1 (h.all.mem_iff.1 hv) with hsym | hnode
    · have hlt := symbols_lt hsrc v hsym
      have hleaf : v = (v.setWidth 8 : Byte).setWidth 16 := BitVec.eq_of_toNat_eq (by simp; omega)
      rw [hleaf, walkTable, decodeHtWord_leaf] at hw
      cases hw
    · obtain ⟨i, hi, hvi⟩ := List.mem_map.1 hnode
      have hi := List.mem_range.1 hi
      have hsmall := h.small
      obtain rfl : v = nodeAt i := hvi.symm
      have hbit : b.toNat ≤ 1 := Bool.toNat_le b
      have hidx : 2 * i + b.toNat < 2 * j := by omega
      have hentry := h.entries _ (h.length.symm ▸ hidx)
      have hlt : 2 * i + b.toNat < es.length := h.length.symm ▸ hidx
      rw [List.getElem?_eq_getElem hlt] at hentry
      have hstep : ∀ bs, walkTable T (b :: bs) (nodeAt i) = walkTable T bs es[2 * i + b.toNat] := fun bs => by
        rw [walkTable_nodeAt (by omega), hT _ hidx, hentry]
        rfl
      rw [walkTable_nodeAt (by omega), hentry, Option.bind_some] at hw
      obtain ⟨hwalk, hbelow⟩ := ih (List.mem_cons_of_mem _ (List.getElem_mem hlt)) hw
      refine ⟨(hstep bits).trans hwalk, walkBelow_cons ?_ hstep hbelow⟩
      rw [htIndex, nodeAt_toNat (by omega), Config.htIndexBias]
      omega

/-- The root of a tree that has nodes is its last node (rule R238). -/
theorem TreeTable.root_eq {htab : Memory Half} {root : Half} {j : Nat} {es syms : List Half}
    (h : TreeTable htab root j es syms) (hj : 0 < j) : root = nodeAt (j - 1) := by
  have hsmall := h.small
  have hlast : nodeAt (j - 1) ∈ syms ++ nodes j := List.mem_append_right _ (nodeAt_mem_nodes (by omega))
  rcases List.mem_cons.1 (h.all.mem_iff.2 hlast) with heq | hes
  · exact heq.symm
  · obtain ⟨i, hi⟩ := List.mem_iff_getElem?.1 hes
    have hlt := (List.getElem?_eq_some_iff.1 hi).1
    have hbelow := h.below i _ hi
    have hlen := h.length
    rw [nodeAt_toNat (by omega)] at hbelow
    omega

theorem storedEntries_getElem? (htab : Memory Half) {root : Half} {i : Nat} (h : i < htNent root) :
    (storedEntries htab root)[i]? = some (storedEntry htab root i) := by
  rw [storedEntries, List.getElem?_map, List.getElem?_range h]
  rfl

/-- The stored entries agree with the tree on its entries, and there are enough of them. -/
theorem TreeTable.stored {htab : Memory Half} {root : Half} {j : Nat} {es syms : List Half}
    (h : TreeTable htab root j es syms) (m : Memory Half) :
    2 * j ≤ htNent root ∧
      ∀ i, i < 2 * j → Memory.read (Memory.writeAll m 0 (storedEntries htab root)) i = Memory.read htab i := by
  rcases Nat.eq_zero_or_pos j with rfl | hj
  · exact ⟨Nat.zero_le _, fun i hi => absurd hi (Nat.not_lt_zero i)⟩
  · have hsmall := h.small
    have hroot : root.toNat = 0x100 + (j - 1) := by
      rw [h.root_eq hj]
      exact nodeAt_toNat (by omega)
    have hnent : htNent root = 2 * root.toNat := if_neg (by rw [Config.htLeafLimit]; omega)
    refine ⟨by omega, fun i hi => ?_⟩
    have hread := Memory.read_writeAll_inside (storedEntries htab root) m 0 i (by rw [storedEntries_length]; omega)
    rw [Nat.zero_add, storedEntries_getElem? htab (by omega), storedEntry,
      if_pos ((isTreeEntry_iff _ _).2 (by omega))] at hread
    rw [hread, h.entries i (h.length.symm ▸ hi), List.getElem?_eq_getElem (h.length.symm ▸ hi), Option.getD_some]

/-- The root that HF.BUILD leaves is a leaf or one of at most 255 nodes. -/
theorem hfBuild_root_le (hsrc : List Byte) {s : State} (hwf : Memory.wf s.htab = true) :
    (hfBuild hsrc s).hf.htLen.toNat ≤ 510 := by
  by_cases hne : hsrc = []
  · rw [hne, (hfBuild_nil s).2]
    exact Nat.zero_le _
  · obtain ⟨es, -, htree⟩ := hfBuild_treeTable hne hwf
    have := htree.root_toNat_lt
    have := htree.small
    omega

theorem htNent_le {root : Half} (h : root.toNat ≤ 510) : htNent root ≤ 1020 := by
  rw [htNent]
  split_ifs <;> omega

/-! ### The table in the bytes of a blob (rules R68, R93) -/

/-- The bytes of a row of table words. -/
theorem flatMap_le16Bytes_getD (vs : List Half) (post : List Byte) {k : Nat} (h : k < vs.length) :
    (vs.flatMap le16Bytes ++ post).getD (2 * k) 0 = vs[k].extractLsb' 0 8 ∧
      (vs.flatMap le16Bytes ++ post).getD (2 * k + 1) 0 = vs[k].extractLsb' 8 8 := by
  induction vs generalizing k with
  | nil => exact absurd h (Nat.not_lt_zero k)
  | cons v vs ih =>
    cases k with
    | zero => exact ⟨rfl, rfl⟩
    | succ k => exact ih (Nat.lt_of_succ_lt_succ h)

/-- The words behind a header are the root and the stored entries. -/
theorem huffmanBlob_word (alg : Half) (size : Nat) (htab : Memory Half) (root : Half) (code : Byte → List Bool)
    (hsrc : List Byte) {k : Nat} {v : Half} (hv : (root :: storedEntries htab root)[k]? = some v) :
    le16 ((huffmanBlob alg size htab root code hsrc).getD (16 + 2 * k) 0)
      ((huffmanBlob alg size htab root code hsrc).getD (16 + 2 * k + 1) 0) = v := by
  obtain ⟨hlt, rfl⟩ := List.getElem?_eq_some_iff.1 hv
  have hlen := builtHeader_length alg size (htNent root)
  have hbody : huffmanBody htab root code hsrc =
      (root :: storedEntries htab root).flatMap le16Bytes ++ packBits (hsrc.flatMap code) [] := rfl
  obtain ⟨hlow, hhigh⟩ := flatMap_le16Bytes_getD _ (packBits (hsrc.flatMap code) []) hlt
  rw [huffmanBlob_eq, List.getD_append_right _ _ _ _ (by omega), List.getD_append_right _ _ _ _ (by omega), hlen,
    Nat.add_sub_cancel_left, Nat.add_assoc, Nat.add_sub_cancel_left, hbody, hlow, hhigh]
  exact le16_le16Bytes _

theorem huffmanBody_length (htab : Memory Half) (root : Half) (code : Byte → List Bool) (hsrc : List Byte) :
    (huffmanBody htab root code hsrc).length = 2 + 2 * htNent root + (packBits (hsrc.flatMap code) []).length := by
  rw [huffmanBody, List.length_append, List.length_append, flatMap_le16Bytes_length, storedEntries_length]
  rfl

end Sys2Proof.Machine
end

