-- ==== Sys2Proof/Proofs/HuffmanRoundTrip.lean ====
section
/-! PROOFS. HFIRW.DECODE and the Huffman byte source on a bitstream that a table codes, and the round trips of HFIRW and
HFI (rules R205, R216 to R224, R246, R267). -/

namespace Sys2Proof.Machine

open Sys2Proof.Safety

/-! ### The loaded table -/

/-- In the loaded table the code of every byte of the source leads to its leaf, inside the table. -/
def Coded (code : Byte → List Bool) (hsrc : List Byte) (s : State) : Prop :=
  ∀ b ∈ hsrc, walkTable s.htab (code b) s.hf.htLen = some (b.setWidth 16) ∧
    WalkBelow s.htab s.hf.htCnt (code b) s.hf.htLen

/-- HT.LOAD of a blob that holds a root and entries, word by word from offset 16 (rules R93, R215). -/
theorem htLoad_words {bs : List Byte} {root : Half} {entries : List Half} {s : State} (hheld : HoldsAt s.inMem 0 bs)
    (hlen : s.seq.inLen = bs.length) (hdoff : s.doff = 18 + 2 * entries.length) (hin : s.doff ≤ bs.length)
    (hsmall : entries.length ≤ Config.htMaxEntries) (hmsb : root.msb = false)
    (hwords : ∀ k v, (root :: entries)[k]? = some v →
      le16 (bs.getD (16 + 2 * k) 0) (bs.getD (16 + 2 * k + 1) 0) = v) :
    htLoad s = .ok (loadTable root entries s) := by
  have hroot : le16 (bs.getD 16 0) (bs.getD 17 0) = root := hwords 0 root rfl
  have hcount : htCount s.doff = entries.length := by
    rw [hdoff, htCount, Nat.add_sub_cancel_left, Nat.mul_div_cancel_left _ Nat.two_pos, Nat.min_eq_left hsmall]
  have hentries : blobEntries bs entries.length = entries := by
    refine List.ext_getElem? fun k => ?_
    by_cases hk : k < entries.length
    · rw [blobEntries_getElem? _ hk, List.getElem?_eq_getElem hk]
      have hword := hwords (k + 1) entries[k] (List.getElem?_eq_getElem hk)
      rw [show 16 + 2 * (k + 1) = 18 + 2 * k by omega] at hword
      rw [hword]
    · rw [List.getElem?_eq_none (by rw [blobEntries_length]; omega), List.getElem?_eq_none (by omega)]
  have hload := htLoad_holds hheld hlen (by omega) hin (by rw [hroot]; exact hmsb)
  rwa [hroot, hcount, hentries] at hload

/-- The packed codes stand behind the table. -/
theorem huffmanBlob_packed {M : Memory Byte} {alg root : Half} {size : Nat} {m : Memory Half}
    {code : Byte → List Bool} {hsrc : List Byte} (h : HoldsAt M 0 (huffmanBlob alg size m root code hsrc)) :
    HoldsAt M (18 + 2 * htNent root) (packBits (hsrc.flatMap code) []) := by
  have hlen : (builtHeader alg size (htNent root) ++ le16Bytes root ++
      (storedEntries m root).flatMap le16Bytes).length = 18 + 2 * htNent root := by
    rw [List.length_append, List.length_append, builtHeader_length, flatMap_le16Bytes_length, storedEntries_length]
    rfl
  rw [← hlen]
  exact holdsAt_append_right h

/-- DEC.HFIRW and DEC.HFI load the stored tree of a blob and stand in front of its packed codes. -/
theorem htLoad_blob {alg root : Half} {size : Nat} {m : Memory Half} {code : Byte → List Bool} {hsrc : List Byte}
    {j : Nat} {d : State} (halg : huffmanAlg alg = true) (hroot : root.toNat ≤ 510)
    (htree : hsrc ≠ [] → ∃ es, TreeTable m root j es (symbols hsrc))
    (hcode : ∀ b ∈ hsrc, walkTable m (code b) root = some (b.setWidth 16))
    (hd : ReadyToDecode alg size (htNent root) (huffmanBody m root code hsrc) d) :
    htLoad (setHfEn true d) = .ok (loadTable root (storedEntries m root) (setHfEn true d)) ∧
      Coded code hsrc (loadTable root (storedEntries m root) (setHfEn true d)) ∧
      BitsAhead (hsrc.flatMap code) (loadTable root (storedEntries m root) (setHfEn true d)) := by
  have hnent := htNent_le hroot
  have hdoff : d.doff = 18 + 2 * htNent root := hd.doff.trans (if_pos halg)
  have hbody := huffmanBody_length m root code hsrc
  have hlen := hd.inLen
  have hblob := hd.blob
  rw [← huffmanBlob_eq] at hblob
  have hbloblen := huffmanBlob_length alg size m root code hsrc
  have hwords := fun k v => huffmanBlob_word alg size m root code hsrc (k := k) (v := v)
  have hpacked := huffmanBlob_packed hblob
  refine ⟨?load, fun b hb => ?_, bitsAhead_packBits rfl ?_ ?_⟩
  case load =>
    generalize huffmanBlob alg size m root code hsrc = bs at *
    have hent := storedEntries_length m root
    exact htLoad_words (s := setHfEn true d) hblob (hlen.trans hbloblen.symm) (by rw [hent]; exact hdoff)
      (by show d.doff ≤ _; omega) (by rw [hent, Config.htMaxEntries]; omega)
      (BitVec.msb_eq_false_iff_two_mul_lt.2 (by omega)) hwords
  · obtain ⟨es, htree⟩ := htree (List.ne_nil_of_mem hb)
    obtain ⟨hle, hagrees⟩ := htree.stored d.htab
    obtain ⟨hwalk, hbelow⟩ := htree.walk_agrees hagrees (code b) List.mem_cons_self (hcode b hb)
    refine ⟨hwalk, fun k y c hy hc => (hbelow k y c hy hc).trans_le ?_⟩
    show 2 * j ≤ (storedEntries m root).length
    rw [storedEntries_length]
    exact hle
  · show HoldsAt d.inMem d.doff _
    rw [hdoff]
    exact hpacked
  · show d.seq.inLen = d.doff + _
    omega

/-! ### HFIRW.DECODE (rules R216, R221) -/

/-- Only the Huffman cursor, `node` and the phase differ. -/
def Descended (s t : State) : Prop :=
  t = { s with
    hf := { s.hf with hp := t.hf.hp, cur := t.hf.cur, rem := t.hf.rem, node := t.hf.node }
    seq := { s.seq with phase := t.seq.phase } }

theorem Descended.trans {s t u : State} (h : Descended s t) (h' : Descended t u) : Descended s u := by
  unfold Descended at *
  rw [h', h]

theorem Descended.expanding {x pre : List Byte} {s t : State} (h : Descended s t) (hs : Expanding x pre s) :
    Expanding x pre t := by
  obtain ⟨⟨hhost, hbusy⟩, hdsize, hlen, hwindow, hout⟩ := hs
  unfold Descended at h
  rw [h]
  exact ⟨⟨hhost, hbusy⟩, hdsize, hlen, (windowHolds_congr rfl rfl rfl rfl).2 hwindow, hout⟩

theorem Descended.coded {code : Byte → List Bool} {hsrc : List Byte} {s t : State} (h : Descended s t)
    (hs : Coded code hsrc s) : Coded code hsrc t := by
  unfold Descended at h
  rw [h]
  exact hs

/-- A walk that leads to a leaf does not begin at a negative table word. -/
theorem msb_of_walkTable {htab : Memory Half} {bits : List Bool} {v : Half} {b : Byte}
    (h : walkTable htab bits v = some (b.setWidth 16)) : v.msb = false := by
  obtain ⟨c, rfl⟩ | ⟨n, -, rfl⟩ | ⟨x, rfl⟩ := htWord_cases v
  · exact leaf_msb c
  · exact node_msb n
  · cases bits with
    | nil =>
      have hsame : htInvalidWord x = b.setWidth 16 := Option.some.inj h
      rw [hsame]
      exact leaf_msb b
    | cons c bits =>
      rw [walkTable, decodeHtWord_htInvalidWord] at h
      cases h

/-- The table words from `v` on, one a step, read the bits ahead and emit the byte they lead to. -/
theorem htWords_end {bits rest : List Bool} {b : Byte} {x : List Byte} {v : Half} {s : State} (hwait : Waiting s)
    (hwalk : walkTable s.htab bits v = some (b.setWidth 16)) (hbelow : WalkBelow s.htab s.hf.htCnt bits v)
    (hahead : BitsAhead (bits ++ rest) s)
    (hend : ∀ u, Descended s u → BitsAhead rest u → EndsDoneWith (setPhase .hfirwLoop (emit b u)) x) :
    ∃ t, exec (decodeHtWord v) (setNode v s) = .next t ∧ EndsDoneWith t x := by
  induction bits generalizing v s with
  | nil =>
    cases hwalk
    rw [decodeHtWord_leaf]
    exact ⟨_, rfl, hend (setNode (b.setWidth 16) s) rfl hahead⟩
  | cons c bits ih =>
    obtain ⟨d, rfl⟩ | ⟨n, hn, rfl⟩ | ⟨y, rfl⟩ := htWord_cases v
    case inl =>
      rw [walkTable, decodeHtWord_leaf] at hwalk
      cases hwalk
    case inr.inr =>
      rw [walkTable, decodeHtWord_htInvalidWord] at hwalk
      cases hwalk
    case inr.inl =>
      have hfirst : htIndex (n.setWidth 16).toNat c < s.hf.htCnt := hbelow 0 _ c rfl rfl
      have hnode : (n.setWidth 16).toNat = n.toNat := by
        have := n.isLt
        rw [BitVec.toNat_setWidth]
        omega
      rw [hnode] at hfirst
      rw [walkTable_node hn] at hwalk
      obtain ⟨w, hw, hwalk⟩ := Option.bind_eq_some_iff.1 hwalk
      have hbelow' : WalkBelow s.htab s.hf.htCnt bits w := fun k y d hy hd => by
        refine hbelow (k + 1) y d ?_ hd
        rw [List.take_succ_cons, walkTable_node hn, hw]
        exact hy
      obtain ⟨u, hbit, hahead⟩ := hfRdBit_ahead hahead
      have hframe := hfRdBit_frame hbit
      have hmoved : Descended s (setPhase .hfirwWord u) := by
        unfold Descended
        rw [hframe]
        rfl
      have hstep : htStep n (setNode (n.setWidth 16) s) = .ok (setNode w (setNode (n.setWidth 16) u)) :=
        htStep_ok.2 ⟨c, _, w, hfRdBit_setNode_ok hbit, hfirst, hw, msb_of_walkTable hwalk, rfl⟩
      rw [setNode_setNode] at hstep
      rw [decodeHtWord_node hn, exec_htNode, hstep, ok_bind, outcomeOf_ok]
      have hhtab : (setPhase .hfirwWord u).htab = s.htab := by rw [hmoved]
      have hcnt : (setPhase .hfirwWord u).hf.htCnt = s.hf.htCnt := by rw [hmoved]
      have hwait' : Waiting (setPhase .hfirwWord u) := by
        rw [hmoved]
        exact hwait
      obtain ⟨t, hexec, hdone⟩ := ih (s := setPhase .hfirwWord u) (v := w) hwait' (by rw [hhtab]; exact hwalk)
        (by rw [hhtab, hcnt]; exact hbelow') hahead fun y hy => hend y (hmoved.trans hy)
      exact ⟨_, rfl, endsDoneWith_of_seqStep (s := setPhase .hfirwWord (setNode w u)) hwait'
        ((seqStep_hfirwWord rfl).trans hexec) hdone⟩

/-- HFIRW.DECODE on a bitstream that codes the rest of `x` ends DONE with `x`. -/
theorem hfirwLoop_ends {code : Byte → List Bool} {x : List Byte} (vs : List Byte) {pre : List Byte} {s : State}
    (hx : pre ++ vs = x) (hcoded : Coded code x s) (hahead : BitsAhead (vs.flatMap code) s) (h : Expanding x pre s)
    (hphase : s.seq.phase = .hfirwLoop) : EndsDoneWith s x := by
  induction vs generalizing pre s with
  | nil =>
    rw [List.append_nil] at hx
    subst hx
    have hend : s.lz.outLen = s.dsize := h.outLen.trans h.dsize.symm
    exact endsDoneWith_of_seqStep h.waiting (seqStep_loopEnd (.inr hphase) hend)
      (endsDoneWith_of_done h.waiting.1 rfl h.outLen h.out)
  | cons v vs ih =>
    have hgo : s.lz.outLen ≠ s.dsize := by
      rw [h.outLen, h.dsize, ← hx, List.length_append, List.length_cons]
      omega
    obtain ⟨hwalk, hbelow⟩ := hcoded v (by rw [← hx]; exact List.mem_append_right _ List.mem_cons_self)
    rw [List.flatMap_cons] at hahead
    obtain ⟨t, hexec, hdone⟩ := htWords_end (x := x) h.waiting hwalk hbelow hahead fun u hu hrest => by
      obtain ⟨hwait, hdsize, hlen, hwindow, hout⟩ := (hu.expanding h).emitAll [v]
      exact ih (s := setPhase .hfirwLoop (emit v u)) (by rw [List.append_assoc]; exact hx) (hu.coded hcoded) hrest
        ⟨hwait, hdsize, hlen, (windowHolds_congr rfl rfl rfl rfl).2 hwindow, hout⟩ rfl
    exact endsDoneWith_of_seqStep h.waiting ((seqStep_hfirwLoop hphase hgo).trans hexec) hdone

/-! ### The Huffman byte source (rules R149, R219) -/

/-- The Huffman byte source stands in front of the codes of the bytes of a plain stream. -/
structure HuffmanAt (code : Byte → List Bool) (hsrc : List Byte) (p : StreamPos) (s : State) : Prop where
  huffman : s.seq.hfEn = true
  coded : Coded code hsrc s
  bytes : ∀ b ∈ p.bytes, b ∈ hsrc
  ahead : BitsAhead (p.bytes.flatMap code) s
  cur : s.lz.cur = p.cur
  rem : s.lz.rem = p.rem

/-- The decoded bytes serve a plain stream. -/
theorem servesStream_huffman (code : Byte → List Bool) (hsrc : List Byte) : ServesStream (HuffmanAt code hsrc) where
  byte := by
    intro p s v q hR hp
    obtain ⟨hen, hcoded, hmem, hahead, hcur, hrem⟩ := hR
    unfold StreamPos.rdByte at hp
    split at hp
    · cases hp
    · rename_i b bs hbytes
      cases hp
      rw [hbytes] at hmem hahead
      obtain ⟨hwalk, hbelow⟩ := hcoded v (hmem v List.mem_cons_self)
      obtain ⟨w, hread, hahead⟩ := rdBits_ahead (code v) hahead
      obtain ⟨hframe, -⟩ := rdBits_frame hread
      have hbyte : rdByte s = .ok (v, setNode (v.setWidth 16) w) := by
        rw [rdByte, if_pos hen, hfRdByte_walk hread hbelow hwalk (leaf_msb v), hfDescend_leaf]
      have hcoded' : Coded code hsrc w := by
        rw [hframe]
        exact hcoded
      have hseq : w.seq = s.seq := by rw [hframe]
      have hlz : w.lz = s.lz := by rw [hframe]
      exact ⟨_, hbyte, (congrArg Sequencer.hfEn hseq).trans hen, hcoded',
        fun b hb => hmem b (List.mem_cons_of_mem _ hb), hahead, (congrArg LzDecoder.cur hlz).trans hcur,
        (congrArg LzDecoder.rem hlz).trans hrem⟩
  cursor hR := ⟨hR.cur, hR.rem⟩
  move _ _ hR := ⟨hR.huffman, hR.coded, hR.bytes, hR.ahead, rfl, rfl⟩
  temps _ hR := ⟨hR.huffman, hR.coded, hR.bytes, hR.ahead, hR.cur, hR.rem⟩

/-- EMIT does not touch the bitstream. -/
theorem untouchedByEmit_huffman (code : Byte → List Bool) (hsrc : List Byte) :
    UntouchedByEmit (HuffmanAt code hsrc) := by
  intro p s bs h
  obtain ⟨hen, hcoded, hmem, hahead, hcur, hrem⟩ := h
  rw [emitAll_eq]
  exact ⟨hen, hcoded, hmem, hahead, hcur, hrem⟩

/-- The table that HF.BUILD leaves for a source is a tree. -/
theorem hfBuild_isTree {hsrc : List Byte} {s : State} (hwf : Memory.wf s.htab = true) (hne : hsrc ≠ []) :
    ∃ es, TreeTable (hfBuild hsrc s).htab (hfBuild hsrc s).hf.htLen ((symbols hsrc).length - 1) es (symbols hsrc) := by
  obtain ⟨es, -, htree⟩ := hfBuild_treeTable hne hwf
  exact ⟨es, htree⟩

end Sys2Proof.Machine

namespace Sys2Proof.Safety

open Sys2Proof.Machine

/-- Settles O58: HFIRW.DECODE walks the codes that ENC.HFIRW packed. -/
theorem hfirwRoundTrip : Obligations.HfirwRoundTrip := by
  intro x hx s hs
  obtain ⟨c, hc, hends⟩ := compress_reaches (i := .encHfirw) rfl (by decide) rfl hx hs
  obtain ⟨code, t, hexec, hcr, hhtab, hroot, hcode, hout, -, -, -, -, -, -, -, -, -, -, hhost, -⟩ :=
    encHfirwWritesTheBlob c x hc.srcLen hc.inLen hx hc.source hc.htab
  have htree := fun hne => hfBuild_isTree (hsrc := x) hc.htab hne
  have hle := hfBuild_root_le x hc.htab
  rw [← hhtab, ← hroot] at htree
  rw [← hroot] at hle
  refine ⟨huffmanBlob 2 x.length t.htab t.hf.htLen code x, ?compressed, fun u hu => ?decompressed⟩
  case compressed =>
    exact hends t _ hexec (endsDoneWith_of_done (hhost.trans hc.waiting.1) (by rw [hcr]) (by rw [hcr]) hout)
  case decompressed =>
    rw [huffmanBlob_eq] at hu
    have hbody := huffmanBody_length t.htab t.hf.htLen code x
    have hdoff : builtDoff 2 (htNent t.hf.htLen) = 18 + 2 * htNent t.hf.htLen := rfl
    obtain ⟨d, hd, hends⟩ := decompress_reaches (i := .decHfirw) rfl rfl hx (htNent_le hle) (by omega) hu
    obtain ⟨hload, hcoded, hahead⟩ := htLoad_blob rfl hle htree hcode hd
    have hexec := exec_decHfirw d
    rw [hload, ok_bind, outcomeOf_ok] at hexec
    obtain ⟨hwait, hdsize, hlen, hwindow, hheld⟩ := hd.expanding
    exact hends _ _ hexec (hfirwLoop_ends x rfl hcoded hahead
      ⟨hwait, hdsize, hlen, (windowHolds_congr rfl rfl rfl rfl).2 hwindow, hheld⟩ rfl)

/-- Settles O59: LZ.DECODE expands the greedy tokens whose stream ENC.HFI packed, byte by byte out of the bitstream. -/
theorem hfiRoundTrip : Obligations.HfiRoundTrip := by
  intro x hx s hs
  obtain ⟨c, hc, hends⟩ := compress_reaches (i := .encHfi) rfl (by decide) rfl hx hs
  obtain ⟨ts, code, t, hexec, hcr, -, hts, hexpand, hhtab, hroot, -, -, hcode, hout, -, -, -, -, -, -, -, -, -, -, hhost,
    -⟩ := encHfiWritesTheBlob c x hc.srcLen hc.inLen hx hc.source hc.htab hc.wAcc hc.wCnt hc.pfifo
  have htree := fun hne => hfBuild_isTree (hsrc := lzStream ts) hc.htab hne
  have hle := hfBuild_root_le (lzStream ts) hc.htab
  rw [← hhtab, ← hroot] at htree
  rw [← hroot] at hle
  refine ⟨huffmanBlob 4 x.length t.htab t.hf.htLen code (lzStream ts), ?compressed, fun u hu => ?decompressed⟩
  case compressed =>
    exact hends t _ hexec (endsDoneWith_of_done (hhost.trans hc.waiting.1) (by rw [hcr]) (by rw [hcr]) hout)
  case decompressed =>
    rw [huffmanBlob_eq] at hu
    have hbody := huffmanBody_length t.htab t.hf.htLen code (lzStream ts)
    have hdoff : builtDoff 4 (htNent t.hf.htLen) = 18 + 2 * htNent t.hf.htLen := rfl
    obtain ⟨d, hd, hends⟩ := decompress_reaches (i := .decHfi) rfl rfl hx (htNent_le hle) (by omega) hu
    obtain ⟨hload, hcoded, hahead⟩ := htLoad_blob rfl hle htree hcode hd
    have hexec := exec_decHfi d
    rw [hload, ok_bind, outcomeOf_ok] at hexec
    obtain ⟨hwait, hdsize, hlen, hwindow, hheld⟩ := hd.expanding
    refine hends _ _ hexec (lzLoop_ends (servesStream_huffman code (lzStream ts)) (untouchedByEmit_huffman _ _) ts
      (p := StreamPos.start (lzStream ts)) ⟨rfl, hcoded, fun b hb => hb, hahead, ?_, ?_⟩ (ahead_lzStream hts) hts hexpand
      ⟨hwait, hdsize, hlen, (windowHolds_congr rfl rfl rfl rfl).2 hwindow, hheld⟩ rfl)
    · exact congrArg LzDecoder.cur hd.lz
    · exact congrArg LzDecoder.rem hd.lz

end Sys2Proof.Safety
end
